-- ==== Sys2Proof/Word.lean ====
section
/-!
DEFINITION. The two bit-vector types of the DCE: a byte and a 32-bit word (spec 00_scope.md R7; the widths of R6).
The DCE's numbers (samples, coefficients, sums) are unbounded integers (R8); they live in `Machine/Arith.lean`.
-/

namespace Sys2Proof

/-- A byte (R7): an LMEM cell, a sample, a symbol, a quantization-table entry. -/
abbrev Byte := BitVec 8

/-- A 32-bit word (R7): a command word, a host word, a full-width register. -/
abbrev Word := BitVec 32

end Sys2Proof
end

