-- ==== Sys2Proof/Machine/Arith.lean ====
section
/-!
DEFINITION. The exact integer arithmetic of 00_scope.md R8-R11. Every operand is a mathematical integer; a result is narrowed
only where a rule stores it. Lean's `/` and `%` on `Int` with a positive divisor are the floor division and the remainder of R9.
-/

namespace Sys2Proof

/-- `rnd(n, d)` of R10: n/d to the nearest integer, halves toward +∞. -/
def rnd (n d : Int) : Int := (2 * n + d) / (2 * d)

/-- `clamp(v, lo, hi)` of R11. -/
def clampInt (v lo hi : Int) : Int := if v < lo then lo else if v > hi then hi else v

/-- `sat32(v)` of R11. -/
def sat32 (v : Int) : Int := clampInt v (-2 ^ 31) (2 ^ 31 - 1)

/-- `ceil8(v)` of R11. -/
def ceil8 (v : Nat) : Nat := 8 * ((v + 7) / 8)

/-- `ceil2(v)` of R11. -/
def ceil2 (v : Nat) : Nat := (v + 1) / 2

/-- `two_8(v)` of R8: the 8-bit two's-complement pattern of v. -/
def two8 (v : Int) : Byte := BitVec.ofInt 8 v

/-- `two_32(v)` of R8. -/
def two32 (v : Int) : Word := BitVec.ofInt 32 v

/-- `sext_8(b)` of R8, read as an integer. -/
def sext8 (b : Byte) : Int := b.toInt

end Sys2Proof
end

