-- ==== Sys2Proof/Config.lean ====
section
/-!
DEFINITION. What one build of the DCE fixes: the open parameter `LMEM_SIZE` (00_scope.md R5, 92_eei_decisions.md D3) and
the constant ID register (R35). Every other parameter is fixed by R6 and stands in the types of `State`.
`LMEM_INIT`, the other open parameter (R552), is no constant: every LMEM content is a value of `State.mem`.
-/

namespace Sys2Proof.Config

/-- The build parameters of one DCE. `lmemLog2` is log2 of LMEM_SIZE less 12, so that exactly the sizes R5 allows, the powers
of two from 2^12 to 2^24, can be written. It is held in `State` (log entry 1), so that a claim about every state is a claim
about every LMEM_SIZE. -/
structure Params where
  lmemLog2 : Fin 13
  deriving DecidableEq, Repr

/-- LMEM_SIZE in bytes (R5). -/
def Params.lmemSize (p : Params) : Nat := 2 ^ (12 + p.lmemLog2.val)

/-- The reference build of R5: LMEM_SIZE = 65536 = 2^(12+4). -/
def Params.reference : Params := ⟨4⟩

/-- The ID register's constant value (R35): "DC", "E", version 1. -/
def idValue : Word := 0x44434501

end Sys2Proof.Config
end

