-- ==== Sys2Proof/Syntax.lean ====
section
/-!
DEFINITION. The commands of the DCE (30_encoding.md R159, one constructor per row of the opcode map) with their operands
(R152-R157), and the names of the registers (10_state.md R32).
-/

namespace Sys2Proof

/-- A plane-descriptor slot number, PD0 to PD7 (R155). -/
abbrev Slot := Fin 8

/-- PAD's mode bit m (R155, R209): `rep` is m = 0, edge replication; `c128` is m = 1, the constant 128. -/
inductive PadMode where
  | rep
  | c128
  deriving DecidableEq, Repr

/-- The table field t of format QM (R156): `luma` is QT[0], `chroma` is QT[1]. -/
inductive QTable where
  | luma
  | chroma
  deriving DecidableEq, Repr

/-- The mode field md of format QM (R156): 0 fixed, 1 adaptive continuous, 2 adaptive indexed. The fourth value is no mode:
md = 3 is an illegal encoding (R161). -/
inductive QMode where
  | fixed
  | cont
  | idx
  deriving DecidableEq, Repr

/-- The 38 commands (R159). `t` is a 24-bit word index (R153), `r` an 8-bit register number and `imm16` an unsigned half
(R154), `a`, `b`, `c` plane slots (R155). -/
inductive Instr where
  | nop
  | halt
  | irq
  | jmp (t : BitVec 24)
  | djnz (t : BitVec 24)
  | bnend (t : BitVec 24)
  | setl (r : BitVec 8) (imm16 : BitVec 16)
  | seth (r : BitVec 8) (imm16 : BitVec 16)
  | cscf (a b c : Slot)
  | csci (a b c : Slot)
  | csub (a b : Slot)
  | cups (a b : Slot)
  | pad (a : Slot) (m : PadMode)
  | ldb (a : Slot)
  | stb (a : Slot)
  | bnxt (a : Slot)
  | brst
  | fdct
  | idct
  | var
  | qnt (t : QTable) (md : QMode)
  | dqnt (t : QTable) (md : QMode)
  | serd
  | sers
  | dserd
  | dsers
  | putq
  | getq
  | putidx
  | getidx
  | ialn
  | waln
  | raln
  | hclr
  | hfreq
  | hbuild
  | henc
  | hdec
  deriving DecidableEq, Repr

/-- The registers of R32, by name. -/
inductive Reg where
  | id
  | ctrl
  | status
  | irqStatus
  | irqEnable
  | errCode
  | errCpc
  | errCmd
  | cpc
  | flags
  | lc
  | cfg
  | rgbBase
  | bcur
  | pdBase (n : Slot)
  | pdDim (n : Slot)
  | rdPtr
  | rdLim
  | rdBit
  | wrPtr
  | wrLim
  | wrBit
  | ixPtr
  | ixLim
  | ixBit
  | quality
  | qbase
  | vtLo
  | vtHi
  | aqf
  | candN
  | cand01
  | cand23
  | qeff
  | qidx
  | varn
  | hcount
  | hroot
  | hnleaf
  | hbits
  deriving DecidableEq, Repr

end Sys2Proof
end

