-- ==== Sys2Proof/Machine/RegMap.lean ====
section
/-!
DEFINITION. The register map of 10_state.md R32: the number of each register (its host offset divided by 4), the register a
number names, its implemented bits, its host access class (R31), and whether SETL and SETH may write it.
-/

namespace Sys2Proof

/-- The register number of R32's table: the host offset divided by 4. -/
def Reg.num : Reg → Nat
  | .id => 0x00
  | .ctrl => 0x01
  | .status => 0x02
  | .irqStatus => 0x03
  | .irqEnable => 0x04
  | .errCode => 0x05
  | .errCpc => 0x06
  | .errCmd => 0x07
  | .cpc => 0x08
  | .flags => 0x09
  | .lc => 0x0A
  | .cfg => 0x0B
  | .rgbBase => 0x0C
  | .bcur => 0x0D
  | .pdBase n => 0x10 + 2 * n.val
  | .pdDim n => 0x11 + 2 * n.val
  | .rdPtr => 0x20
  | .rdLim => 0x21
  | .rdBit => 0x22
  | .wrPtr => 0x23
  | .wrLim => 0x24
  | .wrBit => 0x25
  | .ixPtr => 0x26
  | .ixLim => 0x27
  | .ixBit => 0x28
  | .quality => 0x29
  | .qbase => 0x2A
  | .vtLo => 0x2B
  | .vtHi => 0x2C
  | .aqf => 0x2D
  | .candN => 0x2E
  | .cand01 => 0x2F
  | .cand23 => 0x30
  | .qeff => 0x31
  | .qidx => 0x32
  | .varn => 0x33
  | .hcount => 0x34
  | .hroot => 0x35
  | .hnleaf => 0x36
  | .hbits => 0x37

/-- Every register of R32, in the order of their numbers. -/
def Reg.all : List Reg :=
  [.id, .ctrl, .status, .irqStatus, .irqEnable, .errCode, .errCpc, .errCmd, .cpc, .flags, .lc, .cfg, .rgbBase, .bcur]
  ++ (List.finRange 8).flatMap (fun n => [.pdBase n, .pdDim n])
  ++ [.rdPtr, .rdLim, .rdBit, .wrPtr, .wrLim, .wrBit, .ixPtr, .ixLim, .ixBit]
  ++ [.quality, .qbase, .vtLo, .vtHi, .aqf, .candN, .cand01, .cand23, .qeff, .qidx, .varn]
  ++ [.hcount, .hroot, .hnleaf, .hbits]

/-- The register a number names, or none where the number is reserved (R32: 0x0E, 0x0F, 0x38-0xFF). -/
def Reg.ofNum? (n : Nat) : Option Reg := Reg.all.find? (fun r => r.num == n)

/-- R32's SETx column: `cmd` registers may be written by SETL and SETH; naming another one raises E_REGNUM (R31, R161.4). -/
def Reg.isCmd : Reg → Bool
  | .id | .ctrl | .status | .irqStatus | .irqEnable | .errCode | .errCpc | .errCmd | .cpc | .flags => false
  | .varn | .hroot | .hnleaf | .hbits => false
  | .lc | .cfg | .rgbBase | .bcur | .pdBase _ | .pdDim _ => true
  | .rdPtr | .rdLim | .rdBit | .wrPtr | .wrLim | .wrBit | .ixPtr | .ixLim | .ixBit => true
  | .quality | .qbase | .vtLo | .vtHi | .aqf | .candN | .cand01 | .cand23 | .qeff | .qidx | .hcount => true

/-- The `cmd` register an 8-bit operand r names, if any (R154, R457). -/
def Reg.cmd? (r : BitVec 8) : Option Reg := (Reg.ofNum? r.toNat).filter Reg.isCmd

/-- R32's implemented mask: the bits a register stores (R30). CTRL stores none; its mask lists the bits that act (R36). -/
def Reg.mask : Reg → Word
  | .id => 0xFFFFFFFF
  | .ctrl | .status | .irqStatus | .irqEnable => 0x00000007
  | .errCode => 0x000000FF
  | .errCpc | .errCmd | .cpc => 0xFFFFFFFF
  | .flags => 0x00000003
  | .lc => 0xFFFFFFFF
  | .cfg => 0x00000001
  | .rgbBase | .bcur | .pdBase _ | .pdDim _ => 0xFFFFFFFF
  | .rdPtr | .rdLim | .wrPtr | .wrLim | .ixPtr | .ixLim => 0xFFFFFFFF
  | .rdBit | .wrBit | .ixBit => 0x00000007
  | .quality | .qbase => 0x000000FF
  | .vtLo | .vtHi => 0x0000FFFF
  | .aqf => 0x00FFFFFF
  | .candN => 0x00000007
  | .cand01 | .cand23 => 0xFFFFFFFF
  | .qeff => 0x000000FF
  | .qidx => 0x00000003
  | .varn | .hcount => 0xFFFFFFFF
  | .hroot | .hnleaf => 0x000001FF
  | .hbits => 0xFFFFFFFF

/-- The host access classes of R31. STATUS is RO but for BUSYACC, which is W1C (R39); its class here is `w1c`, and the one
bit a 1 clears is said where the write is modelled. -/
inductive Access where
  | rw
  | ro
  | w1c
  | wo
  deriving DecidableEq, Repr

/-- R32's host column. -/
def Reg.access : Reg → Access
  | .id => .ro
  | .ctrl => .wo
  | .status => .w1c
  | .irqStatus => .w1c
  | .errCode | .errCpc | .errCmd => .ro
  | .varn | .hroot | .hnleaf | .hbits => .ro
  | .irqEnable | .cpc | .flags | .lc | .cfg | .rgbBase | .bcur | .pdBase _ | .pdDim _ => .rw
  | .rdPtr | .rdLim | .rdBit | .wrPtr | .wrLim | .wrBit | .ixPtr | .ixLim | .ixBit => .rw
  | .quality | .qbase | .vtLo | .vtHi | .aqf | .candN | .cand01 | .cand23 | .qeff | .qidx | .hcount => .rw

end Sys2Proof
end

