-- ==== Sys2Proof/WellFormed.lean ====
section
/-!
DEFINITION. Which commands are well formed: the last of the checks of 30_encoding.md R161 that a term of `Instr` can still
fail. Reserved opcodes, reserved bits and md = 3 cannot be written as a term: the decoder refuses their words. A SETL or
SETH that names a register not marked `cmd` is a term, and is ill formed (R161.4: E_REGNUM).
-/

namespace Sys2Proof

/-- R161.4: a format S command names a `cmd` register. -/
def Instr.wellFormed : Instr → Bool
  | .setl r _ => (Reg.cmd? r).isSome
  | .seth r _ => (Reg.cmd? r).isSome
  | .nop | .halt | .irq | .jmp _ | .djnz _ | .bnend _ => true
  | .cscf _ _ _ | .csci _ _ _ | .csub _ _ | .cups _ _ | .pad _ _ => true
  | .ldb _ | .stb _ | .bnxt _ | .brst | .fdct | .idct | .var => true
  | .qnt _ _ | .dqnt _ _ => true
  | .serd | .sers | .dserd | .dsers | .putq | .getq | .putidx | .getidx | .ialn | .waln | .raln => true
  | .hclr | .hfreq | .hbuild | .henc | .hdec => true

end Sys2Proof
end

