-- ==== Sys2Proof/Decode.lean ====
section
/-!
DEFINITION. The decoder (30_encoding.md R150-R162), total on every word and every list of bytes, rejecting by name, and after
it the encoder, written from the same format tables (R152-R156).
-/

namespace Sys2Proof

/-- Why a word or a list of bytes is no command. The first three are the three causes of E_ILLEGAL, in R161's order; the last
is a list of fewer than four bytes (R150: every command is one 32-bit word). -/
inductive DecodeError where
  | reservedOpcode
  | reservedBits
  | reservedMode
  | truncated
  deriving DecidableEq, Repr

/-- `v[hi:lo]` of R7 with `len = hi - lo + 1`. -/
def Word.field (w : Word) (lo len : Nat) : BitVec len := w.extractLsb' lo len

/-- Format N (R152): bits [25:0] are reserved. -/
def decodeN (w : Word) (i : Instr) : Except DecodeError Instr :=
  if Word.field w 0 26 = 0 then .ok i else .error .reservedBits

/-- Format J (R153): bits [25:24] are reserved, t is bits [23:0]. -/
def decodeJ (w : Word) (mk : BitVec 24 → Instr) : Except DecodeError Instr :=
  if Word.field w 24 2 = 0 then .ok (mk (Word.field w 0 24)) else .error .reservedBits

/-- Format S (R154): r is bits [25:18], bits [17:16] are reserved, imm16 is bits [15:0]. -/
def decodeS (w : Word) (mk : BitVec 8 → BitVec 16 → Instr) : Except DecodeError Instr :=
  if Word.field w 16 2 = 0 then .ok (mk (Word.field w 18 8) (Word.field w 0 16)) else .error .reservedBits

/-- A plane slot field of R155. -/
def Word.slot (w : Word) (lo : Nat) : Slot := (Word.field w lo 3).toFin

/-- Format P3 (R155): a, b, c are bits [25:23], [22:20], [19:17]; bits [16:0] are reserved. -/
def decodeP3 (w : Word) (mk : Slot → Slot → Slot → Instr) : Except DecodeError Instr :=
  if Word.field w 0 17 = 0 then .ok (mk (Word.slot w 23) (Word.slot w 20) (Word.slot w 17)) else .error .reservedBits

/-- Format P2 (R155): a, b; bits [19:0] are reserved. -/
def decodeP2 (w : Word) (mk : Slot → Slot → Instr) : Except DecodeError Instr :=
  if Word.field w 0 20 = 0 then .ok (mk (Word.slot w 23) (Word.slot w 20)) else .error .reservedBits

/-- Format P1 (R155): a; bits [22:0] are reserved. -/
def decodeP1 (w : Word) (mk : Slot → Instr) : Except DecodeError Instr :=
  if Word.field w 0 23 = 0 then .ok (mk (Word.slot w 23)) else .error .reservedBits

/-- Format P1M (R155): a and the PAD mode m = bit 22; bits [21:0] are reserved. -/
def decodeP1M (w : Word) (mk : Slot → PadMode → Instr) : Except DecodeError Instr :=
  if Word.field w 0 22 = 0 then
    .ok (mk (Word.slot w 23) (if Word.field w 22 1 = 0 then .rep else .c128))
  else .error .reservedBits

/-- The md field (R156): 3 is reserved. -/
def QMode.ofField (md : BitVec 2) : Option QMode :=
  if md = 0 then some .fixed else if md = 1 then some .cont else if md = 2 then some .idx else none

/-- Format QM (R156): t is bit 25, md is bits [24:23], bits [22:0] are reserved; the reserved bits are checked before md
(R161). -/
def decodeQM (w : Word) (mk : QTable → QMode → Instr) : Except DecodeError Instr :=
  if Word.field w 0 23 = 0 then
    match QMode.ofField (Word.field w 23 2) with
    | some md => .ok (mk (if Word.field w 25 1 = 0 then .luma else .chroma) md)
    | none => .error .reservedMode
  else .error .reservedBits

/-- The decode function (R160) over the opcode map (R159). A register number that is not `cmd` is left to the command itself
(R457, R458), which checks it before any other effect, as R161.4 orders it. -/
def decode (w : Word) : Except DecodeError Instr :=
  match (Word.field w 26 6).toNat with
  | 0x01 => decodeN w .nop
  | 0x02 => decodeN w .halt
  | 0x03 => decodeN w .irq
  | 0x04 => decodeJ w .jmp
  | 0x05 => decodeJ w .djnz
  | 0x06 => decodeJ w .bnend
  | 0x07 => decodeS w .setl
  | 0x08 => decodeS w .seth
  | 0x09 => decodeP3 w .cscf
  | 0x0A => decodeP3 w .csci
  | 0x0B => decodeP2 w .csub
  | 0x0C => decodeP2 w .cups
  | 0x0D => decodeP1M w .pad
  | 0x10 => decodeP1 w .ldb
  | 0x11 => decodeP1 w .stb
  | 0x12 => decodeP1 w .bnxt
  | 0x13 => decodeN w .brst
  | 0x14 => decodeN w .fdct
  | 0x15 => decodeN w .idct
  | 0x16 => decodeN w .var
  | 0x18 => decodeQM w .qnt
  | 0x19 => decodeQM w .dqnt
  | 0x1C => decodeN w .serd
  | 0x1D => decodeN w .sers
  | 0x1E => decodeN w .dserd
  | 0x1F => decodeN w .dsers
  | 0x20 => decodeN w .putq
  | 0x21 => decodeN w .getq
  | 0x22 => decodeN w .putidx
  | 0x23 => decodeN w .getidx
  | 0x24 => decodeN w .ialn
  | 0x25 => decodeN w .waln
  | 0x26 => decodeN w .raln
  | 0x28 => decodeN w .hclr
  | 0x29 => decodeN w .hfreq
  | 0x2A => decodeN w .hbuild
  | 0x2B => decodeN w .henc
  | 0x2C => decodeN w .hdec
  | _ => .error .reservedOpcode

/-- The little-endian word of four bytes, the first at the lowest address (R102, R106). -/
def wordOfBytes (b0 b1 b2 b3 : Byte) : Word := b3 ++ b2 ++ b1 ++ b0

/-- The four bytes of a word, the first at the lowest address (R102). -/
def bytesOfWord (w : Word) : List Byte := [Word.field w 0 8, Word.field w 8 8, Word.field w 16 8, Word.field w 24 8]

/-- Decoding of a byte sequence: the first command and the bytes after it (R150). -/
def decodeBytes : List Byte → Except DecodeError (Instr × List Byte)
  | b0 :: b1 :: b2 :: b3 :: rest =>
    match decode (wordOfBytes b0 b1 b2 b3) with
    | .ok i => .ok (i, rest)
    | .error e => .error e
  | _ => .error .truncated

/-- The command the decoder reads from an opcode-table word of `nbits` bits: the word is laid out as four little-endian bytes
(R106), bits above `nbits` being 0, and decoded. -/
def decodeTableWord (nbits w : Nat) : Option Instr :=
  match decodeBytes (bytesOfWord (BitVec.ofNat 32 (w % 2 ^ nbits))) with
  | .ok (i, _) => some i
  | .error _ => none

/-! The encoder, from the same formats. -/

/-- A plane slot as a 3-bit field (R155). -/
def Slot.bits (n : Slot) : BitVec 3 := BitVec.ofFin n

/-- The mode bit m (R155). -/
def PadMode.bits : PadMode → BitVec 1
  | .rep => 0
  | .c128 => 1

/-- The table bit t (R156). -/
def QTable.bits : QTable → BitVec 1
  | .luma => 0
  | .chroma => 1

/-- The mode field md (R156). -/
def QMode.bits : QMode → BitVec 2
  | .fixed => 0
  | .cont => 1
  | .idx => 2

/-- Format N (R152). -/
def encodeN (op : BitVec 6) : Word := op ++ (0 : BitVec 26)

/-- Format J (R153). -/
def encodeJ (op : BitVec 6) (t : BitVec 24) : Word := op ++ (0 : BitVec 2) ++ t

/-- Format S (R154). -/
def encodeS (op : BitVec 6) (r : BitVec 8) (imm16 : BitVec 16) : Word := op ++ r ++ (0 : BitVec 2) ++ imm16

/-- Format P3 (R155). -/
def encodeP3 (op : BitVec 6) (a b c : Slot) : Word := op ++ Slot.bits a ++ Slot.bits b ++ Slot.bits c ++ (0 : BitVec 17)

/-- Format P2 (R155). -/
def encodeP2 (op : BitVec 6) (a b : Slot) : Word := op ++ Slot.bits a ++ Slot.bits b ++ (0 : BitVec 20)

/-- Format P1 (R155). -/
def encodeP1 (op : BitVec 6) (a : Slot) : Word := op ++ Slot.bits a ++ (0 : BitVec 23)

/-- Format P1M (R155). -/
def encodeP1M (op : BitVec 6) (a : Slot) (m : PadMode) : Word := op ++ Slot.bits a ++ m.bits ++ (0 : BitVec 22)

/-- Format QM (R156). -/
def encodeQM (op : BitVec 6) (t : QTable) (md : QMode) : Word := op ++ t.bits ++ md.bits ++ (0 : BitVec 23)

/-- The command word of a command (R159). -/
def encode : Instr → Word
  | .nop => encodeN 0x01
  | .halt => encodeN 0x02
  | .irq => encodeN 0x03
  | .jmp t => encodeJ 0x04 t
  | .djnz t => encodeJ 0x05 t
  | .bnend t => encodeJ 0x06 t
  | .setl r imm16 => encodeS 0x07 r imm16
  | .seth r imm16 => encodeS 0x08 r imm16
  | .cscf a b c => encodeP3 0x09 a b c
  | .csci a b c => encodeP3 0x0A a b c
  | .csub a b => encodeP2 0x0B a b
  | .cups a b => encodeP2 0x0C a b
  | .pad a m => encodeP1M 0x0D a m
  | .ldb a => encodeP1 0x10 a
  | .stb a => encodeP1 0x11 a
  | .bnxt a => encodeP1 0x12 a
  | .brst => encodeN 0x13
  | .fdct => encodeN 0x14
  | .idct => encodeN 0x15
  | .var => encodeN 0x16
  | .qnt t md => encodeQM 0x18 t md
  | .dqnt t md => encodeQM 0x19 t md
  | .serd => encodeN 0x1C
  | .sers => encodeN 0x1D
  | .dserd => encodeN 0x1E
  | .dsers => encodeN 0x1F
  | .putq => encodeN 0x20
  | .getq => encodeN 0x21
  | .putidx => encodeN 0x22
  | .getidx => encodeN 0x23
  | .ialn => encodeN 0x24
  | .waln => encodeN 0x25
  | .raln => encodeN 0x26
  | .hclr => encodeN 0x28
  | .hfreq => encodeN 0x29
  | .hbuild => encodeN 0x2A
  | .henc => encodeN 0x2B
  | .hdec => encodeN 0x2C

end Sys2Proof
end

