-- ==== Sys2Proof/Machine/ErrorCode.lean ====
section
/-!
DEFINITION. The error codes of 60_exceptions.md R501 and their kinds (R502).
-/

namespace Sys2Proof.Machine

/-- The errors a step can raise (R501), each by its name without the E_ prefix. E_NONE is no error: it is ERR_CODE's value
after reset. -/
inductive ErrCode where
  | illegal
  | fetch
  | regnum
  | configQuality
  | configCandset
  | configCand
  | configQtab
  | inputDim
  | inputRange
  | inputOverlap
  | inputBlock
  | formatShort
  | decodeCount
  | decodeEsc
  | decodeHuff
  | decodeQeff
  | decodeIdx
  | streamAlign
  | streamWovf
  | addr
  | hufNotree
  | hufNosym
  | hufFreq
  deriving DecidableEq, Repr

/-- The 8-bit code written to ERR_CODE (R501). -/
def ErrCode.code : ErrCode → Byte
  | .illegal => 0x01
  | .fetch => 0x02
  | .regnum => 0x03
  | .configQuality => 0x10
  | .configCandset => 0x11
  | .configCand => 0x12
  | .configQtab => 0x13
  | .inputDim => 0x20
  | .inputRange => 0x21
  | .inputOverlap => 0x22
  | .inputBlock => 0x23
  | .formatShort => 0x30
  | .decodeCount => 0x40
  | .decodeEsc => 0x41
  | .decodeHuff => 0x42
  | .decodeQeff => 0x43
  | .decodeIdx => 0x44
  | .streamAlign => 0x50
  | .streamWovf => 0x51
  | .addr => 0x52
  | .hufNotree => 0x60
  | .hufNosym => 0x61
  | .hufFreq => 0x62

/-- E_NONE (R501): ERR_CODE's value after reset. -/
def errNone : Byte := 0x00

/-- The kinds of R502. -/
inductive ErrKind where
  | engine
  | config
  | input
  | format
  | decode
  | stream
  | huffman
  deriving DecidableEq, Repr

/-- ERR_CODE[7:4] as a kind (R502); values 7 to 15 name none. -/
def ErrKind.ofCode (c : Byte) : Option ErrKind :=
  match (c.extractLsb' 4 4).toNat with
  | 0 => some .engine
  | 1 => some .config
  | 2 => some .input
  | 3 => some .format
  | 4 => some .decode
  | 5 => some .stream
  | 6 => some .huffman
  | _ => none

/-- Every error code, for statements that range over the codes. -/
def ErrCode.all : List ErrCode :=
  [.illegal, .fetch, .regnum, .configQuality, .configCandset, .configCand, .configQtab, .inputDim, .inputRange, .inputOverlap,
   .inputBlock, .formatShort, .decodeCount, .decodeEsc, .decodeHuff, .decodeQeff, .decodeIdx, .streamAlign, .streamWovf,
   .addr, .hufNotree, .hufNosym, .hufFreq]

end Sys2Proof.Machine
end

