-- ==== Sys2Proof/Machine/Memory.lean ====
section
/-!
DEFINITION. LMEM (20_memory.md R101) as plain data: a list of (address, byte) pairs in one canonical form. Byte order is
decided by the callers (R102, R106); here a cell is one byte.
-/

namespace Sys2Proof.Machine

/-- LMEM content: the cells that differ from what an unlisted address reads as, addresses strictly rising. -/
abbrev Memory := List Host.Cell

/-- What an unlisted LMEM address reads as (log entry 2; DESIGN CHOICE: R552 leaves the content after a hard reset open). A
memory of any content can be written as a list, so a claim about every memory does not rest on this byte. -/
def unlistedByte : Byte := 0

/-- The byte at address `k`. -/
def Memory.byteAt : Memory → Nat → Byte
  | [], _ => unlistedByte
  | (a, v) :: rest, k => if a = k then v else Memory.byteAt rest k

/-- Put the cell (k, v) before `rest`, unless it holds what an unlisted address reads as. -/
def Memory.consCell (k : Nat) (v : Byte) (rest : Memory) : Memory :=
  if v = unlistedByte then rest else (k, v) :: rest

/-- The memory after byte `v` is written at address `k`, kept in the canonical form. -/
def Memory.write : Memory → Nat → Byte → Memory
  | [], k, v => Memory.consCell k v []
  | (a, w) :: rest, k, v =>
    if k < a then Memory.consCell k v ((a, w) :: rest)
    else if k = a then Memory.consCell k v rest
    else (a, w) :: Memory.write rest k v

/-- The canonical form: addresses strictly rising, and no cell equal to what an unlisted address reads as. -/
abbrev Memory.wf (m : Memory) : Prop := m.Pairwise (fun c d => c.1 < d.1) ∧ ∀ c ∈ m, c.2 ≠ unlistedByte

/-- No cell lies at or above `size`: LMEM has no such address (R101). -/
abbrev Memory.below (m : Memory) (size : Nat) : Prop := ∀ c ∈ m, c.1 < size

/-- The canonical memory that holds the given cells and has no cell at or above `size`: LMEM_INIT of R552 given as cells. -/
def Memory.ofCells (size : Nat) (cells : List Host.Cell) : Memory :=
  cells.foldl (fun m c => if c.1 < size then Memory.write m c.1 c.2 else m) []

/-- Write one byte for each element of `cells`, in their order; each byte is computed from the memory the earlier writes left
(R14: a read in a loop sees every write made earlier by the same command). -/
def Memory.writeEach {ι : Type} (cells : List ι) (addr : ι → Nat) (val : Memory → ι → Byte) (m : Memory) : Memory :=
  cells.foldl (fun m c => Memory.write m (addr c) (val m c)) m

end Sys2Proof.Machine
end

