-- ==== Sys2Proof/Machine/Tables.lean ====
section
/-!
DEFINITION. The constant tables: the zigzag ROM (44_serializer.md R350), the cosine table K (42_block_transform.md R251), and
the reset values of the two quantization tables (43_quantizer.md R300, R301).
-/

namespace Sys2Proof.Tables

/-- The zigzag ROM ZZ (R350): `ZZ[i]` is the natural index of the i-th coefficient in zigzag order. -/
def zigzag : Vector (Fin 64) 64 :=
  #v[ 0,  1,  8, 16,  9,  2,  3, 10, 17, 24, 32, 25, 18, 11,  4,  5,
     12, 19, 26, 33, 40, 48, 41, 34, 27, 20, 13,  6,  7, 14, 21, 28,
     35, 42, 49, 56, 57, 50, 43, 36, 29, 22, 15, 23, 30, 37, 44, 51,
     58, 59, 52, 45, 38, 31, 39, 46, 53, 60, 61, 54, 47, 55, 62, 63]

/-- The cosine table K (R251): row u is the frequency, column x the position. -/
def cosine : Vector (Vector Int 8) 8 :=
  #v[#v[370728, 370728, 370728, 370728, 370728, 370728, 370728, 370728],
     #v[514214, 435930, 291279, 102284, -102284, -291279, -435930, -514214],
     #v[484379, 200636, -200636, -484379, -484379, -200636, 200636, 484379],
     #v[435930, -102284, -514214, -291279, 291279, 514214, 102284, -435930],
     #v[370728, -370728, -370728, 370728, 370728, -370728, -370728, 370728],
     #v[291279, -514214, 102284, 435930, -435930, -102284, 514214, -291279],
     #v[200636, -484379, 484379, -200636, -200636, 484379, -484379, 200636],
     #v[102284, -291279, 435930, -514214, 514214, -435930, 291279, -102284]]

/-- `K[u][x]` of R251. -/
def K (u x : Fin 8) : Int := (cosine.get u).get x

/-- The luminance table QT[0] at reset (R300). -/
def luma : Vector Byte 64 :=
  #v[16, 11, 10, 16, 24, 40, 51, 61,
     12, 12, 14, 19, 26, 58, 60, 55,
     14, 13, 16, 24, 40, 57, 69, 56,
     14, 17, 22, 29, 51, 87, 80, 62,
     18, 22, 37, 56, 68, 109, 103, 77,
     24, 35, 55, 64, 81, 104, 113, 92,
     49, 64, 78, 87, 103, 121, 120, 101,
     72, 92, 95, 98, 112, 100, 103, 99]

/-- The chrominance table QT[1] at reset (R301). -/
def chroma : Vector Byte 64 :=
  #v[17, 18, 24, 47, 99, 99, 99, 99,
     18, 21, 26, 66, 99, 99, 99, 99,
     24, 26, 56, 99, 99, 99, 99, 99,
     47, 66, 99, 99, 99, 99, 99, 99,
     99, 99, 99, 99, 99, 99, 99, 99,
     99, 99, 99, 99, 99, 99, 99, 99,
     99, 99, 99, 99, 99, 99, 99, 99,
     99, 99, 99, 99, 99, 99, 99, 99]

end Sys2Proof.Tables
end

