-- ==== Sys2Proof/Machine/State.lean ====
section
/-!
DEFINITION. The state of the DCE: every register, block, table and memory of 10_state.md and LMEM, as plain data; the reasons
a step can stop; and the state after a hard reset (70_reset_and_hazards.md R550). A register narrower than 32 bits is held at
its implemented width (R30): its reserved bits have no storage, read 0 and ignore writes.
-/

namespace Sys2Proof.Machine

/-- A stream's registers (R48): the pointer, the exclusive limit, and the count of bits used in the byte at the pointer. -/
structure Stream where
  ptr : Word
  lim : Word
  bit : BitVec 3
  deriving DecidableEq, Repr

/-- A plane descriptor (R47): PDn_BASE and PDn_DIM. -/
structure PlaneDesc where
  base : Word
  dim : Word
  deriving DecidableEq, Repr

/-- One node of the Huffman arena (R66): the FREQ word and the fields of the LINK word. Its reserved bits [31:29] are 0. -/
structure HNode where
  freq : Word
  left : BitVec 9
  right : BitVec 9
  parent : BitVec 9
  leaf : Bool
  valid : Bool
  deriving DecidableEq, Repr

/-- A node whose FREQ and LINK words are 0: the reset value, and an invalid node (R66, R404). -/
def HNode.zero : HNode := ⟨0, 0, 0, 0, false, false⟩

/-- What can reach the DCE between two engine steps (R505: each host access takes effect wholly between two steps). `quiet` is
a step boundary at which nothing reaches it. A read or write carries its 25-bit byte offset (R100), a write also its data and
its byte strobes (R103). `hardReset` carries the LMEM content after the reset, which R552 leaves to the environment. -/
inductive HostEvent where
  | quiet
  | read (offset : BitVec 25)
  | write (offset : BitVec 25) (data : Word) (strobe : BitVec 4)
  | hardReset (lmemInit : List Host.Cell)
  deriving DecidableEq, Repr

/-- The state. Registers carry their names of R32. The last three fields are the MODEL's own: `params` (log entry 1),
`hostQueue` and `readData` (log entry 3). -/
structure State where
  /-- STATUS.BUSY (R39). -/
  busy : Bool
  /-- STATUS.ERR (R39). -/
  err : Bool
  /-- STATUS.BUSYACC (R39). -/
  busyAcc : Bool
  /-- IRQ_STATUS (R41): bit 0 DONE, bit 1 ERR, bit 2 SW. -/
  irqStatus : BitVec 3
  /-- IRQ_ENABLE (R42). -/
  irqEnable : BitVec 3
  /-- ERR_CODE (R43). -/
  errCode : Byte
  /-- ERR_CPC (R43). -/
  errCpc : Word
  /-- ERR_CMD (R43). -/
  errCmd : Word
  /-- CPC, the command program counter (R37). -/
  cpc : Word
  /-- FLAGS (R38): bit 0 BEND, bit 1 ESC. -/
  flags : BitVec 2
  /-- LC, the loop counter (R40). -/
  lc : Word
  /-- CFG (R44): bit 0 QCLAMP. -/
  cfg : BitVec 1
  /-- RGB_BASE (R45). -/
  rgbBase : Word
  /-- BCUR, the block cursor (R46): BX in [15:0], BY in [31:16]. -/
  bcur : Word
  /-- PD0 to PD7 (R47). -/
  planes : Vector PlaneDesc 8
  /-- RD_PTR, RD_LIM, RD_BIT (R48). -/
  rd : Stream
  /-- WR_PTR, WR_LIM, WR_BIT (R48). -/
  wr : Stream
  /-- IX_PTR, IX_LIM, IX_BIT (R48). -/
  ix : Stream
  /-- QUALITY (R49). -/
  quality : Byte
  /-- QBASE (R50). -/
  qbase : Byte
  /-- VT_LO (R51). -/
  vtLo : BitVec 16
  /-- VT_HI (R51). -/
  vtHi : BitVec 16
  /-- AQF (R52): FLO, FMID, FHI. -/
  aqf : BitVec 24
  /-- CAND_N (R53). -/
  candN : BitVec 3
  /-- CAND01 (R54). -/
  cand01 : Word
  /-- CAND23 (R54). -/
  cand23 : Word
  /-- QEFF (R55). -/
  qeff : Byte
  /-- QIDX (R56). -/
  qidx : BitVec 2
  /-- VARN (R57). -/
  varn : Word
  /-- HCOUNT (R58). -/
  hcount : Word
  /-- HROOT (R59). -/
  hroot : BitVec 9
  /-- HNLEAF (R59). -/
  hnleaf : BitVec 9
  /-- HBITS (R59). -/
  hbits : Word
  /-- S, the sample block (R60). -/
  sBlk : Vector Byte 64
  /-- C, the coefficient block, Q15.16 two's complement (R61). -/
  cBlk : Vector Word 64
  /-- Q, the quantized block, two's complement (R62). -/
  qBlk : Vector Word 64
  /-- QT[0] (R63). -/
  qtLuma : Vector Byte 64
  /-- QT[1] (R63). -/
  qtChroma : Vector Byte 64
  /-- HFREQ, the histogram (R65). -/
  hfreq : Vector Word 256
  /-- HNODE, the node arena (R66). -/
  hnode : Vector HNode 511
  /-- LMEM (R101). -/
  mem : Memory
  /-- The build: LMEM_SIZE (R5). No step changes it. -/
  params : Config.Params
  /-- The host events still to come, the next one first; empty means that nothing reaches the DCE any more. -/
  hostQueue : List HostEvent
  /-- The word the last host read returned. -/
  readData : Word
  deriving DecidableEq, Repr

/-- Reasons for the machine to stop with a fault. There is none: every error of the DCE is an error halt (R500), which is a
next state. The type is empty, so no step can be claimed safe by faulting. -/
inductive Fault where
  deriving DecidableEq, Repr

/-- Reasons for the model to give no meaning. -/
inductive Refusal where
  /-- Raised by an arm of `exec` whose command has no meaning yet; safe, since nothing is claimed of it. No arm raises it. -/
  | notModelled (mnemonic : String)
  deriving DecidableEq, Repr

/-- The state after a hard reset (R550) of the build `p` with LMEM content `lmem` (R552). -/
def State.hardResetState (p : Config.Params) (lmem : Memory) : State where
  busy := false
  err := false
  busyAcc := false
  irqStatus := 0
  irqEnable := 0
  errCode := errNone
  errCpc := 0
  errCmd := 0
  cpc := 0
  flags := 0
  lc := 0
  cfg := 1
  rgbBase := 0
  bcur := 0
  planes := Vector.replicate 8 ⟨0, 0⟩
  rd := ⟨0, 0, 0⟩
  wr := ⟨0, 0, 0⟩
  ix := ⟨0, 0, 0⟩
  quality := 50
  qbase := 50
  vtLo := 100
  vtHi := 500
  aqf := 0x18100C
  candN := 4
  cand01 := 0x01000080
  cand23 := 0x04000200
  qeff := 50
  qidx := 0
  varn := 0
  hcount := 0
  hroot := 0x1FF
  hnleaf := 0
  hbits := 0
  sBlk := Vector.replicate 64 0
  cBlk := Vector.replicate 64 0
  qBlk := Vector.replicate 64 0
  qtLuma := Tables.luma
  qtChroma := Tables.chroma
  hfreq := Vector.replicate 256 0
  hnode := Vector.replicate 511 HNode.zero
  mem := lmem
  params := p
  hostQueue := []
  readData := 0

/-- The machine right after a hard reset: the reference build (log entry 1), LMEM with nothing listed (log entry 2), and
nothing at the host port (log entry 3). -/
def State.reset : State := State.hardResetState Config.Params.reference []

end Sys2Proof.Machine
end

