-- ==== Sys2Proof/Machine/Ops.lean ====
section
/-!
DEFINITION. The named operations over memory and registers: LMEM access (20_memory.md R104, R105), the command fetch (R106),
the error halt (60_exceptions.md R510) and the return from it (R513, R530), the one home of every register (10_state.md R30),
and how a command's body becomes a step (46_sequencer.md R459).
-/

namespace Sys2Proof.Machine

/-! ## Errors inside a command -/

/-- What an error leaves of the command that raised it: its code, and LMEM as the command had written it so far. Everything
else is restored (R510), so nothing else is kept. -/
structure Abort where
  code : ErrCode
  mem : Memory
  deriving DecidableEq, Repr

/-- The result of a part of a command: a value, or the error that ended the command. -/
abbrev Run (α : Type) := Except Abort α

/-- `raise Error(code)` of R13 in state `s`. -/
def raise {α : Type} (code : ErrCode) (s : State) : Run α := .error ⟨code, s.mem⟩

/-- `if bad: raise Error(code)`. -/
def refuseIf (bad : Bool) (code : ErrCode) (s : State) : Run Unit := if bad then raise code s else .ok ()

/-- `repeat n times` over a state that each round passes on. -/
def repeatRun {σ : Type} (f : σ → Run σ) : Nat → σ → Run σ
  | 0, x => .ok x
  | n + 1, x =>
    match f x with
    | .ok y => repeatRun f n y
    | .error e => .error e

/-! ## LMEM -/

/-- LMEM_SIZE of the machine in state `s` (R5). -/
def State.lmemSize (s : State) : Nat := s.params.lmemSize

/-- `LMEM[a]` (R101). -/
def State.byteAt (s : State) (a : Nat) : Byte := s.mem.byteAt a

/-- The state with another LMEM content. -/
def State.withMem (s : State) (m : Memory) : State := { s with mem := m }

/-- `MemRead(a, 1)` (R104). -/
def memRead (s : State) (a : Nat) : Run Byte :=
  if a ≥ s.lmemSize then raise .addr s else .ok (s.byteAt a)

/-- `MemWrite(a, 1, v)` (R105). -/
def memWrite (s : State) (a : Nat) (v : Byte) : Run State :=
  if a ≥ s.lmemSize then raise .addr s else .ok (s.withMem (s.mem.write a v))

/-- The four bytes at `a`, lowest address first. -/
def State.bytes4 (s : State) (a : Nat) : List Byte := [s.byteAt a, s.byteAt (a + 1), s.byteAt (a + 2), s.byteAt (a + 3)]

/-- `Fetch()` (R106): the bytes of the command word at CPC, or none where the fetch raises E_FETCH. -/
def fetchBytes (s : State) : Option (List Byte) :=
  if s.cpc.toNat % 4 ≠ 0 ∨ s.cpc.toNat + 4 > s.lmemSize then none else some (s.bytes4 s.cpc.toNat)

/-- The little-endian word of four fetched bytes (R106). -/
def wordOf : List Byte → Word
  | b0 :: b1 :: b2 :: b3 :: _ => wordOfBytes b0 b1 b2 b3
  | _ => 0

/-! ## Interrupt status bits (R41) -/

/-- IRQ_STATUS.DONE. -/
def irqDone : BitVec 3 := 1
/-- IRQ_STATUS.ERR. -/
def irqErr : BitVec 3 := 2
/-- IRQ_STATUS.SW. -/
def irqSw : BitVec 3 := 4

/-- The interrupt output `irq` (R520): a level, high while an enabled status bit is set. -/
def State.irqLine (s : State) : Bool := (s.irqStatus &&& s.irqEnable) != 0

/-! ## The error halt and the return from it -/

/-- `ErrorHalt(code, saved, w)` (R510). `s` is the saved state, before the failing step; `m` is LMEM as the failing command
left it, which is not restored (R512); `w` is the command word, 0 for E_FETCH (R503). -/
def State.errorHalt (s : State) (code : ErrCode) (m : Memory) (w : Word) : State :=
  { s with
    mem := m
    busy := false
    err := true
    errCode := code.code
    errCpc := s.cpc
    errCmd := w
    irqStatus := s.irqStatus ||| irqErr }

/-- CTRL.ERRCLR (R530): the host's way out of an error halt (R513). It clears STATUS.ERR and nothing else. -/
def State.errClr (s : State) : State := { s with err := false }

/-- CTRL.START (R530): the engine runs from CPC; ignored while BUSY or ERR. It resets nothing (R531). -/
def State.start (s : State) : State := if s.busy ∨ s.err then s else { s with busy := true }

/-- `SoftReset()` (R551): every piece of state takes its reset value, LMEM keeps its content. The build and the host's side
of the port are no state of the DCE and stay. -/
def State.softReset (s : State) : State :=
  { State.hardResetState s.params s.mem with hostQueue := s.hostQueue, readData := s.readData }

/-- Hard reset (R550) with the LMEM content `cells` (R552). -/
def State.hardReset (s : State) (cells : List Host.Cell) : State :=
  { State.hardResetState s.params (Memory.ofCells s.lmemSize cells) with hostQueue := s.hostQueue, readData := s.readData }

/-- `CtrlWrite(v)` (R530): SOFTRST, then ERRCLR, then START. `v` holds the bits written as 1 in strobed lanes. -/
def State.ctrlWrite (s : State) (v : Word) : State :=
  let s := if v.getLsbD 2 then s.softReset else s
  let s := if v.getLsbD 1 then s.errClr else s
  if v.getLsbD 0 then s.start else s

/-! ## Registers -/

/-- STATUS as the host reads it (R39). -/
def State.statusWord (s : State) : Word :=
  (BitVec.ofBool s.busyAcc ++ BitVec.ofBool s.err ++ BitVec.ofBool s.busy).setWidth 32

/-- `REG[r]` (R13): the register's value, its reserved bits 0 (R30). CTRL reads 0 (R36). -/
def State.readReg (s : State) : Reg → Word
  | .id => Config.idValue
  | .ctrl => 0
  | .status => s.statusWord
  | .irqStatus => s.irqStatus.setWidth 32
  | .irqEnable => s.irqEnable.setWidth 32
  | .errCode => s.errCode.setWidth 32
  | .errCpc => s.errCpc
  | .errCmd => s.errCmd
  | .cpc => s.cpc
  | .flags => s.flags.setWidth 32
  | .lc => s.lc
  | .cfg => s.cfg.setWidth 32
  | .rgbBase => s.rgbBase
  | .bcur => s.bcur
  | .pdBase n => (s.planes.get n).base
  | .pdDim n => (s.planes.get n).dim
  | .rdPtr => s.rd.ptr
  | .rdLim => s.rd.lim
  | .rdBit => s.rd.bit.setWidth 32
  | .wrPtr => s.wr.ptr
  | .wrLim => s.wr.lim
  | .wrBit => s.wr.bit.setWidth 32
  | .ixPtr => s.ix.ptr
  | .ixLim => s.ix.lim
  | .ixBit => s.ix.bit.setWidth 32
  | .quality => s.quality.setWidth 32
  | .qbase => s.qbase.setWidth 32
  | .vtLo => s.vtLo.setWidth 32
  | .vtHi => s.vtHi.setWidth 32
  | .aqf => s.aqf.setWidth 32
  | .candN => s.candN.setWidth 32
  | .cand01 => s.cand01
  | .cand23 => s.cand23
  | .qeff => s.qeff.setWidth 32
  | .qidx => s.qidx.setWidth 32
  | .varn => s.varn
  | .hcount => s.hcount
  | .hroot => s.hroot.setWidth 32
  | .hnleaf => s.hnleaf.setWidth 32
  | .hbits => s.hbits

/-- `REG[r] <- v` (R13, R30): only the implemented bits are stored. It is the one write of a register the host or SETL/SETH
may write (R31, class `rw`); of any other register it stores nothing. -/
def State.storeReg (s : State) (r : Reg) (v : Word) : State :=
  match r with
  | .id | .ctrl | .status | .irqStatus | .errCode | .errCpc | .errCmd => s
  | .varn | .hroot | .hnleaf | .hbits => s
  | .irqEnable => { s with irqEnable := v.setWidth 3 }
  | .cpc => { s with cpc := v }
  | .flags => { s with flags := v.setWidth 2 }
  | .lc => { s with lc := v }
  | .cfg => { s with cfg := v.setWidth 1 }
  | .rgbBase => { s with rgbBase := v }
  | .bcur => { s with bcur := v }
  | .pdBase n => { s with planes := s.planes.set n.val { s.planes.get n with base := v } }
  | .pdDim n => { s with planes := s.planes.set n.val { s.planes.get n with dim := v } }
  | .rdPtr => { s with rd := { s.rd with ptr := v } }
  | .rdLim => { s with rd := { s.rd with lim := v } }
  | .rdBit => { s with rd := { s.rd with bit := v.setWidth 3 } }
  | .wrPtr => { s with wr := { s.wr with ptr := v } }
  | .wrLim => { s with wr := { s.wr with lim := v } }
  | .wrBit => { s with wr := { s.wr with bit := v.setWidth 3 } }
  | .ixPtr => { s with ix := { s.ix with ptr := v } }
  | .ixLim => { s with ix := { s.ix with lim := v } }
  | .ixBit => { s with ix := { s.ix with bit := v.setWidth 3 } }
  | .quality => { s with quality := v.setWidth 8 }
  | .qbase => { s with qbase := v.setWidth 8 }
  | .vtLo => { s with vtLo := v.setWidth 16 }
  | .vtHi => { s with vtHi := v.setWidth 16 }
  | .aqf => { s with aqf := v.setWidth 24 }
  | .candN => { s with candN := v.setWidth 3 }
  | .cand01 => { s with cand01 := v }
  | .cand23 => { s with cand23 := v }
  | .qeff => { s with qeff := v.setWidth 8 }
  | .qidx => { s with qidx := v.setWidth 2 }
  | .hcount => { s with hcount := v }

/-! ## From a command's body to a step -/

/-- The outcome type of a command. -/
abbrev StepResult := Host.Outcome State Fault Refusal

/-- CPC <- CPC + 4 mod 2^32 (R37), the completion of every command but a taken branch. -/
def State.advance (s : State) : State := { s with cpc := s.cpc + 4 }

/-- CPC <- target (R453). -/
def State.jumpTo (s : State) (target : Word) : State := { s with cpc := target }

/-- The step of R459 around the body of command `i`: a body that completes passes to the next command, and one that raises an
error halts in the saved state `s`. -/
def runCommand (i : Instr) (body : State → Run State) (s : State) : StepResult :=
  match body s with
  | .ok t => .next t.advance
  | .error e => .next (s.errorHalt e.code e.mem (encode i))

end Sys2Proof.Machine
end

