-- ==== Sys2Proof/Machine/Flags.lean ====
section
/-!
DEFINITION. FLAGS (10_state.md R38), the two fields of BCUR (R46), CFG.QCLAMP (R44) and every computation of a flag: BEND by
BNXT (42_block_transform.md R259) and BRST (R260), ESC by SERS (44_serializer.md R353) and DSERS (R355).
-/

namespace Sys2Proof.Machine

/-- FLAGS.BEND. -/
def State.bend (s : State) : Bool := s.flags.getLsbD 0

/-- FLAGS.ESC. -/
def State.esc (s : State) : Bool := s.flags.getLsbD 1

/-- FLAGS.BEND <- b, ESC kept. -/
def State.setBend (s : State) (b : Bool) : State := { s with flags := BitVec.ofBool s.esc ++ BitVec.ofBool b }

/-- FLAGS.ESC <- b, BEND kept. -/
def State.setEsc (s : State) (b : Bool) : State := { s with flags := BitVec.ofBool b ++ BitVec.ofBool s.bend }

/-- CFG.QCLAMP (R44). -/
def State.qclamp (s : State) : Bool := s.cfg == 1

/-- BX = BCUR[15:0] (R46). -/
def State.blkX (s : State) : Nat := (Word.field s.bcur 0 16).toNat

/-- BY = BCUR[31:16] (R46). -/
def State.blkY (s : State) : Nat := (Word.field s.bcur 16 16).toNat

/-- BCUR <- BY·2^16 + BX (R259): BY in the upper half, BX in the lower. -/
def State.setCursor (s : State) (bx by' : Nat) : State := { s with bcur := BitVec.ofNat 16 by' ++ BitVec.ofNat 16 bx }

/-- R259's advance of the cursor over a grid of `nbx` columns and `nby` rows: the next (BX, BY) and the new BEND, 1 exactly
when the cursor wraps from the last block to block (0, 0). -/
def nextBlock (nbx nby bx by' : Nat) : Nat × Nat × Bool :=
  if bx + 1 < nbx then (bx + 1, by', false)
  else if by' + 1 < nby then (0, by' + 1, false)
  else (0, 0, true)

/-- Whether a value of Q cannot be one signed byte of the sparse form, and so needs the escape (R353): it is outside −127..127,
−128 included, since its byte is the sentinel (90_conflicts.md C2). -/
def needsEscape (v : Int) : Bool := ! (decide (-127 ≤ v) && decide (v ≤ 127))

end Sys2Proof.Machine
end

