-- ==== Sys2Proof/Machine/Operands.lean ====
section
/-!
DEFINITION. The operand forms of the commands: the jump target (30_encoding.md R153), the register operand (R154), planes, the
raster and their checks (41_color_resample.md R200-R202), the block cursor (42_block_transform.md R250), the quantization table
(43_quantizer.md R302) and the candidate set (R304).
-/

namespace Sys2Proof.Machine

/-! ## Jump targets and registers -/

/-- The target byte address of a format J command: `zext_32(t) · 4` (R153, R454). -/
def jumpTarget (t : BitVec 24) : Word := t.setWidth 32 * 4

/-- The `cmd` register a format S command names, else E_REGNUM (R161.4, R457). -/
def cmdReg (r : BitVec 8) (s : State) : Run Reg :=
  match Reg.cmd? r with
  | some reg => .ok reg
  | none => raise .regnum s

/-! ## Planes and the raster -/

/-- A checked plane (R200): its base address, its width and height, and its padded width and height. -/
structure PlaneView where
  base : Nat
  W : Nat
  H : Nat
  PW : Nat
  PH : Nat
  deriving DecidableEq, Repr

/-- The plane that descriptor `p` describes, unchecked (R47, R200). -/
def State.planeView (s : State) (p : Slot) : PlaneView :=
  let d := s.planes.get p
  let W := (Word.field d.dim 0 16).toNat
  let H := (Word.field d.dim 16 16).toNat
  ⟨d.base.toNat, W, H, ceil8 W, ceil8 H⟩

/-- `Plane(p)` (R200): E_INPUT_DIM before E_INPUT_RANGE. -/
def plane (p : Slot) (s : State) : Run PlaneView := do
  let v := s.planeView p
  refuseIf (v.W == 0 || v.H == 0) .inputDim s
  refuseIf (v.base + v.PW * v.PH > s.lmemSize) .inputRange s
  return v

/-- The address of sample (x, y) of a plane (R200). -/
def PlaneView.addr (v : PlaneView) (x y : Nat) : Nat := v.base + v.PW * y + x

/-- A byte range [lo, hi) of LMEM (R200, R201). -/
structure Footprint where
  lo : Nat
  hi : Nat
  deriving DecidableEq, Repr

/-- The footprint of a plane (R200). -/
def PlaneView.footprint (v : PlaneView) : Footprint := ⟨v.base, v.base + v.PW * v.PH⟩

/-- R202: two footprints overlap. -/
def Footprint.overlaps (f g : Footprint) : Bool := decide (f.lo < g.hi) && decide (g.lo < f.hi)

/-- The footprint of the W×H raster at RGB_BASE (R201). -/
def State.rasterFootprint (s : State) (W H : Nat) : Footprint := ⟨s.rgbBase.toNat, s.rgbBase.toNat + 3 * W * H⟩

/-- `Raster(W, H)` (R201): the raster's address. -/
def raster (W H : Nat) (s : State) : Run Nat := do
  refuseIf ((s.rasterFootprint W H).hi > s.lmemSize) .inputRange s
  return s.rgbBase.toNat

/-- The address of the first byte (R) of pixel (x, y) of a raster of width W at `rb` (R201). -/
def rasterAddr (rb W x y : Nat) : Nat := rb + 3 * (W * y + x)

/-- The positions (x, y) of a W×H area in the order of `for y in 0..H−1: for x in 0..W−1` (R14: x fastest). -/
def grid (W H : Nat) : List (Nat × Nat) := (List.range H).flatMap fun y => (List.range W).map fun x => (x, y)

/-! ## The block cursor -/

/-- `Cursor(p)` (R250): the plane, checked, with the cursor inside its block grid. -/
def cursor (p : Slot) (s : State) : Run PlaneView := do
  let v ← plane p s
  refuseIf (decide (s.blkX ≥ v.PW / 8) || decide (s.blkY ≥ v.PH / 8)) .inputBlock s
  return v

/-- The address of entry `k = 8·r + c` of the current block of a plane (R257, R258). -/
def State.blockAddr (s : State) (v : PlaneView) (k : Nat) : Nat :=
  v.base + v.PW * (8 * s.blkY + k / 8) + 8 * s.blkX + k % 8

/-! ## Quantizer operands -/

/-- QT[t] (R63, R156). -/
def State.qtable (s : State) : QTable → Vector Byte 64
  | .luma => s.qtLuma
  | .chroma => s.qtChroma

/-- `Table(t)` (R302): a table with a zero entry is refused. -/
def table (t : QTable) (s : State) : Run (Vector Byte 64) := do
  refuseIf ((s.qtable t).toList.any (· == 0)) .configQtab s
  return s.qtable t

/-- CAND[0..3] (R54), as unsigned Q8.8 integers. -/
def State.candidates (s : State) : List Nat :=
  [(Word.field s.cand01 0 16).toNat, (Word.field s.cand01 16 16).toNat,
   (Word.field s.cand23 0 16).toNat, (Word.field s.cand23 16 16).toNat]

/-- `Candidates()` (R304): the first CAND_N candidates, CAND_N in 1..4 and none of them 0. -/
def candidates (s : State) : Run (List Nat) := do
  let n := s.candN.toNat
  refuseIf (decide (n < 1) || decide (n > 4)) .configCandset s
  let cand := s.candidates.take n
  refuseIf (cand.any (· == 0)) .configCand s
  return cand

/-- A quality is legal at use when it is in 1..100 (R49, R55), else E_CONFIG_QUALITY. -/
def legalQuality (q : Byte) (s : State) : Run Nat := do
  refuseIf (decide (q.toNat < 1) || decide (q.toNat > 100)) .configQuality s
  return q.toNat

end Sys2Proof.Machine
end

