-- ==== Sys2Proof/Machine/Block.lean ====
section
/-!
DEFINITION. The block transform commands (42_block_transform.md R250-R263).
-/

namespace Sys2Proof.Machine

/-! ## The transforms and the variance -/

/-- The sum over 0..7 of R252 and R253, an exact integer. -/
def sum8 (f : Fin 8 → Int) : Int := ((List.finRange 8).map f).sum

/-- Entry `8·row + col` of a block (R12). -/
def entry (row col : Fin 8) : Fin 64 := ⟨8 * row.val + col.val, by omega⟩

/-- The row of a block entry (R12). -/
def rowOf (k : Fin 64) : Fin 8 := ⟨k.val / 8, by omega⟩

/-- The column of a block entry (R12). -/
def colOf (k : Fin 64) : Fin 8 := ⟨k.val % 8, by omega⟩

/-- The exact sum of R252 for vertical frequency v and horizontal frequency u. -/
def fdctAcc (blk : Vector Byte 64) (v u : Fin 8) : Int :=
  sum8 fun y => sum8 fun x => Tables.K v y * Tables.K u x * (((blk.get (entry y x)).toNat : Int) - 128)

/-- `fdct(S)` (R252): each coefficient is (acc + 2^23) >> 24. -/
def fdct (blk : Vector Byte 64) : Vector Word 64 :=
  Vector.ofFn fun k => two32 ((fdctAcc blk (rowOf k) (colOf k) + 2 ^ 23) / 2 ^ 24)

/-- The exact sum of R253 for position (x, y). -/
def idctAcc (c : Vector Word 64) (y x : Fin 8) : Int :=
  sum8 fun v => sum8 fun u => Tables.K v y * Tables.K u x * (c.get (entry v u)).toInt

/-- `idct(C)` (R253): each sample is clamp(((acc + 2^55) >> 56) + 128, 0, 255). -/
def idct (c : Vector Word 64) : Vector Byte 64 :=
  Vector.ofFn fun k => two8 (clampInt ((idctAcc c (rowOf k) (colOf k) + 2 ^ 55) / 2 ^ 56 + 128) 0 255)

/-- The sum of the samples, s1 of R254. -/
def sampleSum (blk : Vector Byte 64) : Int := ((List.finRange 64).map fun k => ((blk.get k).toNat : Int)).sum

/-- The sum of the squared samples, s2 of R254. -/
def squareSum (blk : Vector Byte 64) : Int :=
  ((List.finRange 64).map fun k => ((blk.get k).toNat : Int) * (blk.get k).toNat).sum

/-- `varn(S)` (R254): 4096 times the population variance. -/
def varn (blk : Vector Byte 64) : Int := 64 * squareSum blk - sampleSum blk * sampleSum blk

/-! ## Block moves -/

/-- The body of LDB (R257). -/
def ldb (a : Slot) (s : State) : Run State := do
  let v ← cursor a s
  return { s with sBlk := Vector.ofFn fun k => s.byteAt (s.blockAddr v k.val) }

/-- LMEM after STB's loop (R258). -/
def stbMem (s : State) (v : PlaneView) : Memory :=
  Memory.writeEach (List.finRange 64) (fun k => s.blockAddr v k.val) (fun _ k => s.sBlk.get k) s.mem

/-- The body of STB (R258). -/
def stb (a : Slot) (s : State) : Run State := do
  let v ← cursor a s
  return s.withMem (stbMem s v)

/-- The body of BNXT (R259). -/
def bnxt (a : Slot) (s : State) : Run State := do
  let v ← cursor a s
  let (bx, by', wrapped) := nextBlock (v.PW / 8) (v.PH / 8) s.blkX s.blkY
  return (s.setCursor bx by').setBend wrapped

/-! ## The commands -/

/-- LDB pa (R257). -/
def execLdb (a : Slot) (s : State) : StepResult := runCommand (.ldb a) (ldb a) s

/-- STB pa (R258). -/
def execStb (a : Slot) (s : State) : StepResult := runCommand (.stb a) (stb a) s

/-- BNXT pa (R259). -/
def execBnxt (a : Slot) (s : State) : StepResult := runCommand (.bnxt a) (bnxt a) s

/-- BRST (R260): BCUR <- 0, FLAGS.BEND <- 0. -/
def execBrst (s : State) : StepResult := .next ((s.setCursor 0 0).setBend false).advance

/-- FDCT (R261): C <- fdct(S). -/
def execFdct (s : State) : StepResult := .next (State.advance { s with cBlk := fdct s.sBlk })

/-- IDCT (R262): S <- idct(C). -/
def execIdct (s : State) : StepResult := .next (State.advance { s with sBlk := idct s.cBlk })

/-- VAR (R263): VARN <- varn(S). -/
def execVar (s : State) : StepResult := .next (State.advance { s with varn := two32 (varn s.sBlk) })

end Sys2Proof.Machine
end

