-- ==== Sys2Proof/Machine/Color.lean ====
section
/-!
DEFINITION. The colour transform and resampler commands (41_color_resample.md R203-R209). Every check is made before the first
write (R202), and the accesses then go straight to LMEM (20_memory.md R117).
-/

namespace Sys2Proof.Machine

/-! ## Colour arithmetic (R203, R205): exact rationals with the printed coefficients (R204), rounded by `rnd`, clamped to a byte -/

/-- A value rounded by `rnd(n, d)` and clamped to 0..255, as a byte. -/
def roundToByte (n d : Int) : Byte := BitVec.ofInt 8 (clampInt (rnd n d) 0 255)

/-- Y of an RGB pixel (R203). -/
def lumaOf (r g b : Byte) : Byte := roundToByte (2990 * r.toNat + 5870 * g.toNat + 1140 * b.toNat) 10000

/-- Cb of an RGB pixel (R203). -/
def cbOf (r g b : Byte) : Byte := roundToByte (1280000 - 1687 * r.toNat - 3313 * g.toNat + 5000 * b.toNat) 10000

/-- Cr of an RGB pixel (R203). -/
def crOf (r g b : Byte) : Byte := roundToByte (1280000 + 5000 * r.toNat - 4187 * g.toNat - 813 * b.toNat) 10000

/-- R of a YCbCr sample (R205). -/
def redOf (y _cb cr : Byte) : Byte := roundToByte (100000 * y.toNat + 140200 * ((cr.toNat : Int) - 128)) 100000

/-- G of a YCbCr sample (R205). -/
def greenOf (y cb cr : Byte) : Byte :=
  roundToByte (100000 * y.toNat - 34414 * ((cb.toNat : Int) - 128) - 71414 * ((cr.toNat : Int) - 128)) 100000

/-- B of a YCbCr sample (R205). -/
def blueOf (y cb _cr : Byte) : Byte := roundToByte (100000 * y.toNat + 177200 * ((cb.toNat : Int) - 128)) 100000

/-- One of the three bytes a pixel gets: the position and which of the three (0, 1, 2) it is. -/
structure PixelByte where
  x : Nat
  y : Nat
  ch : Fin 3
  deriving DecidableEq, Repr

/-- The three bytes of every pixel of a W×H area, in the order the commands write them (R203, R205). -/
def pixelBytes (W H : Nat) : List PixelByte :=
  (grid W H).flatMap fun p => [⟨p.1, p.2, 0⟩, ⟨p.1, p.2, 1⟩, ⟨p.1, p.2, 2⟩]

/-- Three values, one for each channel. -/
def pick {α : Type} (ch : Fin 3) (v0 v1 v2 : α) : α := match ch with
  | 0 => v0
  | 1 => v1
  | 2 => v2

/-! ## CSCF and CSCI -/

/-- The two planes have one size (R203, R205). -/
def PlaneView.sameSize (v w : PlaneView) : Bool := v.W == w.W && v.H == w.H

/-- Some two of the four footprints overlap (R203). -/
def anyOverlap (f g h k : Footprint) : Bool :=
  f.overlaps g || f.overlaps h || f.overlaps k || g.overlaps h || g.overlaps k || h.overlaps k

/-- LMEM after CSCF's loop (R203): Y, Cb and Cr of each pixel, from the raster at `rb`. The pixel is read for each of its three
bytes; the checks keep the raster apart from the planes, so the three reads agree with the rule's one. -/
def cscfMem (rb : Nat) (va vb vc : PlaneView) (m : Memory) : Memory :=
  Memory.writeEach (pixelBytes va.W va.H)
    (fun p => pick p.ch (va.addr p.x p.y) (vb.addr p.x p.y) (vc.addr p.x p.y))
    (fun m p =>
      let o := rasterAddr rb va.W p.x p.y
      let r := m.byteAt o
      let g := m.byteAt (o + 1)
      let b := m.byteAt (o + 2)
      pick p.ch (lumaOf r g b) (cbOf r g b) (crOf r g b))
    m

/-- The body of CSCF (R203), checks in the order of R202. -/
def cscf (a b c : Slot) (s : State) : Run State := do
  let va ← plane a s
  let vb ← plane b s
  let vc ← plane c s
  refuseIf (! (vb.sameSize va && vc.sameSize va)) .inputDim s
  let rb ← raster va.W va.H s
  refuseIf (anyOverlap (s.rasterFootprint va.W va.H) va.footprint vb.footprint vc.footprint) .inputOverlap s
  return s.withMem (cscfMem rb va vb vc s.mem)

/-- LMEM after CSCI's loop (R205): R, G and B of each sample, into the raster at `rb`, which the checks keep apart from the
planes. -/
def csciMem (rb : Nat) (va vb vc : PlaneView) (m : Memory) : Memory :=
  Memory.writeEach (pixelBytes va.W va.H)
    (fun p => rasterAddr rb va.W p.x p.y + p.ch.val)
    (fun m p =>
      let y := m.byteAt (va.addr p.x p.y)
      let cb := m.byteAt (vb.addr p.x p.y)
      let cr := m.byteAt (vc.addr p.x p.y)
      pick p.ch (redOf y cb cr) (greenOf y cb cr) (blueOf y cb cr))
    m

/-- The body of CSCI (R205). The three source planes may overlap one another. -/
def csci (a b c : Slot) (s : State) : Run State := do
  let va ← plane a s
  let vb ← plane b s
  let vc ← plane c s
  refuseIf (! (vb.sameSize va && vc.sameSize va)) .inputDim s
  let rb ← raster va.W va.H s
  let rf := s.rasterFootprint va.W va.H
  refuseIf (rf.overlaps va.footprint || rf.overlaps vb.footprint || rf.overlaps vc.footprint) .inputOverlap s
  return s.withMem (csciMem rb va vb vc s.mem)

/-! ## CSUB and CUPS -/

/-- The in-bounds positions of the 2×2 cell (i, j) of a W×H source (R207), in the order of the rule. -/
def cell (W H i j : Nat) : List (Nat × Nat) :=
  [(2 * i, 2 * j), (2 * i + 1, 2 * j), (2 * i, 2 * j + 1), (2 * i + 1, 2 * j + 1)].filter
    fun p => decide (p.1 < W) && decide (p.2 < H)

/-- The average of the in-bounds samples of cell (i, j) (R207): `rnd(sum, n)`. -/
def cellAverage (vs : PlaneView) (m : Memory) (i j : Nat) : Byte :=
  let ps := cell vs.W vs.H i j
  BitVec.ofInt 8 (rnd ((ps.map fun p => (m.byteAt (vs.addr p.1 p.2)).toNat).sum : Nat) ps.length)

/-- LMEM after CSUB's loop (R207). -/
def csubMem (vd vs : PlaneView) (m : Memory) : Memory :=
  Memory.writeEach (grid vd.W vd.H) (fun p => vd.addr p.1 p.2) (fun m p => cellAverage vs m p.1 p.2) m

/-- The body of CSUB (R207): `a` is the destination, `b` the source. -/
def csub (a b : Slot) (s : State) : Run State := do
  let vd ← plane a s
  let vs ← plane b s
  refuseIf (vd.W != ceil2 vs.W || vd.H != ceil2 vs.H) .inputDim s
  refuseIf (vd.footprint.overlaps vs.footprint) .inputOverlap s
  return s.withMem (csubMem vd vs s.mem)

/-- LMEM after CUPS's loop (R208). -/
def cupsMem (vd vs : PlaneView) (m : Memory) : Memory :=
  Memory.writeEach (grid vd.W vd.H) (fun p => vd.addr p.1 p.2) (fun m p => m.byteAt (vs.addr (p.1 / 2) (p.2 / 2))) m

/-- The body of CUPS (R208): `a` is the destination, `b` the source. -/
def cups (a b : Slot) (s : State) : Run State := do
  let vd ← plane a s
  let vs ← plane b s
  refuseIf (vs.W != ceil2 vd.W || vs.H != ceil2 vd.H) .inputDim s
  refuseIf (vd.footprint.overlaps vs.footprint) .inputOverlap s
  return s.withMem (cupsMem vd vs s.mem)

/-! ## PAD -/

/-- The padding positions of a plane, in the order of R209's loop. -/
def paddingCells (v : PlaneView) : List (Nat × Nat) :=
  (grid v.PW v.PH).filter fun p => decide (p.1 ≥ v.W) || decide (p.2 ≥ v.H)

/-- LMEM after PAD's loop (R209). -/
def padMem (v : PlaneView) (mode : PadMode) (m : Memory) : Memory :=
  Memory.writeEach (paddingCells v) (fun p => v.addr p.1 p.2)
    (fun m p => match mode with
      | .rep => m.byteAt (v.addr (min p.1 (v.W - 1)) (min p.2 (v.H - 1)))
      | .c128 => 128)
    m

/-- The body of PAD (R209). -/
def pad (a : Slot) (mode : PadMode) (s : State) : Run State := do
  let v ← plane a s
  return s.withMem (padMem v mode s.mem)

/-! ## The commands -/

/-- CSCF pa, pb, pc (R203). -/
def execCscf (a b c : Slot) (s : State) : StepResult := runCommand (.cscf a b c) (cscf a b c) s

/-- CSCI pa, pb, pc (R205). -/
def execCsci (a b c : Slot) (s : State) : StepResult := runCommand (.csci a b c) (csci a b c) s

/-- CSUB pd, ps (R207). -/
def execCsub (a b : Slot) (s : State) : StepResult := runCommand (.csub a b) (csub a b) s

/-- CUPS pd, ps (R208). -/
def execCups (a b : Slot) (s : State) : StepResult := runCommand (.cups a b) (cups a b) s

/-- PAD pa, mode (R209). -/
def execPad (a : Slot) (m : PadMode) (s : State) : StepResult := runCommand (.pad a m) (pad a m) s

end Sys2Proof.Machine
end

