-- ==== Sys2Proof/Machine/Streams.lean ====
section
/-!
DEFINITION. The stream primitives of 20_memory.md R110-R116. A limit is checked before the address; pointers wrap modulo 2^32
(R116, a wrap that no access reaches).
-/

namespace Sys2Proof.Machine

/-- The access at the pointer is at or past the limit. -/
def Stream.atLimit (st : Stream) : Bool := decide (st.ptr.toNat ≥ st.lim.toNat)

/-- The stream one byte on. -/
def Stream.nextByte (st : Stream) : Stream := { st with ptr := st.ptr + 1 }

/-- The stream one bit on: after the eighth bit the next byte (R112, R113). -/
def Stream.nextBit (st : Stream) : Stream :=
  if st.bit = 7 then { st with ptr := st.ptr + 1, bit := 0 } else { st with bit := st.bit + 1 }

/-- `IxAdvance` (R114) on a legal bit position: after the fourth field the next byte. -/
def Stream.nextField (st : Stream) : Stream :=
  if st.bit = 6 then { st with ptr := st.ptr + 1, bit := 0 } else { st with bit := st.bit + 2 }

/-- The stream at the next byte boundary (R360-R362). -/
def Stream.align (st : Stream) : Stream :=
  if st.bit ≠ 0 then { st with ptr := st.ptr + 1, bit := 0 } else st

/-- `NeedAligned(bitreg)` (R115). -/
def needAligned (bit : BitVec 3) (s : State) : Run Unit := refuseIf (bit != 0) .streamAlign s

/-- `RdByte(err)` (R110). -/
def rdByte (err : ErrCode) (s : State) : Run (Byte × State) := do
  refuseIf s.rd.atLimit err s
  let b ← memRead s s.rd.ptr.toNat
  return (b, { s with rd := s.rd.nextByte })

/-- `WrByte(v)` (R111). -/
def wrByte (v : Byte) (s : State) : Run State := do
  refuseIf s.wr.atLimit .streamWovf s
  let t ← memWrite s s.wr.ptr.toNat v
  return { t with wr := t.wr.nextByte }

/-- The bytes `vs`, one `WrByte` each, in order. -/
def wrBytes (vs : List Byte) (s : State) : Run State := vs.foldlM (fun s v => wrByte v s) s

/-- `old` with the bits of `mask` replaced by those of `new` (R112, R114). -/
def replaceBits (old mask new : Byte) : Byte := (old &&& ~~~mask) ||| new

/-- The byte a bit or field write starts from: 0 for a fresh byte, else the byte in LMEM (R112, R114). -/
def oldByte (st : Stream) (s : State) : Run Byte := if st.bit = 0 then .ok 0 else memRead s st.ptr.toNat

/-- `WrBit(bit)` (R112): most significant bit of each byte first; a fresh byte's other bits are 0. -/
def wrBit (b : Bool) (s : State) : Run State := do
  refuseIf s.wr.atLimit .streamWovf s
  let old ← oldByte s.wr s
  let mask := (1 : Byte) <<< (7 - s.wr.bit.toNat)
  let t ← memWrite s s.wr.ptr.toNat (replaceBits old mask (if b then mask else 0))
  return { t with wr := t.wr.nextBit }

/-- The bits `bs`, one `WrBit` each, in order. -/
def wrBits (bs : List Bool) (s : State) : Run State := bs.foldlM (fun s b => wrBit b s) s

/-- `RdBit()` (R113). -/
def rdBit (s : State) : Run (Bool × State) := do
  refuseIf s.rd.atLimit .decodeHuff s
  let v ← memRead s s.rd.ptr.toNat
  return (v.getLsbD (7 - s.rd.bit.toNat), { s with rd := s.rd.nextBit })

/-- R114: IX_BIT is legal, one of 0, 2, 4, 6. -/
def needIndexAligned (s : State) : Run Unit := refuseIf (s.ix.bit.getLsbD 0) .streamAlign s

/-- `IxWrite2(v)` (R114). -/
def ixWrite2 (v : BitVec 2) (s : State) : Run State := do
  needIndexAligned s
  refuseIf s.ix.atLimit .streamWovf s
  let old ← oldByte s.ix s
  let sh := 6 - s.ix.bit.toNat
  let t ← memWrite s s.ix.ptr.toNat (replaceBits old ((3 : Byte) <<< sh) (v.setWidth 8 <<< sh))
  return { t with ix := t.ix.nextField }

/-- `IxRead2()` (R114). -/
def ixRead2 (s : State) : Run (BitVec 2 × State) := do
  needIndexAligned s
  refuseIf s.ix.atLimit .formatShort s
  let v ← memRead s s.ix.ptr.toNat
  return (v.extractLsb' (6 - s.ix.bit.toNat) 2, { s with ix := s.ix.nextField })

end Sys2Proof.Machine
end

