-- ==== Sys2Proof/Machine/Huffman.lean ====
section
/-!
DEFINITION. The Huffman entropy coder commands (45_huffman.md R400-R410).
-/

namespace Sys2Proof.Machine

/-! ## The arena and the tree build (R402-R404) -/

/-- The node arena (R66). -/
abbrev Arena := Vector HNode 511

/-- `HNODE[i]`. The one index of 9 bits with no node, 511, reads as a zero node (log entry 4). -/
def Arena.node (t : Arena) (i : Nat) : HNode := if h : i < 511 then t[i] else HNode.zero

/-- `HNODE[i] <- n`. -/
def Arena.put (t : Arena) (i : Nat) (n : HNode) : Arena := t.setIfInBounds i n

/-- `HNODE[i].PARENT <- p`. -/
def Arena.setParent (t : Arena) (i p : Nat) : Arena := t.put i { t.node i with parent := BitVec.ofNat 9 p }

/-- The sum of the 16 counts from `16·row` on. -/
def histRowTotal (h : Vector Word 256) (row : Fin 16) : Nat :=
  (((h.toList.drop (16 * row.val)).take 16).map BitVec.toNat).sum

/-- The total of the histogram (R404), summed row by row of 16 counts. -/
def histTotal (h : Vector Word 256) : Nat := ((List.finRange 16).map (histRowTotal h)).sum

/-- The leaf of symbol `sym` with count `n` (R404). -/
def leafNode (sym : Nat) (n : Word) : HNode := ⟨n, BitVec.ofNat 9 sym, 0, 0x1FF, true, true⟩

/-- The leaves, one for each symbol with a nonzero count, in ascending symbol order (R402). -/
def leaves (h : Vector Word 256) : List HNode :=
  h.toList.zipIdx.filterMap fun p => if p.1 = 0 then none else some (leafNode p.2 p.1)

/-- The arena with the leaves at 0..n−1 and every other node invalid (R404). -/
def leafArena (ls : List HNode) : Arena := Vector.ofFn fun i => ls.getD i.val HNode.zero

/-- Of two nodes, the one with the lesser (FREQ, index) (R403). -/
def lesser (t : Arena) (a b : Nat) : Nat :=
  let fa := (t.node a).freq.toNat
  let fb := (t.node b).freq.toNat
  if fb < fa ∨ (fb = fa ∧ b < a) then b else a

/-- The member of `x :: xs` with the least (FREQ, index) (R403). -/
def leastOf (t : Arena) (x : Nat) (xs : List Nat) : Nat := xs.foldl (lesser t) x

/-- The merge of nodes a (left child) and b (right child) into node `next` (R404). -/
def mergeNodes (t : Arena) (a b next : Nat) : Arena :=
  let merged : HNode :=
    ⟨(t.node a).freq + (t.node b).freq, BitVec.ofNat 9 a, BitVec.ofNat 9 b, 0x1FF, false, true⟩
  ((t.put next merged).setParent a next).setParent b next

/-- The loop of R404: while two nodes are active, the two least are removed and their merge is added. The first argument
bounds the rounds; each round leaves one active node fewer, so the number of leaves is enough. -/
def mergeLoop : Nat → Arena → List Nat → Nat → Arena
  | rounds + 1, t, x :: y :: rest, next =>
    let a := leastOf t x (y :: rest)
    match (x :: y :: rest).erase a with
    | [] => t
    | z :: zs =>
      let b := leastOf t z zs
      mergeLoop rounds (mergeNodes t a b next) ((z :: zs).erase b ++ [next]) (next + 1)
  | _, t, _, _ => t

/-- The root of a tree of n leaves (R402): node 2n − 2, or none. -/
def rootIndex (n : Nat) : BitVec 9 := if n = 0 then 0x1FF else BitVec.ofNat 9 (2 * n - 2)

/-- The arena `BuildTree()` writes (R404). -/
def buildArena (h : Vector Word 256) : Arena :=
  let ls := leaves h
  mergeLoop ls.length (leafArena ls) (List.range ls.length) ls.length

/-- The body of HBUILD, `BuildTree()` (R404, R408). -/
def hbuild (s : State) : Run State := do
  refuseIf (decide (histTotal s.hfreq ≥ 2 ^ 32)) .hufFreq s
  let n := (leaves s.hfreq).length
  return { s with hnode := buildArena s.hfreq, hroot := rootIndex n, hnleaf := BitVec.ofNat 9 n }

/-! ## Codes (R405) -/

/-- The path from node `i` to the valid leaf of symbol `sym`: false for each step to a LEFT child, true for a RIGHT child, the
root end first (R405). The first argument bounds the depth; a tree of the DCE is at most 255 deep. -/
def pathTo (t : Arena) (sym : Byte) : Nat → Nat → Option (List Bool)
  | 0, _ => none
  | depth + 1, i =>
    let nd := t.node i
    if ! nd.valid then none
    else if nd.leaf then (if nd.left = sym.setWidth 9 then some [] else none)
    else
      match pathTo t sym depth nd.left.toNat with
      | some p => some (false :: p)
      | none => (pathTo t sym depth nd.right.toNat).map (true :: ·)

/-- `code(s)` (R405), or none where the symbol has no leaf in the tree. -/
def State.codeOf (s : State) (sym : Byte) : Option (List Bool) := pathTo s.hnode sym 256 s.hroot.toNat

/-! ## Bodies -/

/-- One round of HFREQ's loop (R407). -/
def hfreqRound (s : State) : Run State := do
  let (b, s) ← rdByte .formatShort s
  let n := s.hfreq.get b.toFin
  refuseIf (n == 0xFFFFFFFF) .hufFreq s
  return { s with hfreq := s.hfreq.set b.toNat (n + 1) b.isLt }

/-- The body of HFREQ (R407). -/
def hfreqCmd (s : State) : Run State := do
  needAligned s.rd.bit s
  repeatRun hfreqRound s.hcount.toNat s

/-- R409, R410: no tree. -/
def needTree (s : State) : Run Unit := refuseIf (s.hnleaf == 0) .hufNotree s

/-- One round of HENC's loop (R409): the state and the number of bits emitted so far. -/
def hencRound (x : State × Nat) : Run (State × Nat) := do
  let (b, s) ← rdByte .formatShort x.1
  match s.codeOf b with
  | none => raise .hufNosym s
  | some code => do
    let s ← wrBits code s
    return (s, x.2 + code.length)

/-- The body of HENC (R409). -/
def henc (s : State) : Run State := do
  needTree s
  needAligned s.rd.bit s
  let (t, bits) ← repeatRun hencRound s.hcount.toNat (s, 0)
  return { t with hbits := BitVec.ofNat 32 bits }

/-- The descent of R410 from node `i` to a leaf: the leaf's symbol. The first argument bounds the descent; every step but the
last takes one bit of LMEM, so `descentBound` is never used up. -/
def descend : Nat → Nat → State → Run (Byte × State)
  | 0, _, s => raise .decodeHuff s
  | bound + 1, i, s =>
    let nd := Arena.node s.hnode i
    if nd.leaf then .ok (nd.left.setWidth 8, s)
    else
      match rdBit s with
      | .ok (b, s) => descend bound (if b then nd.right.toNat else nd.left.toNat) s
      | .error e => .error e

/-- One more than the bits of LMEM: no descent takes more steps (R113: a bit is read below LMEM_SIZE or raises). -/
def State.descentBound (s : State) : Nat := 8 * s.lmemSize + 1

/-- One round of HDEC's loop (R410). -/
def hdecRound (s : State) : Run State := do
  let (sym, s) ← descend s.descentBound s.hroot.toNat s
  wrByte sym s

/-- The body of HDEC (R410). -/
def hdec (s : State) : Run State := do
  needTree s
  needAligned s.wr.bit s
  repeatRun hdecRound s.hcount.toNat s

/-! ## The commands -/

/-- HCLR (R406): every counter of HFREQ <- 0. -/
def execHclr (s : State) : StepResult := .next (State.advance { s with hfreq := Vector.replicate 256 0 })

/-- HFREQ (R407). -/
def execHfreq (s : State) : StepResult := runCommand .hfreq hfreqCmd s

/-- HBUILD (R408). -/
def execHbuild (s : State) : StepResult := runCommand .hbuild hbuild s

/-- HENC (R409). -/
def execHenc (s : State) : StepResult := runCommand .henc henc s

/-- HDEC (R410). -/
def execHdec (s : State) : StepResult := runCommand .hdec hdec s

end Sys2Proof.Machine
end

