-- ==== Sys2Proof/Machine/Quant.lean ====
section
/-!
DEFINITION. The quantizer commands (43_quantizer.md R303-R308).
-/

namespace Sys2Proof.Machine

/-- `AdaptiveQuality()` (R303): the factor by the band VARN falls in, and the effective quality in 1..100. -/
def adaptiveQuality (s : State) : Nat :=
  let vn := s.varn.toNat
  let f :=
    if vn < s.vtLo.toNat * 4096 then (s.aqf.extractLsb' 0 8).toNat
    else if vn > s.vtHi.toNat * 4096 then (s.aqf.extractLsb' 16 8).toNat
    else (s.aqf.extractLsb' 8 8).toNat
  (clampInt (rnd (f * s.qbase.toNat) 16) 1 100).toNat

/-- The distance of R304: |12800 − cand · q|. -/
def snapDistance (q cand : Nat) : Nat := ((12800 : Int) - cand * q).natAbs

/-- `Snap(q, cand, n)` (R304): the least index of a candidate at the least distance. -/
def snap (q : Nat) (cand : List Nat) : Nat :=
  cand.findIdx fun c => cand.all fun d => decide (snapDistance q c ≤ snapDistance q d)

/-- `rnd(C[k] · q, T[k] · 50 · 65536)` (R305, fixed and continuous modes). -/
def quantByQuality (q : Nat) (c : Word) (t : Byte) : Int := rnd (c.toInt * q) (t.toNat * 50 * 65536)

/-- `rnd(C[k], 256 · T[k] · cand[i])` (R305, indexed mode). -/
def quantByCandidate (cand : Nat) (c : Word) (t : Byte) : Int := rnd c.toInt (256 * t.toNat * cand)

/-- What QNT stores for the quantized value v (R306): clamped to a signed byte where CFG.QCLAMP = 1. -/
def qstore (qclamp : Bool) (v : Int) : Word := two32 (if qclamp then clampInt v (-128) 127 else v)

/-- Q from C and the table, entry by entry (R307). -/
def quantBlock (s : State) (T : Vector Byte 64) (f : Word → Byte → Int) : Vector Word 64 :=
  Vector.ofFn fun k => qstore s.qclamp (f (s.cBlk.get k) (T.get k))

/-- The body of QNT (R307). -/
def qnt (t : QTable) (md : QMode) (s : State) : Run State := do
  let T ← table t s
  match md with
  | .fixed => do
    let q ← legalQuality s.quality s
    return { s with qBlk := quantBlock s T (quantByQuality q) }
  | .cont =>
    let q := adaptiveQuality s
    return { s with qeff := BitVec.ofNat 8 q, qBlk := quantBlock s T (quantByQuality q) }
  | .idx => do
    let cand ← candidates s
    let i := snap (adaptiveQuality s) cand
    return { s with qidx := BitVec.ofNat 2 i, qBlk := quantBlock s T (quantByCandidate (cand.getD i 0)) }

/-- `rnd(Q[k] · T[k] · 50 · 65536, q)` (R305). -/
def dequantByQuality (q : Nat) (v : Word) (t : Byte) : Int := rnd (v.toInt * t.toNat * 50 * 65536) q

/-- `Q[k] · T[k] · cand[i] · 256` (R305). -/
def dequantByCandidate (cand : Nat) (v : Word) (t : Byte) : Int := v.toInt * t.toNat * cand * 256

/-- C from Q and the table, entry by entry, saturated to 32 bits (R308). -/
def dequantBlock (s : State) (T : Vector Byte 64) (f : Word → Byte → Int) : Vector Word 64 :=
  Vector.ofFn fun k => two32 (sat32 (f (s.qBlk.get k) (T.get k)))

/-- The body of DQNT (R308): the continuous mode uses the transmitted QEFF, the indexed mode the transmitted QIDX. -/
def dqnt (t : QTable) (md : QMode) (s : State) : Run State := do
  let T ← table t s
  match md with
  | .fixed => do
    let q ← legalQuality s.quality s
    return { s with cBlk := dequantBlock s T (dequantByQuality q) }
  | .cont => do
    let q ← legalQuality s.qeff s
    return { s with cBlk := dequantBlock s T (dequantByQuality q) }
  | .idx => do
    let cand ← candidates s
    let i := s.qidx.toNat
    refuseIf (decide (i ≥ cand.length)) .decodeIdx s
    return { s with cBlk := dequantBlock s T (dequantByCandidate (cand.getD i 0)) }

/-- QNT t, md (R307). -/
def execQnt (t : QTable) (md : QMode) (s : State) : StepResult := runCommand (.qnt t md) (qnt t md) s

/-- DQNT t, md (R308). -/
def execDqnt (t : QTable) (md : QMode) (s : State) : StepResult := runCommand (.dqnt t md) (dqnt t md) s

end Sys2Proof.Machine
end

