-- ==== Sys2Proof/Machine/Sequencer.lean ====
section
/-!
DEFINITION. The sequencer commands (46_sequencer.md R450-R458).
-/

namespace Sys2Proof.Machine

/-- NOP (R450): nothing but CPC <- CPC + 4. -/
def execNop (s : State) : StepResult := .next s.advance

/-- HALT (R451): BUSY <- 0, IRQ_STATUS.DONE <- 1, CPC <- CPC + 4. -/
def execHalt (s : State) : StepResult :=
  .next (State.advance { s with busy := false, irqStatus := s.irqStatus ||| irqDone })

/-- IRQ (R452): IRQ_STATUS.SW <- 1, CPC <- CPC + 4; the program goes on. -/
def execIrq (s : State) : StepResult :=
  .next (State.advance { s with irqStatus := s.irqStatus ||| irqSw })

/-- JMP t (R453): CPC <- t · 4; the target is not checked here (R454). -/
def execJmp (t : BitVec 24) (s : State) : StepResult := .next (s.jumpTo (jumpTarget t))

/-- DJNZ t (R455): LC <- LC − 1 mod 2^32, and the jump is taken where the new LC is not 0. -/
def execDjnz (t : BitVec 24) (s : State) : StepResult :=
  let s' := { s with lc := s.lc - 1 }
  if s'.lc ≠ 0 then .next (s'.jumpTo (jumpTarget t)) else .next s'.advance

/-- BNEND t (R456): the jump is taken where FLAGS.BEND is 0; BEND is kept. -/
def execBnend (t : BitVec 24) (s : State) : StepResult :=
  if s.bend then .next s.advance else .next (s.jumpTo (jumpTarget t))

/-- The body of SETL (R457): REG[r] <- zext_32(imm16), masked by the register. -/
def setLow (r : BitVec 8) (imm16 : BitVec 16) (s : State) : Run State := do
  let reg ← cmdReg r s
  return s.storeReg reg (imm16.setWidth 32)

/-- The body of SETH (R458): REG[r] <- imm16 · 2^16 + REG[r][15:0], masked by the register. -/
def setHigh (r : BitVec 8) (imm16 : BitVec 16) (s : State) : Run State := do
  let reg ← cmdReg r s
  return s.storeReg reg (imm16 ++ Word.field (s.readReg reg) 0 16)

/-- SETL r, imm16 (R457). -/
def execSetl (r : BitVec 8) (imm16 : BitVec 16) (s : State) : StepResult := runCommand (.setl r imm16) (setLow r imm16) s

/-- SETH r, imm16 (R458). -/
def execSeth (r : BitVec 8) (imm16 : BitVec 16) (s : State) : StepResult := runCommand (.seth r imm16) (setHigh r imm16) s

end Sys2Proof.Machine
end

