-- ==== Sys2Proof/Machine/Serial.lean ====
section
/-!
DEFINITION. The coefficient serializer commands (44_serializer.md R350-R362).
-/

namespace Sys2Proof.Machine

/-- Q in zigzag order: `Q[ZZ[i]]` for i = 0..63 (R350), as signed integers. -/
def State.zigzagQ (s : State) : List Int := Tables.zigzag.toList.map fun k => (s.qBlk.get k).toInt

/-! ## Dense coding -/

/-- The 64 bytes SERD writes (R352). -/
def denseBytes (qs : List Int) : List Byte := qs.map fun v => two8 (clampInt v (-128) 127)

/-- The body of SERD (R352). -/
def serd (s : State) : Run State := do
  needAligned s.wr.bit s
  wrBytes (denseBytes s.zigzagQ) s

/-- Entry `k` of Q <- v. -/
def setQ (q : Vector Word 64) (k : Fin 64) (v : Int) : Vector Word 64 := q.set k.val (two32 v)

/-- One round of DSERD's loop (R354): the next byte, signed, into Q[ZZ[i]]. -/
def dserdRound (s : State) (k : Fin 64) : Run State := do
  let (b, s) ← rdByte .formatShort s
  return { s with qBlk := setQ s.qBlk k (sext8 b) }

/-- The body of DSERD (R354). -/
def dserd (s : State) : Run State := do
  needAligned s.rd.bit s
  Tables.zigzag.toList.foldlM dserdRound s

/-! ## Sparse coding -/

/-- The sentinel byte (R353). -/
def sentinel : Byte := 0x80

/-- `last + 1` of R353: one more than the last zigzag position of a nonzero value, 0 where there is none. -/
def sparseCount (qs : List Int) : Nat := (qs.reverse.dropWhile (· == 0)).length

/-- The bytes of one value in the sparse form (R353): one signed byte, or the sentinel and the value's four bytes, most
significant first (R107, R351). -/
def sparseValue (v : Int) : List Byte :=
  if needsEscape v then sentinel :: (bytesOfWord (two32 v)).reverse else [two8 v]

/-- The bytes SERS writes for Q in zigzag order (R353). -/
def sparseBytes (qs : List Int) : List Byte :=
  BitVec.ofNat 8 (sparseCount qs) :: (qs.take (sparseCount qs)).flatMap sparseValue

/-- FLAGS.ESC of R353: some value written needed the escape. -/
def sparseEsc (qs : List Int) : Bool := (qs.take (sparseCount qs)).any needsEscape

/-- The body of SERS (R353). -/
def sers (s : State) : Run State := do
  needAligned s.wr.bit s
  let t ← wrBytes (sparseBytes s.zigzagQ) s
  return t.setEsc (sparseEsc s.zigzagQ)

/-- What DSERS has read so far: the state, the block being filled, and whether an escape was met (R355). -/
structure SparseIn where
  s : State
  q : Vector Word 64
  esc : Bool

/-- The value of an escape (R355): four bytes, most significant first. -/
def rdEscape (s : State) : Run (Word × State) := do
  let (b3, s) ← rdByte .decodeEsc s
  let (b2, s) ← rdByte .decodeEsc s
  let (b1, s) ← rdByte .decodeEsc s
  let (b0, s) ← rdByte .decodeEsc s
  return (wordOfBytes b0 b1 b2 b3, s)

/-- One round of DSERS's loop (R355) for zigzag position k. -/
def dsersRound (x : SparseIn) (k : Fin 64) : Run SparseIn := do
  let (b, s) ← rdByte .formatShort x.s
  if b = sentinel then
    let (w, s) ← rdEscape s
    return ⟨s, setQ x.q k w.toInt, true⟩
  else
    return ⟨s, setQ x.q k (sext8 b), x.esc⟩

/-- The body of DSERS (R355). -/
def dsers (s : State) : Run State := do
  needAligned s.rd.bit s
  let (n, s) ← rdByte .formatShort s
  refuseIf (decide (n.toNat > 64)) .decodeCount s
  let x ← (Tables.zigzag.toList.take n.toNat).foldlM dsersRound ⟨s, Vector.replicate 64 0, false⟩
  return { x.s with qBlk := x.q }.setEsc x.esc

/-! ## Quality side information -/

/-- The body of PUTQ (R356). -/
def putq (s : State) : Run State := do
  needAligned s.wr.bit s
  wrByte s.qeff s

/-- The body of GETQ (R357). -/
def getq (s : State) : Run State := do
  needAligned s.rd.bit s
  let (v, s) ← rdByte .formatShort s
  refuseIf (decide (v.toNat < 1) || decide (v.toNat > 100)) .decodeQeff s
  return { s with qeff := v }

/-- The body of PUTIDX (R358). -/
def putidx (s : State) : Run State := ixWrite2 s.qidx s

/-- The body of GETIDX (R359). -/
def getidx (s : State) : Run State := do
  let (v, s) ← ixRead2 s
  return { s with qidx := v }

/-! ## The commands -/

/-- SERD (R352). -/
def execSerd (s : State) : StepResult := runCommand .serd serd s

/-- SERS (R353). -/
def execSers (s : State) : StepResult := runCommand .sers sers s

/-- DSERD (R354). -/
def execDserd (s : State) : StepResult := runCommand .dserd dserd s

/-- DSERS (R355). -/
def execDsers (s : State) : StepResult := runCommand .dsers dsers s

/-- PUTQ (R356). -/
def execPutq (s : State) : StepResult := runCommand .putq putq s

/-- GETQ (R357). -/
def execGetq (s : State) : StepResult := runCommand .getq getq s

/-- PUTIDX (R358). -/
def execPutidx (s : State) : StepResult := runCommand .putidx putidx s

/-- GETIDX (R359). -/
def execGetidx (s : State) : StepResult := runCommand .getidx getidx s

/-- IALN (R360). -/
def execIaln (s : State) : StepResult := .next (State.advance { s with ix := s.ix.align })

/-- WALN (R361). -/
def execWaln (s : State) : StepResult := .next (State.advance { s with wr := s.wr.align })

/-- RALN (R362). -/
def execRaln (s : State) : StepResult := .next (State.advance { s with rd := s.rd.align })

end Sys2Proof.Machine
end

