-- ==== Sys2Proof/Machine/Dispatch.lean ====
section
/-!
DEFINITION. The dispatch of a command to its meaning (30_encoding.md R159).
-/

namespace Sys2Proof.Machine

/-- The effect of command `i` in state `s`: the step of 46_sequencer.md R459 after fetch and decode. -/
def exec (i : Instr) (s : State) : Host.Outcome State Fault Refusal :=
  match i with
  | .nop => Sys2Proof.Machine.execNop s
  | .halt => Sys2Proof.Machine.execHalt s
  | .irq => Sys2Proof.Machine.execIrq s
  | .jmp t => Sys2Proof.Machine.execJmp t s
  | .djnz t => Sys2Proof.Machine.execDjnz t s
  | .bnend t => Sys2Proof.Machine.execBnend t s
  | .setl r imm16 => Sys2Proof.Machine.execSetl r imm16 s
  | .seth r imm16 => Sys2Proof.Machine.execSeth r imm16 s
  | .cscf a b c => Sys2Proof.Machine.execCscf a b c s
  | .csci a b c => Sys2Proof.Machine.execCsci a b c s
  | .csub a b => Sys2Proof.Machine.execCsub a b s
  | .cups a b => Sys2Proof.Machine.execCups a b s
  | .pad a m => Sys2Proof.Machine.execPad a m s
  | .ldb a => Sys2Proof.Machine.execLdb a s
  | .stb a => Sys2Proof.Machine.execStb a s
  | .bnxt a => Sys2Proof.Machine.execBnxt a s
  | .brst => Sys2Proof.Machine.execBrst s
  | .fdct => Sys2Proof.Machine.execFdct s
  | .idct => Sys2Proof.Machine.execIdct s
  | .var => Sys2Proof.Machine.execVar s
  | .qnt t md => Sys2Proof.Machine.execQnt t md s
  | .dqnt t md => Sys2Proof.Machine.execDqnt t md s
  | .serd => Sys2Proof.Machine.execSerd s
  | .sers => Sys2Proof.Machine.execSers s
  | .dserd => Sys2Proof.Machine.execDserd s
  | .dsers => Sys2Proof.Machine.execDsers s
  | .putq => Sys2Proof.Machine.execPutq s
  | .getq => Sys2Proof.Machine.execGetq s
  | .putidx => Sys2Proof.Machine.execPutidx s
  | .getidx => Sys2Proof.Machine.execGetidx s
  | .ialn => Sys2Proof.Machine.execIaln s
  | .waln => Sys2Proof.Machine.execWaln s
  | .raln => Sys2Proof.Machine.execRaln s
  | .hclr => Sys2Proof.Machine.execHclr s
  | .hfreq => Sys2Proof.Machine.execHfreq s
  | .hbuild => Sys2Proof.Machine.execHbuild s
  | .henc => Sys2Proof.Machine.execHenc s
  | .hdec => Sys2Proof.Machine.execHdec s

end Sys2Proof.Machine
end

