-- ==== Sys2Proof/Machine/HostPort.lean ====
section
/-!
DEFINITION. The slave port (20_memory.md R100-R103, R118-R120): what a host read returns and what a host write does, at every
offset of the map (10_state.md R32, R33). The engine is not involved: each access takes effect wholly between two engine steps
(60_exceptions.md R505).
-/

namespace Sys2Proof.Machine

/-! ## The map -/

/-- What a word-aligned host offset reaches (R32, R33). Byte tables and S are reached four bytes at a time (R102): `w` is the
word of the window. `lmem a` is the LMEM word at byte address `a`. -/
inductive HostTarget where
  | reg (r : Reg)
  | qtLuma (w : Fin 16)
  | qtChroma (w : Fin 16)
  | zigzag (w : Fin 16)
  | sBlk (w : Fin 16)
  | cBlk (k : Fin 64)
  | qBlk (k : Fin 64)
  | hfreq (sym : Fin 256)
  | hnodeFreq (i : Fin 511)
  | hnodeLink (i : Fin 511)
  | lmem (a : Nat)
  | reserved
  deriving DecidableEq, Repr

/-- The word offset an access reaches: `A AND 0x1FFFFFC` (R103). -/
def alignedOffset (offset : BitVec 25) : Nat := offset.toNat / 4 * 4

/-- Word `o / 4 mod 16` of a 64-byte window. -/
def byteWindowWord (o : Nat) : Fin 16 := ⟨o / 4 % 16, by omega⟩

/-- Entry `o / 4 mod 64` of a window of 64 words. -/
def wordWindowEntry (o : Nat) : Fin 64 := ⟨o / 4 % 64, by omega⟩

/-- The node a HNODE offset reaches (R33: offsets 0x1000-0x1FF7, eight bytes a node), FREQ first and LINK four bytes on. -/
def nodeTarget (o : Nat) : HostTarget :=
  let i := (o - 0x1000) / 8
  if h : i < 511 then (if o % 8 < 4 then .hnodeFreq ⟨i, h⟩ else .hnodeLink ⟨i, h⟩) else .reserved

/-- The target of the word offset `o` with an LMEM of `size` bytes (R32, R33). -/
def targetAt (size o : Nat) : HostTarget :=
  if o < 0x100 then (match Reg.ofNum? (o / 4) with
    | some r => .reg r
    | none => .reserved)
  else if o < 0x140 then .qtLuma (byteWindowWord o)
  else if o < 0x180 then .qtChroma (byteWindowWord o)
  else if o < 0x1C0 then .zigzag (byteWindowWord o)
  else if o < 0x200 then .reserved
  else if o < 0x240 then .sBlk (byteWindowWord o)
  else if o < 0x300 then .reserved
  else if o < 0x400 then .cBlk (wordWindowEntry o)
  else if o < 0x500 then .qBlk (wordWindowEntry o)
  else if o < 0x800 then .reserved
  else if o < 0xC00 then .hfreq ⟨o / 4 % 256, by omega⟩
  else if o < 0x1000 then .reserved
  else if o < 0x2000 then nodeTarget o
  else if 0x10000 ≤ o ∧ o < 0x10000 + size then .lmem (o - 0x10000)
  else .reserved

/-- R120: the offsets the host may reach while BUSY = 1. -/
def alwaysOpen (o : Nat) : Bool := decide (o < 0x20)

/-- R120: an access at offset `o` is closed in state `s`. -/
def State.closed (s : State) (o : Nat) : Bool := s.busy && ! alwaysOpen o

/-! ## Reads -/

/-- Word `w` of a 64-byte window, little-endian (R102). -/
def windowWord (bytes : Vector Byte 64) (w : Fin 16) : Word :=
  wordOfBytes (bytes.get ⟨4 * w.val, by omega⟩) (bytes.get ⟨4 * w.val + 1, by omega⟩)
    (bytes.get ⟨4 * w.val + 2, by omega⟩) (bytes.get ⟨4 * w.val + 3, by omega⟩)

/-- The zigzag ROM as bytes (R64). -/
def zigzagBytes : Vector Byte 64 := Vector.ofFn fun i => BitVec.ofNat 8 (Tables.zigzag.get i).val

/-- The LINK word of a node (R66). -/
def HNode.linkWord (n : HNode) : Word :=
  (0 : BitVec 3) ++ BitVec.ofBool n.valid ++ BitVec.ofBool n.leaf ++ n.parent ++ n.right ++ n.left

/-- The word at a target (R118). -/
def State.targetWord (s : State) : HostTarget → Word
  | .reg r => s.readReg r
  | .qtLuma w => windowWord s.qtLuma w
  | .qtChroma w => windowWord s.qtChroma w
  | .zigzag w => windowWord zigzagBytes w
  | .sBlk w => windowWord s.sBlk w
  | .cBlk k => s.cBlk.get k
  | .qBlk k => s.qBlk.get k
  | .hfreq sym => s.hfreq.get sym
  | .hnodeFreq i => (s.hnode.get i).freq
  | .hnodeLink i => (s.hnode.get i).linkWord
  | .lmem a => wordOf (s.bytes4 a)
  | .reserved => 0

/-- A host read (R103, R118, R120): the word goes to the host; a closed read returns 0 and sets BUSYACC. -/
def State.hostRead (s : State) (offset : BitVec 25) : State :=
  let o := alignedOffset offset
  if s.closed o then { s with readData := 0, busyAcc := true }
  else { s with readData := s.targetWord (targetAt s.lmemSize o) }

/-! ## Writes -/

/-- The bits of the strobed byte lanes (R103). -/
def strobeMask (strobe : BitVec 4) : Word :=
  let lane (i : Nat) : Byte := if strobe.getLsbD i then 0xFF else 0
  wordOfBytes (lane 0) (lane 1) (lane 2) (lane 3)

/-- `old` with the strobed lanes of `data` (R103). -/
def mergeLanes (old data : Word) (strobe : BitVec 4) : Word :=
  (old &&& ~~~strobeMask strobe) ||| (data &&& strobeMask strobe)

/-- Word `w` of a 64-byte window <- `v`, little-endian (R102). -/
def putWindowWord (bytes : Vector Byte 64) (w : Fin 16) (v : Word) : Vector Byte 64 :=
  (((bytes.set (4 * w.val) (Word.field v 0 8)).set (4 * w.val + 1) (Word.field v 8 8)).set
    (4 * w.val + 2) (Word.field v 16 8)).set (4 * w.val + 3) (Word.field v 24 8)

/-- The LMEM word at `a` <- `v`, little-endian (R102). -/
def Memory.putWord (m : Memory) (a : Nat) (v : Word) : Memory :=
  (((m.write a (Word.field v 0 8)).write (a + 1) (Word.field v 8 8)).write (a + 2) (Word.field v 16 8)).write
    (a + 3) (Word.field v 24 8)

/-- A write of a register (R31): CTRL acts on the 1 bits in strobed lanes; a W1C bit is cleared by a 1 in a strobed lane
(of STATUS only BUSYACC, R39); a RW register gets the strobed lanes; a RO register ignores the write. -/
def State.hostWriteReg (s : State) (r : Reg) (data : Word) (strobe : BitVec 4) : State :=
  let ones := data &&& strobeMask strobe
  match r with
  | .ctrl => s.ctrlWrite ones
  | .status => if ones.getLsbD 2 then { s with busyAcc := false } else s
  | .irqStatus => { s with irqStatus := s.irqStatus &&& ~~~(ones.setWidth 3) }
  | r => s.storeReg r (mergeLanes (s.readReg r) data strobe)

/-- A write of a target (R103, R33): the strobed lanes of `data`, every other byte kept. -/
def State.putTarget (s : State) (t : HostTarget) (data : Word) (strobe : BitVec 4) : State :=
  let v := mergeLanes (s.targetWord t) data strobe
  match t with
  | .reg r => s.hostWriteReg r data strobe
  | .qtLuma w => { s with qtLuma := putWindowWord s.qtLuma w v }
  | .qtChroma w => { s with qtChroma := putWindowWord s.qtChroma w v }
  | .sBlk w => { s with sBlk := putWindowWord s.sBlk w v }
  | .cBlk k => { s with cBlk := s.cBlk.set k.val v }
  | .qBlk k => { s with qBlk := s.qBlk.set k.val v }
  | .hfreq sym => { s with hfreq := s.hfreq.set sym.val v }
  | .lmem a => s.withMem (s.mem.putWord a v)
  | .zigzag _ | .hnodeFreq _ | .hnodeLink _ | .reserved => s

/-- A host write (R103, R118, R120): a closed write is dropped and sets BUSYACC. -/
def State.hostWrite (s : State) (offset : BitVec 25) (data : Word) (strobe : BitVec 4) : State :=
  let o := alignedOffset offset
  if s.closed o then { s with busyAcc := true } else s.putTarget (targetAt s.lmemSize o) data strobe

/-! ## Events -/

/-- The state after a host event. -/
def State.hostEvent (s : State) : HostEvent → State
  | .quiet => s
  | .read offset => s.hostRead offset
  | .write offset data strobe => s.hostWrite offset data strobe
  | .hardReset cells => s.hardReset cells

end Sys2Proof.Machine
end

