-- ==== Sys2Proof/Machine/Step.lean ====
section
/-!
DEFINITION. The step of the machine: an engine step (46_sequencer.md R459), or a host event between two of them
(60_exceptions.md R505).
-/

namespace Sys2Proof.Machine

/-- `Step()` of R459: fetch, decode, execute; an error of the fetch or of decode halts (R510). It does nothing while BUSY = 0. -/
def engineStep (s : State) : Host.Outcome State Fault Refusal :=
  if s.busy then
    match fetchBytes s with
    | none => .next (s.errorHalt .fetch s.mem 0)
    | some bytes =>
      match decodeBytes bytes with
      | .error _ => .next (s.errorHalt .illegal s.mem (wordOf bytes))
      | .ok (i, _) => exec i s
  else .next s

/-- One step of the machine. Where a host event is next, it takes effect, alone (R505; `quiet` is a boundary at which nothing
arrives, and the engine steps). Where no event is to come, the engine steps. -/
def step (s : State) : Host.Outcome State Fault Refusal :=
  match s.hostQueue with
  | [] => engineStep s
  | .quiet :: rest => engineStep { s with hostQueue := rest }
  | e :: rest => .next (State.hostEvent { s with hostQueue := rest } e)

/-- Where `withFetchWord` puts its word: at CPC where a fetch there is legal (R106), else at 0. -/
def State.fetchSlot (s : State) : Word :=
  if s.cpc.toNat % 4 = 0 ∧ s.cpc.toNat + 4 ≤ s.lmemSize then s.cpc else 0

/-- The state whose next step fetches and runs the command of `nbits` bits `w`: the command's four bytes are in LMEM at CPC,
the engine runs (BUSY = 1, and so ERR = 0, R39), and nothing is at the host port. It stands for the host's boot sequence of
70_reset_and_hazards.md R553 (log entry 3). -/
def State.withFetchWord (s : State) (nbits w : Nat) : State :=
  { s with
    mem := s.mem.putWord s.fetchSlot.toNat (BitVec.ofNat 32 (w % 2 ^ nbits))
    cpc := s.fetchSlot
    busy := true
    err := false
    hostQueue := [] }

end Sys2Proof.Machine
end

