-- ==== Sys2Proof/Safety.lean ====
section
/-!
DEFINITION. What the claims call a well-formed state and a safe step: the invariant of the machine, the invariant of the
Huffman tree, and what it means that a step ended in an error halt.
-/

namespace Sys2Proof.Machine

/-- ERR_CODE holds E_NONE or a code of R501 ("the list is complete: no command raises any other code"). -/
abbrev State.errCodeListed (s : State) : Prop := s.errCode = errNone ∨ ∃ c ∈ ErrCode.all, s.errCode = c.code

/-- The invariant of the machine: LMEM is in its canonical form and lists no address at or above LMEM_SIZE (R101); BUSY and
ERR are never both 1 (R39); ERR_CODE is a listed code (R501); VARN is in the range of R57. -/
abbrev State.Inv (s : State) : Prop :=
  s.mem.wf ∧ s.mem.below s.lmemSize ∧ ¬ (s.busy = true ∧ s.err = true) ∧ s.errCodeListed ∧ s.varn.toNat ≤ 66585600

/-- Node `i` of a tree of `n` leaves is a leaf of R402: valid, its symbol a byte and, with the next leaf, in ascending symbol
order. -/
abbrev Arena.leafOk (t : Arena) (n : Nat) (i : Nat) : Prop :=
  (t.node i).leaf = true ∧ (t.node i).left.toNat < 256 ∧ (t.node i).right = 0 ∧
    (i + 1 < n → (t.node i).left.toNat < (t.node (i + 1)).left.toNat)

/-- Node `i` is an internal node of R404: two different children, both made before it, and it is their parent. -/
abbrev Arena.innerOk (t : Arena) (i : Nat) : Prop :=
  (t.node i).leaf = false ∧ (t.node i).left.toNat < i ∧ (t.node i).right.toNat < i ∧ (t.node i).left ≠ (t.node i).right ∧
    (t.node (t.node i).left.toNat).parent.toNat = i ∧ (t.node (t.node i).right.toNat).parent.toNat = i

/-- The PARENT field of node `i` of a tree of `n` leaves (R66, R404): 0x1FF at the root 2n − 2, else an internal node that has
`i` as a child. -/
abbrev Arena.parentOk (t : Arena) (n : Nat) (i : Nat) : Prop :=
  if i = 2 * n - 2 then (t.node i).parent = 0x1FF
  else n ≤ (t.node i).parent.toNat ∧ (t.node i).parent.toNat < 2 * n - 1 ∧
    ((t.node (t.node i).parent.toNat).left.toNat = i ∨ (t.node (t.node i).parent.toNat).right.toNat = i)

/-- Node `i` of the arena is as R402 and R404 place it for a tree of `n` leaves: a leaf below n, an internal node from n to
2n − 2, and a zero node above. -/
abbrev Arena.nodeOk (t : Arena) (n : Nat) (i : Nat) : Prop :=
  if i < 2 * n - 1 then
    (t.node i).valid = true ∧ (if i < n then Arena.leafOk t n i else Arena.innerOk t i) ∧ Arena.parentOk t n i
  else t.node i = HNode.zero

/-- The Huffman tree invariant: HNLEAF is at most 256, HROOT is the root index of R402 (0x1FF where there is no tree, R59),
and every node of the arena is in its place. With it every bit string reaches a leaf (R410) and every leaf has one code
(R405). -/
abbrev State.TreeOk (s : State) : Prop :=
  s.hnleaf.toNat ≤ 256 ∧ s.hroot = rootIndex s.hnleaf.toNat ∧ ∀ i : Fin 511, Arena.nodeOk s.hnode s.hnleaf.toNat i.val

/-- The step from `s` to `t` ended in an error halt (R510): the engine was not halted before and is now. -/
abbrev ErrorHalted (s t : State) : Prop := s.err = false ∧ t.err = true

/-- A step that is safe: it has a next state, and that is no error halt. -/
abbrev SafeStep (s : State) : Prop := ∃ t, step s = .next t ∧ ¬ ErrorHalted s t

end Sys2Proof.Machine
end

