-- ==== Sys2Proof/Certificates/Slice0/Obligations.lean ====
section
/-!
DEFINITION. The statements for the provers, from the numbered rules of spec/. The helper definitions of `Sys2Proof.Claims` write
the spec's own formulas out again, beside the model's, so that a statement compares two texts.
-/

namespace Sys2Proof.Claims

open Sys2Proof Sys2Proof.Machine

/-! ## Vocabulary: errors and checks -/

/-- The state an error halt leaves (60_exceptions.md R510), written out: `s` is the state before the failing command, `code` the
error code, `w` the command word (0 for E_FETCH), `m` LMEM as the failing command left it. -/
def halted (s : State) (code : Byte) (w : Word) (m : Memory) : State :=
  { s with
    mem := m, busy := false, err := true, errCode := code, errCpc := s.cpc, errCmd := w
    irqStatus := s.irqStatus ||| 0b010 }

/-- The code of the first failing check of a list of checks in their order (60_exceptions.md R504): each check is whether it
fails, and its code. -/
def firstOf (checks : List (Bool × Byte)) : Option Byte := (checks.find? fun c => c.1).map fun c => c.2

/-- Every check passes. -/
abbrev Passes (checks : List (Bool × Byte)) : Prop := firstOf checks = none

/-- Command `i` in `s` makes these checks first, in this order, and halts on the first that fails, with nothing written. -/
def Refuses (i : Instr) (s : State) (checks : List (Bool × Byte)) : Prop :=
  ∀ code, firstOf checks = some code → exec i s = .next (halted s code (encode i) s.mem)

/-- A byte of LMEM as an integer. -/
def byteVal (m : Memory) (k : Nat) : Int := ((m.byteAt k).toNat : Int)

/-- Memory `m'` holds the bytes `bs` from address `p` on, and everywhere else what `m` holds. -/
abbrev Stored (m m' : Memory) (p : Nat) (bs : List Byte) : Prop :=
  (∀ j (h : j < bs.length), m'.byteAt (p + j) = bs[j]) ∧
    ∀ k, (k < p ∨ p + bs.length ≤ k) → m'.byteAt k = m.byteAt k

/-- The entry 8·r + c of a block (00_scope.md R12). -/
def at8 (r c : Fin 8) : Fin 64 := ⟨8 * r.val + c.val, by omega⟩

/-! ## Vocabulary: encodings (30_encoding.md R158, R159, R161) -/

/-- The opcode field of a word (R151). -/
def opOf (w : Word) : Nat := w.toNat / 2 ^ 26

/-- The reserved opcodes (R161.1). -/
def reservedOp (op : Nat) : Bool := op ∈ [0x00, 0x0E, 0x0F, 0x17, 0x1A, 0x1B, 0x27] || decide (0x2D ≤ op)

/-- The reserved mask of the opcode's format (R158, R159). -/
def reservedMask (op : Nat) : Word :=
  if op ∈ [0x04, 0x05, 0x06] then 0x03000000
  else if op ∈ [0x07, 0x08] then 0x00030000
  else if op ∈ [0x09, 0x0A] then 0x0001FFFF
  else if op ∈ [0x0B, 0x0C] then 0x000FFFFF
  else if op ∈ [0x10, 0x11, 0x12] then 0x007FFFFF
  else if op = 0x0D then 0x003FFFFF
  else if op ∈ [0x18, 0x19] then 0x007FFFFF
  else 0x03FFFFFF

/-- The words R161 calls E_ILLEGAL: a reserved opcode, a reserved bit at 1, or format QM with md = 3. -/
def illegalWord (w : Word) : Bool :=
  reservedOp (opOf w) || (w &&& reservedMask (opOf w)) != 0
    || (opOf w ∈ [0x18, 0x19] && w.toNat / 2 ^ 23 % 4 == 3)

/-- The register numbers R32 marks `cmd`. -/
def cmdNumber (n : Nat) : Bool := decide (0x0A ≤ n ∧ n ≤ 0x0D) || decide (0x10 ≤ n ∧ n ≤ 0x32) || n == 0x34

/-- The words R161.4 calls E_REGNUM: format S with a register number that is not `cmd`. -/
def badRegnumWord (w : Word) : Bool := opOf w ∈ [0x07, 0x08] && ! cmdNumber (w.toNat / 2 ^ 18 % 256)

/-- `w` is the little-endian word at address `a` (20_memory.md R106). -/
abbrev WordAt (m : Memory) (a : Nat) (w : Word) : Prop := ∀ j < 4, m.byteAt (a + j) = w.extractLsb' (8 * j) 8

/-- The engine's next step fetches at a legal CPC (20_memory.md R106), and no host access comes before it. -/
abbrev Fetches (s : State) : Prop :=
  s.busy = true ∧ s.hostQueue = [] ∧ s.cpc.toNat % 4 = 0 ∧ s.cpc.toNat + 4 ≤ s.lmemSize

/-- The opcode of a command. -/
def op (i : Instr) : BitVec 6 := (encode i).extractLsb' 26 6

/-! ## Vocabulary: the register table of 10_state.md R32 -/

/-- A row of R32: the register, its number, its implemented mask, its host class (R31), whether it is `cmd`. -/
structure RegRow where
  reg : Reg
  num : Nat
  mask : Word
  host : Access
  cmd : Bool

/-- R32's table. -/
def regRows : List RegRow :=
  [⟨.id, 0x00, 0xFFFFFFFF, .ro, false⟩, ⟨.ctrl, 0x01, 0x00000007, .wo, false⟩, ⟨.status, 0x02, 0x00000007, .w1c, false⟩,
   ⟨.irqStatus, 0x03, 0x00000007, .w1c, false⟩, ⟨.irqEnable, 0x04, 0x00000007, .rw, false⟩,
   ⟨.errCode, 0x05, 0x000000FF, .ro, false⟩, ⟨.errCpc, 0x06, 0xFFFFFFFF, .ro, false⟩, ⟨.errCmd, 0x07, 0xFFFFFFFF, .ro, false⟩,
   ⟨.cpc, 0x08, 0xFFFFFFFF, .rw, false⟩, ⟨.flags, 0x09, 0x00000003, .rw, false⟩, ⟨.lc, 0x0A, 0xFFFFFFFF, .rw, true⟩,
   ⟨.cfg, 0x0B, 0x00000001, .rw, true⟩, ⟨.rgbBase, 0x0C, 0xFFFFFFFF, .rw, true⟩, ⟨.bcur, 0x0D, 0xFFFFFFFF, .rw, true⟩]
  ++ ((List.finRange 8).flatMap fun p =>
      [⟨.pdBase p, 0x10 + 2 * p.val, 0xFFFFFFFF, .rw, true⟩, ⟨.pdDim p, 0x11 + 2 * p.val, 0xFFFFFFFF, .rw, true⟩])
  ++ [⟨.rdPtr, 0x20, 0xFFFFFFFF, .rw, true⟩, ⟨.rdLim, 0x21, 0xFFFFFFFF, .rw, true⟩, ⟨.rdBit, 0x22, 0x00000007, .rw, true⟩,
   ⟨.wrPtr, 0x23, 0xFFFFFFFF, .rw, true⟩, ⟨.wrLim, 0x24, 0xFFFFFFFF, .rw, true⟩, ⟨.wrBit, 0x25, 0x00000007, .rw, true⟩,
   ⟨.ixPtr, 0x26, 0xFFFFFFFF, .rw, true⟩, ⟨.ixLim, 0x27, 0xFFFFFFFF, .rw, true⟩, ⟨.ixBit, 0x28, 0x00000007, .rw, true⟩]
  ++ [⟨.quality, 0x29, 0x000000FF, .rw, true⟩, ⟨.qbase, 0x2A, 0x000000FF, .rw, true⟩, ⟨.vtLo, 0x2B, 0x0000FFFF, .rw, true⟩,
   ⟨.vtHi, 0x2C, 0x0000FFFF, .rw, true⟩, ⟨.aqf, 0x2D, 0x00FFFFFF, .rw, true⟩, ⟨.candN, 0x2E, 0x00000007, .rw, true⟩,
   ⟨.cand01, 0x2F, 0xFFFFFFFF, .rw, true⟩, ⟨.cand23, 0x30, 0xFFFFFFFF, .rw, true⟩, ⟨.qeff, 0x31, 0x000000FF, .rw, true⟩,
   ⟨.qidx, 0x32, 0x00000003, .rw, true⟩, ⟨.varn, 0x33, 0xFFFFFFFF, .ro, false⟩, ⟨.hcount, 0x34, 0xFFFFFFFF, .rw, true⟩,
   ⟨.hroot, 0x35, 0x000001FF, .ro, false⟩, ⟨.hnleaf, 0x36, 0x000001FF, .ro, false⟩, ⟨.hbits, 0x37, 0xFFFFFFFF, .ro, false⟩]

/-- The number a register reads as, written out from the fields that hold its implemented bits, each at its place (R35-R59): ID is
constant (R35), CTRL reads 0 (R36), STATUS is BUSY, ERR, BUSYACC from bit 0 up (R39), and every other register is one field. -/
def registerValue (s : State) : Reg → Nat
  | .id => 0x44434501
  | .ctrl => 0
  | .status => s.busy.toNat + 2 * s.err.toNat + 4 * s.busyAcc.toNat
  | .irqStatus => s.irqStatus.toNat
  | .irqEnable => s.irqEnable.toNat
  | .errCode => s.errCode.toNat
  | .errCpc => s.errCpc.toNat
  | .errCmd => s.errCmd.toNat
  | .cpc => s.cpc.toNat
  | .flags => s.flags.toNat
  | .lc => s.lc.toNat
  | .cfg => s.cfg.toNat
  | .rgbBase => s.rgbBase.toNat
  | .bcur => s.bcur.toNat
  | .pdBase n => (s.planes.get n).base.toNat
  | .pdDim n => (s.planes.get n).dim.toNat
  | .rdPtr => s.rd.ptr.toNat
  | .rdLim => s.rd.lim.toNat
  | .rdBit => s.rd.bit.toNat
  | .wrPtr => s.wr.ptr.toNat
  | .wrLim => s.wr.lim.toNat
  | .wrBit => s.wr.bit.toNat
  | .ixPtr => s.ix.ptr.toNat
  | .ixLim => s.ix.lim.toNat
  | .ixBit => s.ix.bit.toNat
  | .quality => s.quality.toNat
  | .qbase => s.qbase.toNat
  | .vtLo => s.vtLo.toNat
  | .vtHi => s.vtHi.toNat
  | .aqf => s.aqf.toNat
  | .candN => s.candN.toNat
  | .cand01 => s.cand01.toNat
  | .cand23 => s.cand23.toNat
  | .qeff => s.qeff.toNat
  | .qidx => s.qidx.toNat
  | .varn => s.varn.toNat
  | .hcount => s.hcount.toNat
  | .hroot => s.hroot.toNat
  | .hnleaf => s.hnleaf.toNat
  | .hbits => s.hbits.toNat

/-- Everything that is no register is equal: blocks, tables, HFREQ, HNODE, LMEM, the build, and the last word read by the
host. -/
def SameBeyondRegisters (s t : State) : Prop :=
  t.sBlk = s.sBlk ∧ t.cBlk = s.cBlk ∧ t.qBlk = s.qBlk ∧ t.qtLuma = s.qtLuma ∧ t.qtChroma = s.qtChroma ∧
    t.hfreq = s.hfreq ∧ t.hnode = s.hnode ∧ t.mem = s.mem ∧ t.params = s.params ∧ t.readData = s.readData

/-- Every register other than `r` reads as before. -/
def OtherRegistersSame (s t : State) (r : Reg) : Prop := ∀ r', r' ≠ r → t.readReg r' = s.readReg r'

/-! ## Vocabulary: planes, the raster, the cursor (41_color_resample.md R200-R202, 42_block_transform.md R250) -/

def planeBase (s : State) (p : Slot) : Nat := (s.planes.get p).base.toNat
def planeW (s : State) (p : Slot) : Nat := (s.planes.get p).dim.toNat % 2 ^ 16
def planeH (s : State) (p : Slot) : Nat := (s.planes.get p).dim.toNat / 2 ^ 16

/-- The end of the footprint [base, base + PW·PH). -/
def planeEnd (s : State) (p : Slot) : Nat := planeBase s p + ceil8 (planeW s p) * ceil8 (planeH s p)

/-- The address of sample (x, y). -/
def sampleAt (s : State) (p : Slot) (x y : Nat) : Nat := planeBase s p + ceil8 (planeW s p) * y + x

/-- Position (x, y) is in the interior of the plane. -/
abbrev Inside (s : State) (p : Slot) (x y : Nat) : Prop := x < planeW s p ∧ y < planeH s p

/-- The end of the raster that has the size of plane p. -/
def rasterEnd (s : State) (p : Slot) : Nat := s.rgbBase.toNat + 3 * planeW s p * planeH s p

/-- The address of the R byte of pixel (x, y) of that raster; G and B follow. -/
def pixelAt (s : State) (p : Slot) (x y : Nat) : Nat := s.rgbBase.toNat + 3 * (planeW s p * y + x)

/-- R202: two footprints overlap. -/
def meet (lo hi lo' hi' : Nat) : Bool := decide (lo < hi') && decide (lo' < hi)

def planesMeet (s : State) (p q : Slot) : Bool := meet (planeBase s p) (planeEnd s p) (planeBase s q) (planeEnd s q)

/-- The raster of plane a's size overlaps plane p. -/
def rasterMeets (s : State) (a p : Slot) : Bool := meet s.rgbBase.toNat (rasterEnd s a) (planeBase s p) (planeEnd s p)

/-- The checks of `Plane(p)`: E_INPUT_DIM, then E_INPUT_RANGE. -/
def planeChecks (s : State) (p : Slot) : List (Bool × Byte) :=
  [(planeW s p == 0 || planeH s p == 0, 0x20), (decide (planeEnd s p > s.lmemSize), 0x21)]

def sizesDiffer (s : State) (p q : Slot) : Bool := planeW s p != planeW s q || planeH s p != planeH s q

/-- The checks of CSCF and CSCI in R202's order; `overlap` is the command's own overlap rule. -/
def colourChecks (s : State) (a b c : Slot) (overlap : Bool) : List (Bool × Byte) :=
  planeChecks s a ++ planeChecks s b ++ planeChecks s c ++
    [(sizesDiffer s b a || sizesDiffer s c a, 0x20), (decide (rasterEnd s a > s.lmemSize), 0x21), (overlap, 0x22)]

/-- The checks of CSUB and CUPS: `full` is the full-resolution plane, `half` the subsampled one, `a` and `b` the operands. -/
def resampleChecks (s : State) (a b full half : Slot) : List (Bool × Byte) :=
  planeChecks s a ++ planeChecks s b ++
    [(planeW s half != (planeW s full + 1) / 2 || planeH s half != (planeH s full + 1) / 2, 0x20), (planesMeet s a b, 0x22)]

def curX (s : State) : Nat := s.bcur.toNat % 2 ^ 16
def curY (s : State) : Nat := s.bcur.toNat / 2 ^ 16

/-- The columns and rows of a plane's block grid (R250). -/
def blocksX (s : State) (p : Slot) : Nat := ceil8 (planeW s p) / 8
def blocksY (s : State) (p : Slot) : Nat := ceil8 (planeH s p) / 8

/-- The checks of `Cursor(p)`. -/
def cursorChecks (s : State) (p : Slot) : List (Bool × Byte) :=
  planeChecks s p ++ [(decide (curX s ≥ blocksX s p) || decide (curY s ≥ blocksY s p), 0x23)]

/-- The address of row r, column c of the current block of plane p (R257, R258). -/
def blockAt (s : State) (p : Slot) (r c : Fin 8) : Nat := sampleAt s p (8 * curX s + c.val) (8 * curY s + r.val)

/-! ## Vocabulary: streams (20_memory.md R110-R116) -/

/-- How many bytes the stream can still access: below its limit and below LMEM_SIZE. -/
def room (st : Stream) (size : Nat) : Nat := min st.lim.toNat size - st.ptr.toNat

/-- The error of the first access past `room`: the limit is checked before the address (R110, R111). `code` is the code of the
limit check; 0x52 is E_ADDR. -/
def pastEnd (st : Stream) (size : Nat) (code : Byte) : Byte :=
  if st.lim.toNat ≤ st.ptr.toNat + room st size then code else 0x52

/-- How many bits the stream can still access. -/
def bitRoom (st : Stream) (size : Nat) : Nat := 8 * room st size - st.bit.toNat

/-- The stream `n` bits on. -/
def bitsOn (st : Stream) (n : Nat) : Stream :=
  { st with
    ptr := st.ptr + BitVec.ofNat 32 ((st.bit.toNat + n) / 8)
    bit := BitVec.ofNat 3 ((st.bit.toNat + n) % 8) }

/-- The stream `n` bytes on. -/
def bytesOn (st : Stream) (n : Nat) : Stream := { st with ptr := st.ptr + BitVec.ofNat 32 n }

/-- Bit `j` of the bit stream whose first byte is at `p`, most significant bit of each byte first. -/
def bitAt (m : Memory) (p j : Nat) : Bool := (m.byteAt (p + j / 8)).getLsbD (7 - j % 8)

/-- Memory `m'` is `m` with the bits `bs` appended at the position of `st` (R112): the bits before them stay, the bits after
them in the byte where they start stay if that byte had been started before, the bits after them in a fresh byte are 0, and
every other byte stays. -/
def BitsStored (st : Stream) (m m' : Memory) (bs : List Bool) : Prop :=
  (∀ j < 8 * ((st.bit.toNat + bs.length + 7) / 8),
    bitAt m' st.ptr.toNat j =
      if j < st.bit.toNat then bitAt m st.ptr.toNat j
      else if h : j - st.bit.toNat < bs.length then bs[j - st.bit.toNat]
      else if j < 8 ∧ st.bit ≠ 0 then bitAt m st.ptr.toNat j
      else false) ∧
  ∀ k, (k < st.ptr.toNat ∨ st.ptr.toNat + (st.bit.toNat + bs.length + 7) / 8 ≤ k) → m'.byteAt k = m.byteAt k

/-- A command that checks WR_BIT and then writes the bytes `bs` one by one (R111, R115, 60_exceptions.md R512): it halts on a
nonzero bit position; it completes where all bytes fit, FLAGS becoming `f`; else the bytes that fit stay written and it halts. -/
def WritesBytes (i : Instr) (s : State) (bs : List Byte) (f : BitVec 2) : Prop :=
  (s.wr.bit ≠ 0 → exec i s = .next (halted s 0x50 (encode i) s.mem)) ∧
  (s.wr.bit = 0 → bs.length ≤ room s.wr s.lmemSize → ∃ m,
    exec i s = .next { s with mem := m, wr := bytesOn s.wr bs.length, flags := f, cpc := s.cpc + 4 } ∧
      Stored s.mem m s.wr.ptr.toNat bs) ∧
  (s.wr.bit = 0 → room s.wr s.lmemSize < bs.length → ∃ m,
    exec i s = .next (halted s (pastEnd s.wr s.lmemSize 0x51) (encode i) m) ∧
      Stored s.mem m s.wr.ptr.toNat (bs.take (room s.wr s.lmemSize)))

/-! ## Vocabulary: the serializer (44_serializer.md R350-R355) -/

/-- `Q[ZZ[i]]`, signed. -/
def zigzagQ (s : State) (i : Fin 64) : Int := (s.qBlk.get (Tables.zigzag.get i)).toInt

/-- The four bytes of a word, most significant first (20_memory.md R107). -/
def bigEndian (w : Word) : List Byte := [w.extractLsb' 24 8, w.extractLsb' 16 8, w.extractLsb' 8 8, w.extractLsb' 0 8]

/-- A value that one byte of the sparse form carries (R353). -/
abbrev fitsByte (v : Int) : Prop := -127 ≤ v ∧ v ≤ 127

/-- `n` is one more than the last zigzag position of a nonzero value, 0 where every value is 0 (R353). -/
abbrev IsSparseCount (s : State) (n : Nat) : Prop :=
  n ≤ 64 ∧ (∀ i : Fin 64, n ≤ i.val → zigzagQ s i = 0) ∧ ∀ i : Fin 64, i.val + 1 = n → zigzagQ s i ≠ 0

/-- The bytes of one value of the sparse form (R353). -/
def sparseForm (v : Int) : List Byte :=
  if fitsByte v then [BitVec.ofInt 8 v] else 0x80 :: bigEndian (BitVec.ofInt 32 v)

/-- One value of a sparse stream as DSERS reads it (R355): a byte, or an escape with its 32-bit value. -/
abbrev Item := Byte ⊕ Word

def itemBytes : Item → List Byte
  | .inl b => [b]
  | .inr w => 0x80 :: bigEndian w

def itemVal : Item → Int
  | .inl b => b.toInt
  | .inr w => w.toInt

/-- The items are as a stream can hold them: the byte 0x80 is always an escape. -/
abbrev ItemsLegal (items : List Item) : Prop := ∀ b : Byte, Sum.inl b ∈ items → b ≠ 0x80

/-- A sparse stream of count byte `n` and the items. -/
def sparseStream (n : Nat) (items : List Item) : List Byte := BitVec.ofNat 8 n :: items.flatMap itemBytes

/-- The bytes `bs` stand at address `p`. -/
abbrev Holds (m : Memory) (p : Nat) (bs : List Byte) : Prop := ∀ j (h : j < bs.length), m.byteAt (p + j) = bs[j]

/-! ## Vocabulary: the quantizer (43_quantizer.md R302-R306) -/

/-- QT[t][k]. -/
def tableEntry (s : State) (t : QTable) (k : Fin 64) : Nat :=
  match t with
  | .luma => (s.qtLuma.get k).toNat
  | .chroma => (s.qtChroma.get k).toNat

/-- CAND[k] (10_state.md R54). -/
def candAt (s : State) (k : Fin 4) : Nat :=
  match k with
  | 0 => s.cand01.toNat % 2 ^ 16
  | 1 => s.cand01.toNat / 2 ^ 16
  | 2 => s.cand23.toNat % 2 ^ 16
  | 3 => s.cand23.toNat / 2 ^ 16

/-- A quality outside 1..100. -/
def badQuality (q : Byte) : Bool := decide (q.toNat < 1) || decide (q.toNat > 100)

def tableChecks (s : State) (t : QTable) : List (Bool × Byte) := [(decide (∃ k, tableEntry s t k = 0), 0x13)]

def candidateChecks (s : State) : List (Bool × Byte) :=
  [(decide (s.candN.toNat < 1) || decide (s.candN.toNat > 4), 0x11),
   (decide (∃ k : Fin 4, k.val < s.candN.toNat ∧ candAt s k = 0), 0x12)]

/-- The checks of QNT in mode md (R307). -/
def quantChecks (s : State) (t : QTable) (md : QMode) : List (Bool × Byte) :=
  tableChecks s t ++ match md with
    | .fixed => [(badQuality s.quality, 0x10)]
    | .cont => []
    | .idx => candidateChecks s

/-- The checks of DQNT in mode md (R308). -/
def dequantChecks (s : State) (t : QTable) (md : QMode) : List (Bool × Byte) :=
  tableChecks s t ++ match md with
    | .fixed => [(badQuality s.quality, 0x10)]
    | .cont => [(badQuality s.qeff, 0x10)]
    | .idx => candidateChecks s ++ [(decide (s.qidx.toNat ≥ s.candN.toNat), 0x44)]

/-- The effective quality (R303). -/
def effectiveQuality (s : State) : Int :=
  let f : Int :=
    if s.varn.toNat < s.vtLo.toNat * 4096 then s.aqf.toNat % 2 ^ 8
    else if s.varn.toNat > s.vtHi.toNat * 4096 then s.aqf.toNat / 2 ^ 16
    else s.aqf.toNat / 2 ^ 8 % 2 ^ 8
  clampInt (rnd (f * s.qbase.toNat) 16) 1 100

/-- |12800 − CAND[k]·q| (R304). -/
def snapGap (s : State) (k : Fin 4) : Int := |12800 - (candAt s k : Int) * effectiveQuality s|

/-- `k` is the least index below CAND_N with the least gap (R304). -/
def IsSnap (s : State) (k : Fin 4) : Prop :=
  k.val < s.candN.toNat ∧ (∀ j : Fin 4, j.val < s.candN.toNat → snapGap s k ≤ snapGap s j) ∧
    ∀ j : Fin 4, j < k → snapGap s k < snapGap s j

/-- What QNT stores for the value v (R306). -/
def clampedIf (s : State) (v : Int) : Int := if s.cfg = 1 then clampInt v (-128) 127 else v

def sat (v : Int) : Int := clampInt v (-2 ^ 31) (2 ^ 31 - 1)

/-! ## Vocabulary: the Huffman coder (45_huffman.md R402-R405) -/

/-- HNODE[i]; an index that is no node reads as a node of zeros. -/
def nodeAt (s : State) (i : Nat) : HNode := if h : i < 511 then s.hnode.get ⟨i, h⟩ else HNode.zero

/-- The node reached from node `i` by the bits: LEFT at 0, RIGHT at 1 (R405); none where a step would leave a node that is no
valid internal node. -/
def walk (s : State) : Nat → List Bool → Option Nat
  | i, [] => some i
  | i, b :: bs =>
    if (nodeAt s i).valid && ! (nodeAt s i).leaf then
      walk s (if b then (nodeAt s i).right.toNat else (nodeAt s i).left.toNat) bs
    else none

/-- The bits are the code of the symbol: they lead from HROOT to the valid leaf of the symbol (R405). -/
def IsCode (s : State) (sym : Byte) (bits : List Bool) : Prop :=
  ∃ i, walk s s.hroot.toNat bits = some i ∧ (nodeAt s i).valid = true ∧ (nodeAt s i).leaf = true ∧
    (nodeAt s i).left = sym.setWidth 9

/-- The codes are those of the symbols, one for one. -/
def AreCodes (s : State) (syms : List Byte) (codes : List (List Bool)) : Prop := List.Forall₂ (IsCode s) syms codes

/-- The read stream's bits from its position are `bs`. -/
def ReadsBits (s : State) (at' : Nat) (bs : List Bool) : Prop :=
  ∀ j (h : j < bs.length), bitAt s.mem s.rd.ptr.toNat (s.rd.bit.toNat + at' + j) = bs[j]

/-- How often the symbol stands among the next `n` bytes of the read stream. -/
def occurrences (s : State) (n : Nat) (sym : Fin 256) : Nat :=
  (List.range n).countP fun k => s.mem.byteAt (s.rd.ptr.toNat + k) == BitVec.ofFin sym

/-- HFREQ can count the next `n` bytes of the read stream: they can be read and no counter passes 2^32 − 1 (R407). -/
abbrev CanCount (s : State) (n : Nat) : Prop :=
  n ≤ room s.rd s.lmemSize ∧ ∀ sym : Fin 256, (s.hfreq.get sym).toNat + occurrences s n sym < 2 ^ 32

/-- Node `k` is active when node `i` is about to be made (R404): made before it, and not merged before it. -/
def Active (s : State) (i k : Nat) : Prop := k < i ∧ i ≤ (nodeAt s k).parent.toNat

/-- Node a comes before node b in the order of R403, by (FREQ, index). -/
def Before (s : State) (a b : Nat) : Prop :=
  (nodeAt s a).freq.toNat < (nodeAt s b).freq.toNat ∨ ((nodeAt s a).freq.toNat = (nodeAt s b).freq.toNat ∧ a < b)

/-- Node `i` is the merge of the two least active nodes, the first the left child (R403, R404). -/
def IsMerge (s : State) (i : Nat) : Prop :=
  let a := (nodeAt s i).left.toNat
  let b := (nodeAt s i).right.toNat
  (nodeAt s i).valid = true ∧ (nodeAt s i).leaf = false ∧ (nodeAt s i).freq.toNat = (nodeAt s a).freq.toNat + (nodeAt s b).freq.toNat ∧
    a ≠ b ∧ Active s i a ∧ Active s i b ∧ (nodeAt s a).parent.toNat = i ∧ (nodeAt s b).parent.toNat = i ∧
    (∀ k, Active s i k → k ≠ a → Before s a k) ∧ ∀ k, Active s i k → k ≠ a → k ≠ b → Before s b k

/-- The tree of state `t` is the one R402 and R404 build from the histogram of `s`, with `n` leaves. -/
def IsTreeOf (s t : State) (n : Nat) : Prop :=
  (∀ i, i < n → ∃ sym : Fin 256, (s.hfreq.get sym) ≠ 0 ∧ (nodeAt t i).left.toNat = sym.val ∧
      (nodeAt t i).freq = s.hfreq.get sym ∧ (nodeAt t i).right = 0 ∧ (nodeAt t i).leaf = true ∧ (nodeAt t i).valid = true) ∧
  (∀ i j, i < j → j < n → (nodeAt t i).left.toNat < (nodeAt t j).left.toNat) ∧
  (∀ sym : Fin 256, s.hfreq.get sym ≠ 0 → ∃ i, i < n ∧ (nodeAt t i).left.toNat = sym.val) ∧
  (∀ i, n ≤ i → i < 2 * n - 1 → IsMerge t i) ∧
  (0 < n → (nodeAt t (2 * n - 2)).parent = 0x1FF) ∧
  (∀ i, 2 * n - 1 ≤ i → nodeAt t i = HNode.zero) ∧
  t.hroot.toNat = (if n = 0 then 0x1FF else 2 * n - 2) ∧ t.hnleaf.toNat = n

/-! ## Vocabulary: the slave port (20_memory.md R100-R103, 10_state.md R33) -/

/-- Byte `j` of word `w`. -/
def byteOf (w : Word) (j : Nat) : Byte := w.extractLsb' (8 * j) 8

/-- The LINK word of a node, field by field (10_state.md R66). -/
def linkValue (n : HNode) : Nat :=
  n.left.toNat + 2 ^ 9 * n.right.toNat + 2 ^ 18 * n.parent.toNat + 2 ^ 27 * n.leaf.toNat + 2 ^ 28 * n.valid.toNat

/-- The byte at host offset `a` of the windows of R33, `a` at or above 0x100. -/
def windowByte (s : State) (a : Nat) : Byte :=
  if 0x100 ≤ a ∧ a < 0x140 then s.qtLuma.toList.getD (a - 0x100) 0
  else if 0x140 ≤ a ∧ a < 0x180 then s.qtChroma.toList.getD (a - 0x140) 0
  else if 0x180 ≤ a ∧ a < 0x1C0 then BitVec.ofNat 8 ((Tables.zigzag.toList.map Fin.val).getD (a - 0x180) 0)
  else if 0x200 ≤ a ∧ a < 0x240 then s.sBlk.toList.getD (a - 0x200) 0
  else if 0x300 ≤ a ∧ a < 0x400 then byteOf (s.cBlk.toList.getD ((a - 0x300) / 4) 0) (a % 4)
  else if 0x400 ≤ a ∧ a < 0x500 then byteOf (s.qBlk.toList.getD ((a - 0x400) / 4) 0) (a % 4)
  else if 0x800 ≤ a ∧ a < 0xC00 then byteOf (s.hfreq.toList.getD ((a - 0x800) / 4) 0) (a % 4)
  else if 0x1000 ≤ a ∧ a < 0x1FF8 then
    (if a % 8 < 4 then byteOf (nodeAt s ((a - 0x1000) / 8)).freq (a % 4)
     else byteOf (BitVec.ofNat 32 (linkValue (nodeAt s ((a - 0x1000) / 8)))) (a % 4))
  else if 0x10000 ≤ a ∧ a < 0x10000 + s.lmemSize then s.mem.byteAt (a - 0x10000)
  else 0

/-- The offsets of the RW windows of R33. -/
def windowWritable (s : State) (a : Nat) : Bool :=
  decide (0x100 ≤ a ∧ a < 0x180) || decide (0x200 ≤ a ∧ a < 0x240) || decide (0x300 ≤ a ∧ a < 0x500)
    || decide (0x800 ≤ a ∧ a < 0xC00) || decide (0x10000 ≤ a ∧ a < 0x10000 + s.lmemSize)

/-- Bit `b` of the word a host write puts in place of `old` (R103): the strobed lanes of the data. -/
def mergedBit (old data : Word) (strobe : BitVec 4) (b : Nat) : Bool :=
  if strobe.getLsbD (b / 8) then data.getLsbD b else old.getLsbD b

end Sys2Proof.Claims

section
open Sys2Proof Sys2Proof.Machine Sys2Proof.Claims

/-! ## Encoding (30_encoding.md) -/

/-- R163's example words, each written from its format, and the words of R450, R458, R260 and R408: they decode to the commands
they stand for. -/
def Obligations.SpecWordsDecode : Prop :=
  decode 0x50000000 = .ok .fdct ∧ decode 0x10000010 = .ok (.jmp 0x10) ∧
  decode 0x1C802000 = .ok (.setl 0x20 0x2000) ∧ decode 0x20440008 = .ok (.seth 0x11 8) ∧
  decode 0x24140000 = .ok (.cscf 0 1 2) ∧ decode 0x2D900000 = .ok (.csub 3 1) ∧
  decode 0x40000000 = .ok (.ldb 0) ∧ decode 0x34C00000 = .ok (.pad 1 .c128) ∧
  decode 0x63000000 = .ok (.qnt .chroma .idx) ∧ decode 0x04000000 = .ok .nop ∧
  decode 0x4C000000 = .ok .brst ∧ decode 0xA8000000 = .ok .hbuild ∧
  decode 0x00000000 = .error .reservedOpcode ∧ decode 0xFFFFFFFF = .error .reservedOpcode

/-- Decode and encode agree: the bytes of a command's word, whatever follows them, decode to that command, every operand at
every value, and exactly four bytes are taken (R150, R152-R157). For a SETL or SETH whose register number is not `cmd`, which
R161.4 and R457 refuse with E_REGNUM at decode, that the decoder gives the command is the model's choice (log entry 7, DESIGN
CHOICE): the command itself then raises E_REGNUM, before any effect. -/
def Obligations.DecodeOfEncode : Prop :=
  ∀ (i : Instr) (rest : List Byte), decodeBytes (bytesOfWord (encode i) ++ rest) = .ok (i, rest)

/-- The other direction: a word that decodes to a command is that command's encoding, so no two words mean one command and the
word of a failing command is its encoding (R158, R160). -/
def Obligations.EncodeOfDecode : Prop := ∀ (w : Word) (i : Instr), decode w = .ok i → encode i = w

/-- R161: the illegal words and the bad register numbers halt the engine before any effect, in R161's order, and every other
word decodes to a well-formed command. -/
def Obligations.IllegalEncodingsHalt : Prop :=
  ∀ (s : State) (w : Word), Fetches s → WordAt s.mem s.cpc.toNat w →
    (illegalWord w = true → step s = .next (halted s 0x01 w s.mem)) ∧
    (illegalWord w = false → badRegnumWord w = true → step s = .next (halted s 0x03 w s.mem)) ∧
    (illegalWord w = false → badRegnumWord w = false → ∃ i, decode w = .ok i ∧ i.wellFormed = true)

/-! ## The engine step (46_sequencer.md R459, 20_memory.md R106) -/

/-- Where the word at CPC decodes to a command, the step is that command's meaning at that state; where the host queue holds a
quiet boundary first, at the state without it (the queue is the model's form of R505, log entry 3). -/
def Obligations.StepExecutesTheDecodedCommand : Prop :=
  ∀ (s : State) (w : Word) (i : Instr), WordAt s.mem s.cpc.toNat w → decode w = .ok i →
    (Fetches s → step s = exec i s) ∧
    (∀ rest, s.hostQueue = .quiet :: rest → Fetches { s with hostQueue := [] } → step s = exec i { s with hostQueue := rest })

/-- While BUSY = 0 and no host access comes, the step does nothing (R459, 60_exceptions.md R546). While BUSY = 1 a misaligned
CPC, or one whose word leaves LMEM, raises E_FETCH (R106); ERR_CPC is that CPC and ERR_CMD is 0 (R503). -/
def Obligations.IdleStepAndIllegalFetch : Prop :=
  ∀ s : State, s.hostQueue = [] →
    (s.busy = false → step s = .next s) ∧
    (s.busy = true → (s.cpc.toNat % 4 ≠ 0 ∨ s.cpc.toNat + 4 > s.lmemSize) → step s = .next (halted s 0x02 0 s.mem))

/-- Every step of every state has a next state: no error of the DCE ends the machine (R500), and no command is refused. -/
def Obligations.EveryStepHasANextState : Prop := ∀ s : State, ∃ t, step s = .next t

/-! ## The error halt (60_exceptions.md) -/

/-- R510, R511: a step that ends in an error halt leaves everything as it was, LMEM apart, but for the record of the error; the
recorded word is the one at CPC, or 0 for E_FETCH; the code is one of R501's. -/
def Obligations.ErrorHaltRestoresAllButLmem : Prop :=
  ∀ (s t : State) (w : Word), s.hostQueue = [] → s.err = false → WordAt s.mem s.cpc.toNat w → step s = .next t → t.err = true →
    t.errCode ∈ ([0x01, 0x02, 0x03, 0x10, 0x11, 0x12, 0x13, 0x20, 0x21, 0x22, 0x23, 0x30, 0x40, 0x41, 0x42, 0x43, 0x44, 0x50,
      0x51, 0x52, 0x60, 0x61, 0x62] : List Byte) ∧
    t = halted s t.errCode (if t.errCode = 0x02 then 0 else w) t.mem

/-- The codes R501's last column gives each command, after decode. -/
def Sys2Proof.Claims.raisedBy : Instr → List Byte
  | .setl _ _ | .seth _ _ => [0x03]
  | .cscf _ _ _ | .csci _ _ _ | .csub _ _ | .cups _ _ => [0x20, 0x21, 0x22]
  | .pad _ _ => [0x20, 0x21]
  | .ldb _ | .stb _ | .bnxt _ => [0x20, 0x21, 0x23]
  | .qnt _ .fixed => [0x13, 0x10]
  | .qnt _ .cont => [0x13]
  | .qnt _ .idx => [0x13, 0x11, 0x12]
  | .dqnt _ .fixed | .dqnt _ .cont => [0x13, 0x10]
  | .dqnt _ .idx => [0x13, 0x11, 0x12, 0x44]
  | .serd | .sers | .putq => [0x50, 0x51, 0x52]
  | .dserd => [0x50, 0x30, 0x52]
  | .dsers => [0x50, 0x30, 0x40, 0x41, 0x52]
  | .getq => [0x50, 0x30, 0x52, 0x43]
  | .putidx => [0x50, 0x51, 0x52]
  | .getidx => [0x50, 0x30, 0x52]
  | .hfreq => [0x50, 0x30, 0x52, 0x62]
  | .hbuild => [0x62]
  | .henc => [0x60, 0x50, 0x30, 0x52, 0x61, 0x51]
  | .hdec => [0x60, 0x50, 0x42, 0x52, 0x51]
  | .nop | .halt | .irq | .jmp _ | .djnz _ | .bnend _ | .brst | .fdct | .idct | .var | .ialn | .waln | .raln | .hclr => []

/-- R501: a command raises no code but those its row names; the commands R501 lists at its end raise none. -/
def Obligations.CommandsRaiseOnlyTheirCodes : Prop :=
  ∀ (i : Instr) (s t : State), s.err = false → exec i s = .next t → t.err = true → t.errCode ∈ raisedBy i

/-- R512: a failing command other than the six stream writers leaves LMEM as it was; a failing SERD, SERS, PUTQ, HENC or HDEC
changes LMEM only from WR_PTR to below WR_LIM, and keeps the bits before WR_BIT of a started byte; a failing PUTQ or PUTIDX,
whose one write is its last action, changes nothing. -/
def Obligations.FailingCommandsWriteOnlyTheirStream : Prop :=
  ∀ (i : Instr) (s t : State), s.mem.wf → s.err = false → exec i s = .next t → t.err = true →
    (i ∉ [Instr.serd, .sers, .henc, .hdec] → t.mem = s.mem) ∧
    (∀ k, (k < s.wr.ptr.toNat ∨ s.wr.lim.toNat ≤ k) → t.mem.byteAt k = s.mem.byteAt k) ∧
    ∀ j < s.wr.bit.toNat, bitAt t.mem s.wr.ptr.toNat j = bitAt s.mem s.wr.ptr.toNat j

/-! ## Invariants and whole-machine rules -/

/-- The invariant `State.Inv` (LMEM in its canonical form and inside LMEM_SIZE, R101; BUSY and ERR never both 1, R39; ERR_CODE a
code of R501; VARN in R57's range) is kept by every step of every state that has it: engine steps and host events alike. -/
def Obligations.StepKeepsInvariant : Prop := ∀ s t : State, s.Inv → step s = .next t → t.Inv

/-- The tree invariant `State.TreeOk` (R402, R404) is kept by every step. -/
def Obligations.StepKeepsHuffmanTree : Prop := ∀ s t : State, s.TreeOk → step s = .next t → t.TreeOk

/-- Both invariants hold after a hard reset, for every LMEM_SIZE and every LMEM content of canonical form that fits. -/
def Obligations.ResetMeetsInvariants : Prop :=
  (∀ (p : Config.Params) (m : Memory), m.wf → m.below p.lmemSize →
    (State.hardResetState p m).Inv ∧ (State.hardResetState p m).TreeOk) ∧ State.reset.Inv ∧ State.reset.TreeOk

/-- The blocks, the tables, HFREQ, HNODE and LMEM change only by the commands 10_state.md R60-R66 and 20_memory.md name for
them; no command writes QT (R63). The opcodes are those of R159. -/
def Obligations.BlocksAndTablesChangeOnlyByTheirCommands : Prop :=
  ∀ (i : Instr) (s t : State), exec i s = .next t →
    t.qtLuma = s.qtLuma ∧ t.qtChroma = s.qtChroma ∧ t.params = s.params ∧ t.hostQueue = s.hostQueue ∧ t.readData = s.readData ∧
    (t.sBlk ≠ s.sBlk → op i ∈ ([0x10, 0x15] : List (BitVec 6))) ∧
    (t.cBlk ≠ s.cBlk → op i ∈ ([0x14, 0x19] : List (BitVec 6))) ∧
    (t.qBlk ≠ s.qBlk → op i ∈ ([0x18, 0x1E, 0x1F] : List (BitVec 6))) ∧
    (t.hfreq ≠ s.hfreq → op i ∈ ([0x28, 0x29] : List (BitVec 6))) ∧
    (t.hnode ≠ s.hnode → op i ∈ ([0x2A] : List (BitVec 6))) ∧
    (t.mem ≠ s.mem → op i ∈ ([0x09, 0x0A, 0x0B, 0x0C, 0x0D, 0x11, 0x1C, 0x1D, 0x20, 0x22, 0x2B, 0x2C] : List (BitVec 6)))

/-- The registers change only by the commands 10_state.md names for them (SETL and SETH, 0x07 and 0x08, for the `cmd` registers);
STATUS.BUSYACC and IRQ_ENABLE by none; BUSY and IRQ_STATUS also by an error halt, which alone changes ERR and its record. -/
def Obligations.RegistersChangeOnlyByTheirCommands : Prop :=
  ∀ (i : Instr) (s t : State), s.err = false → exec i s = .next t →
    t.busyAcc = s.busyAcc ∧ t.irqEnable = s.irqEnable ∧
    (t.err = false → t.errCode = s.errCode ∧ t.errCpc = s.errCpc ∧ t.errCmd = s.errCmd) ∧
    (t.busy ≠ s.busy → t.err = true ∨ op i = 0x02) ∧
    (t.irqStatus ≠ s.irqStatus → t.err = true ∨ op i ∈ ([0x02, 0x03] : List (BitVec 6))) ∧
    (t.lc ≠ s.lc → op i ∈ ([0x05, 0x07, 0x08] : List (BitVec 6))) ∧
    (t.flags ≠ s.flags → op i ∈ ([0x12, 0x13, 0x1D, 0x1F] : List (BitVec 6))) ∧
    (t.bcur ≠ s.bcur → op i ∈ ([0x07, 0x08, 0x12, 0x13] : List (BitVec 6))) ∧
    (t.rd ≠ s.rd → op i ∈ ([0x07, 0x08, 0x1E, 0x1F, 0x21, 0x26, 0x29, 0x2B, 0x2C] : List (BitVec 6))) ∧
    (t.wr ≠ s.wr → op i ∈ ([0x07, 0x08, 0x1C, 0x1D, 0x20, 0x25, 0x2B, 0x2C] : List (BitVec 6))) ∧
    (t.ix ≠ s.ix → op i ∈ ([0x07, 0x08, 0x22, 0x23, 0x24] : List (BitVec 6))) ∧
    (t.qeff ≠ s.qeff → op i ∈ ([0x07, 0x08, 0x18, 0x21] : List (BitVec 6))) ∧
    (t.qidx ≠ s.qidx → op i ∈ ([0x07, 0x08, 0x18, 0x23] : List (BitVec 6))) ∧
    (t.varn ≠ s.varn → op i = 0x16) ∧ (t.hroot ≠ s.hroot ∨ t.hnleaf ≠ s.hnleaf → op i = 0x2A) ∧
    (t.hbits ≠ s.hbits → op i = 0x2B) ∧
    (op i ≠ 0x07 → op i ≠ 0x08 →
      t.planes = s.planes ∧ t.rgbBase = s.rgbBase ∧ t.cfg = s.cfg ∧ t.quality = s.quality ∧ t.qbase = s.qbase ∧
      t.vtLo = s.vtLo ∧ t.vtHi = s.vtHi ∧ t.aqf = s.aqf ∧ t.candN = s.candN ∧ t.cand01 = s.cand01 ∧ t.cand23 = s.cand23 ∧
      t.hcount = s.hcount ∧ t.rd.lim = s.rd.lim ∧ t.wr.lim = s.wr.lim ∧ t.ix.lim = s.ix.lim)

/-! ## Reset (70_reset_and_hazards.md) -/

/-- R550's table, row by row, after a hard reset of any build with any LMEM content, from where the engine does nothing by itself;
and a hard reset that reaches the DCE gives that state, LMEM holding the bytes the environment gives (R552; for addresses given
once). (The event, `hostQueue`, `readData` and `params` are the model's own, log entries 1, 3 and 12.) -/
def Obligations.HardResetValues : Prop :=
  (∀ (s : State) (cells : List Host.Cell) (rest : List HostEvent), s.hostQueue = .hardReset cells :: rest → ∃ m,
    step s = .next { State.hardResetState s.params m with hostQueue := rest, readData := s.readData } ∧
      ∀ a v, a < s.lmemSize → (a, v) ∈ cells → (∀ v', (a, v') ∈ cells → v' = v) → m.byteAt a = v) ∧
  ∀ (p : Config.Params) (m : Memory), let s := State.hardResetState p m
    s.readReg .id = 0x44434501 ∧ s.readReg .ctrl = 0 ∧ s.readReg .status = 0 ∧ s.readReg .irqStatus = 0 ∧
    s.readReg .irqEnable = 0 ∧ s.readReg .errCode = 0 ∧ s.readReg .errCpc = 0 ∧ s.readReg .errCmd = 0 ∧ s.readReg .cpc = 0 ∧
    s.readReg .flags = 0 ∧ s.readReg .lc = 0 ∧ s.readReg .cfg = 1 ∧ s.readReg .rgbBase = 0 ∧ s.readReg .bcur = 0 ∧
    (∀ n, s.readReg (.pdBase n) = 0 ∧ s.readReg (.pdDim n) = 0) ∧
    s.readReg .rdPtr = 0 ∧ s.readReg .rdLim = 0 ∧ s.readReg .rdBit = 0 ∧ s.readReg .wrPtr = 0 ∧ s.readReg .wrLim = 0 ∧
    s.readReg .wrBit = 0 ∧ s.readReg .ixPtr = 0 ∧ s.readReg .ixLim = 0 ∧ s.readReg .ixBit = 0 ∧
    s.readReg .quality = 50 ∧ s.readReg .qbase = 50 ∧ s.readReg .vtLo = 100 ∧ s.readReg .vtHi = 500 ∧
    s.readReg .aqf = 0x0018100C ∧ s.readReg .candN = 4 ∧ s.readReg .cand01 = 0x01000080 ∧ s.readReg .cand23 = 0x04000200 ∧
    s.readReg .qeff = 50 ∧ s.readReg .qidx = 0 ∧ s.readReg .varn = 0 ∧ s.readReg .hcount = 0 ∧ s.readReg .hroot = 0x1FF ∧
    s.readReg .hnleaf = 0 ∧ s.readReg .hbits = 0 ∧
    (∀ k, s.sBlk.get k = 0 ∧ s.cBlk.get k = 0 ∧ s.qBlk.get k = 0) ∧ (∀ sym, s.hfreq.get sym = 0) ∧
    (∀ i, (s.hnode.get i).freq = 0 ∧ linkValue (s.hnode.get i) = 0) ∧
    s.qtLuma.toList =
      [16, 11, 10, 16, 24, 40, 51, 61, 12, 12, 14, 19, 26, 58, 60, 55, 14, 13, 16, 24, 40, 57, 69, 56, 14, 17, 22, 29, 51, 87,
       80, 62, 18, 22, 37, 56, 68, 109, 103, 77, 24, 35, 55, 64, 81, 104, 113, 92, 49, 64, 78, 87, 103, 121, 120, 101, 72, 92,
       95, 98, 112, 100, 103, 99] ∧
    s.qtChroma.toList =
      [17, 18, 24, 47, 99, 99, 99, 99, 18, 21, 26, 66, 99, 99, 99, 99, 24, 26, 56, 99, 99, 99, 99, 99, 47, 66, 99, 99, 99, 99,
       99, 99] ++ List.replicate 32 99 ∧
    s.mem = m ∧ s.irqLine = false ∧ step s = .next s

/-! ## Arithmetic (00_scope.md R10, R11) and the zigzag ROM -/

/-- R10: `rnd(n, d)` is within half of n/d, a half going up. R11: `clamp` is the nearest value of the interval, `sat32` the
clamp to 32 bits signed, `ceil8` the least multiple of 8 at or above v, `ceil2` half of v rounded up. -/
def Obligations.NotationArithmetic : Prop :=
  (∀ n d : Int, 0 < d → 2 * n - d < 2 * d * rnd n d ∧ 2 * d * rnd n d ≤ 2 * n + d) ∧
  (∀ v lo hi : Int, lo ≤ hi →
    clampInt v lo hi = max lo (min hi v)) ∧
  (∀ v : Int, sat32 v = max (-2147483648) (min 2147483647 v)) ∧
  (∀ v : Nat, 8 ∣ ceil8 v ∧ v ≤ ceil8 v ∧ ceil8 v < v + 8) ∧ ∀ v : Nat, v ≤ 2 * ceil2 v ∧ 2 * ceil2 v ≤ v + 1

/-- R350: the zigzag ROM, and that it is a bijection. -/
def Obligations.ZigzagRom : Prop :=
  Tables.zigzag.toList.map Fin.val =
    [0, 1, 8, 16, 9, 2, 3, 10, 17, 24, 32, 25, 18, 11, 4, 5, 12, 19, 26, 33, 40, 48, 41, 34, 27, 20, 13, 6, 7, 14, 21, 28,
     35, 42, 49, 56, 57, 50, 43, 36, 29, 22, 15, 23, 30, 37, 44, 51, 58, 59, 52, 45, 38, 31, 39, 46, 53, 60, 61, 54, 47, 55,
     62, 63] ∧ Function.Bijective fun i : Fin 64 => Tables.zigzag.get i

/-- R251: the cosine ROM, row by row of frequency. -/
def Obligations.CosineRom : Prop :=
  (List.finRange 8).map (fun u => (List.finRange 8).map (Tables.K u)) =
    [List.replicate 8 370728,
     [514214, 435930, 291279, 102284, -102284, -291279, -435930, -514214],
     [484379, 200636, -200636, -484379, -484379, -200636, 200636, 484379],
     [435930, -102284, -514214, -291279, 291279, 514214, 102284, -435930],
     [370728, -370728, -370728, 370728, 370728, -370728, -370728, 370728],
     [291279, -514214, 102284, 435930, -435930, -102284, 514214, -291279],
     [200636, -484379, 484379, -200636, -200636, 484379, -484379, 200636],
     [102284, -291279, 435930, -514214, 514214, -435930, 291279, -102284]]

/-! ## Sequencer commands (46_sequencer.md) -/

/-- R450, R451, R452: what NOP, HALT and IRQ do, in every state, and that they do nothing else. -/
def Obligations.NopHaltIrqResults : Prop :=
  ∀ s : State,
    exec .nop s = .next { s with cpc := s.cpc + 4 } ∧
    exec .halt s = .next { s with busy := false, irqStatus := s.irqStatus ||| 0b001, cpc := s.cpc + 4 } ∧
    exec .irq s = .next { s with irqStatus := s.irqStatus ||| 0b100, cpc := s.cpc + 4 }

/-- R453, R455, R456: the jumps. The target is the byte address t·4, unchecked; DJNZ counts LC down modulo 2^32 and jumps while
it is not 0; BNEND jumps while FLAGS.BEND is 0 and keeps it. -/
def Obligations.JumpResults : Prop :=
  ∀ (s : State) (t : BitVec 24), let target : Word := BitVec.ofNat 32 (t.toNat * 4)
    exec (.jmp t) s = .next { s with cpc := target } ∧
    exec (.djnz t) s =
      .next { s with lc := s.lc - 1, cpc := if s.lc = 1 then s.cpc + 4 else target } ∧
    exec (.bnend t) s = .next { s with cpc := if s.flags.getLsbD 0 then s.cpc + 4 else target }

/-- R457, R458: SETL and SETH on a `cmd` register store the masked value and nothing else; on any other number they raise
E_REGNUM. -/
def Obligations.SetRegisterHalves : Prop :=
  (∀ (s : State) (row : RegRow) (imm : BitVec 16), row ∈ regRows → row.cmd = true →
    (∃ t, exec (.setl (BitVec.ofNat 8 row.num) imm) s = .next t ∧
      t.readReg .cpc = s.cpc + 4 ∧ t.readReg row.reg = imm.setWidth 32 &&& row.mask ∧
      (∀ r, r ≠ row.reg → r ≠ .cpc → t.readReg r = s.readReg r) ∧ SameBeyondRegisters s t ∧ t.hostQueue = s.hostQueue) ∧
    ∃ t, exec (.seth (BitVec.ofNat 8 row.num) imm) s = .next t ∧
      t.readReg .cpc = s.cpc + 4 ∧
      t.readReg row.reg = BitVec.ofNat 32 (imm.toNat * 2 ^ 16 + (s.readReg row.reg).toNat % 2 ^ 16) &&& row.mask ∧
      (∀ r, r ≠ row.reg → r ≠ .cpc → t.readReg r = s.readReg r) ∧ SameBeyondRegisters s t ∧ t.hostQueue = s.hostQueue) ∧
  ∀ (s : State) (r : BitVec 8) (imm : BitVec 16), (∀ row ∈ regRows, row.cmd = true → row.num ≠ r.toNat) →
    exec (.setl r imm) s = .next (halted s 0x03 (encode (.setl r imm)) s.mem) ∧
    exec (.seth r imm) s = .next (halted s 0x03 (encode (.seth r imm)) s.mem)

/-! ## Colour and resampling commands (41_color_resample.md) -/

/-- R203: CSCF's checks in order, and its result: the interior samples of the three planes from the raster, exact rationals
rounded and clamped, every other byte kept. -/
def Obligations.ForwardColourConversion : Prop :=
  ∀ (s : State) (a b c : Slot), s.mem.wf →
    let checks := colourChecks s a b c (rasterMeets s a a || rasterMeets s a b || rasterMeets s a c ||
      planesMeet s a b || planesMeet s a c || planesMeet s b c)
    Refuses (.cscf a b c) s checks ∧
    (Passes checks → ∃ m, exec (.cscf a b c) s = .next { s with mem := m, cpc := s.cpc + 4 } ∧
      (∀ x y, Inside s a x y →
        let R := byteVal s.mem (pixelAt s a x y)
        let G := byteVal s.mem (pixelAt s a x y + 1)
        let B := byteVal s.mem (pixelAt s a x y + 2)
        byteVal m (sampleAt s a x y) = clampInt (rnd (2990 * R + 5870 * G + 1140 * B) 10000) 0 255 ∧
        byteVal m (sampleAt s b x y) = clampInt (rnd (1280000 - 1687 * R - 3313 * G + 5000 * B) 10000) 0 255 ∧
        byteVal m (sampleAt s c x y) = clampInt (rnd (1280000 + 5000 * R - 4187 * G - 813 * B) 10000) 0 255) ∧
      ∀ k, (∀ x y, Inside s a x y → k ≠ sampleAt s a x y ∧ k ≠ sampleAt s b x y ∧ k ≠ sampleAt s c x y) →
        m.byteAt k = s.mem.byteAt k)

/-- R205: CSCI's checks in order, and its result: the raster from the three planes, every other byte kept. The planes may
overlap one another. -/
def Obligations.InverseColourConversion : Prop :=
  ∀ (s : State) (a b c : Slot), s.mem.wf →
    let checks := colourChecks s a b c (rasterMeets s a a || rasterMeets s a b || rasterMeets s a c)
    Refuses (.csci a b c) s checks ∧
    (Passes checks → ∃ m, exec (.csci a b c) s = .next { s with mem := m, cpc := s.cpc + 4 } ∧
      (∀ x y, Inside s a x y →
        let Y := byteVal s.mem (sampleAt s a x y)
        let Cb := byteVal s.mem (sampleAt s b x y)
        let Cr := byteVal s.mem (sampleAt s c x y)
        byteVal m (pixelAt s a x y) = clampInt (rnd (100000 * Y + 140200 * (Cr - 128)) 100000) 0 255 ∧
        byteVal m (pixelAt s a x y + 1) =
          clampInt (rnd (100000 * Y - 34414 * (Cb - 128) - 71414 * (Cr - 128)) 100000) 0 255 ∧
        byteVal m (pixelAt s a x y + 2) = clampInt (rnd (100000 * Y + 177200 * (Cb - 128)) 100000) 0 255) ∧
      ∀ k, (k < s.rgbBase.toNat ∨ rasterEnd s a ≤ k) → m.byteAt k = s.mem.byteAt k)

/-- R207: CSUB's checks in order, and its result: each destination sample is the rounded average of the in-bounds samples of its
2×2 cell, every other byte kept. -/
def Obligations.ChromaSubsampling : Prop :=
  ∀ (s : State) (a b : Slot), s.mem.wf →
    let checks := resampleChecks s a b b a
    Refuses (.csub a b) s checks ∧
    (Passes checks → ∃ m, exec (.csub a b) s = .next { s with mem := m, cpc := s.cpc + 4 } ∧
      (∀ i j, Inside s a i j →
        let inb (x y : Nat) : Bool := decide (x < planeW s b) && decide (y < planeH s b)
        let part (x y : Nat) : Int := if inb x y then byteVal s.mem (sampleAt s b x y) else 0
        let one (x y : Nat) : Int := if inb x y then 1 else 0
        byteVal m (sampleAt s a i j) =
          rnd (part (2 * i) (2 * j) + part (2 * i + 1) (2 * j) + part (2 * i) (2 * j + 1) + part (2 * i + 1) (2 * j + 1))
            (one (2 * i) (2 * j) + one (2 * i + 1) (2 * j) + one (2 * i) (2 * j + 1) + one (2 * i + 1) (2 * j + 1))) ∧
      ∀ k, (∀ i j, Inside s a i j → k ≠ sampleAt s a i j) → m.byteAt k = s.mem.byteAt k)

/-- R208: CUPS's checks in order, and its result: each destination sample is a copy of the source sample of its cell, every other
byte kept. -/
def Obligations.ChromaUpsampling : Prop :=
  ∀ (s : State) (a b : Slot), s.mem.wf →
    let checks := resampleChecks s a b a b
    Refuses (.cups a b) s checks ∧
    (Passes checks → ∃ m, exec (.cups a b) s = .next { s with mem := m, cpc := s.cpc + 4 } ∧
      (∀ x y, Inside s a x y → m.byteAt (sampleAt s a x y) = s.mem.byteAt (sampleAt s b (x / 2) (y / 2))) ∧
      ∀ k, (∀ x y, Inside s a x y → k ≠ sampleAt s a x y) → m.byteAt k = s.mem.byteAt k)

/-- R209: PAD's checks in order, and its result in both modes: the padding gets the nearest interior sample, or 128; every other
byte, the interior included, is kept. -/
def Obligations.PlanePadding : Prop :=
  ∀ (s : State) (a : Slot) (md : PadMode), s.mem.wf →
    Refuses (.pad a md) s (planeChecks s a) ∧
    (Passes (planeChecks s a) → ∃ m, exec (.pad a md) s = .next { s with mem := m, cpc := s.cpc + 4 } ∧
      (∀ x y, x < ceil8 (planeW s a) → y < ceil8 (planeH s a) → ¬ Inside s a x y →
        m.byteAt (sampleAt s a x y) =
          match md with
          | .rep => s.mem.byteAt (sampleAt s a (min x (planeW s a - 1)) (min y (planeH s a - 1)))
          | .c128 => 128) ∧
      (∀ x y, Inside s a x y → m.byteAt (sampleAt s a x y) = s.mem.byteAt (sampleAt s a x y)) ∧
      ∀ k, (k < planeBase s a ∨ planeEnd s a ≤ k) → m.byteAt k = s.mem.byteAt k)

/-! ## Block commands (42_block_transform.md) -/

/-- R257: LDB's checks in order, and its result: S is the current block of the plane; nothing else changes. -/
def Obligations.BlockLoad : Prop :=
  ∀ (s : State) (a : Slot),
    Refuses (.ldb a) s (cursorChecks s a) ∧
    (Passes (cursorChecks s a) → ∃ blk, exec (.ldb a) s = .next { s with sBlk := blk, cpc := s.cpc + 4 } ∧
      ∀ r c : Fin 8, blk.get (at8 r c) = s.mem.byteAt (blockAt s a r c))

/-- R258: STB's checks in order, and its result: the current block of the plane is S; every other byte is kept. -/
def Obligations.BlockStore : Prop :=
  ∀ (s : State) (a : Slot), s.mem.wf →
    Refuses (.stb a) s (cursorChecks s a) ∧
    (Passes (cursorChecks s a) → ∃ m, exec (.stb a) s = .next { s with mem := m, cpc := s.cpc + 4 } ∧
      (∀ r c : Fin 8, m.byteAt (blockAt s a r c) = s.sBlk.get (at8 r c)) ∧
      ∀ k, (∀ r c : Fin 8, k ≠ blockAt s a r c) → m.byteAt k = s.mem.byteAt k)

/-- R259, R260: BNXT moves the cursor to the next block in raster order and sets BEND exactly at the wrap, after its checks;
BRST clears both; ESC is kept. -/
def Obligations.CursorMoves : Prop :=
  (∀ (s : State) (a : Slot),
    Refuses (.bnxt a) s (cursorChecks s a) ∧
    (Passes (cursorChecks s a) → ∃ (b : Word) (f : BitVec 2),
      exec (.bnxt a) s = .next { s with bcur := b, flags := f, cpc := s.cpc + 4 } ∧
      b.toNat = (if curX s + 1 < blocksX s a then curY s * 2 ^ 16 + (curX s + 1)
        else if curY s + 1 < blocksY s a then (curY s + 1) * 2 ^ 16 else 0) ∧
      (f.getLsbD 0 = true ↔ curX s + 1 = blocksX s a ∧ curY s + 1 = blocksY s a) ∧ f.getLsbD 1 = s.flags.getLsbD 1)) ∧
  ∀ s : State, exec .brst s = .next { s with bcur := 0, flags := s.flags &&& 0b10, cpc := s.cpc + 4 }

/-- R252, R261: FDCT's coefficients are the exact sums over the cosine table, rounded; none needs saturation; nothing else
changes. -/
def Obligations.ForwardTransform : Prop :=
  ∀ s : State, ∃ C, exec .fdct s = .next { s with cBlk := C, cpc := s.cpc + 4 } ∧
    ∀ v u : Fin 8,
      (C.get (at8 v u)).toInt =
        rnd (∑ y : Fin 8, ∑ x : Fin 8, Tables.K v y * Tables.K u x * (((s.sBlk.get (at8 y x)).toNat : Int) - 128)) (2 ^ 24) ∧
      |(C.get (at8 v u)).toInt| ≤ 67109009

/-- R253, R262: IDCT's samples are the exact sums, rounded, shifted by 128 and clamped; nothing else changes. -/
def Obligations.InverseTransform : Prop :=
  ∀ s : State, ∃ S, exec .idct s = .next { s with sBlk := S, cpc := s.cpc + 4 } ∧
    ∀ y x : Fin 8,
      ((S.get (at8 y x)).toNat : Int) =
        clampInt (rnd (∑ v : Fin 8, ∑ u : Fin 8, Tables.K v y * Tables.K u x * (s.cBlk.get (at8 v u)).toInt) (2 ^ 56) + 128) 0 255

/-- R254, R263: VAR's value, exact and in its range; 4096 times the population variance. -/
def Obligations.BlockVariance : Prop :=
  ∀ s : State, ∃ v : Word, exec .var s = .next { s with varn := v, cpc := s.cpc + 4 } ∧
    (v.toNat : Int) = 64 * ∑ k : Fin 64, ((s.sBlk.get k).toNat : Int) ^ 2 - (∑ k : Fin 64, ((s.sBlk.get k).toNat : Int)) ^ 2 ∧
    v.toNat ≤ 66585600

/-- R255, an inference the spec marks as its own (from R252 and R253): FDCT followed by IDCT gives back every block of samples. -/
def Obligations.TransformRoundTrip : Prop :=
  ∀ s t : State, exec .fdct s = .next t → ∃ u, exec .idct t = .next u ∧ u.sBlk = s.sBlk

/-- R256, an inference the spec marks as its own (from R251, R252 and R253): a flat block has no coefficient but the first, with
R256's three values; and the zero coefficients give 128 everywhere. -/
def Obligations.FlatBlocks : Prop :=
  (∀ (s t : State) (v : Byte), (∀ k, s.sBlk.get k = v) → exec .fdct s = .next t →
    (∀ k : Fin 64, k ≠ 0 → t.cBlk.get k = 0) ∧ (v = 128 → t.cBlk.get 0 = 0) ∧ (v = 255 → (t.cBlk.get 0).toInt = 66584720) ∧
      (v = 0 → (t.cBlk.get 0).toInt = -67109009)) ∧
  ∀ s t : State, (∀ k, s.cBlk.get k = 0) → exec .idct s = .next t → ∀ k, t.sBlk.get k = 128

/-! ## Quantizer commands (43_quantizer.md) -/

/-- R307 with R303-R306: QNT's checks in order, its result in the three modes, and what it writes besides Q: QEFF in the
continuous mode, QIDX in the indexed mode. -/
def Obligations.Quantization : Prop :=
  ∀ (s : State) (t : QTable) (md : QMode),
    Refuses (.qnt t md) s (quantChecks s t md) ∧
    (Passes (quantChecks s t md) →
      match md with
      | .fixed => ∃ Q, exec (.qnt t .fixed) s = .next { s with qBlk := Q, cpc := s.cpc + 4 } ∧ ∀ k : Fin 64,
          (Q.get k).toInt =
            clampedIf s (rnd ((s.cBlk.get k).toInt * s.quality.toNat) ((tableEntry s t k : Int) * 50 * 65536))
      | .cont => ∃ (Q : Vector Word 64) (q : Byte),
          exec (.qnt t .cont) s = .next { s with qBlk := Q, qeff := q, cpc := s.cpc + 4 } ∧
          (q.toNat : Int) = effectiveQuality s ∧ ∀ k : Fin 64,
            (Q.get k).toInt =
              clampedIf s (rnd ((s.cBlk.get k).toInt * effectiveQuality s) ((tableEntry s t k : Int) * 50 * 65536))
      | .idx => ∃ (Q : Vector Word 64) (i : Fin 4),
          exec (.qnt t .idx) s = .next { s with qBlk := Q, qidx := BitVec.ofFin i, cpc := s.cpc + 4 } ∧
          IsSnap s i ∧ ∀ k : Fin 64,
            (Q.get k).toInt =
              clampedIf s (rnd (s.cBlk.get k).toInt (256 * (tableEntry s t k : Int) * (candAt s i : Int))))

/-- R308: DQNT's checks in order and its result in the three modes, saturated; nothing but C changes. -/
def Obligations.Dequantization : Prop :=
  ∀ (s : State) (t : QTable) (md : QMode),
    Refuses (.dqnt t md) s (dequantChecks s t md) ∧
    (Passes (dequantChecks s t md) →
      ∃ C, exec (.dqnt t md) s = .next { s with cBlk := C, cpc := s.cpc + 4 } ∧ ∀ k : Fin 64,
        (C.get k).toInt = sat (match md with
          | .fixed => rnd ((s.qBlk.get k).toInt * tableEntry s t k * 50 * 65536) s.quality.toNat
          | .cont => rnd ((s.qBlk.get k).toInt * tableEntry s t k * 50 * 65536) s.qeff.toNat
          | .idx => (s.qBlk.get k).toInt * tableEntry s t k * candAt s s.qidx.toFin * 256))

/-! ## Serializer commands (44_serializer.md) -/

/-- R352: SERD writes the 64 values in zigzag order, each clamped to a signed byte. -/
def Obligations.DenseSerialize : Prop :=
  ∀ s : State, s.mem.wf →
    WritesBytes .serd s ((List.finRange 64).map fun i => BitVec.ofInt 8 (clampInt (zigzagQ s i) (-128) 127)) s.flags

/-- R353: SERS writes the count byte and the values up to the last nonzero one, escaped where they do not fit a byte; ESC says
whether an escape was written, BEND is kept. -/
def Obligations.SparseSerialize : Prop :=
  ∀ (s : State) (n : Nat), s.mem.wf → IsSparseCount s n → ∃ f : BitVec 2, f.getLsbD 0 = s.flags.getLsbD 0 ∧
    (f.getLsbD 1 = true ↔ ∃ i : Fin 64, i.val < n ∧ ¬ fitsByte (zigzagQ s i)) ∧
    WritesBytes .sers s (BitVec.ofNat 8 n :: ((List.finRange 64).take n).flatMap fun i => sparseForm (zigzagQ s i)) f

/-- R354: DSERD reads 64 signed bytes in zigzag order into Q, or halts, with nothing changed, on a nonzero bit position or at the
end of the stream. -/
def Obligations.DenseDeserialize : Prop :=
  ∀ s : State,
    (s.rd.bit ≠ 0 → exec .dserd s = .next (halted s 0x50 (encode .dserd) s.mem)) ∧
    (s.rd.bit = 0 → room s.rd s.lmemSize < 64 →
      exec .dserd s = .next (halted s (pastEnd s.rd s.lmemSize 0x30) (encode .dserd) s.mem)) ∧
    (s.rd.bit = 0 → 64 ≤ room s.rd s.lmemSize → ∃ Q,
      exec .dserd s = .next { s with qBlk := Q, rd := bytesOn s.rd 64, cpc := s.cpc + 4 } ∧
      ∀ i : Fin 64, (Q.get (Tables.zigzag.get i)).toInt = (s.mem.byteAt (s.rd.ptr.toNat + i.val)).toInt)

/-- R355: DSERS on every stream: the bit position, the count byte, then as many items as it says, each a byte or an escape; the
stream's end before, in a value or inside an escape halts with the code of that place; entries past the count are 0. -/
def Obligations.SparseDeserialize : Prop :=
  ∀ s : State,
    (s.rd.bit ≠ 0 → exec .dsers s = .next (halted s 0x50 (encode .dsers) s.mem)) ∧
    (s.rd.bit = 0 → room s.rd s.lmemSize = 0 →
      exec .dsers s = .next (halted s (pastEnd s.rd s.lmemSize 0x30) (encode .dsers) s.mem)) ∧
    (s.rd.bit = 0 → 0 < room s.rd s.lmemSize → 64 < (s.mem.byteAt s.rd.ptr.toNat).toNat →
      exec .dsers s = .next (halted s 0x40 (encode .dsers) s.mem)) ∧
    ∀ (n : Nat) (items : List Item), s.rd.bit = 0 → n ≤ 64 → ItemsLegal items →
      Holds s.mem s.rd.ptr.toNat (sparseStream n items) → (sparseStream n items).length ≤ room s.rd s.lmemSize →
      (items.length = n → ∃ (Q : Vector Word 64) (f : BitVec 2),
        exec .dsers s =
          .next { s with qBlk := Q, rd := bytesOn s.rd (sparseStream n items).length, flags := f, cpc := s.cpc + 4 } ∧
        (∀ i : Fin 64, (Q.get (Tables.zigzag.get i)).toInt = (items.map itemVal).getD i.val 0) ∧
        f.getLsbD 0 = s.flags.getLsbD 0 ∧ (f.getLsbD 1 = true ↔ ∃ w, Sum.inr w ∈ items)) ∧
      (items.length < n → (sparseStream n items).length = room s.rd s.lmemSize →
        exec .dsers s = .next (halted s (pastEnd s.rd s.lmemSize 0x30) (encode .dsers) s.mem)) ∧
      (items.length < n → (sparseStream n items).length < room s.rd s.lmemSize →
        s.mem.byteAt (s.rd.ptr.toNat + (sparseStream n items).length) = 0x80 →
        room s.rd s.lmemSize < (sparseStream n items).length + 5 →
        exec .dsers s = .next (halted s (pastEnd s.rd s.lmemSize 0x41) (encode .dsers) s.mem))

/-- R356, R357: PUTQ writes QEFF, unchecked; GETQ reads a byte into QEFF after its checks, a byte outside 1..100 being
refused. -/
def Obligations.QualityByteMoves : Prop :=
  ∀ s : State,
    (s.mem.wf → WritesBytes .putq s [s.qeff] s.flags) ∧
    (let v := s.mem.byteAt s.rd.ptr.toNat
     let checks : List (Bool × Byte) :=
       [(s.rd.bit != 0, 0x50), (decide (s.rd.ptr.toNat ≥ s.rd.lim.toNat), 0x30),
        (decide (s.rd.ptr.toNat ≥ s.lmemSize), 0x52), (badQuality v, 0x43)]
     Refuses .getq s checks ∧
     (Passes checks → exec .getq s = .next { s with qeff := v, rd := bytesOn s.rd 1, cpc := s.cpc + 4 }))

/-- The index stream one 2-bit field on (20_memory.md R114). -/
def Sys2Proof.Claims.fieldOn (st : Stream) : Stream := bitsOn st 2

/-- R358, R359 with 20_memory.md R114: PUTIDX puts QIDX into the next 2-bit field, most significant first, a fresh byte's other
bits being 0; GETIDX takes the next field into QIDX; both after their checks. -/
def Obligations.QualityIndexMoves : Prop :=
  ∀ s : State,
    let checks (code : Byte) : List (Bool × Byte) :=
      [(s.ix.bit.getLsbD 0, 0x50), (decide (s.ix.ptr.toNat ≥ s.ix.lim.toNat), code),
       (decide (s.ix.ptr.toNat ≥ s.lmemSize), 0x52)]
    (s.mem.wf → Refuses .putidx s (checks 0x51) ∧
      (Passes (checks 0x51) → ∃ m,
        exec .putidx s = .next { s with mem := m, ix := fieldOn s.ix, cpc := s.cpc + 4 } ∧
        (∀ j < 8, bitAt m s.ix.ptr.toNat j =
          if j = s.ix.bit.toNat then s.qidx.getLsbD 1
          else if j = s.ix.bit.toNat + 1 then s.qidx.getLsbD 0
          else if s.ix.bit = 0 then false
          else bitAt s.mem s.ix.ptr.toNat j) ∧
        ∀ k, k ≠ s.ix.ptr.toNat → m.byteAt k = s.mem.byteAt k)) ∧
    Refuses .getidx s (checks 0x30) ∧
    (Passes (checks 0x30) → ∃ v : BitVec 2,
      exec .getidx s = .next { s with qidx := v, ix := fieldOn s.ix, cpc := s.cpc + 4 } ∧
      v.getLsbD 1 = bitAt s.mem s.ix.ptr.toNat s.ix.bit.toNat ∧
      v.getLsbD 0 = bitAt s.mem s.ix.ptr.toNat (s.ix.bit.toNat + 1))

/-- R360, R361, R362: IALN, WALN and RALN move their stream to the next byte boundary, and do nothing on one. -/
def Obligations.RealignmentResults : Prop :=
  ∀ s : State,
    let moved (st : Stream) : Stream := if st.bit = 0 then st else { st with ptr := st.ptr + 1, bit := 0 }
    exec .ialn s = .next { s with ix := moved s.ix, cpc := s.cpc + 4 } ∧
    exec .waln s = .next { s with wr := moved s.wr, cpc := s.cpc + 4 } ∧
    exec .raln s = .next { s with rd := moved s.rd, cpc := s.cpc + 4 }

/-- R364, an inference the spec marks as its own (from R353 and R355), the escape round trip: what SERS wrote, DSERS reads back exactly, every 32-bit value of Q in byte or escape form, and
the ESC flag with it. -/
def Obligations.SparseRoundTrip : Prop :=
  ∀ (s t : State) (lim : Word) (q : Vector Word 64) (f : BitVec 2), s.mem.wf → exec .sers s = .next t → t.err = false →
    t.wr.ptr.toNat ≤ lim.toNat →
    ∃ u, exec .dsers { t with rd := ⟨s.wr.ptr, lim, 0⟩, qBlk := q, flags := f } = .next u ∧ u.err = false ∧
      u.qBlk = s.qBlk ∧ u.rd.ptr = t.wr.ptr ∧ u.flags.getLsbD 1 = t.flags.getLsbD 1

/-! ## Huffman commands (45_huffman.md) -/

/-- R406, R407: HCLR clears every counter and leaves the tree. HFREQ adds the number of times each symbol occurs among the next
HCOUNT bytes; it halts, with nothing changed, at the first byte it cannot read or count. -/
def Obligations.HistogramResults : Prop :=
  ∀ s : State,
    (∃ h, exec .hclr s = .next { s with hfreq := h, cpc := s.cpc + 4 } ∧ ∀ sym : Fin 256, h.get sym = 0) ∧
    (s.rd.bit ≠ 0 → exec .hfreq s = .next (halted s 0x50 (encode .hfreq) s.mem)) ∧
    (s.rd.bit = 0 → CanCount s s.hcount.toNat → ∃ h,
      exec .hfreq s = .next { s with hfreq := h, rd := bytesOn s.rd s.hcount.toNat, cpc := s.cpc + 4 } ∧
      ∀ sym : Fin 256, (h.get sym).toNat = (s.hfreq.get sym).toNat + occurrences s s.hcount.toNat sym) ∧
    ∀ j, s.rd.bit = 0 → j < s.hcount.toNat → CanCount s j → ¬ CanCount s (j + 1) →
      exec .hfreq s =
        .next (halted s (if room s.rd s.lmemSize ≤ j then pastEnd s.rd s.lmemSize 0x30 else 0x62) (encode .hfreq) s.mem)

/-- R404, R408: HBUILD refuses a total of 2^32 or more, with the old tree kept; else it builds the tree of R402 and R403, node by
node, and changes nothing but HNODE, HROOT and HNLEAF. -/
def Obligations.TreeBuild : Prop :=
  ∀ s : State,
    (2 ^ 32 ≤ ∑ sym : Fin 256, (s.hfreq.get sym).toNat →
      exec .hbuild s = .next (halted s 0x62 (encode .hbuild) s.mem)) ∧
    (∑ sym : Fin 256, (s.hfreq.get sym).toNat < 2 ^ 32 → ∃ nodes root leaves,
      let t : State := { s with hnode := nodes, hroot := root, hnleaf := leaves, cpc := s.cpc + 4 }
      exec .hbuild s = .next t ∧ IsTreeOf s t ((List.finRange 256).countP fun sym => s.hfreq.get sym != 0))

/-- R405: after HBUILD exactly the symbols with a nonzero count have a code, one code each; the code is empty where there is one
symbol, its length is 1 to n − 1 where there are n ≥ 2, and never over 255. -/
def Obligations.CountedSymbolsHaveOneCode : Prop :=
  ∀ s t : State, exec .hbuild s = .next t → t.err = false →
    ∀ sym : Fin 256,
      ((∃ bits, IsCode t (BitVec.ofFin sym) bits) ↔ s.hfreq.get sym ≠ 0) ∧
      (∀ bits bits', IsCode t (BitVec.ofFin sym) bits → IsCode t (BitVec.ofFin sym) bits' → bits = bits') ∧
      ∀ bits, IsCode t (BitVec.ofFin sym) bits →
        bits.length ≤ 255 ∧ (t.hnleaf.toNat = 1 → bits = []) ∧
          (2 ≤ t.hnleaf.toNat → 1 ≤ bits.length ∧ bits.length ≤ t.hnleaf.toNat - 1)

/-- R412, an inference the spec marks as its own (from R404 and R405), for the codes HENC emits, `State.codeOf`: whatever the arena
holds, no symbol's code is a prefix of another symbol's; and in every well-formed tree the code HENC emits is the code of R405, the
path from HROOT to the symbol's leaf, and there is none where the symbol has no leaf (log entry 5 says how the model finds it). -/
def Obligations.CodesArePrefixFree : Prop :=
  (∀ (s : State) (a b : Byte) (p q : List Bool),
    s.codeOf a = some p → s.codeOf b = some q → p <+: q → a = b ∧ p = q) ∧
  ∀ (s : State) (sym : Byte) (bits : List Bool), s.TreeOk → (s.codeOf sym = some bits ↔ IsCode s sym bits)

/-- R409: HENC's checks; its result on HCOUNT symbols; and, where it fails at symbol j, which error it is and that LMEM holds
exactly the bits written before it. The symbols are named as they are read; for more than one symbol the bytes to read are apart
from the bytes that can be written (where they are not, `HuffmanCommandsSplit` says what happens). -/
def Obligations.HuffmanEncode : Prop :=
  ∀ s : State, s.mem.wf → s.TreeOk →
    (s.hnleaf = 0 → exec .henc s = .next (halted s 0x60 (encode .henc) s.mem)) ∧
    (s.hnleaf ≠ 0 → s.rd.bit ≠ 0 → exec .henc s = .next (halted s 0x50 (encode .henc) s.mem)) ∧
    ∀ (syms : List Byte) (codes : List (List Bool)), s.hnleaf ≠ 0 → s.rd.bit = 0 →
      (s.hcount.toNat ≤ 1 ∨ s.rd.ptr.toNat + s.hcount.toNat ≤ s.wr.ptr.toNat ∨
        s.wr.ptr.toNat + room s.wr s.lmemSize ≤ s.rd.ptr.toNat) →
      syms.length ≤ room s.rd s.lmemSize → Holds s.mem s.rd.ptr.toNat syms → AreCodes s syms codes →
      codes.flatten.length ≤ bitRoom s.wr s.lmemSize →
      (syms.length = s.hcount.toNat → ∃ m,
        exec .henc s =
          .next { s with mem := m, rd := bytesOn s.rd syms.length, wr := bitsOn s.wr codes.flatten.length,
                         hbits := BitVec.ofNat 32 codes.flatten.length, cpc := s.cpc + 4 } ∧
        BitsStored s.wr s.mem m codes.flatten) ∧
      (syms.length < s.hcount.toNat → syms.length = room s.rd s.lmemSize → ∃ m,
        exec .henc s = .next (halted s (pastEnd s.rd s.lmemSize 0x30) (encode .henc) m) ∧
        BitsStored s.wr s.mem m codes.flatten) ∧
      (syms.length < s.hcount.toNat → syms.length < room s.rd s.lmemSize →
        (¬ ∃ bits, IsCode s (s.mem.byteAt (s.rd.ptr.toNat + syms.length)) bits) → ∃ m,
        exec .henc s = .next (halted s 0x61 (encode .henc) m) ∧ BitsStored s.wr s.mem m codes.flatten) ∧
      ∀ code, syms.length < s.hcount.toNat → syms.length < room s.rd s.lmemSize →
        IsCode s (s.mem.byteAt (s.rd.ptr.toNat + syms.length)) code →
        bitRoom s.wr s.lmemSize < codes.flatten.length + code.length → ∃ m,
        exec .henc s = .next (halted s (pastEnd s.wr s.lmemSize 0x51) (encode .henc) m) ∧
        BitsStored s.wr s.mem m ((codes.flatten ++ code).take (bitRoom s.wr s.lmemSize))

/-- R410: HDEC's checks; its result on HCOUNT codes; and, where it fails at symbol j, which error it is and that LMEM holds the
symbols written before it. For more than one symbol the bytes to read are apart from the bytes to write. -/
def Obligations.HuffmanDecode : Prop :=
  ∀ s : State, s.mem.wf → s.TreeOk →
    (s.hnleaf = 0 → exec .hdec s = .next (halted s 0x60 (encode .hdec) s.mem)) ∧
    (s.hnleaf ≠ 0 → s.wr.bit ≠ 0 → exec .hdec s = .next (halted s 0x50 (encode .hdec) s.mem)) ∧
    ∀ (syms : List Byte) (codes : List (List Bool)), s.hnleaf ≠ 0 → s.wr.bit = 0 →
      (s.hcount.toNat ≤ 1 ∨ s.wr.ptr.toNat + s.hcount.toNat ≤ s.rd.ptr.toNat ∨
        s.rd.ptr.toNat + room s.rd s.lmemSize ≤ s.wr.ptr.toNat) →
      syms.length ≤ room s.wr s.lmemSize → AreCodes s syms codes → ReadsBits s 0 codes.flatten →
      codes.flatten.length ≤ bitRoom s.rd s.lmemSize →
      (syms.length = s.hcount.toNat → ∃ m,
        exec .hdec s =
          .next { s with mem := m, rd := bitsOn s.rd codes.flatten.length, wr := bytesOn s.wr syms.length, cpc := s.cpc + 4 } ∧
        Stored s.mem m s.wr.ptr.toNat syms) ∧
      (∀ rest i, syms.length < s.hcount.toNat → codes.flatten.length + rest.length = bitRoom s.rd s.lmemSize →
        ReadsBits s codes.flatten.length rest → walk s s.hroot.toNat rest = some i → (nodeAt s i).leaf = false → ∃ m,
        exec .hdec s = .next (halted s (pastEnd s.rd s.lmemSize 0x42) (encode .hdec) m) ∧
        Stored s.mem m s.wr.ptr.toNat syms) ∧
      ∀ sym code, syms.length < s.hcount.toNat → IsCode s sym code → ReadsBits s codes.flatten.length code →
        codes.flatten.length + code.length ≤ bitRoom s.rd s.lmemSize → syms.length = room s.wr s.lmemSize → ∃ m,
        exec .hdec s = .next (halted s (pastEnd s.wr s.lmemSize 0x51) (encode .hdec) m) ∧
        Stored s.mem m s.wr.ptr.toNat syms

/-- The loops of R409 and R410 over any streams, overlapping ones included: n + m symbols are n symbols and then m symbols from
the state the first n left. If the first n fail, all n + m fail in the same way; if the second m fail, all fail in that way,
from the state before; HBITS is the sum. (The state before the second half has the second half's count in HCOUNT, and CPC where
the command is.) -/
def Obligations.HuffmanCommandsSplit : Prop :=
  ∀ (i : Instr) (s t u : State) (n m : Nat), i = .henc ∨ i = .hdec → n + m < 2 ^ 32 → s.err = false →
    exec i { s with hcount := BitVec.ofNat 32 n } = .next t →
    exec i { t with hcount := BitVec.ofNat 32 m, cpc := s.cpc } = .next u →
    let whole : State := { s with hcount := BitVec.ofNat 32 (n + m) }
    (t.err = true → exec i whole = .next (halted whole t.errCode (encode i) t.mem)) ∧
    (t.err = false → u.err = true → exec i whole = .next (halted whole u.errCode (encode i) u.mem)) ∧
    (t.err = false → u.err = false →
      exec i whole = .next { u with hcount := whole.hcount, hbits := if i = .henc then t.hbits + u.hbits else u.hbits })

/-- R412, an inference the spec marks as its own (from R404 and R405), the round trip: what HENC wrote, HDEC with the same tree decodes back into the symbols HENC read. The symbols are apart
from the bits, and the place to decode to is apart from the bits. -/
def Obligations.HuffmanRoundTrip : Prop :=
  ∀ (s t : State) (lim : Word) (w : Stream), s.mem.wf → s.TreeOk → exec .henc s = .next t → t.err = false →
    (s.rd.ptr.toNat + s.hcount.toNat ≤ s.wr.ptr.toNat ∨ s.wr.ptr.toNat + room s.wr s.lmemSize ≤ s.rd.ptr.toNat) →
    (t.wr.ptr.toNat + (t.wr.bit.toNat + 7) / 8 ≤ lim.toNat) →
    w.bit = 0 → s.hcount.toNat ≤ room w s.lmemSize →
    (w.ptr.toNat + s.hcount.toNat ≤ s.wr.ptr.toNat ∨ t.wr.ptr.toNat + 1 ≤ w.ptr.toNat) →
    ∃ u, exec .hdec { t with rd := ⟨s.wr.ptr, lim, s.wr.bit⟩, wr := w } = .next u ∧ u.err = false ∧
      ∀ k < s.hcount.toNat, u.mem.byteAt (w.ptr.toNat + k) = s.mem.byteAt (s.rd.ptr.toNat + k)

/-! ## The slave port and the control register (10_state.md, 20_memory.md, 60_exceptions.md) -/

/-- R32, R35-R59, R118, R120: a register's word is its fields, each at its bits, in every state, its reserved bits 0 (R30); a host
read of a register returns that word and changes nothing; the registers below offset 0x20 are readable while the engine runs; a
reserved offset reads 0. (`hostQueue` and `readData` are the model's form of the port, log entry 3.) -/
def Obligations.HostReadsRegisters : Prop :=
  (∀ (s : State) (r : Reg), (s.readReg r).toNat = registerValue s r) ∧
  ∀ (s : State) (off : BitVec 25) (rest : List HostEvent), s.hostQueue = .read off :: rest →
    (∀ row ∈ regRows, off.toNat / 4 = row.num → s.busy = false ∨ row.num < 8 → ∃ w : Word,
      step s = .next { s with hostQueue := rest, readData := w } ∧ w.toNat = registerValue s row.reg ∧ w &&& ~~~row.mask = 0) ∧
    (off.toNat < 0x100 → (∀ row ∈ regRows, off.toNat / 4 ≠ row.num) → s.busy = false →
      step s = .next { s with hostQueue := rest, readData := 0 })

/-- R30, R31, R103: a host write of a RW register stores the strobed lanes under the register's mask, and nothing else changes;
a write of a RO register or a reserved offset changes nothing.
(`hostQueue` and `readData` are the model's form of the port, log entry 3.) -/
def Obligations.HostWritesRegisters : Prop :=
  ∀ (s : State) (off : BitVec 25) (data : Word) (strobe : BitVec 4) (rest : List HostEvent),
    s.hostQueue = .write off data strobe :: rest →
    (∀ row ∈ regRows, off.toNat / 4 = row.num → row.host = .rw → s.busy = false ∨ row.num < 8 → ∃ t,
      step s = .next t ∧
      (∀ b < 32, (t.readReg row.reg).getLsbD b = (row.mask.getLsbD b && mergedBit (s.readReg row.reg) data strobe b)) ∧
      OtherRegistersSame s t row.reg ∧ SameBeyondRegisters s t ∧ t.hostQueue = rest) ∧
    (∀ row ∈ regRows, off.toNat / 4 = row.num → row.host = .ro → s.busy = false ∨ row.num < 8 →
      step s = .next { s with hostQueue := rest }) ∧
    (off.toNat < 0x100 → (∀ row ∈ regRows, off.toNat / 4 ≠ row.num) → s.busy = false →
      step s = .next { s with hostQueue := rest })

/-- R33, R101-R103, R119: an idle host read at or above offset 0x100 returns the four bytes of the window word, little-endian, 0
where nothing is; the offset's low two bits are ignored; nothing else changes.
(`hostQueue` and `readData` are the model's form of the port, log entry 3.) -/
def Obligations.HostReadsWindows : Prop :=
  ∀ (s : State) (off : BitVec 25) (rest : List HostEvent), s.hostQueue = .read off :: rest → s.busy = false →
    0x100 ≤ off.toNat → ∃ d : Word, step s = .next { s with hostQueue := rest, readData := d } ∧
      ∀ j < 4, byteOf d j = windowByte s (off.toNat / 4 * 4 + j)

/-- R33, R101-R103, R119: an idle host write at or above offset 0x100 puts the strobed bytes into a writable window, and changes
no other byte of any window and no register.
(`hostQueue` and `readData` are the model's form of the port, log entry 3.) -/
def Obligations.HostWritesWindows : Prop :=
  ∀ (s : State) (off : BitVec 25) (data : Word) (strobe : BitVec 4) (rest : List HostEvent), s.mem.wf →
    s.hostQueue = .write off data strobe :: rest → s.busy = false → 0x100 ≤ off.toNat → ∃ t, step s = .next t ∧
      (∀ a, 0x100 ≤ a → windowByte t a =
        if a / 4 = off.toNat / 4 ∧ strobe.getLsbD (a % 4) = true ∧ windowWritable s a = true then byteOf data (a % 4)
        else windowByte s a) ∧
      (∀ r, t.readReg r = s.readReg r) ∧ t.params = s.params ∧ t.hnode = s.hnode ∧ t.readData = s.readData ∧
      t.hostQueue = rest

/-- R120: while BUSY = 1 an access at or above offset 0x20 is closed: a read returns 0, a write is dropped, either sets
STATUS.BUSYACC, and nothing else changes; a read below 0x20 is open, and returns the register there.
(`hostQueue` and `readData` are the model's form of the port, log entry 3.) -/
def Obligations.ClosedAccesses : Prop :=
  ∀ (s : State) (off : BitVec 25) (rest : List HostEvent), s.busy = true →
    (0x20 ≤ off.toNat →
      (s.hostQueue = .read off :: rest → step s = .next { s with hostQueue := rest, readData := 0, busyAcc := true }) ∧
      ∀ data strobe, s.hostQueue = .write off data strobe :: rest → step s = .next { s with hostQueue := rest, busyAcc := true }) ∧
    (off.toNat < 0x20 → s.hostQueue = .read off :: rest → ∃ row ∈ regRows, row.num = off.toNat / 4 ∧
      step s = .next { s with hostQueue := rest, readData := s.readReg row.reg })

/-- R530, R551, R513, R531: a write of CTRL performs the actions of the strobed 1 bits, in the order SOFTRST, ERRCLR, START, at
any time: SOFTRST gives every state but LMEM its reset value, ERRCLR clears ERR alone, START sets BUSY alone and is ignored
while BUSY or ERR. (`hostQueue` and `readData` are the model's form of the port, log
entry 3; that SOFTRST keeps them and `params` is the model's choice, log entry 12.) -/
def Obligations.ControlActions : Prop :=
  ∀ (s : State) (off : BitVec 25) (data : Word) (strobe : BitVec 4) (rest : List HostEvent),
    s.hostQueue = .write off data strobe :: rest → off.toNat / 4 = 1 →
    let acts (b : Nat) : Bool := strobe.getLsbD 0 && data.getLsbD b
    let s0 : State := { s with hostQueue := rest }
    let s1 : State :=
      if acts 2 then { State.hardResetState s.params s.mem with hostQueue := rest, readData := s.readData } else s0
    let s2 : State := if acts 1 then { s1 with err := false } else s1
    let s3 : State := if acts 0 && ! s2.busy && ! s2.err then { s2 with busy := true } else s2
    step s = .next s3

/-- R41, R39, R103, R520: a write of IRQ_STATUS clears the bits written as 1 and no others, at any time; a write of STATUS clears only
BUSYACC; and the interrupt output is high exactly while an enabled status bit is 1. (`hostQueue` is the model's form of the port,
log entry 3.) -/
def Obligations.InterruptAndStatusBits : Prop :=
  (∀ (s : State) (off : BitVec 25) (data : Word) (strobe : BitVec 4) (rest : List HostEvent),
    s.hostQueue = .write off data strobe :: rest →
    (off.toNat / 4 = 3 → ∃ q : BitVec 3, step s = .next { s with hostQueue := rest, irqStatus := q } ∧
      ∀ b < 3, q.getLsbD b = (s.irqStatus.getLsbD b && ! (strobe.getLsbD 0 && data.getLsbD b))) ∧
    (off.toNat / 4 = 2 → step s = .next { s with
      hostQueue := rest, busyAcc := s.busyAcc && ! (strobe.getLsbD 0 && data.getLsbD 2) })) ∧
  ∀ s : State, s.irqLine = true ↔ ∃ b < 3, s.irqStatus.getLsbD b = true ∧ s.irqEnable.getLsbD b = true

end
end

