-- ==== Sys2Proof/Laws/Memory.lean ====
section
/-!
SUPPORT. The laws of LMEM as data: a read after a write, and that every operation keeps the canonical form and the bound.
-/

namespace Sys2Proof.Machine

@[simp] theorem Memory.byteAt_nil (k : Nat) : Memory.byteAt [] k = unlistedByte := rfl

theorem Memory.byteAt_cons (a : Nat) (v : Byte) (rest : Memory) (k : Nat) :
    Memory.byteAt ((a, v) :: rest) k = if a = k then v else Memory.byteAt rest k := rfl

/-- An address below every listed one reads as an unlisted address. -/
theorem Memory.byteAt_of_lt {m : Memory} {k : Nat} (h : ∀ c ∈ m, k < c.1) : Memory.byteAt m k = unlistedByte := by
  induction m with
  | nil => rfl
  | cons c rest ih =>
    obtain ⟨a, v⟩ := c
    have ha : k < a := h (a, v) (by simp)
    rw [Memory.byteAt_cons, if_neg (by omega)]
    exact ih fun c hc => h c (by simp [hc])

theorem Memory.wf_tail {c : Host.Cell} {rest : Memory} (h : Memory.wf (c :: rest)) : Memory.wf rest :=
  ⟨(List.pairwise_cons.mp h.1).2, fun d hd => h.2 d (by simp [hd])⟩

theorem Memory.wf_head_lt {c : Host.Cell} {rest : Memory} (h : Memory.wf (c :: rest)) : ∀ d ∈ rest, c.1 < d.1 :=
  (List.pairwise_cons.mp h.1).1

/-- A cell put before a memory of greater addresses. -/
theorem Memory.byteAt_consCell {k : Nat} {v : Byte} {rest : Memory} (h : ∀ c ∈ rest, k < c.1) (j : Nat) :
    Memory.byteAt (Memory.consCell k v rest) j = if j = k then v else Memory.byteAt rest j := by
  unfold Memory.consCell
  by_cases hv : v = unlistedByte
  · rw [if_pos hv]
    by_cases hj : j = k
    · subst hj; rw [if_pos rfl, Memory.byteAt_of_lt h, hv]
    · rw [if_neg hj]
  · rw [if_neg hv, Memory.byteAt_cons]
    by_cases hj : j = k
    · subst hj; simp
    · rw [if_neg (fun e => hj e.symm), if_neg hj]

/-- Reading a byte after a write. -/
theorem Memory.byteAt_write {m : Memory} (h : m.wf) (k : Nat) (v : Byte) (j : Nat) :
    Memory.byteAt (Memory.write m k v) j = if j = k then v else Memory.byteAt m j := by
  induction m with
  | nil => exact Memory.byteAt_consCell (by simp) j
  | cons c rest ih =>
    obtain ⟨a, w⟩ := c
    have hlt := Memory.wf_head_lt h
    have ih := ih (Memory.wf_tail h)
    unfold Memory.write
    by_cases h1 : k < a
    · rw [if_pos h1]
      refine Memory.byteAt_consCell ?_ j
      intro d hd
      rcases List.mem_cons.mp hd with rfl | hd
      · exact h1
      · exact Nat.lt_trans h1 (hlt d hd)
    · rw [if_neg h1]
      by_cases h2 : k = a
      · subst h2
        rw [if_pos rfl, Memory.byteAt_consCell hlt j, Memory.byteAt_cons]
        by_cases hj : j = k
        · simp [hj]
        · rw [if_neg hj, if_neg hj, if_neg (fun e => hj e.symm)]
      · rw [if_neg h2, Memory.byteAt_cons, Memory.byteAt_cons, ih]
        by_cases hj : j = k
        · subst hj; rw [if_neg (by omega), if_pos rfl, if_pos rfl]
        · rw [if_neg hj, if_neg hj]

/-- Every address a write lists was listed or is the one written. -/
theorem Memory.mem_write {m : Memory} {k : Nat} {v : Byte} {c : Host.Cell} (h : c ∈ Memory.write m k v) :
    c.1 = k ∨ c ∈ m := by
  have cons : ∀ {rest : Memory}, c ∈ Memory.consCell k v rest → c.1 = k ∨ c ∈ rest := by
    intro rest hc
    unfold Memory.consCell at hc
    split at hc
    · exact .inr hc
    · rcases List.mem_cons.mp hc with rfl | hc
      · exact .inl rfl
      · exact .inr hc
  induction m with
  | nil => exact cons h
  | cons d rest ih =>
    obtain ⟨a, w⟩ := d
    unfold Memory.write at h
    split at h
    · exact cons h
    · split at h
      · exact (cons h).imp id fun hc => by simp [hc]
      · rcases List.mem_cons.mp h with rfl | hc
        · exact .inr (by simp)
        · exact (ih hc).imp id fun hc => by simp [hc]

theorem Memory.wf_consCell {k : Nat} {v : Byte} {rest : Memory} (h : rest.wf) (hk : ∀ c ∈ rest, k < c.1) :
    Memory.wf (Memory.consCell k v rest) := by
  unfold Memory.consCell
  split
  · exact h
  · refine ⟨List.pairwise_cons.mpr ⟨hk, h.1⟩, ?_⟩
    intro c hc
    rcases List.mem_cons.mp hc with rfl | hc
    · assumption
    · exact h.2 c hc

/-- A write keeps the canonical form. -/
theorem Memory.wf_write {m : Memory} (h : m.wf) (k : Nat) (v : Byte) : Memory.wf (Memory.write m k v) := by
  induction m with
  | nil => exact Memory.wf_consCell h (by simp)
  | cons c rest ih =>
    obtain ⟨a, w⟩ := c
    have hlt := Memory.wf_head_lt h
    have htail := Memory.wf_tail h
    unfold Memory.write
    split
    · rename_i h1
      refine Memory.wf_consCell h ?_
      intro d hd
      rcases List.mem_cons.mp hd with rfl | hd
      · exact h1
      · exact Nat.lt_trans h1 (hlt d hd)
    · split
      · rename_i h2
        subst h2
        exact Memory.wf_consCell htail hlt
      · refine ⟨List.pairwise_cons.mpr ⟨?_, (ih htail).1⟩, ?_⟩
        · intro d hd
          rcases Memory.mem_write hd with hk | hd
          · simp only [hk]; omega
          · exact hlt d hd
        · intro d hd
          rcases List.mem_cons.mp hd with rfl | hd
          · exact h.2 _ (by simp)
          · exact (ih htail).2 d hd

/-- A write below the bound keeps the bound. -/
theorem Memory.below_write {m : Memory} {size : Nat} (h : m.below size) {k : Nat} (hk : k < size) (v : Byte) :
    Memory.below (Memory.write m k v) size := by
  intro c hc
  rcases Memory.mem_write hc with h' | h'
  · omega
  · exact h c h'

/-- Two canonical memories that read alike are equal: the form is canonical. -/
theorem Memory.ext_of_byteAt {m n : Memory} (hm : m.wf) (hn : n.wf) (h : ∀ k, m.byteAt k = n.byteAt k) : m = n := by
  induction m generalizing n with
  | nil =>
    cases n with
    | nil => rfl
    | cons d n =>
      obtain ⟨b, w⟩ := d
      exact absurd (by simpa [Memory.byteAt_cons] using (h b).symm) (hn.2 (b, w) (by simp))
  | cons c m ih =>
    obtain ⟨a, v⟩ := c
    have hv : v ≠ unlistedByte := hm.2 (a, v) (by simp)
    cases n with
    | nil => exact absurd (by simpa [Memory.byteAt_cons] using h a) hv
    | cons d n =>
      obtain ⟨b, w⟩ := d
      have hw : w ≠ unlistedByte := hn.2 (b, w) (by simp)
      have hlt := Memory.wf_head_lt hm
      have hlt' := Memory.wf_head_lt hn
      have key : ∀ (p q : Nat) (x : Byte) (rest : Memory), (∀ c ∈ rest, q < c.1) → p < q →
          Memory.byteAt ((q, x) :: rest) p = unlistedByte := by
        intro p q x rest hr hpq
        refine Memory.byteAt_of_lt ?_
        intro c hc
        rcases List.mem_cons.mp hc with rfl | hc
        · exact hpq
        · exact Nat.lt_trans hpq (hr c hc)
      have hab : a = b := by
        rcases Nat.lt_trichotomy a b with hlt1 | heq | hgt
        · have := h a
          rw [key a b w n hlt' hlt1, Memory.byteAt_cons, if_pos rfl] at this
          exact absurd this hv
        · exact heq
        · have := h b
          rw [key b a v m hlt hgt, Memory.byteAt_cons, if_pos rfl] at this
          exact absurd this.symm hw
      subst hab
      have hvw : v = w := by simpa [Memory.byteAt_cons] using h a
      subst hvw
      rw [ih (Memory.wf_tail hm) (Memory.wf_tail hn) ?_]
      intro k
      have hk := h k
      rw [Memory.byteAt_cons, Memory.byteAt_cons] at hk
      by_cases hka : a = k
      · subst hka
        rw [Memory.byteAt_of_lt hlt, Memory.byteAt_of_lt hlt']
      · rwa [if_neg hka, if_neg hka] at hk

/-! ## Loops of writes -/

section
variable {ι : Type}

theorem Memory.writeEach_nil (addr : ι → Nat) (val : Memory → ι → Byte) (m : Memory) :
    Memory.writeEach [] addr val m = m := rfl

theorem Memory.writeEach_cons (c : ι) (cs : List ι) (addr : ι → Nat) (val : Memory → ι → Byte) (m : Memory) :
    Memory.writeEach (c :: cs) addr val m = Memory.writeEach cs addr val (Memory.write m (addr c) (val m c)) := rfl

/-- A loop of writes keeps the canonical form. -/
theorem Memory.wf_writeEach (cs : List ι) (addr : ι → Nat) (val : Memory → ι → Byte) {m : Memory} (h : m.wf) :
    Memory.wf (Memory.writeEach cs addr val m) := by
  induction cs generalizing m with
  | nil => exact h
  | cons c cs ih => exact ih (Memory.wf_write h _ _)

/-- A loop of writes below the bound keeps the bound. -/
theorem Memory.below_writeEach {cs : List ι} {addr : ι → Nat} (val : Memory → ι → Byte) {m : Memory} {size : Nat}
    (h : m.below size) (ha : ∀ c ∈ cs, addr c < size) : Memory.below (Memory.writeEach cs addr val m) size := by
  induction cs generalizing m with
  | nil => exact h
  | cons c cs ih =>
    exact ih (Memory.below_write h (ha c (by simp)) _) fun d hd => ha d (by simp [hd])

/-- A loop of writes leaves every other address alone. -/
theorem Memory.byteAt_writeEach_other {cs : List ι} {addr : ι → Nat} (val : Memory → ι → Byte) {m : Memory} (h : m.wf)
    {k : Nat} (hk : ∀ c ∈ cs, addr c ≠ k) : Memory.byteAt (Memory.writeEach cs addr val m) k = Memory.byteAt m k := by
  induction cs generalizing m with
  | nil => rfl
  | cons c cs ih =>
    rw [Memory.writeEach_cons, ih (Memory.wf_write h _ _) fun d hd => hk d (by simp [hd]), Memory.byteAt_write h,
      if_neg fun e => hk c (by simp) e.symm]

/-- What a loop of writes leaves at one of its addresses, where the addresses differ and no value depends on what the loop
writes (it is the same in every memory that agrees with the first one outside the loop's addresses). -/
theorem Memory.byteAt_writeEach {cs : List ι} {addr : ι → Nat} {val : Memory → ι → Byte} {m : Memory} (h : m.wf)
    (hinj : cs.Pairwise fun c d => addr c ≠ addr d)
    (hval : ∀ m' : Memory, m'.wf → (∀ k, (∀ c ∈ cs, addr c ≠ k) → m'.byteAt k = m.byteAt k) → ∀ c ∈ cs, val m' c = val m c)
    {c : ι} (hc : c ∈ cs) : Memory.byteAt (Memory.writeEach cs addr val m) (addr c) = val m c := by
  suffices H : ∀ (ds : List ι) (m' : Memory), m'.wf → (∀ d ∈ ds, d ∈ cs) → ds.Pairwise (fun c d => addr c ≠ addr d) →
      (∀ k, (∀ c ∈ cs, addr c ≠ k) → m'.byteAt k = m.byteAt k) → c ∈ ds →
      Memory.byteAt (Memory.writeEach ds addr val m') (addr c) = val m c from
    H cs m h (fun _ hd => hd) hinj (fun _ _ => rfl) hc
  intro ds
  induction ds with
  | nil => intro _ _ _ _ _ hc; simp at hc
  | cons d ds ih =>
    intro m' hm' hsub hp hag hc
    have hp' := List.pairwise_cons.mp hp
    rw [Memory.writeEach_cons]
    have hw := Memory.wf_write hm' (addr d) (val m' d)
    have hag' : ∀ k, (∀ c ∈ cs, addr c ≠ k) → Memory.byteAt (Memory.write m' (addr d) (val m' d)) k = m.byteAt k := by
      intro k hk
      rw [Memory.byteAt_write hm', if_neg fun e => hk d (hsub d (by simp)) e.symm, hag k hk]
    by_cases hcd : c ∈ ds
    · exact ih _ hw (fun e he => hsub e (by simp [he])) hp'.2 hag' hcd
    · have hcd' : c = d := by
        rcases List.mem_cons.mp hc with e | e
        · exact e
        · exact absurd e hcd
      subst hcd'
      rw [Memory.byteAt_writeEach_other val hw fun e he => (hp'.1 e he).symm, Memory.byteAt_write hm', if_pos rfl]
      exact hval m' hm' hag c (hsub c (by simp))

end

/-- The memory given as cells is canonical and below its bound. -/
theorem Memory.ofCells_ok (size : Nat) (cells : List Host.Cell) :
    Memory.wf (Memory.ofCells size cells) ∧ Memory.below (Memory.ofCells size cells) size := by
  suffices H : ∀ (m : Memory), m.wf ∧ m.below size →
      Memory.wf (cells.foldl (fun m c => if c.1 < size then Memory.write m c.1 c.2 else m) m) ∧
      Memory.below (cells.foldl (fun m c => if c.1 < size then Memory.write m c.1 c.2 else m) m) size from
    H [] ⟨⟨List.Pairwise.nil, by simp⟩, by simp [Memory.below]⟩
  induction cells with
  | nil => exact fun _ h => h
  | cons c cells ih =>
    intro m h
    refine ih _ ?_
    dsimp only
    split
    · rename_i hc
      exact ⟨Memory.wf_write h.1 _ _, Memory.below_write h.2 hc _⟩
    · exact h

end Sys2Proof.Machine
end

