-- ==== Sys2Proof/Laws/State.lean ====
section
/-!
SUPPORT. One lemma per field for each named update of the state, each true by rfl, so that no proof unfolds an update.
-/

namespace Sys2Proof.Machine

/-! ## `State.withMem` -/

@[simp] theorem State.withMem_busy (s : State) (m : Memory) : (s.withMem m).busy = s.busy := rfl
@[simp] theorem State.withMem_err (s : State) (m : Memory) : (s.withMem m).err = s.err := rfl
@[simp] theorem State.withMem_busyAcc (s : State) (m : Memory) : (s.withMem m).busyAcc = s.busyAcc := rfl
@[simp] theorem State.withMem_irqStatus (s : State) (m : Memory) : (s.withMem m).irqStatus = s.irqStatus := rfl
@[simp] theorem State.withMem_irqEnable (s : State) (m : Memory) : (s.withMem m).irqEnable = s.irqEnable := rfl
@[simp] theorem State.withMem_errCode (s : State) (m : Memory) : (s.withMem m).errCode = s.errCode := rfl
@[simp] theorem State.withMem_errCpc (s : State) (m : Memory) : (s.withMem m).errCpc = s.errCpc := rfl
@[simp] theorem State.withMem_errCmd (s : State) (m : Memory) : (s.withMem m).errCmd = s.errCmd := rfl
@[simp] theorem State.withMem_cpc (s : State) (m : Memory) : (s.withMem m).cpc = s.cpc := rfl
@[simp] theorem State.withMem_flags (s : State) (m : Memory) : (s.withMem m).flags = s.flags := rfl
@[simp] theorem State.withMem_lc (s : State) (m : Memory) : (s.withMem m).lc = s.lc := rfl
@[simp] theorem State.withMem_cfg (s : State) (m : Memory) : (s.withMem m).cfg = s.cfg := rfl
@[simp] theorem State.withMem_rgbBase (s : State) (m : Memory) : (s.withMem m).rgbBase = s.rgbBase := rfl
@[simp] theorem State.withMem_bcur (s : State) (m : Memory) : (s.withMem m).bcur = s.bcur := rfl
@[simp] theorem State.withMem_planes (s : State) (m : Memory) : (s.withMem m).planes = s.planes := rfl
@[simp] theorem State.withMem_rd (s : State) (m : Memory) : (s.withMem m).rd = s.rd := rfl
@[simp] theorem State.withMem_wr (s : State) (m : Memory) : (s.withMem m).wr = s.wr := rfl
@[simp] theorem State.withMem_ix (s : State) (m : Memory) : (s.withMem m).ix = s.ix := rfl
@[simp] theorem State.withMem_quality (s : State) (m : Memory) : (s.withMem m).quality = s.quality := rfl
@[simp] theorem State.withMem_qbase (s : State) (m : Memory) : (s.withMem m).qbase = s.qbase := rfl
@[simp] theorem State.withMem_vtLo (s : State) (m : Memory) : (s.withMem m).vtLo = s.vtLo := rfl
@[simp] theorem State.withMem_vtHi (s : State) (m : Memory) : (s.withMem m).vtHi = s.vtHi := rfl
@[simp] theorem State.withMem_aqf (s : State) (m : Memory) : (s.withMem m).aqf = s.aqf := rfl
@[simp] theorem State.withMem_candN (s : State) (m : Memory) : (s.withMem m).candN = s.candN := rfl
@[simp] theorem State.withMem_cand01 (s : State) (m : Memory) : (s.withMem m).cand01 = s.cand01 := rfl
@[simp] theorem State.withMem_cand23 (s : State) (m : Memory) : (s.withMem m).cand23 = s.cand23 := rfl
@[simp] theorem State.withMem_qeff (s : State) (m : Memory) : (s.withMem m).qeff = s.qeff := rfl
@[simp] theorem State.withMem_qidx (s : State) (m : Memory) : (s.withMem m).qidx = s.qidx := rfl
@[simp] theorem State.withMem_varn (s : State) (m : Memory) : (s.withMem m).varn = s.varn := rfl
@[simp] theorem State.withMem_hcount (s : State) (m : Memory) : (s.withMem m).hcount = s.hcount := rfl
@[simp] theorem State.withMem_hroot (s : State) (m : Memory) : (s.withMem m).hroot = s.hroot := rfl
@[simp] theorem State.withMem_hnleaf (s : State) (m : Memory) : (s.withMem m).hnleaf = s.hnleaf := rfl
@[simp] theorem State.withMem_hbits (s : State) (m : Memory) : (s.withMem m).hbits = s.hbits := rfl
@[simp] theorem State.withMem_sBlk (s : State) (m : Memory) : (s.withMem m).sBlk = s.sBlk := rfl
@[simp] theorem State.withMem_cBlk (s : State) (m : Memory) : (s.withMem m).cBlk = s.cBlk := rfl
@[simp] theorem State.withMem_qBlk (s : State) (m : Memory) : (s.withMem m).qBlk = s.qBlk := rfl
@[simp] theorem State.withMem_qtLuma (s : State) (m : Memory) : (s.withMem m).qtLuma = s.qtLuma := rfl
@[simp] theorem State.withMem_qtChroma (s : State) (m : Memory) : (s.withMem m).qtChroma = s.qtChroma := rfl
@[simp] theorem State.withMem_hfreq (s : State) (m : Memory) : (s.withMem m).hfreq = s.hfreq := rfl
@[simp] theorem State.withMem_hnode (s : State) (m : Memory) : (s.withMem m).hnode = s.hnode := rfl
@[simp] theorem State.withMem_mem (s : State) (m : Memory) : (s.withMem m).mem = m := rfl
@[simp] theorem State.withMem_params (s : State) (m : Memory) : (s.withMem m).params = s.params := rfl
@[simp] theorem State.withMem_hostQueue (s : State) (m : Memory) : (s.withMem m).hostQueue = s.hostQueue := rfl
@[simp] theorem State.withMem_readData (s : State) (m : Memory) : (s.withMem m).readData = s.readData := rfl

/-! ## `State.advance` -/

@[simp] theorem State.advance_busy (s : State) : (s.advance).busy = s.busy := rfl
@[simp] theorem State.advance_err (s : State) : (s.advance).err = s.err := rfl
@[simp] theorem State.advance_busyAcc (s : State) : (s.advance).busyAcc = s.busyAcc := rfl
@[simp] theorem State.advance_irqStatus (s : State) : (s.advance).irqStatus = s.irqStatus := rfl
@[simp] theorem State.advance_irqEnable (s : State) : (s.advance).irqEnable = s.irqEnable := rfl
@[simp] theorem State.advance_errCode (s : State) : (s.advance).errCode = s.errCode := rfl
@[simp] theorem State.advance_errCpc (s : State) : (s.advance).errCpc = s.errCpc := rfl
@[simp] theorem State.advance_errCmd (s : State) : (s.advance).errCmd = s.errCmd := rfl
@[simp] theorem State.advance_cpc (s : State) : (s.advance).cpc = s.cpc + 4 := rfl
@[simp] theorem State.advance_flags (s : State) : (s.advance).flags = s.flags := rfl
@[simp] theorem State.advance_lc (s : State) : (s.advance).lc = s.lc := rfl
@[simp] theorem State.advance_cfg (s : State) : (s.advance).cfg = s.cfg := rfl
@[simp] theorem State.advance_rgbBase (s : State) : (s.advance).rgbBase = s.rgbBase := rfl
@[simp] theorem State.advance_bcur (s : State) : (s.advance).bcur = s.bcur := rfl
@[simp] theorem State.advance_planes (s : State) : (s.advance).planes = s.planes := rfl
@[simp] theorem State.advance_rd (s : State) : (s.advance).rd = s.rd := rfl
@[simp] theorem State.advance_wr (s : State) : (s.advance).wr = s.wr := rfl
@[simp] theorem State.advance_ix (s : State) : (s.advance).ix = s.ix := rfl
@[simp] theorem State.advance_quality (s : State) : (s.advance).quality = s.quality := rfl
@[simp] theorem State.advance_qbase (s : State) : (s.advance).qbase = s.qbase := rfl
@[simp] theorem State.advance_vtLo (s : State) : (s.advance).vtLo = s.vtLo := rfl
@[simp] theorem State.advance_vtHi (s : State) : (s.advance).vtHi = s.vtHi := rfl
@[simp] theorem State.advance_aqf (s : State) : (s.advance).aqf = s.aqf := rfl
@[simp] theorem State.advance_candN (s : State) : (s.advance).candN = s.candN := rfl
@[simp] theorem State.advance_cand01 (s : State) : (s.advance).cand01 = s.cand01 := rfl
@[simp] theorem State.advance_cand23 (s : State) : (s.advance).cand23 = s.cand23 := rfl
@[simp] theorem State.advance_qeff (s : State) : (s.advance).qeff = s.qeff := rfl
@[simp] theorem State.advance_qidx (s : State) : (s.advance).qidx = s.qidx := rfl
@[simp] theorem State.advance_varn (s : State) : (s.advance).varn = s.varn := rfl
@[simp] theorem State.advance_hcount (s : State) : (s.advance).hcount = s.hcount := rfl
@[simp] theorem State.advance_hroot (s : State) : (s.advance).hroot = s.hroot := rfl
@[simp] theorem State.advance_hnleaf (s : State) : (s.advance).hnleaf = s.hnleaf := rfl
@[simp] theorem State.advance_hbits (s : State) : (s.advance).hbits = s.hbits := rfl
@[simp] theorem State.advance_sBlk (s : State) : (s.advance).sBlk = s.sBlk := rfl
@[simp] theorem State.advance_cBlk (s : State) : (s.advance).cBlk = s.cBlk := rfl
@[simp] theorem State.advance_qBlk (s : State) : (s.advance).qBlk = s.qBlk := rfl
@[simp] theorem State.advance_qtLuma (s : State) : (s.advance).qtLuma = s.qtLuma := rfl
@[simp] theorem State.advance_qtChroma (s : State) : (s.advance).qtChroma = s.qtChroma := rfl
@[simp] theorem State.advance_hfreq (s : State) : (s.advance).hfreq = s.hfreq := rfl
@[simp] theorem State.advance_hnode (s : State) : (s.advance).hnode = s.hnode := rfl
@[simp] theorem State.advance_mem (s : State) : (s.advance).mem = s.mem := rfl
@[simp] theorem State.advance_params (s : State) : (s.advance).params = s.params := rfl
@[simp] theorem State.advance_hostQueue (s : State) : (s.advance).hostQueue = s.hostQueue := rfl
@[simp] theorem State.advance_readData (s : State) : (s.advance).readData = s.readData := rfl

/-! ## `State.jumpTo` -/

@[simp] theorem State.jumpTo_busy (s : State) (target : Word) : (s.jumpTo target).busy = s.busy := rfl
@[simp] theorem State.jumpTo_err (s : State) (target : Word) : (s.jumpTo target).err = s.err := rfl
@[simp] theorem State.jumpTo_busyAcc (s : State) (target : Word) : (s.jumpTo target).busyAcc = s.busyAcc := rfl
@[simp] theorem State.jumpTo_irqStatus (s : State) (target : Word) : (s.jumpTo target).irqStatus = s.irqStatus := rfl
@[simp] theorem State.jumpTo_irqEnable (s : State) (target : Word) : (s.jumpTo target).irqEnable = s.irqEnable := rfl
@[simp] theorem State.jumpTo_errCode (s : State) (target : Word) : (s.jumpTo target).errCode = s.errCode := rfl
@[simp] theorem State.jumpTo_errCpc (s : State) (target : Word) : (s.jumpTo target).errCpc = s.errCpc := rfl
@[simp] theorem State.jumpTo_errCmd (s : State) (target : Word) : (s.jumpTo target).errCmd = s.errCmd := rfl
@[simp] theorem State.jumpTo_cpc (s : State) (target : Word) : (s.jumpTo target).cpc = target := rfl
@[simp] theorem State.jumpTo_flags (s : State) (target : Word) : (s.jumpTo target).flags = s.flags := rfl
@[simp] theorem State.jumpTo_lc (s : State) (target : Word) : (s.jumpTo target).lc = s.lc := rfl
@[simp] theorem State.jumpTo_cfg (s : State) (target : Word) : (s.jumpTo target).cfg = s.cfg := rfl
@[simp] theorem State.jumpTo_rgbBase (s : State) (target : Word) : (s.jumpTo target).rgbBase = s.rgbBase := rfl
@[simp] theorem State.jumpTo_bcur (s : State) (target : Word) : (s.jumpTo target).bcur = s.bcur := rfl
@[simp] theorem State.jumpTo_planes (s : State) (target : Word) : (s.jumpTo target).planes = s.planes := rfl
@[simp] theorem State.jumpTo_rd (s : State) (target : Word) : (s.jumpTo target).rd = s.rd := rfl
@[simp] theorem State.jumpTo_wr (s : State) (target : Word) : (s.jumpTo target).wr = s.wr := rfl
@[simp] theorem State.jumpTo_ix (s : State) (target : Word) : (s.jumpTo target).ix = s.ix := rfl
@[simp] theorem State.jumpTo_quality (s : State) (target : Word) : (s.jumpTo target).quality = s.quality := rfl
@[simp] theorem State.jumpTo_qbase (s : State) (target : Word) : (s.jumpTo target).qbase = s.qbase := rfl
@[simp] theorem State.jumpTo_vtLo (s : State) (target : Word) : (s.jumpTo target).vtLo = s.vtLo := rfl
@[simp] theorem State.jumpTo_vtHi (s : State) (target : Word) : (s.jumpTo target).vtHi = s.vtHi := rfl
@[simp] theorem State.jumpTo_aqf (s : State) (target : Word) : (s.jumpTo target).aqf = s.aqf := rfl
@[simp] theorem State.jumpTo_candN (s : State) (target : Word) : (s.jumpTo target).candN = s.candN := rfl
@[simp] theorem State.jumpTo_cand01 (s : State) (target : Word) : (s.jumpTo target).cand01 = s.cand01 := rfl
@[simp] theorem State.jumpTo_cand23 (s : State) (target : Word) : (s.jumpTo target).cand23 = s.cand23 := rfl
@[simp] theorem State.jumpTo_qeff (s : State) (target : Word) : (s.jumpTo target).qeff = s.qeff := rfl
@[simp] theorem State.jumpTo_qidx (s : State) (target : Word) : (s.jumpTo target).qidx = s.qidx := rfl
@[simp] theorem State.jumpTo_varn (s : State) (target : Word) : (s.jumpTo target).varn = s.varn := rfl
@[simp] theorem State.jumpTo_hcount (s : State) (target : Word) : (s.jumpTo target).hcount = s.hcount := rfl
@[simp] theorem State.jumpTo_hroot (s : State) (target : Word) : (s.jumpTo target).hroot = s.hroot := rfl
@[simp] theorem State.jumpTo_hnleaf (s : State) (target : Word) : (s.jumpTo target).hnleaf = s.hnleaf := rfl
@[simp] theorem State.jumpTo_hbits (s : State) (target : Word) : (s.jumpTo target).hbits = s.hbits := rfl
@[simp] theorem State.jumpTo_sBlk (s : State) (target : Word) : (s.jumpTo target).sBlk = s.sBlk := rfl
@[simp] theorem State.jumpTo_cBlk (s : State) (target : Word) : (s.jumpTo target).cBlk = s.cBlk := rfl
@[simp] theorem State.jumpTo_qBlk (s : State) (target : Word) : (s.jumpTo target).qBlk = s.qBlk := rfl
@[simp] theorem State.jumpTo_qtLuma (s : State) (target : Word) : (s.jumpTo target).qtLuma = s.qtLuma := rfl
@[simp] theorem State.jumpTo_qtChroma (s : State) (target : Word) : (s.jumpTo target).qtChroma = s.qtChroma := rfl
@[simp] theorem State.jumpTo_hfreq (s : State) (target : Word) : (s.jumpTo target).hfreq = s.hfreq := rfl
@[simp] theorem State.jumpTo_hnode (s : State) (target : Word) : (s.jumpTo target).hnode = s.hnode := rfl
@[simp] theorem State.jumpTo_mem (s : State) (target : Word) : (s.jumpTo target).mem = s.mem := rfl
@[simp] theorem State.jumpTo_params (s : State) (target : Word) : (s.jumpTo target).params = s.params := rfl
@[simp] theorem State.jumpTo_hostQueue (s : State) (target : Word) : (s.jumpTo target).hostQueue = s.hostQueue := rfl
@[simp] theorem State.jumpTo_readData (s : State) (target : Word) : (s.jumpTo target).readData = s.readData := rfl

/-! ## `State.errorHalt` -/

@[simp] theorem State.errorHalt_busy (s : State) (c : ErrCode) (m : Memory) (w : Word) : (s.errorHalt c m w).busy = false := rfl
@[simp] theorem State.errorHalt_err (s : State) (c : ErrCode) (m : Memory) (w : Word) : (s.errorHalt c m w).err = true := rfl
@[simp] theorem State.errorHalt_busyAcc (s : State) (c : ErrCode) (m : Memory) (w : Word) :
    (s.errorHalt c m w).busyAcc = s.busyAcc := rfl
@[simp] theorem State.errorHalt_irqStatus (s : State) (c : ErrCode) (m : Memory) (w : Word) :
    (s.errorHalt c m w).irqStatus = s.irqStatus ||| irqErr := rfl
@[simp] theorem State.errorHalt_irqEnable (s : State) (c : ErrCode) (m : Memory) (w : Word) :
    (s.errorHalt c m w).irqEnable = s.irqEnable := rfl
@[simp] theorem State.errorHalt_errCode (s : State) (c : ErrCode) (m : Memory) (w : Word) :
    (s.errorHalt c m w).errCode = c.code := rfl
@[simp] theorem State.errorHalt_errCpc (s : State) (c : ErrCode) (m : Memory) (w : Word) :
    (s.errorHalt c m w).errCpc = s.cpc := rfl
@[simp] theorem State.errorHalt_errCmd (s : State) (c : ErrCode) (m : Memory) (w : Word) : (s.errorHalt c m w).errCmd = w := rfl
@[simp] theorem State.errorHalt_cpc (s : State) (c : ErrCode) (m : Memory) (w : Word) : (s.errorHalt c m w).cpc = s.cpc := rfl
@[simp] theorem State.errorHalt_flags (s : State) (c : ErrCode) (m : Memory) (w : Word) :
    (s.errorHalt c m w).flags = s.flags := rfl
@[simp] theorem State.errorHalt_lc (s : State) (c : ErrCode) (m : Memory) (w : Word) : (s.errorHalt c m w).lc = s.lc := rfl
@[simp] theorem State.errorHalt_cfg (s : State) (c : ErrCode) (m : Memory) (w : Word) : (s.errorHalt c m w).cfg = s.cfg := rfl
@[simp] theorem State.errorHalt_rgbBase (s : State) (c : ErrCode) (m : Memory) (w : Word) :
    (s.errorHalt c m w).rgbBase = s.rgbBase := rfl
@[simp] theorem State.errorHalt_bcur (s : State) (c : ErrCode) (m : Memory) (w : Word) : (s.errorHalt c m w).bcur = s.bcur := rfl
@[simp] theorem State.errorHalt_planes (s : State) (c : ErrCode) (m : Memory) (w : Word) :
    (s.errorHalt c m w).planes = s.planes := rfl
@[simp] theorem State.errorHalt_rd (s : State) (c : ErrCode) (m : Memory) (w : Word) : (s.errorHalt c m w).rd = s.rd := rfl
@[simp] theorem State.errorHalt_wr (s : State) (c : ErrCode) (m : Memory) (w : Word) : (s.errorHalt c m w).wr = s.wr := rfl
@[simp] theorem State.errorHalt_ix (s : State) (c : ErrCode) (m : Memory) (w : Word) : (s.errorHalt c m w).ix = s.ix := rfl
@[simp] theorem State.errorHalt_quality (s : State) (c : ErrCode) (m : Memory) (w : Word) :
    (s.errorHalt c m w).quality = s.quality := rfl
@[simp] theorem State.errorHalt_qbase (s : State) (c : ErrCode) (m : Memory) (w : Word) :
    (s.errorHalt c m w).qbase = s.qbase := rfl
@[simp] theorem State.errorHalt_vtLo (s : State) (c : ErrCode) (m : Memory) (w : Word) : (s.errorHalt c m w).vtLo = s.vtLo := rfl
@[simp] theorem State.errorHalt_vtHi (s : State) (c : ErrCode) (m : Memory) (w : Word) : (s.errorHalt c m w).vtHi = s.vtHi := rfl
@[simp] theorem State.errorHalt_aqf (s : State) (c : ErrCode) (m : Memory) (w : Word) : (s.errorHalt c m w).aqf = s.aqf := rfl
@[simp] theorem State.errorHalt_candN (s : State) (c : ErrCode) (m : Memory) (w : Word) :
    (s.errorHalt c m w).candN = s.candN := rfl
@[simp] theorem State.errorHalt_cand01 (s : State) (c : ErrCode) (m : Memory) (w : Word) :
    (s.errorHalt c m w).cand01 = s.cand01 := rfl
@[simp] theorem State.errorHalt_cand23 (s : State) (c : ErrCode) (m : Memory) (w : Word) :
    (s.errorHalt c m w).cand23 = s.cand23 := rfl
@[simp] theorem State.errorHalt_qeff (s : State) (c : ErrCode) (m : Memory) (w : Word) : (s.errorHalt c m w).qeff = s.qeff := rfl
@[simp] theorem State.errorHalt_qidx (s : State) (c : ErrCode) (m : Memory) (w : Word) : (s.errorHalt c m w).qidx = s.qidx := rfl
@[simp] theorem State.errorHalt_varn (s : State) (c : ErrCode) (m : Memory) (w : Word) : (s.errorHalt c m w).varn = s.varn := rfl
@[simp] theorem State.errorHalt_hcount (s : State) (c : ErrCode) (m : Memory) (w : Word) :
    (s.errorHalt c m w).hcount = s.hcount := rfl
@[simp] theorem State.errorHalt_hroot (s : State) (c : ErrCode) (m : Memory) (w : Word) :
    (s.errorHalt c m w).hroot = s.hroot := rfl
@[simp] theorem State.errorHalt_hnleaf (s : State) (c : ErrCode) (m : Memory) (w : Word) :
    (s.errorHalt c m w).hnleaf = s.hnleaf := rfl
@[simp] theorem State.errorHalt_hbits (s : State) (c : ErrCode) (m : Memory) (w : Word) :
    (s.errorHalt c m w).hbits = s.hbits := rfl
@[simp] theorem State.errorHalt_sBlk (s : State) (c : ErrCode) (m : Memory) (w : Word) : (s.errorHalt c m w).sBlk = s.sBlk := rfl
@[simp] theorem State.errorHalt_cBlk (s : State) (c : ErrCode) (m : Memory) (w : Word) : (s.errorHalt c m w).cBlk = s.cBlk := rfl
@[simp] theorem State.errorHalt_qBlk (s : State) (c : ErrCode) (m : Memory) (w : Word) : (s.errorHalt c m w).qBlk = s.qBlk := rfl
@[simp] theorem State.errorHalt_qtLuma (s : State) (c : ErrCode) (m : Memory) (w : Word) :
    (s.errorHalt c m w).qtLuma = s.qtLuma := rfl
@[simp] theorem State.errorHalt_qtChroma (s : State) (c : ErrCode) (m : Memory) (w : Word) :
    (s.errorHalt c m w).qtChroma = s.qtChroma := rfl
@[simp] theorem State.errorHalt_hfreq (s : State) (c : ErrCode) (m : Memory) (w : Word) :
    (s.errorHalt c m w).hfreq = s.hfreq := rfl
@[simp] theorem State.errorHalt_hnode (s : State) (c : ErrCode) (m : Memory) (w : Word) :
    (s.errorHalt c m w).hnode = s.hnode := rfl
@[simp] theorem State.errorHalt_mem (s : State) (c : ErrCode) (m : Memory) (w : Word) : (s.errorHalt c m w).mem = m := rfl
@[simp] theorem State.errorHalt_params (s : State) (c : ErrCode) (m : Memory) (w : Word) :
    (s.errorHalt c m w).params = s.params := rfl
@[simp] theorem State.errorHalt_hostQueue (s : State) (c : ErrCode) (m : Memory) (w : Word) :
    (s.errorHalt c m w).hostQueue = s.hostQueue := rfl
@[simp] theorem State.errorHalt_readData (s : State) (c : ErrCode) (m : Memory) (w : Word) :
    (s.errorHalt c m w).readData = s.readData := rfl

/-! ## `State.errClr` -/

@[simp] theorem State.errClr_busy (s : State) : (s.errClr).busy = s.busy := rfl
@[simp] theorem State.errClr_err (s : State) : (s.errClr).err = false := rfl
@[simp] theorem State.errClr_busyAcc (s : State) : (s.errClr).busyAcc = s.busyAcc := rfl
@[simp] theorem State.errClr_irqStatus (s : State) : (s.errClr).irqStatus = s.irqStatus := rfl
@[simp] theorem State.errClr_irqEnable (s : State) : (s.errClr).irqEnable = s.irqEnable := rfl
@[simp] theorem State.errClr_errCode (s : State) : (s.errClr).errCode = s.errCode := rfl
@[simp] theorem State.errClr_errCpc (s : State) : (s.errClr).errCpc = s.errCpc := rfl
@[simp] theorem State.errClr_errCmd (s : State) : (s.errClr).errCmd = s.errCmd := rfl
@[simp] theorem State.errClr_cpc (s : State) : (s.errClr).cpc = s.cpc := rfl
@[simp] theorem State.errClr_flags (s : State) : (s.errClr).flags = s.flags := rfl
@[simp] theorem State.errClr_lc (s : State) : (s.errClr).lc = s.lc := rfl
@[simp] theorem State.errClr_cfg (s : State) : (s.errClr).cfg = s.cfg := rfl
@[simp] theorem State.errClr_rgbBase (s : State) : (s.errClr).rgbBase = s.rgbBase := rfl
@[simp] theorem State.errClr_bcur (s : State) : (s.errClr).bcur = s.bcur := rfl
@[simp] theorem State.errClr_planes (s : State) : (s.errClr).planes = s.planes := rfl
@[simp] theorem State.errClr_rd (s : State) : (s.errClr).rd = s.rd := rfl
@[simp] theorem State.errClr_wr (s : State) : (s.errClr).wr = s.wr := rfl
@[simp] theorem State.errClr_ix (s : State) : (s.errClr).ix = s.ix := rfl
@[simp] theorem State.errClr_quality (s : State) : (s.errClr).quality = s.quality := rfl
@[simp] theorem State.errClr_qbase (s : State) : (s.errClr).qbase = s.qbase := rfl
@[simp] theorem State.errClr_vtLo (s : State) : (s.errClr).vtLo = s.vtLo := rfl
@[simp] theorem State.errClr_vtHi (s : State) : (s.errClr).vtHi = s.vtHi := rfl
@[simp] theorem State.errClr_aqf (s : State) : (s.errClr).aqf = s.aqf := rfl
@[simp] theorem State.errClr_candN (s : State) : (s.errClr).candN = s.candN := rfl
@[simp] theorem State.errClr_cand01 (s : State) : (s.errClr).cand01 = s.cand01 := rfl
@[simp] theorem State.errClr_cand23 (s : State) : (s.errClr).cand23 = s.cand23 := rfl
@[simp] theorem State.errClr_qeff (s : State) : (s.errClr).qeff = s.qeff := rfl
@[simp] theorem State.errClr_qidx (s : State) : (s.errClr).qidx = s.qidx := rfl
@[simp] theorem State.errClr_varn (s : State) : (s.errClr).varn = s.varn := rfl
@[simp] theorem State.errClr_hcount (s : State) : (s.errClr).hcount = s.hcount := rfl
@[simp] theorem State.errClr_hroot (s : State) : (s.errClr).hroot = s.hroot := rfl
@[simp] theorem State.errClr_hnleaf (s : State) : (s.errClr).hnleaf = s.hnleaf := rfl
@[simp] theorem State.errClr_hbits (s : State) : (s.errClr).hbits = s.hbits := rfl
@[simp] theorem State.errClr_sBlk (s : State) : (s.errClr).sBlk = s.sBlk := rfl
@[simp] theorem State.errClr_cBlk (s : State) : (s.errClr).cBlk = s.cBlk := rfl
@[simp] theorem State.errClr_qBlk (s : State) : (s.errClr).qBlk = s.qBlk := rfl
@[simp] theorem State.errClr_qtLuma (s : State) : (s.errClr).qtLuma = s.qtLuma := rfl
@[simp] theorem State.errClr_qtChroma (s : State) : (s.errClr).qtChroma = s.qtChroma := rfl
@[simp] theorem State.errClr_hfreq (s : State) : (s.errClr).hfreq = s.hfreq := rfl
@[simp] theorem State.errClr_hnode (s : State) : (s.errClr).hnode = s.hnode := rfl
@[simp] theorem State.errClr_mem (s : State) : (s.errClr).mem = s.mem := rfl
@[simp] theorem State.errClr_params (s : State) : (s.errClr).params = s.params := rfl
@[simp] theorem State.errClr_hostQueue (s : State) : (s.errClr).hostQueue = s.hostQueue := rfl
@[simp] theorem State.errClr_readData (s : State) : (s.errClr).readData = s.readData := rfl

/-! ## `State.setBend` -/

@[simp] theorem State.setBend_busy (s : State) (b : Bool) : (s.setBend b).busy = s.busy := rfl
@[simp] theorem State.setBend_err (s : State) (b : Bool) : (s.setBend b).err = s.err := rfl
@[simp] theorem State.setBend_busyAcc (s : State) (b : Bool) : (s.setBend b).busyAcc = s.busyAcc := rfl
@[simp] theorem State.setBend_irqStatus (s : State) (b : Bool) : (s.setBend b).irqStatus = s.irqStatus := rfl
@[simp] theorem State.setBend_irqEnable (s : State) (b : Bool) : (s.setBend b).irqEnable = s.irqEnable := rfl
@[simp] theorem State.setBend_errCode (s : State) (b : Bool) : (s.setBend b).errCode = s.errCode := rfl
@[simp] theorem State.setBend_errCpc (s : State) (b : Bool) : (s.setBend b).errCpc = s.errCpc := rfl
@[simp] theorem State.setBend_errCmd (s : State) (b : Bool) : (s.setBend b).errCmd = s.errCmd := rfl
@[simp] theorem State.setBend_cpc (s : State) (b : Bool) : (s.setBend b).cpc = s.cpc := rfl
@[simp] theorem State.setBend_flags (s : State) (b : Bool) : (s.setBend b).flags = BitVec.ofBool s.esc ++ BitVec.ofBool b := rfl
@[simp] theorem State.setBend_lc (s : State) (b : Bool) : (s.setBend b).lc = s.lc := rfl
@[simp] theorem State.setBend_cfg (s : State) (b : Bool) : (s.setBend b).cfg = s.cfg := rfl
@[simp] theorem State.setBend_rgbBase (s : State) (b : Bool) : (s.setBend b).rgbBase = s.rgbBase := rfl
@[simp] theorem State.setBend_bcur (s : State) (b : Bool) : (s.setBend b).bcur = s.bcur := rfl
@[simp] theorem State.setBend_planes (s : State) (b : Bool) : (s.setBend b).planes = s.planes := rfl
@[simp] theorem State.setBend_rd (s : State) (b : Bool) : (s.setBend b).rd = s.rd := rfl
@[simp] theorem State.setBend_wr (s : State) (b : Bool) : (s.setBend b).wr = s.wr := rfl
@[simp] theorem State.setBend_ix (s : State) (b : Bool) : (s.setBend b).ix = s.ix := rfl
@[simp] theorem State.setBend_quality (s : State) (b : Bool) : (s.setBend b).quality = s.quality := rfl
@[simp] theorem State.setBend_qbase (s : State) (b : Bool) : (s.setBend b).qbase = s.qbase := rfl
@[simp] theorem State.setBend_vtLo (s : State) (b : Bool) : (s.setBend b).vtLo = s.vtLo := rfl
@[simp] theorem State.setBend_vtHi (s : State) (b : Bool) : (s.setBend b).vtHi = s.vtHi := rfl
@[simp] theorem State.setBend_aqf (s : State) (b : Bool) : (s.setBend b).aqf = s.aqf := rfl
@[simp] theorem State.setBend_candN (s : State) (b : Bool) : (s.setBend b).candN = s.candN := rfl
@[simp] theorem State.setBend_cand01 (s : State) (b : Bool) : (s.setBend b).cand01 = s.cand01 := rfl
@[simp] theorem State.setBend_cand23 (s : State) (b : Bool) : (s.setBend b).cand23 = s.cand23 := rfl
@[simp] theorem State.setBend_qeff (s : State) (b : Bool) : (s.setBend b).qeff = s.qeff := rfl
@[simp] theorem State.setBend_qidx (s : State) (b : Bool) : (s.setBend b).qidx = s.qidx := rfl
@[simp] theorem State.setBend_varn (s : State) (b : Bool) : (s.setBend b).varn = s.varn := rfl
@[simp] theorem State.setBend_hcount (s : State) (b : Bool) : (s.setBend b).hcount = s.hcount := rfl
@[simp] theorem State.setBend_hroot (s : State) (b : Bool) : (s.setBend b).hroot = s.hroot := rfl
@[simp] theorem State.setBend_hnleaf (s : State) (b : Bool) : (s.setBend b).hnleaf = s.hnleaf := rfl
@[simp] theorem State.setBend_hbits (s : State) (b : Bool) : (s.setBend b).hbits = s.hbits := rfl
@[simp] theorem State.setBend_sBlk (s : State) (b : Bool) : (s.setBend b).sBlk = s.sBlk := rfl
@[simp] theorem State.setBend_cBlk (s : State) (b : Bool) : (s.setBend b).cBlk = s.cBlk := rfl
@[simp] theorem State.setBend_qBlk (s : State) (b : Bool) : (s.setBend b).qBlk = s.qBlk := rfl
@[simp] theorem State.setBend_qtLuma (s : State) (b : Bool) : (s.setBend b).qtLuma = s.qtLuma := rfl
@[simp] theorem State.setBend_qtChroma (s : State) (b : Bool) : (s.setBend b).qtChroma = s.qtChroma := rfl
@[simp] theorem State.setBend_hfreq (s : State) (b : Bool) : (s.setBend b).hfreq = s.hfreq := rfl
@[simp] theorem State.setBend_hnode (s : State) (b : Bool) : (s.setBend b).hnode = s.hnode := rfl
@[simp] theorem State.setBend_mem (s : State) (b : Bool) : (s.setBend b).mem = s.mem := rfl
@[simp] theorem State.setBend_params (s : State) (b : Bool) : (s.setBend b).params = s.params := rfl
@[simp] theorem State.setBend_hostQueue (s : State) (b : Bool) : (s.setBend b).hostQueue = s.hostQueue := rfl
@[simp] theorem State.setBend_readData (s : State) (b : Bool) : (s.setBend b).readData = s.readData := rfl

/-! ## `State.setEsc` -/

@[simp] theorem State.setEsc_busy (s : State) (b : Bool) : (s.setEsc b).busy = s.busy := rfl
@[simp] theorem State.setEsc_err (s : State) (b : Bool) : (s.setEsc b).err = s.err := rfl
@[simp] theorem State.setEsc_busyAcc (s : State) (b : Bool) : (s.setEsc b).busyAcc = s.busyAcc := rfl
@[simp] theorem State.setEsc_irqStatus (s : State) (b : Bool) : (s.setEsc b).irqStatus = s.irqStatus := rfl
@[simp] theorem State.setEsc_irqEnable (s : State) (b : Bool) : (s.setEsc b).irqEnable = s.irqEnable := rfl
@[simp] theorem State.setEsc_errCode (s : State) (b : Bool) : (s.setEsc b).errCode = s.errCode := rfl
@[simp] theorem State.setEsc_errCpc (s : State) (b : Bool) : (s.setEsc b).errCpc = s.errCpc := rfl
@[simp] theorem State.setEsc_errCmd (s : State) (b : Bool) : (s.setEsc b).errCmd = s.errCmd := rfl
@[simp] theorem State.setEsc_cpc (s : State) (b : Bool) : (s.setEsc b).cpc = s.cpc := rfl
@[simp] theorem State.setEsc_flags (s : State) (b : Bool) : (s.setEsc b).flags = BitVec.ofBool b ++ BitVec.ofBool s.bend := rfl
@[simp] theorem State.setEsc_lc (s : State) (b : Bool) : (s.setEsc b).lc = s.lc := rfl
@[simp] theorem State.setEsc_cfg (s : State) (b : Bool) : (s.setEsc b).cfg = s.cfg := rfl
@[simp] theorem State.setEsc_rgbBase (s : State) (b : Bool) : (s.setEsc b).rgbBase = s.rgbBase := rfl
@[simp] theorem State.setEsc_bcur (s : State) (b : Bool) : (s.setEsc b).bcur = s.bcur := rfl
@[simp] theorem State.setEsc_planes (s : State) (b : Bool) : (s.setEsc b).planes = s.planes := rfl
@[simp] theorem State.setEsc_rd (s : State) (b : Bool) : (s.setEsc b).rd = s.rd := rfl
@[simp] theorem State.setEsc_wr (s : State) (b : Bool) : (s.setEsc b).wr = s.wr := rfl
@[simp] theorem State.setEsc_ix (s : State) (b : Bool) : (s.setEsc b).ix = s.ix := rfl
@[simp] theorem State.setEsc_quality (s : State) (b : Bool) : (s.setEsc b).quality = s.quality := rfl
@[simp] theorem State.setEsc_qbase (s : State) (b : Bool) : (s.setEsc b).qbase = s.qbase := rfl
@[simp] theorem State.setEsc_vtLo (s : State) (b : Bool) : (s.setEsc b).vtLo = s.vtLo := rfl
@[simp] theorem State.setEsc_vtHi (s : State) (b : Bool) : (s.setEsc b).vtHi = s.vtHi := rfl
@[simp] theorem State.setEsc_aqf (s : State) (b : Bool) : (s.setEsc b).aqf = s.aqf := rfl
@[simp] theorem State.setEsc_candN (s : State) (b : Bool) : (s.setEsc b).candN = s.candN := rfl
@[simp] theorem State.setEsc_cand01 (s : State) (b : Bool) : (s.setEsc b).cand01 = s.cand01 := rfl
@[simp] theorem State.setEsc_cand23 (s : State) (b : Bool) : (s.setEsc b).cand23 = s.cand23 := rfl
@[simp] theorem State.setEsc_qeff (s : State) (b : Bool) : (s.setEsc b).qeff = s.qeff := rfl
@[simp] theorem State.setEsc_qidx (s : State) (b : Bool) : (s.setEsc b).qidx = s.qidx := rfl
@[simp] theorem State.setEsc_varn (s : State) (b : Bool) : (s.setEsc b).varn = s.varn := rfl
@[simp] theorem State.setEsc_hcount (s : State) (b : Bool) : (s.setEsc b).hcount = s.hcount := rfl
@[simp] theorem State.setEsc_hroot (s : State) (b : Bool) : (s.setEsc b).hroot = s.hroot := rfl
@[simp] theorem State.setEsc_hnleaf (s : State) (b : Bool) : (s.setEsc b).hnleaf = s.hnleaf := rfl
@[simp] theorem State.setEsc_hbits (s : State) (b : Bool) : (s.setEsc b).hbits = s.hbits := rfl
@[simp] theorem State.setEsc_sBlk (s : State) (b : Bool) : (s.setEsc b).sBlk = s.sBlk := rfl
@[simp] theorem State.setEsc_cBlk (s : State) (b : Bool) : (s.setEsc b).cBlk = s.cBlk := rfl
@[simp] theorem State.setEsc_qBlk (s : State) (b : Bool) : (s.setEsc b).qBlk = s.qBlk := rfl
@[simp] theorem State.setEsc_qtLuma (s : State) (b : Bool) : (s.setEsc b).qtLuma = s.qtLuma := rfl
@[simp] theorem State.setEsc_qtChroma (s : State) (b : Bool) : (s.setEsc b).qtChroma = s.qtChroma := rfl
@[simp] theorem State.setEsc_hfreq (s : State) (b : Bool) : (s.setEsc b).hfreq = s.hfreq := rfl
@[simp] theorem State.setEsc_hnode (s : State) (b : Bool) : (s.setEsc b).hnode = s.hnode := rfl
@[simp] theorem State.setEsc_mem (s : State) (b : Bool) : (s.setEsc b).mem = s.mem := rfl
@[simp] theorem State.setEsc_params (s : State) (b : Bool) : (s.setEsc b).params = s.params := rfl
@[simp] theorem State.setEsc_hostQueue (s : State) (b : Bool) : (s.setEsc b).hostQueue = s.hostQueue := rfl
@[simp] theorem State.setEsc_readData (s : State) (b : Bool) : (s.setEsc b).readData = s.readData := rfl

/-! ## `State.setCursor` -/

@[simp] theorem State.setCursor_busy (s : State) (x y : Nat) : (s.setCursor x y).busy = s.busy := rfl
@[simp] theorem State.setCursor_err (s : State) (x y : Nat) : (s.setCursor x y).err = s.err := rfl
@[simp] theorem State.setCursor_busyAcc (s : State) (x y : Nat) : (s.setCursor x y).busyAcc = s.busyAcc := rfl
@[simp] theorem State.setCursor_irqStatus (s : State) (x y : Nat) : (s.setCursor x y).irqStatus = s.irqStatus := rfl
@[simp] theorem State.setCursor_irqEnable (s : State) (x y : Nat) : (s.setCursor x y).irqEnable = s.irqEnable := rfl
@[simp] theorem State.setCursor_errCode (s : State) (x y : Nat) : (s.setCursor x y).errCode = s.errCode := rfl
@[simp] theorem State.setCursor_errCpc (s : State) (x y : Nat) : (s.setCursor x y).errCpc = s.errCpc := rfl
@[simp] theorem State.setCursor_errCmd (s : State) (x y : Nat) : (s.setCursor x y).errCmd = s.errCmd := rfl
@[simp] theorem State.setCursor_cpc (s : State) (x y : Nat) : (s.setCursor x y).cpc = s.cpc := rfl
@[simp] theorem State.setCursor_flags (s : State) (x y : Nat) : (s.setCursor x y).flags = s.flags := rfl
@[simp] theorem State.setCursor_lc (s : State) (x y : Nat) : (s.setCursor x y).lc = s.lc := rfl
@[simp] theorem State.setCursor_cfg (s : State) (x y : Nat) : (s.setCursor x y).cfg = s.cfg := rfl
@[simp] theorem State.setCursor_rgbBase (s : State) (x y : Nat) : (s.setCursor x y).rgbBase = s.rgbBase := rfl
@[simp] theorem State.setCursor_bcur (s : State) (x y : Nat) : (s.setCursor x y).bcur = BitVec.ofNat 16 y ++ BitVec.ofNat 16 x := rfl
@[simp] theorem State.setCursor_planes (s : State) (x y : Nat) : (s.setCursor x y).planes = s.planes := rfl
@[simp] theorem State.setCursor_rd (s : State) (x y : Nat) : (s.setCursor x y).rd = s.rd := rfl
@[simp] theorem State.setCursor_wr (s : State) (x y : Nat) : (s.setCursor x y).wr = s.wr := rfl
@[simp] theorem State.setCursor_ix (s : State) (x y : Nat) : (s.setCursor x y).ix = s.ix := rfl
@[simp] theorem State.setCursor_quality (s : State) (x y : Nat) : (s.setCursor x y).quality = s.quality := rfl
@[simp] theorem State.setCursor_qbase (s : State) (x y : Nat) : (s.setCursor x y).qbase = s.qbase := rfl
@[simp] theorem State.setCursor_vtLo (s : State) (x y : Nat) : (s.setCursor x y).vtLo = s.vtLo := rfl
@[simp] theorem State.setCursor_vtHi (s : State) (x y : Nat) : (s.setCursor x y).vtHi = s.vtHi := rfl
@[simp] theorem State.setCursor_aqf (s : State) (x y : Nat) : (s.setCursor x y).aqf = s.aqf := rfl
@[simp] theorem State.setCursor_candN (s : State) (x y : Nat) : (s.setCursor x y).candN = s.candN := rfl
@[simp] theorem State.setCursor_cand01 (s : State) (x y : Nat) : (s.setCursor x y).cand01 = s.cand01 := rfl
@[simp] theorem State.setCursor_cand23 (s : State) (x y : Nat) : (s.setCursor x y).cand23 = s.cand23 := rfl
@[simp] theorem State.setCursor_qeff (s : State) (x y : Nat) : (s.setCursor x y).qeff = s.qeff := rfl
@[simp] theorem State.setCursor_qidx (s : State) (x y : Nat) : (s.setCursor x y).qidx = s.qidx := rfl
@[simp] theorem State.setCursor_varn (s : State) (x y : Nat) : (s.setCursor x y).varn = s.varn := rfl
@[simp] theorem State.setCursor_hcount (s : State) (x y : Nat) : (s.setCursor x y).hcount = s.hcount := rfl
@[simp] theorem State.setCursor_hroot (s : State) (x y : Nat) : (s.setCursor x y).hroot = s.hroot := rfl
@[simp] theorem State.setCursor_hnleaf (s : State) (x y : Nat) : (s.setCursor x y).hnleaf = s.hnleaf := rfl
@[simp] theorem State.setCursor_hbits (s : State) (x y : Nat) : (s.setCursor x y).hbits = s.hbits := rfl
@[simp] theorem State.setCursor_sBlk (s : State) (x y : Nat) : (s.setCursor x y).sBlk = s.sBlk := rfl
@[simp] theorem State.setCursor_cBlk (s : State) (x y : Nat) : (s.setCursor x y).cBlk = s.cBlk := rfl
@[simp] theorem State.setCursor_qBlk (s : State) (x y : Nat) : (s.setCursor x y).qBlk = s.qBlk := rfl
@[simp] theorem State.setCursor_qtLuma (s : State) (x y : Nat) : (s.setCursor x y).qtLuma = s.qtLuma := rfl
@[simp] theorem State.setCursor_qtChroma (s : State) (x y : Nat) : (s.setCursor x y).qtChroma = s.qtChroma := rfl
@[simp] theorem State.setCursor_hfreq (s : State) (x y : Nat) : (s.setCursor x y).hfreq = s.hfreq := rfl
@[simp] theorem State.setCursor_hnode (s : State) (x y : Nat) : (s.setCursor x y).hnode = s.hnode := rfl
@[simp] theorem State.setCursor_mem (s : State) (x y : Nat) : (s.setCursor x y).mem = s.mem := rfl
@[simp] theorem State.setCursor_params (s : State) (x y : Nat) : (s.setCursor x y).params = s.params := rfl
@[simp] theorem State.setCursor_hostQueue (s : State) (x y : Nat) : (s.setCursor x y).hostQueue = s.hostQueue := rfl
@[simp] theorem State.setCursor_readData (s : State) (x y : Nat) : (s.setCursor x y).readData = s.readData := rfl

/-! ## `State.softReset` -/

@[simp] theorem State.softReset_mem (s : State) : (s.softReset).mem = s.mem := rfl
@[simp] theorem State.softReset_params (s : State) : (s.softReset).params = s.params := rfl
@[simp] theorem State.softReset_hostQueue (s : State) : (s.softReset).hostQueue = s.hostQueue := rfl
@[simp] theorem State.softReset_readData (s : State) : (s.softReset).readData = s.readData := rfl

/-! ## Flags and sizes -/

@[simp] theorem State.withMem_lmemSize (s : State) (m : Memory) : (s.withMem m).lmemSize = s.lmemSize := rfl
@[simp] theorem State.errorHalt_lmemSize (s : State) (c : ErrCode) (m : Memory) (w : Word) :
    (s.errorHalt c m w).lmemSize = s.lmemSize := rfl
@[simp] theorem State.advance_lmemSize (s : State) : s.advance.lmemSize = s.lmemSize := rfl

@[simp] theorem State.withMem_byteAt (s : State) (m : Memory) (a : Nat) : (s.withMem m).byteAt a = m.byteAt a := rfl
@[simp] theorem State.advance_byteAt (s : State) (a : Nat) : s.advance.byteAt a = s.byteAt a := rfl

@[simp] theorem State.withMem_self (s : State) : s.withMem s.mem = s := rfl

/-- The two bits of FLAGS, read back. -/
theorem flagPair (e b : Bool) :
    (BitVec.ofBool e ++ BitVec.ofBool b : BitVec 2).getLsbD 0 = b ∧ (BitVec.ofBool e ++ BitVec.ofBool b : BitVec 2).getLsbD 1 = e := by
  cases e <;> cases b <;> decide

@[simp] theorem State.setBend_bend (s : State) (b : Bool) : (s.setBend b).bend = b := (flagPair s.esc b).1
@[simp] theorem State.setBend_esc (s : State) (b : Bool) : (s.setBend b).esc = s.esc := (flagPair s.esc b).2
@[simp] theorem State.setEsc_esc (s : State) (b : Bool) : (s.setEsc b).esc = b := (flagPair b s.bend).2
@[simp] theorem State.setEsc_bend (s : State) (b : Bool) : (s.setEsc b).bend = s.bend := (flagPair b s.bend).1

/-- LMEM_SIZE is at least 4096 and a multiple of 4 (R5). -/
theorem State.lmemSize_bounds (s : State) : 4096 ≤ s.lmemSize ∧ s.lmemSize ≤ 16777216 ∧ s.lmemSize % 4 = 0 := by
  have h : ∀ k : Fin 13, 4096 ≤ 2 ^ (12 + k.val) ∧ 2 ^ (12 + k.val) ≤ 16777216 ∧ 2 ^ (12 + k.val) % 4 = 0 := by decide
  exact h s.params.lmemLog2

end Sys2Proof.Machine
end

