-- ==== Sys2Proof/Laws/Ops.lean ====
section
/-!
SUPPORT. One lemma for each shared operation, saying once everything it can do: the checks, the LMEM accesses, the stream
primitives, the operand checks, and how a command's body ends.
-/

namespace Sys2Proof.Machine

/-! ## Running parts of a command -/

/-- A bind that completes: both parts do. -/
theorem Run.bind_ok {α β : Type} {x : Run α} {f : α → Run β} {r : β} :
    (x >>= f) = .ok r ↔ ∃ a, x = .ok a ∧ f a = .ok r := by
  cases x <;> simp [bind, Except.bind]

/-- A bind that raises: the first part does, or the second after the first completed. -/
theorem Run.bind_error {α β : Type} {x : Run α} {f : α → Run β} {e : Abort} :
    (x >>= f) = .error e ↔ x = .error e ∨ ∃ a, x = .ok a ∧ f a = .error e := by
  cases x <;> simp [bind, Except.bind]

@[simp] theorem raise_ne_ok {α : Type} (c : ErrCode) (s : State) (a : α) : raise c s ≠ .ok a := by simp [raise]

theorem raise_error {α : Type} {c : ErrCode} {s : State} {e : Abort} : (raise c s : Run α) = .error e ↔ e = ⟨c, s.mem⟩ := by
  simp [raise, eq_comm]

/-- A check that passes. -/
theorem refuseIf_ok {bad : Bool} {c : ErrCode} {s : State} {u : Unit} : refuseIf bad c s = .ok u ↔ bad = false := by
  cases bad <;> simp [refuseIf]

/-- A check that fails raises its code and has written nothing. -/
theorem refuseIf_error {bad : Bool} {c : ErrCode} {s : State} {e : Abort} :
    refuseIf bad c s = .error e ↔ bad = true ∧ e = ⟨c, s.mem⟩ := by
  cases bad <;> simp [refuseIf, raise, eq_comm]

/-- How a command's body ends (R459): it completes and the next command follows, or it raises and the engine halts. -/
theorem runCommand_next {i : Instr} {body : State → Run State} {s t : State} (h : runCommand i body s = .next t) :
    (∃ u, body s = .ok u ∧ t = u.advance) ∨ (∃ e, body s = .error e ∧ t = s.errorHalt e.code e.mem (encode i)) := by
  unfold runCommand at h
  cases hb : body s with
  | ok u => rw [hb] at h; exact .inl ⟨u, rfl, by cases h; rfl⟩
  | error e => rw [hb] at h; exact .inr ⟨e, rfl, by cases h; rfl⟩

theorem runCommand_of_ok {i : Instr} {body : State → Run State} {s u : State} (h : body s = .ok u) :
    runCommand i body s = .next u.advance := by
  simp [runCommand, h]

theorem runCommand_of_error {i : Instr} {body : State → Run State} {s : State} {e : Abort} (h : body s = .error e) :
    runCommand i body s = .next (s.errorHalt e.code e.mem (encode i)) := by
  simp [runCommand, h]

/-- An invariant of every round is an invariant of the loop, for the results and for the errors. -/
theorem repeatRun_induct {σ : Type} {f : σ → Run σ} {P : σ → Prop} {E : Abort → Prop}
    (hok : ∀ x y, P x → f x = .ok y → P y) (herr : ∀ x e, P x → f x = .error e → E e) (n : Nat) {x : σ} (hx : P x) :
    (∀ y, repeatRun f n x = .ok y → P y) ∧ (∀ e, repeatRun f n x = .error e → E e) := by
  induction n generalizing x with
  | zero => exact ⟨fun y h => by cases h; exact hx, fun e h => by cases h⟩
  | succ n ih =>
    unfold repeatRun
    cases hf : f x with
    | ok y => exact ih (hok x y hx hf)
    | error a => exact ⟨fun _ h => by simp at h, fun e h => by simp at h; exact h ▸ herr x a hx hf⟩

/-- The same for a fold over a list. -/
theorem foldlRun_induct {σ ι : Type} {f : σ → ι → Run σ} {P : σ → Prop} {E : Abort → Prop}
    (hok : ∀ x i y, P x → f x i = .ok y → P y) (herr : ∀ x i e, P x → f x i = .error e → E e) (l : List ι) {x : σ}
    (hx : P x) : (∀ y, l.foldlM f x = .ok y → P y) ∧ (∀ e, l.foldlM f x = .error e → E e) := by
  induction l generalizing x with
  | nil => exact ⟨fun y h => by cases h; exact hx, fun e h => by cases h⟩
  | cons i l ih =>
    rw [List.foldlM_cons]
    refine ⟨fun y h => ?_, fun e h => ?_⟩
    · obtain ⟨x', h1, h2⟩ := Run.bind_ok.mp h
      exact (ih (hok x i x' hx h1)).1 y h2
    · rcases Run.bind_error.mp h with h1 | ⟨x', h1, h2⟩
      · exact herr x i e hx h1
      · exact (ih (hok x i x' hx h1)).2 e h2

/-! ## LMEM -/

/-- `MemRead` (R104). -/
theorem memRead_ok {s : State} {a : Nat} {b : Byte} : memRead s a = .ok b ↔ a < s.lmemSize ∧ b = s.byteAt a := by
  unfold memRead
  by_cases h : a ≥ s.lmemSize
  · rw [if_pos h]; simp; omega
  · rw [if_neg h]; simp [eq_comm]; omega

theorem memRead_error {s : State} {a : Nat} {e : Abort} :
    memRead s a = .error e ↔ s.lmemSize ≤ a ∧ e = ⟨.addr, s.mem⟩ := by
  unfold memRead
  by_cases h : a ≥ s.lmemSize
  · rw [if_pos h, raise_error]; simp [h]
  · rw [if_neg h]; simp; omega

/-- `MemWrite` (R105). -/
theorem memWrite_ok {s t : State} {a : Nat} {v : Byte} :
    memWrite s a v = .ok t ↔ a < s.lmemSize ∧ t = s.withMem (s.mem.write a v) := by
  unfold memWrite
  by_cases h : a ≥ s.lmemSize
  · rw [if_pos h]; simp; omega
  · rw [if_neg h]; simp [eq_comm]; omega

theorem memWrite_error {s : State} {a : Nat} {v : Byte} {e : Abort} :
    memWrite s a v = .error e ↔ s.lmemSize ≤ a ∧ e = ⟨.addr, s.mem⟩ := by
  unfold memWrite
  by_cases h : a ≥ s.lmemSize
  · rw [if_pos h, raise_error]; simp [h]
  · rw [if_neg h]; simp; omega

/-! ## Streams -/

/-- `NeedAligned` (R115). -/
theorem needAligned_ok {bit : BitVec 3} {s : State} {u : Unit} : needAligned bit s = .ok u ↔ bit = 0 := by
  simp [needAligned, refuseIf_ok]

theorem needAligned_error {bit : BitVec 3} {s : State} {e : Abort} :
    needAligned bit s = .error e ↔ bit ≠ 0 ∧ e = ⟨.streamAlign, s.mem⟩ := by
  simp [needAligned, refuseIf_error]

/-- `RdByte` (R110): the byte at RD_PTR, below both RD_LIM and LMEM_SIZE; only RD_PTR moves. -/
theorem rdByte_ok {c : ErrCode} {s t : State} {b : Byte} :
    rdByte c s = .ok (b, t) ↔ s.rd.ptr.toNat < s.rd.lim.toNat ∧ s.rd.ptr.toNat < s.lmemSize ∧ b = s.byteAt s.rd.ptr.toNat ∧
      t = { s with rd := s.rd.nextByte } := by
  unfold rdByte
  simp only [Run.bind_ok, refuseIf_ok, memRead_ok, Stream.atLimit, decide_eq_false_iff_not, pure, Except.pure,
    Except.ok.injEq, Prod.mk.injEq]
  constructor
  · rintro ⟨_, h1, x, ⟨h2, rfl⟩, rfl, rfl⟩; exact ⟨by omega, h2, rfl, rfl⟩
  · rintro ⟨h1, h2, rfl, rfl⟩; exact ⟨(), by omega, _, ⟨h2, rfl⟩, rfl, rfl⟩

theorem rdByte_error {c : ErrCode} {s : State} {e : Abort} (h : rdByte c s = .error e) :
    e = ⟨c, s.mem⟩ ∨ e = ⟨.addr, s.mem⟩ := by
  rcases Run.bind_error.mp h with h | ⟨_, _, h⟩
  · exact .inl (refuseIf_error.mp h).2
  · rcases Run.bind_error.mp h with h | ⟨_, _, h⟩
    · exact .inr (memRead_error.mp h).2
    · cases h

/-- `WrByte` (R111): one byte at WR_PTR, below both WR_LIM and LMEM_SIZE; LMEM and WR_PTR change. -/
theorem wrByte_ok {v : Byte} {s t : State} :
    wrByte v s = .ok t ↔ s.wr.ptr.toNat < s.wr.lim.toNat ∧ s.wr.ptr.toNat < s.lmemSize ∧
      t = { s with mem := s.mem.write s.wr.ptr.toNat v, wr := s.wr.nextByte } := by
  unfold wrByte
  simp only [Run.bind_ok, refuseIf_ok, memWrite_ok, Stream.atLimit, decide_eq_false_iff_not, pure, Except.pure,
    Except.ok.injEq]
  constructor
  · rintro ⟨_, h1, x, ⟨h2, rfl⟩, rfl⟩; exact ⟨by omega, h2, rfl⟩
  · rintro ⟨h1, h2, rfl⟩; exact ⟨(), by omega, _, ⟨h2, rfl⟩, rfl⟩

theorem wrByte_error {v : Byte} {s : State} {e : Abort} (h : wrByte v s = .error e) :
    e = ⟨.streamWovf, s.mem⟩ ∨ e = ⟨.addr, s.mem⟩ := by
  rcases Run.bind_error.mp h with h | ⟨_, _, h⟩
  · exact .inl (refuseIf_error.mp h).2
  · rcases Run.bind_error.mp h with h | ⟨_, _, h⟩
    · exact .inr (memWrite_error.mp h).2
    · cases h

/-- `RdBit` (R113): the bit at RD_PTR and RD_BIT, most significant first; only the read stream moves. -/
theorem rdBit_ok {s t : State} {b : Bool} :
    rdBit s = .ok (b, t) ↔ s.rd.ptr.toNat < s.rd.lim.toNat ∧ s.rd.ptr.toNat < s.lmemSize ∧
      b = (s.byteAt s.rd.ptr.toNat).getLsbD (7 - s.rd.bit.toNat) ∧ t = { s with rd := s.rd.nextBit } := by
  unfold rdBit
  simp only [Run.bind_ok, refuseIf_ok, memRead_ok, Stream.atLimit, decide_eq_false_iff_not, pure, Except.pure,
    Except.ok.injEq, Prod.mk.injEq]
  constructor
  · rintro ⟨_, h1, x, ⟨h2, rfl⟩, rfl, rfl⟩; exact ⟨by omega, h2, rfl, rfl⟩
  · rintro ⟨h1, h2, rfl, rfl⟩; exact ⟨(), by omega, _, ⟨h2, rfl⟩, rfl, rfl⟩

theorem rdBit_error {s : State} {e : Abort} (h : rdBit s = .error e) : e = ⟨.decodeHuff, s.mem⟩ ∨ e = ⟨.addr, s.mem⟩ := by
  rcases Run.bind_error.mp h with h | ⟨_, _, h⟩
  · exact .inl (refuseIf_error.mp h).2
  · rcases Run.bind_error.mp h with h | ⟨_, _, h⟩
    · exact .inr (memRead_error.mp h).2
    · cases h

/-- The byte a bit or field write starts from (R112, R114). -/
theorem oldByte_ok {st : Stream} {s : State} {b : Byte} (hlt : st.ptr.toNat < s.lmemSize) :
    oldByte st s = .ok b ↔ b = if st.bit = 0 then 0 else s.byteAt st.ptr.toNat := by
  unfold oldByte
  by_cases h : st.bit = 0
  · rw [if_pos h, if_pos h]; exact ⟨fun e => by cases e; rfl, fun e => e ▸ rfl⟩
  · rw [if_neg h, if_neg h, memRead_ok]; simp [hlt]

theorem oldByte_error {st : Stream} {s : State} {e : Abort} (h : oldByte st s = .error e) : e = ⟨.addr, s.mem⟩ := by
  unfold oldByte at h
  split at h
  · cases h
  · exact (memRead_error.mp h).2

/-- The byte `WrBit` writes (R112). -/
def bitByte (s : State) (b : Bool) : Byte :=
  replaceBits (if s.wr.bit = 0 then 0 else s.byteAt s.wr.ptr.toNat) ((1 : Byte) <<< (7 - s.wr.bit.toNat))
    (if b then (1 : Byte) <<< (7 - s.wr.bit.toNat) else 0)

/-- `WrBit` (R112): the byte at WR_PTR is rewritten; LMEM and the write stream change. -/
theorem wrBit_ok {b : Bool} {s t : State} :
    wrBit b s = .ok t ↔ s.wr.ptr.toNat < s.wr.lim.toNat ∧ s.wr.ptr.toNat < s.lmemSize ∧
      t = { s with mem := s.mem.write s.wr.ptr.toNat (bitByte s b), wr := s.wr.nextBit } := by
  unfold wrBit bitByte
  simp only [Run.bind_ok, refuseIf_ok, memWrite_ok, Stream.atLimit, decide_eq_false_iff_not, pure, Except.pure,
    Except.ok.injEq]
  constructor
  · rintro ⟨_, h1, old, h3, x, ⟨h2, rfl⟩, rfl⟩
    rw [oldByte_ok h2] at h3
    subst h3
    exact ⟨by omega, h2, rfl⟩
  · rintro ⟨h1, h2, rfl⟩
    exact ⟨(), by omega, _, (oldByte_ok h2).mpr rfl, _, ⟨h2, rfl⟩, rfl⟩

theorem wrBit_error {b : Bool} {s : State} {e : Abort} (h : wrBit b s = .error e) :
    e = ⟨.streamWovf, s.mem⟩ ∨ e = ⟨.addr, s.mem⟩ := by
  rcases Run.bind_error.mp h with h | ⟨_, _, h⟩
  · exact .inl (refuseIf_error.mp h).2
  · rcases Run.bind_error.mp h with h | ⟨_, _, h⟩
    · exact .inr (oldByte_error h)
    · rcases Run.bind_error.mp h with h | ⟨_, _, h⟩
      · exact .inr (memWrite_error.mp h).2
      · cases h

/-- The byte `IxWrite2` writes (R114). -/
def indexByte (s : State) (v : BitVec 2) : Byte :=
  replaceBits (if s.ix.bit = 0 then 0 else s.byteAt s.ix.ptr.toNat) ((3 : Byte) <<< (6 - s.ix.bit.toNat))
    (v.setWidth 8 <<< (6 - s.ix.bit.toNat))

theorem needIndexAligned_ok {s : State} {u : Unit} : needIndexAligned s = .ok u ↔ s.ix.bit.getLsbD 0 = false := by
  simp [needIndexAligned, refuseIf_ok]

theorem needIndexAligned_error {s : State} {e : Abort} (h : needIndexAligned s = .error e) :
    e = ⟨.streamAlign, s.mem⟩ := (refuseIf_error.mp h).2

/-- `IxWrite2` (R114). -/
theorem ixWrite2_ok {v : BitVec 2} {s t : State} :
    ixWrite2 v s = .ok t ↔ s.ix.bit.getLsbD 0 = false ∧ s.ix.ptr.toNat < s.ix.lim.toNat ∧ s.ix.ptr.toNat < s.lmemSize ∧
      t = { s with mem := s.mem.write s.ix.ptr.toNat (indexByte s v), ix := s.ix.nextField } := by
  unfold ixWrite2 indexByte
  simp only [Run.bind_ok, refuseIf_ok, needIndexAligned_ok, memWrite_ok, Stream.atLimit, decide_eq_false_iff_not,
    pure, Except.pure, Except.ok.injEq]
  constructor
  · rintro ⟨_, h4, _, h1, old, h3, x, ⟨h2, rfl⟩, rfl⟩
    rw [oldByte_ok h2] at h3
    subst h3
    exact ⟨h4, by omega, h2, rfl⟩
  · rintro ⟨h4, h1, h2, rfl⟩
    exact ⟨(), h4, (), by omega, _, (oldByte_ok h2).mpr rfl, _, ⟨h2, rfl⟩, rfl⟩

theorem ixWrite2_error {v : BitVec 2} {s : State} {e : Abort} (h : ixWrite2 v s = .error e) :
    e.mem = s.mem ∧ (e.code = .streamAlign ∨ e.code = .streamWovf ∨ e.code = .addr) := by
  rcases Run.bind_error.mp h with h | ⟨_, _, h⟩
  · simp [needIndexAligned_error h]
  · rcases Run.bind_error.mp h with h | ⟨_, _, h⟩
    · simp [(refuseIf_error.mp h).2]
    · rcases Run.bind_error.mp h with h | ⟨_, _, h⟩
      · simp [oldByte_error h]
      · rcases Run.bind_error.mp h with h | ⟨_, _, h⟩
        · simp [(memWrite_error.mp h).2]
        · cases h

/-- `IxRead2` (R114). -/
theorem ixRead2_ok {v : BitVec 2} {s t : State} :
    ixRead2 s = .ok (v, t) ↔ s.ix.bit.getLsbD 0 = false ∧ s.ix.ptr.toNat < s.ix.lim.toNat ∧ s.ix.ptr.toNat < s.lmemSize ∧
      v = (s.byteAt s.ix.ptr.toNat).extractLsb' (6 - s.ix.bit.toNat) 2 ∧ t = { s with ix := s.ix.nextField } := by
  unfold ixRead2
  simp only [Run.bind_ok, refuseIf_ok, needIndexAligned_ok, memRead_ok, Stream.atLimit, decide_eq_false_iff_not, pure,
    Except.pure, Except.ok.injEq, Prod.mk.injEq]
  constructor
  · rintro ⟨_, h3, _, h1, x, ⟨h2, rfl⟩, rfl, rfl⟩; exact ⟨h3, by omega, h2, rfl, rfl⟩
  · rintro ⟨h3, h1, h2, rfl, rfl⟩; exact ⟨(), h3, (), by omega, _, ⟨h2, rfl⟩, rfl, rfl⟩

theorem ixRead2_error {s : State} {e : Abort} (h : ixRead2 s = .error e) :
    e.mem = s.mem ∧ (e.code = .streamAlign ∨ e.code = .formatShort ∨ e.code = .addr) := by
  rcases Run.bind_error.mp h with h | ⟨_, _, h⟩
  · simp [needIndexAligned_error h]
  · rcases Run.bind_error.mp h with h | ⟨_, _, h⟩
    · simp [(refuseIf_error.mp h).2]
    · rcases Run.bind_error.mp h with h | ⟨_, _, h⟩
      · simp [(memRead_error.mp h).2]
      · cases h

/-! ## Operands -/

/-- The checks of `Plane(p)` (R200). -/
abbrev State.planeLegal (s : State) (p : Slot) : Prop :=
  (s.planeView p).W ≠ 0 ∧ (s.planeView p).H ≠ 0 ∧
    (s.planeView p).base + (s.planeView p).PW * (s.planeView p).PH ≤ s.lmemSize

theorem plane_ok {p : Slot} {s : State} {v : PlaneView} : plane p s = .ok v ↔ s.planeLegal p ∧ v = s.planeView p := by
  unfold plane
  simp only [Run.bind_ok, refuseIf_ok, decide_eq_false_iff_not, pure, Except.pure, Except.ok.injEq, Bool.or_eq_false_iff,
    beq_eq_false_iff_ne]
  constructor
  · rintro ⟨_, h1, _, h2, rfl⟩; exact ⟨⟨h1.1, h1.2, by omega⟩, rfl⟩
  · rintro ⟨⟨h1, h2, h3⟩, rfl⟩; exact ⟨(), ⟨h1, h2⟩, (), by omega, rfl⟩

theorem plane_error {p : Slot} {s : State} {e : Abort} (h : plane p s = .error e) :
    (e = ⟨.inputDim, s.mem⟩ ∧ ((s.planeView p).W = 0 ∨ (s.planeView p).H = 0)) ∨
      (e = ⟨.inputRange, s.mem⟩ ∧ (s.planeView p).W ≠ 0 ∧ (s.planeView p).H ≠ 0 ∧ ¬ s.planeLegal p) := by
  rcases Run.bind_error.mp h with h | ⟨_, h1, h⟩
  · have := refuseIf_error.mp h
    exact .inl ⟨this.2, by simpa using this.1⟩
  · have h1 := refuseIf_ok.mp h1
    rcases Run.bind_error.mp h with h | ⟨_, _, h⟩
    · have := refuseIf_error.mp h
      have hlt : s.lmemSize < (s.planeView p).base + (s.planeView p).PW * (s.planeView p).PH := by simpa using this.1
      refine .inr ⟨this.2, by simp_all, by simp_all, fun hl => ?_⟩
      exact absurd hl.2.2 (by omega)
    · cases h

/-- `Raster(W, H)` (R201). -/
theorem raster_ok {W H rb : Nat} {s : State} :
    raster W H s = .ok rb ↔ s.rgbBase.toNat + 3 * W * H ≤ s.lmemSize ∧ rb = s.rgbBase.toNat := by
  unfold raster State.rasterFootprint
  simp only [Run.bind_ok, refuseIf_ok, decide_eq_false_iff_not, pure, Except.pure, Except.ok.injEq]
  constructor
  · rintro ⟨_, h1, rfl⟩; exact ⟨by omega, rfl⟩
  · rintro ⟨h1, rfl⟩; exact ⟨(), by omega, rfl⟩

theorem raster_error {W H : Nat} {s : State} {e : Abort} (h : raster W H s = .error e) : e = ⟨.inputRange, s.mem⟩ := by
  rcases Run.bind_error.mp h with h | ⟨_, _, h⟩
  · exact (refuseIf_error.mp h).2
  · cases h

/-- `Cursor(p)` (R250). -/
theorem cursor_ok {p : Slot} {s : State} {v : PlaneView} :
    cursor p s = .ok v ↔ s.planeLegal p ∧ s.blkX < (s.planeView p).PW / 8 ∧ s.blkY < (s.planeView p).PH / 8 ∧
      v = s.planeView p := by
  unfold cursor
  simp only [Run.bind_ok, refuseIf_ok, plane_ok, decide_eq_false_iff_not, pure, Except.pure, Except.ok.injEq,
    Bool.or_eq_false_iff]
  constructor
  · rintro ⟨_, ⟨h1, rfl⟩, _, h2, rfl⟩; exact ⟨h1, by omega, by omega, rfl⟩
  · rintro ⟨h1, h2, h3, rfl⟩; exact ⟨_, ⟨h1, rfl⟩, (), ⟨by omega, by omega⟩, rfl⟩

theorem cursor_error {p : Slot} {s : State} {e : Abort} (h : cursor p s = .error e) :
    e.mem = s.mem ∧ (e.code = .inputDim ∨ e.code = .inputRange ∨ e.code = .inputBlock) := by
  rcases Run.bind_error.mp h with h | ⟨_, _, h⟩
  · rcases plane_error h with ⟨rfl, _⟩ | ⟨rfl, _⟩ <;> simp
  · rcases Run.bind_error.mp h with h | ⟨_, _, h⟩
    · rw [(refuseIf_error.mp h).2]; simp
    · cases h

/-- `Table(t)` (R302). -/
theorem table_ok {t : QTable} {s : State} {T : Vector Byte 64} :
    table t s = .ok T ↔ (∀ b ∈ (s.qtable t).toList, b ≠ 0) ∧ T = s.qtable t := by
  unfold table
  simp only [Run.bind_ok, refuseIf_ok, pure, Except.pure, Except.ok.injEq, List.any_eq_false, beq_iff_eq]
  constructor
  · rintro ⟨_, h1, rfl⟩; exact ⟨h1, rfl⟩
  · rintro ⟨h1, rfl⟩; exact ⟨(), h1, rfl⟩

theorem table_error {t : QTable} {s : State} {e : Abort} (h : table t s = .error e) : e = ⟨.configQtab, s.mem⟩ := by
  rcases Run.bind_error.mp h with h | ⟨_, _, h⟩
  · exact (refuseIf_error.mp h).2
  · cases h

/-- `Candidates()` (R304). -/
theorem candidates_ok {s : State} {cand : List Nat} :
    candidates s = .ok cand ↔ 1 ≤ s.candN.toNat ∧ s.candN.toNat ≤ 4 ∧ (∀ c ∈ s.candidates.take s.candN.toNat, c ≠ 0) ∧
      cand = s.candidates.take s.candN.toNat := by
  unfold candidates
  simp only [Run.bind_ok, refuseIf_ok, decide_eq_false_iff_not, pure, Except.pure, Except.ok.injEq, Bool.or_eq_false_iff,
    List.any_eq_false, beq_iff_eq]
  constructor
  · rintro ⟨_, h1, _, h2, rfl⟩; exact ⟨by omega, by omega, h2, rfl⟩
  · rintro ⟨h1, h2, h3, rfl⟩; exact ⟨(), ⟨by omega, by omega⟩, (), h3, rfl⟩

theorem candidates_error {s : State} {e : Abort} (h : candidates s = .error e) :
    e = ⟨.configCandset, s.mem⟩ ∨ e = ⟨.configCand, s.mem⟩ := by
  rcases Run.bind_error.mp h with h | ⟨_, _, h⟩
  · exact .inl (refuseIf_error.mp h).2
  · rcases Run.bind_error.mp h with h | ⟨_, _, h⟩
    · exact .inr (refuseIf_error.mp h).2
    · cases h

/-- A quality legal at use (R49, R55). -/
theorem legalQuality_ok {q : Byte} {s : State} {n : Nat} :
    legalQuality q s = .ok n ↔ 1 ≤ q.toNat ∧ q.toNat ≤ 100 ∧ n = q.toNat := by
  unfold legalQuality
  simp only [Run.bind_ok, refuseIf_ok, decide_eq_false_iff_not, pure, Except.pure, Except.ok.injEq, Bool.or_eq_false_iff]
  constructor
  · rintro ⟨_, h1, rfl⟩; exact ⟨by omega, by omega, rfl⟩
  · rintro ⟨h1, h2, rfl⟩; exact ⟨(), ⟨by omega, by omega⟩, rfl⟩

theorem legalQuality_error {q : Byte} {s : State} {e : Abort} (h : legalQuality q s = .error e) :
    e = ⟨.configQuality, s.mem⟩ := by
  rcases Run.bind_error.mp h with h | ⟨_, _, h⟩
  · exact (refuseIf_error.mp h).2
  · cases h

/-- The register operand of SETL and SETH (R457). -/
theorem cmdReg_ok {r : BitVec 8} {s : State} {reg : Reg} : cmdReg r s = .ok reg ↔ Reg.cmd? r = some reg := by
  unfold cmdReg
  cases h : Reg.cmd? r <;> simp

end Sys2Proof.Machine
end

