-- ==== Sys2Proof/Laws/PerInstr.lean ====
section
/-!
SUPPORT. A fact about every command as syntax, one lemma per constructor: its command word carries, in bits [31:26], the opcode
of its row of 30_encoding.md R159.
-/

namespace Sys2Proof.Laws

/-- The op column of R159, by constructor. -/
def opcode : Instr → BitVec 6
  | .nop => 0x01
  | .halt => 0x02
  | .irq => 0x03
  | .jmp _ => 0x04
  | .djnz _ => 0x05
  | .bnend _ => 0x06
  | .setl _ _ => 0x07
  | .seth _ _ => 0x08
  | .cscf _ _ _ => 0x09
  | .csci _ _ _ => 0x0A
  | .csub _ _ => 0x0B
  | .cups _ _ => 0x0C
  | .pad _ _ => 0x0D
  | .ldb _ => 0x10
  | .stb _ => 0x11
  | .bnxt _ => 0x12
  | .brst => 0x13
  | .fdct => 0x14
  | .idct => 0x15
  | .var => 0x16
  | .qnt _ _ => 0x18
  | .dqnt _ _ => 0x19
  | .serd => 0x1C
  | .sers => 0x1D
  | .dserd => 0x1E
  | .dsers => 0x1F
  | .putq => 0x20
  | .getq => 0x21
  | .putidx => 0x22
  | .getidx => 0x23
  | .ialn => 0x24
  | .waln => 0x25
  | .raln => 0x26
  | .hclr => 0x28
  | .hfreq => 0x29
  | .hbuild => 0x2A
  | .henc => 0x2B
  | .hdec => 0x2C

/-- The opcode field of a word whose reserved and operand fields are put after it. -/
theorem field_append_left {w v : Nat} (x : BitVec w) (y : BitVec v) (lo len : Nat) (h : v ≤ lo) :
    (x ++ y).extractLsb' lo len = x.extractLsb' (lo - v) len := BitVec.extractLsb'_append_eq_of_le h

/-- A field that lies wholly in the last part of a word. -/
theorem field_append_right {w v : Nat} (x : BitVec w) (y : BitVec v) (lo len : Nat) (h : lo + len ≤ v) :
    (x ++ y).extractLsb' lo len = y.extractLsb' lo len := BitVec.extractLsb'_append_eq_of_add_le h

/-- The whole of a part is the part. -/
theorem field_self {w : Nat} (x : BitVec w) : x.extractLsb' 0 w = x := BitVec.extractLsb'_eq_self

theorem opcode_encodeJ (op : BitVec 6) (t : BitVec 24) : Word.field (encodeJ op t) 26 6 = op := by
  simp (disch := decide) only [Word.field, encodeJ, field_append_left]
  exact field_self op

theorem opcode_encodeS (op : BitVec 6) (r : BitVec 8) (imm16 : BitVec 16) : Word.field (encodeS op r imm16) 26 6 = op := by
  simp (disch := decide) only [Word.field, encodeS, field_append_left]
  exact field_self op

theorem opcode_encodeP3 (op : BitVec 6) (a b c : Slot) : Word.field (encodeP3 op a b c) 26 6 = op := by
  simp (disch := decide) only [Word.field, encodeP3, field_append_left]
  exact field_self op

theorem opcode_encodeP2 (op : BitVec 6) (a b : Slot) : Word.field (encodeP2 op a b) 26 6 = op := by
  simp (disch := decide) only [Word.field, encodeP2, field_append_left]
  exact field_self op

theorem opcode_encodeP1 (op : BitVec 6) (a : Slot) : Word.field (encodeP1 op a) 26 6 = op := by
  simp (disch := decide) only [Word.field, encodeP1, field_append_left]
  exact field_self op

theorem opcode_encodeP1M (op : BitVec 6) (a : Slot) (m : PadMode) : Word.field (encodeP1M op a m) 26 6 = op := by
  simp (disch := decide) only [Word.field, encodeP1M, field_append_left]
  exact field_self op

theorem opcode_encodeQM (op : BitVec 6) (t : QTable) (md : QMode) : Word.field (encodeQM op t md) 26 6 = op := by
  simp (disch := decide) only [Word.field, encodeQM, field_append_left]
  exact field_self op

theorem opcode_encodeN (op : BitVec 6) : Word.field (encodeN op) 26 6 = op := by
  simp (disch := decide) only [Word.field, encodeN, field_append_left]
  exact field_self op

namespace EncodingMatches

/-- R159: bits [31:26] of the command word are the row's op. -/
def Statement (i : Instr) : Prop := Word.field (encode i) 26 6 = opcode i

theorem nop : Statement (.nop) := opcode_encodeN _
theorem halt : Statement (.halt) := opcode_encodeN _
theorem irq : Statement (.irq) := opcode_encodeN _
theorem jmp (t : BitVec 24) : Statement (.jmp t) := opcode_encodeJ _ _
theorem djnz (t : BitVec 24) : Statement (.djnz t) := opcode_encodeJ _ _
theorem bnend (t : BitVec 24) : Statement (.bnend t) := opcode_encodeJ _ _
theorem setl (r : BitVec 8) (imm16 : BitVec 16) : Statement (.setl r imm16) := opcode_encodeS _ _ _
theorem seth (r : BitVec 8) (imm16 : BitVec 16) : Statement (.seth r imm16) := opcode_encodeS _ _ _
theorem cscf (a : Slot) (b : Slot) (c : Slot) : Statement (.cscf a b c) := opcode_encodeP3 _ _ _ _
theorem csci (a : Slot) (b : Slot) (c : Slot) : Statement (.csci a b c) := opcode_encodeP3 _ _ _ _
theorem csub (a : Slot) (b : Slot) : Statement (.csub a b) := opcode_encodeP2 _ _ _
theorem cups (a : Slot) (b : Slot) : Statement (.cups a b) := opcode_encodeP2 _ _ _
theorem pad (a : Slot) (m : PadMode) : Statement (.pad a m) := opcode_encodeP1M _ _ _
theorem ldb (a : Slot) : Statement (.ldb a) := opcode_encodeP1 _ _
theorem stb (a : Slot) : Statement (.stb a) := opcode_encodeP1 _ _
theorem bnxt (a : Slot) : Statement (.bnxt a) := opcode_encodeP1 _ _
theorem brst : Statement (.brst) := opcode_encodeN _
theorem fdct : Statement (.fdct) := opcode_encodeN _
theorem idct : Statement (.idct) := opcode_encodeN _
theorem var : Statement (.var) := opcode_encodeN _
theorem qnt (t : QTable) (md : QMode) : Statement (.qnt t md) := opcode_encodeQM _ _ _
theorem dqnt (t : QTable) (md : QMode) : Statement (.dqnt t md) := opcode_encodeQM _ _ _
theorem serd : Statement (.serd) := opcode_encodeN _
theorem sers : Statement (.sers) := opcode_encodeN _
theorem dserd : Statement (.dserd) := opcode_encodeN _
theorem dsers : Statement (.dsers) := opcode_encodeN _
theorem putq : Statement (.putq) := opcode_encodeN _
theorem getq : Statement (.getq) := opcode_encodeN _
theorem putidx : Statement (.putidx) := opcode_encodeN _
theorem getidx : Statement (.getidx) := opcode_encodeN _
theorem ialn : Statement (.ialn) := opcode_encodeN _
theorem waln : Statement (.waln) := opcode_encodeN _
theorem raln : Statement (.raln) := opcode_encodeN _
theorem hclr : Statement (.hclr) := opcode_encodeN _
theorem hfreq : Statement (.hfreq) := opcode_encodeN _
theorem hbuild : Statement (.hbuild) := opcode_encodeN _
theorem henc : Statement (.henc) := opcode_encodeN _
theorem hdec : Statement (.hdec) := opcode_encodeN _

end EncodingMatches

end Sys2Proof.Laws
end

