-- ==== Sys2Proof/Machine/Assembler.lean ====
section
/-!
DEFINITION. The assembly level (30_encoding.md R163, R164): register names, the lines of a program with labels and jump
operands, the pseudo-instructions and their expansions, and the words a program assembles to. The machine never reads it: it
is how the programs of a claim are written.
-/

namespace Sys2Proof.Asm

/-- A J operand as written (R163): a label, or a byte address. -/
inductive Target where
  | label (name : String)
  | addr (byteAddress : Nat)
  deriving DecidableEq, Repr

/-- A line of a program after its pseudo-instructions are expanded: a label definition, a format J command with its operand, a
format S command with its register by name, or a command with no operand to resolve. -/
inductive Line where
  | label (name : String)
  | jmp (t : Target)
  | djnz (t : Target)
  | bnend (t : Target)
  | setl (r : Reg) (imm16 : BitVec 16)
  | seth (r : Reg) (imm16 : BitVec 16)
  | cmd (i : Instr)
  deriving DecidableEq, Repr

/-- The pseudo-instructions (R164). -/
inductive Pseudo where
  | li (r : Reg) (imm32 : Word)
  | plane (n : Slot) (base : Word) (W H : BitVec 16)
  | rstream (base lim : Word)
  | wstream (base lim : Word)
  | istream (base lim : Word)
  | b (t : Target)
  | loop (n : Word)
  deriving DecidableEq, Repr

/-- `LI REG, imm32` (R164): SETL of the low half, then SETH of the high half unless it is 0. -/
def li (r : Reg) (imm32 : Word) : List Line :=
  let lo := Word.field imm32 0 16
  let hi := Word.field imm32 16 16
  if hi = 0 then [.setl r lo] else [.setl r lo, .seth r hi]

/-- The expansion of a pseudo-instruction (R164). -/
def Pseudo.expand : Pseudo → List Line
  | .li r imm32 => Asm.li r imm32
  | .plane n base W H => Asm.li (.pdBase n) base ++ [.setl (.pdDim n) W, .seth (.pdDim n) H]
  | .rstream base lim => Asm.li .rdPtr base ++ Asm.li .rdLim lim ++ [.setl .rdBit 0]
  | .wstream base lim => Asm.li .wrPtr base ++ Asm.li .wrLim lim ++ [.setl .wrBit 0]
  | .istream base lim => Asm.li .ixPtr base ++ Asm.li .ixLim lim ++ [.setl .ixBit 0]
  | .b t => [.jmp t]
  | .loop n => Asm.li .lc n

/-- Why a program does not assemble (R163): an address that is no multiple of 4 or not below 2^26, a label no line defines, or a
line (counted from 0) that is not written as R163 and R164 say. -/
inductive AsmError where
  | badAddress (byteAddress : Nat)
  | noLabel (name : String)
  | badLine (number : Nat)
  deriving DecidableEq, Repr

/-- The word index of a J operand's byte address (R163). -/
def wordIndex (byteAddress : Nat) : Except AsmError (BitVec 24) :=
  if byteAddress % 4 ≠ 0 ∨ byteAddress ≥ 2 ^ 26 then .error (.badAddress byteAddress) else .ok (BitVec.ofNat 24 (byteAddress / 4))

/-- The number of command words a line takes: a label takes none. -/
def Line.words : Line → Nat
  | .label _ => 0
  | .jmp _ | .djnz _ | .bnend _ | .setl _ _ | .seth _ _ | .cmd _ => 1

/-- The labels of a program placed at `base`, each with the byte address of the next command (R163). -/
def labels (base : Nat) : List Line → List (String × Nat)
  | [] => []
  | .label name :: rest => (name, base) :: labels base rest
  | l :: rest => labels (base + 4 * l.words) rest

/-- The word index of a J operand, a label being looked up in `env`. -/
def Target.resolve (env : List (String × Nat)) : Target → Except AsmError (BitVec 24)
  | .addr a => wordIndex a
  | .label name =>
    match env.lookup name with
    | some a => wordIndex a
    | none => .error (.noLabel name)

/-- The command of a line, if it is one. -/
def Line.command (env : List (String × Nat)) : Line → Except AsmError (Option Instr)
  | .label _ => .ok none
  | .jmp t => (t.resolve env).map fun i => some (.jmp i)
  | .djnz t => (t.resolve env).map fun i => some (.djnz i)
  | .bnend t => (t.resolve env).map fun i => some (.bnend i)
  | .setl r v => .ok (some (.setl (BitVec.ofNat 8 r.num) v))
  | .seth r v => .ok (some (.seth (BitVec.ofNat 8 r.num) v))
  | .cmd i => .ok (some i)

/-- The command words of a program placed at `base` (R163). -/
def assemble (base : Nat) (prog : List Line) : Except AsmError (List Word) := do
  let is ← prog.mapM (Line.command (labels base prog))
  return (is.filterMap id).map encode

/-! The spelling of a command (R163). -/

/-- A register's name in R32, as assembly writes it. -/
def regName : Reg → String
  | .id => "ID"
  | .ctrl => "CTRL"
  | .status => "STATUS"
  | .irqStatus => "IRQ_STATUS"
  | .irqEnable => "IRQ_ENABLE"
  | .errCode => "ERR_CODE"
  | .errCpc => "ERR_CPC"
  | .errCmd => "ERR_CMD"
  | .cpc => "CPC"
  | .flags => "FLAGS"
  | .lc => "LC"
  | .cfg => "CFG"
  | .rgbBase => "RGB_BASE"
  | .bcur => "BCUR"
  | .pdBase n => "PD" ++ toString n.val ++ "_BASE"
  | .pdDim n => "PD" ++ toString n.val ++ "_DIM"
  | .rdPtr => "RD_PTR"
  | .rdLim => "RD_LIM"
  | .rdBit => "RD_BIT"
  | .wrPtr => "WR_PTR"
  | .wrLim => "WR_LIM"
  | .wrBit => "WR_BIT"
  | .ixPtr => "IX_PTR"
  | .ixLim => "IX_LIM"
  | .ixBit => "IX_BIT"
  | .quality => "QUALITY"
  | .qbase => "QBASE"
  | .vtLo => "VT_LO"
  | .vtHi => "VT_HI"
  | .aqf => "AQF"
  | .candN => "CAND_N"
  | .cand01 => "CAND01"
  | .cand23 => "CAND23"
  | .qeff => "QEFF"
  | .qidx => "QIDX"
  | .varn => "VARN"
  | .hcount => "HCOUNT"
  | .hroot => "HROOT"
  | .hnleaf => "HNLEAF"
  | .hbits => "HBITS"

/-- The spelling of a slot operand (R163). -/
def slotText (n : Slot) : String := "p" ++ toString n.val

/-- The spelling of PAD's mode (R163). -/
def padText : PadMode → String
  | .rep => "rep"
  | .c128 => "c128"

/-- The spelling of a format QM operand (R163). -/
def qmText (t : QTable) (md : QMode) : String :=
  (match t with
    | .luma => "luma"
    | .chroma => "chroma")
  ++ ", " ++
  (match md with
    | .fixed => "fixed"
    | .cont => "cont"
    | .idx => "idx")

/-- The spelling of a J operand: the decimal byte address (R163). -/
def jText (t : BitVec 24) : String := toString (t.toNat * 4)

/-- The spelling of a register operand; a number that names no register has none. -/
def regText (r : BitVec 8) (imm16 : BitVec 16) : Option String :=
  (Reg.ofNum? r.toNat).map fun reg => regName reg ++ ", " ++ toString imm16.toNat

/-- The spelling of a command (R163). -/
def text : Instr → Option String
  | .nop => some "NOP"
  | .halt => some "HALT"
  | .irq => some "IRQ"
  | .jmp t => some ("JMP " ++ jText t)
  | .djnz t => some ("DJNZ " ++ jText t)
  | .bnend t => some ("BNEND " ++ jText t)
  | .setl r v => (regText r v).map fun o => "SETL " ++ o
  | .seth r v => (regText r v).map fun o => "SETH " ++ o
  | .cscf a b c => some ("CSCF " ++ slotText a ++ ", " ++ slotText b ++ ", " ++ slotText c)
  | .csci a b c => some ("CSCI " ++ slotText a ++ ", " ++ slotText b ++ ", " ++ slotText c)
  | .csub a b => some ("CSUB " ++ slotText a ++ ", " ++ slotText b)
  | .cups a b => some ("CUPS " ++ slotText a ++ ", " ++ slotText b)
  | .pad a m => some ("PAD " ++ slotText a ++ ", " ++ padText m)
  | .ldb a => some ("LDB " ++ slotText a)
  | .stb a => some ("STB " ++ slotText a)
  | .bnxt a => some ("BNXT " ++ slotText a)
  | .brst => some "BRST"
  | .fdct => some "FDCT"
  | .idct => some "IDCT"
  | .var => some "VAR"
  | .qnt t md => some ("QNT " ++ qmText t md)
  | .dqnt t md => some ("DQNT " ++ qmText t md)
  | .serd => some "SERD"
  | .sers => some "SERS"
  | .dserd => some "DSERD"
  | .dsers => some "DSERS"
  | .putq => some "PUTQ"
  | .getq => some "GETQ"
  | .putidx => some "PUTIDX"
  | .getidx => some "GETIDX"
  | .ialn => some "IALN"
  | .waln => some "WALN"
  | .raln => some "RALN"
  | .hclr => some "HCLR"
  | .hfreq => some "HFREQ"
  | .hbuild => some "HBUILD"
  | .henc => some "HENC"
  | .hdec => some "HDEC"

end Sys2Proof.Asm
end

