-- ==== Sys2Proof/Machine/AsmText.lean ====
section
/-!
DEFINITION. The text of an assembly program (30_encoding.md R163, R164), read character by character into the lines of
`Sys2Proof.Asm`: comments, labels, numbers, operands, pseudo-instructions. What R163 leaves open of the spelling (blanks, letter
case, numbers that do not fit) is log entry 10.
-/

namespace Sys2Proof.Asm

/-! ## Characters -/

def isBlank (c : Char) : Bool := c == ' ' || c == '\t' || c == '\r'

/-- A text without the blanks at its ends. -/
def trim (cs : List Char) : List Char := ((cs.dropWhile isBlank).reverse.dropWhile isBlank).reverse

/-- The parts of a text between the characters `sep`. -/
def splitAtChar (sep : Char) : List Char → List (List Char)
  | [] => [[]]
  | c :: cs =>
    match splitAtChar sep cs with
    | [] => [[c]]
    | part :: parts => if c = sep then [] :: part :: parts else (c :: part) :: parts

/-- The text of a line before its comment (R163). -/
def uncomment (cs : List Char) : List Char := cs.takeWhile (· ≠ ';')

/-! ## Numbers -/

/-- The value of a digit in a base of at most 16; the letters a to f in either case. -/
def digit (base : Nat) (c : Char) : Option Nat :=
  let n := c.toNat
  let v :=
    if 48 ≤ n ∧ n ≤ 57 then n - 48
    else if 97 ≤ n ∧ n ≤ 102 then n - 87
    else if 65 ≤ n ∧ n ≤ 70 then n - 55
    else 16
  if v < base then some v else none

/-- The number that the digits write after the value `acc`. -/
def digits (base : Nat) : Nat → List Char → Option Nat
  | acc, [] => some acc
  | acc, c :: cs =>
    match digit base c with
    | some d => digits base (acc * base + d) cs
    | none => none

/-- A number, decimal or `0x` hexadecimal (R163). -/
def number : List Char → Option Nat
  | [] => none
  | '0' :: 'x' :: c :: cs => digits 16 0 (c :: cs)
  | cs => digits 10 0 cs

/-- A number of at most `w` bits. -/
def numberOf (w : Nat) (cs : List Char) : Option (BitVec w) :=
  (number cs).bind fun n => if n < 2 ^ w then some (BitVec.ofNat w n) else none

/-! ## Operands (R163) -/

/-- A word of the text as a string. -/
def word (cs : List Char) : String := String.ofList cs

/-- The slot operand `p0` to `p7`. -/
def slot (cs : List Char) : Option Slot := (List.finRange 8).find? fun n => slotText n == word cs

/-- A register by its name. -/
def register (cs : List Char) : Option Reg := Reg.all.find? fun r => regName r == word cs

/-- PAD's mode. -/
def padMode (cs : List Char) : Option PadMode := [PadMode.rep, .c128].find? fun m => padText m == word cs

/-- The two operands of format QM. -/
def qmOperands (cs cs' : List Char) : Option (QTable × QMode) :=
  [(QTable.luma, QMode.fixed), (.luma, .cont), (.luma, .idx), (.chroma, .fixed), (.chroma, .cont), (.chroma, .idx)].find?
    fun p => qmText p.1 p.2 == word cs ++ ", " ++ word cs'

/-- A J operand: a number where it starts with a digit, else a label. -/
def target (cs : List Char) : Option Target :=
  match cs with
  | [] => none
  | c :: _ => if c.isDigit then (number cs).map .addr else some (.label (word cs))

/-! ## Commands -/

/-- The commands of format N. -/
def plainCommands : List Instr :=
  [.nop, .halt, .irq, .brst, .fdct, .idct, .var, .serd, .sers, .dserd, .dsers, .putq, .getq, .putidx, .getidx, .ialn, .waln, .raln,
   .hclr, .hfreq, .hbuild, .henc, .hdec]

/-- The lines of a command or pseudo-instruction without operands. -/
def noOperands (name : String) : Option (List Line) :=
  (plainCommands.find? fun i => text i == some name).map fun i => [.cmd i]

/-- The lines of one with one operand. -/
def oneOperand (name : String) (a : List Char) : Option (List Line) :=
  if name = "JMP" then (target a).map fun t => [.jmp t]
  else if name = "DJNZ" then (target a).map fun t => [.djnz t]
  else if name = "BNEND" then (target a).map fun t => [.bnend t]
  else if name = "B" then (target a).map fun t => (Pseudo.b t).expand
  else if name = "LOOP" then (numberOf 32 a).map fun n => (Pseudo.loop n).expand
  else if name = "LDB" then (slot a).map fun p => [.cmd (.ldb p)]
  else if name = "STB" then (slot a).map fun p => [.cmd (.stb p)]
  else if name = "BNXT" then (slot a).map fun p => [.cmd (.bnxt p)]
  else none

/-- The lines of one with two operands. -/
def twoOperands (name : String) (a b : List Char) : Option (List Line) :=
  if name = "SETL" then do return [.setl (← register a) (← numberOf 16 b)]
  else if name = "SETH" then do return [.seth (← register a) (← numberOf 16 b)]
  else if name = "LI" then do return (Pseudo.li (← register a) (← numberOf 32 b)).expand
  else if name = "RSTREAM" then do return (Pseudo.rstream (← numberOf 32 a) (← numberOf 32 b)).expand
  else if name = "WSTREAM" then do return (Pseudo.wstream (← numberOf 32 a) (← numberOf 32 b)).expand
  else if name = "ISTREAM" then do return (Pseudo.istream (← numberOf 32 a) (← numberOf 32 b)).expand
  else if name = "CSUB" then do return [.cmd (.csub (← slot a) (← slot b))]
  else if name = "CUPS" then do return [.cmd (.cups (← slot a) (← slot b))]
  else if name = "PAD" then do return [.cmd (.pad (← slot a) (← padMode b))]
  else if name = "QNT" then (qmOperands a b).map fun q => [.cmd (.qnt q.1 q.2)]
  else if name = "DQNT" then (qmOperands a b).map fun q => [.cmd (.dqnt q.1 q.2)]
  else none

/-- The lines of one with three operands. -/
def threeOperands (name : String) (a b c : List Char) : Option (List Line) :=
  if name = "CSCF" then do return [.cmd (.cscf (← slot a) (← slot b) (← slot c))]
  else if name = "CSCI" then do return [.cmd (.csci (← slot a) (← slot b) (← slot c))]
  else none

/-- The lines a command, without label and comment, expands to; none for a text R163 and R164 do not write. -/
def command (cs : List Char) : Option (List Line) :=
  match trim cs with
  | [] => some []
  | cs =>
    let name := word (cs.takeWhile fun c => ! isBlank c)
    match trim (cs.dropWhile fun c => ! isBlank c) with
    | [] => noOperands name
    | rest =>
      match (splitAtChar ',' rest).map trim with
      | [a] => oneOperand name a
      | [a, b] => twoOperands name a b
      | [a, b, c] => threeOperands name a b c
      | [p, b, w, h] =>
        if name = "PLANE" then do return (Pseudo.plane (← slot p) (← numberOf 32 b) (← numberOf 16 w) (← numberOf 16 h)).expand
        else none
      | _ => none

/-- A label's name: not empty and without blanks. -/
def labelName (cs : List Char) : Option String :=
  let name := trim cs
  if name.isEmpty || name.any isBlank then none else some (word name)

/-- One line of text: `name:` at its start defines a label (R163). -/
def textLine (cs : List Char) : Option (List Line) :=
  match splitAtChar ':' (uncomment cs) with
  | [body] => command body
  | [name, body] => do return .label (← labelName name) :: (← command body)
  | _ => none

/-- The lines of a program, or the number of the first that R163 and R164 do not write. -/
def textLines (n : Nat) : List (List Char) → Except AsmError (List Line)
  | [] => .ok []
  | cs :: rest =>
    match textLine cs with
    | none => .error (.badLine n)
    | some ls => (textLines (n + 1) rest).map (ls ++ ·)

/-- The command words of a program text placed at `base` (R163, R164). -/
def assembleText (base : Nat) (program : List Char) : Except AsmError (List Word) := do
  assemble base (← textLines 0 (splitAtChar '\n' program))

end Sys2Proof.Asm
end

