-- ==== Sys2Proof/Tests/Slice0.lean ====
section
/-!
SUPPORT. The model's own tests. Expected values are those of the rules' worked examples and of spec/95_test_vectors.md. First
well-formedness, the decoder and the assembler; then each command, one step on a small state; then a witness for each statement
of `Obligations.lean` that has hypotheses.
-/

set_option Elab.async false

namespace Sys2Proof.Tests

open Sys2Proof Sys2Proof.Machine Sys2Proof.Claims

/-! ## Helpers -/

/-- LMEM with the bytes `bs` from address `p` on, over `m`. -/
def bytesAt (p : Nat) (bs : List Byte) (m : Memory := []) : Memory :=
  bs.zipIdx.foldl (fun m b => Memory.write m (p + b.2) b.1) m

/-- One field of the next state, or none where there is no next state. -/
def seen {α : Type} (o : StepResult) (f : State → α) : Option α :=
  match o with
  | .next t => some (f t)
  | _ => none

/-- The next state, or `s`. -/
def after (i : Instr) (s : State) : State := (seen (exec i s) id).getD s

/-- LMEM bytes p to p + n − 1. -/
def dump (p n : Nat) (s : State) : List Byte := (List.range n).map fun k => s.mem.byteAt (p + k)

/-- The reset state with plane slot n set to base, W, H. -/
def withPlane (n : Slot) (base : Word) (W H : BitVec 16) (s : State := State.reset) : State :=
  { s with planes := s.planes.set n.val ⟨base, H ++ W⟩ }

/-- The reset state with the read stream over the bytes `bs` at 0x2000. -/
def reading (bs : List Byte) (s : State := State.reset) : State :=
  { s with mem := bytesAt 0x2000 bs s.mem, rd := ⟨0x2000, 0x2000 + BitVec.ofNat 32 bs.length, 0⟩ }

/-- The reset state with a write stream of n bytes at 0x3000. -/
def writing (n : Word) (s : State := State.reset) : State := { s with wr := ⟨0x3000, 0x3000 + n, 0⟩ }

/-- Q with the listed entries. -/
def qOf (es : List (Fin 64 × Int)) : Vector Word 64 :=
  es.foldl (fun q e => q.set e.1.val (BitVec.ofInt 32 e.2)) (Vector.replicate 64 0)

/-- R407's example histogram: 00 four times, 03 once, 05 twice, FF once. -/
def exampleHist : Vector Word 256 := (((Vector.replicate 256 0).set 0 4).set 3 1).set 5 2 |>.set 255 1

/-- R408's example: the nodes of the tree of that histogram, field by field. -/
def exampleNodes : List HNode :=
  [⟨4, 0x00, 0, 6, true, true⟩, ⟨1, 0x03, 0, 4, true, true⟩, ⟨2, 0x05, 0, 5, true, true⟩, ⟨1, 0xFF, 0, 4, true, true⟩,
   ⟨2, 1, 3, 5, false, true⟩, ⟨4, 2, 4, 6, false, true⟩, ⟨8, 0, 5, 0x1FF, false, true⟩]

/-- The state with that tree, as HBUILD leaves it. -/
def exampleTree : State :=
  { State.reset with hnode := Vector.ofFn fun i => exampleNodes.getD i.val HNode.zero, hroot := 6, hnleaf := 4 }

/-! ## Well-formedness, decoding, assembly -/

theorem test_wf_setl_id : (Instr.setl 0x00 1).wellFormed = false := by decide
theorem test_wf_seth_varn : (Instr.seth 0x33 1).wellFormed = false := by decide
theorem test_wf_setl_reserved : (Instr.setl 0x0E 1).wellFormed = false := by decide
theorem test_wf_setl_lc : (Instr.setl 0x0A 1).wellFormed = true := by decide

/-- R154: SETL RD_PTR, 0x2000, bit by bit. -/
theorem test_decode_format_s :
    decode (0b000111#6 ++ 0b00100000#8 ++ 0b00#2 ++ 0b0010000000000000#16) = .ok (.setl 0x20 0x2000) := by decide
/-- R153: JMP 0x40. -/
theorem test_decode_format_j : decode (0b000100#6 ++ 0b00#2 ++ 0b000000000000000000010000#24) = .ok (.jmp 16) := by decide
/-- R155: CSCF p0, p1, p2. -/
theorem test_decode_format_p3 :
    decode (0b001001#6 ++ 0b000#3 ++ 0b001#3 ++ 0b010#3 ++ 0b00000000000000000#17) = .ok (.cscf 0 1 2) := by decide
/-- R155: CSUB p3, p1. -/
theorem test_decode_format_p2 :
    decode (0b001011#6 ++ 0b011#3 ++ 0b001#3 ++ 0b00000000000000000000#20) = .ok (.csub 3 1) := by decide
/-- R155: BNXT p5. -/
theorem test_decode_format_p1 : decode (0b010010#6 ++ 0b101#3 ++ 0b00000000000000000000000#23) = .ok (.bnxt 5) := by decide
/-- R155: PAD p1, c128. -/
theorem test_decode_format_p1m :
    decode (0b001101#6 ++ 0b001#3 ++ 0b1#1 ++ 0b0000000000000000000000#22) = .ok (.pad 1 .c128) := by decide
/-- R156: QNT chroma, idx. -/
theorem test_decode_format_qm :
    decode (0b011000#6 ++ 0b1#1 ++ 0b10#2 ++ 0b00000000000000000000000#23) = .ok (.qnt .chroma .idx) := by decide
/-- R352, R408: the serializer's and the Huffman coder's words. -/
theorem test_decode_format_n : decode 0x70000000 = .ok .serd ∧ decode 0xA8000000 = .ok .hbuild := by decide
/-- R161: a reserved bit, md = 3, a reserved opcode, too few bytes. -/
theorem test_decode_rejects :
    decode 0x04000001 = .error .reservedBits ∧ decode 0x61800000 = .error .reservedMode ∧
      decode 0x3C000000 = .error .reservedOpcode ∧ decodeBytes [0, 0, 0] = .error .truncated := by decide
/-- R106: a command word is little-endian. -/
theorem test_decode_bytes : decodeBytes [0x00, 0x20, 0x80, 0x1C, 0xAA] = .ok (.setl 0x20 0x2000, [0xAA]) := by decide

/-- R163, R164: labels, LI with and without SETH, LOOP and DJNZ to a label. -/
theorem test_assemble :
    Asm.assemble 0x100 (Asm.Pseudo.expand (.loop 3) ++ [.label "top", .cmd .nop, .djnz (.label "top")]
      ++ Asm.Pseudo.expand (.li .rdPtr 0x00012000) ++ [.cmd .halt]) =
      .ok [0x1C280003, 0x04000000, 0x14000041, 0x1C802000, 0x20800001, 0x08000000] := by decide
/-- R163: a J operand must be a multiple of 4 below 2^26. -/
theorem test_assemble_refuses :
    Asm.assemble 0 [.jmp (.addr 0x42)] = .error (.badAddress 0x42) ∧
      Asm.assemble 0 [.jmp (.addr (2 ^ 26))] = .error (.badAddress (2 ^ 26)) := by decide
/-- Lines of 95_test_vectors.md 3.2 with their words. -/
theorem test_assemble_text :
    (Asm.assembleText 0x28 "enc: LDB p0\nFDCT ; forward\n QNT luma, fixed\n\nBNEND enc\nSETL RD_PTR, 0x2000".toList).toOption =
      some [0x40000000, 0x50000000, 0x60000000, 0x1800000A, 0x1C802000] := by decide +kernel
theorem test_text : Asm.text (.qnt .chroma .idx) = some "QNT chroma, idx" ∧ Asm.text (.jmp 0x10) = some "JMP 64" := by decide

/-! ## The step and the slave port -/

theorem test_step_fetches_nop : seen (step (State.reset.withFetchWord 32 0x04000000)) State.cpc = some 4 := by decide +kernel
theorem test_step_illegal_zero_word :
    seen (step (State.reset.withFetchWord 32 0)) (fun t => (t.busy, t.err, t.errCode, t.cpc, t.irqStatus)) =
      some (false, true, 0x01, 0, 2) := by decide +kernel
/-- R33, R102: QT[0][0..3] = 16, 11, 10, 16 as one little-endian word. -/
theorem test_host_read_table :
    seen (step { State.reset with hostQueue := [.read 0x103] }) State.readData = some 0x100A0B10 := by decide +kernel
/-- R103, R30: a strobed lane of AQF; the other lanes keep their bytes. -/
theorem test_host_write_lane :
    seen (step { State.reset with hostQueue := [.write 0x0B4 0xFFFFFFFF 0b0010] }) State.aqf = some 0x18FF0C := by decide +kernel
/-- R530: ERRCLR and START in one write. -/
theorem test_host_ctrl :
    seen (step { State.reset with err := true, hostQueue := [.write 0x004 3 1] }) (fun t => (t.busy, t.err)) =
      some (true, false) := by decide +kernel
theorem test_core_is_step : Sys2Proof.core.step = step := rfl

/-! ## Sequencer commands: the examples of R450-R458 -/

theorem test_nop : seen (exec .nop { State.reset with cpc := 0x10 }) State.cpc = some 0x14 := by decide +kernel
theorem test_halt :
    seen (exec .halt { State.reset with cpc := 0x34, busy := true }) (fun t => (t.busy, t.irqStatus, t.cpc)) =
      some (false, 1, 0x38) := by decide +kernel
theorem test_irq :
    seen (exec .irq { State.reset with busy := true, irqEnable := 4 }) (fun t => (t.busy, t.irqLine)) = some (true, true) := by
  decide +kernel
theorem test_jmp : seen (exec (.jmp 0x10) State.reset) State.cpc = some 0x40 := by decide +kernel
theorem test_djnz_taken :
    seen (exec (.djnz 0x10) { State.reset with cpc := 0x20, lc := 3 }) (fun t => (t.lc, t.cpc)) = some (2, 0x40) := by decide +kernel
theorem test_djnz_last :
    seen (exec (.djnz 0x10) { State.reset with cpc := 0x20, lc := 1 }) (fun t => (t.lc, t.cpc)) = some (0, 0x24) := by decide +kernel
theorem test_bnend_taken : seen (exec (.bnend 6) State.reset) State.cpc = some 0x18 := by decide +kernel
theorem test_bnend_falls : seen (exec (.bnend 6) { State.reset with flags := 1 }) State.cpc = some 4 := by decide +kernel
theorem test_setl_masks : seen (exec (.setl 0x29 0x1234) State.reset) State.quality = some 0x34 := by decide +kernel
theorem test_setl_cpc_refused :
    seen (exec (.setl 0x08 0) State.reset) (fun t => (t.err, t.errCode, t.errCmd)) = some (true, 0x03, 0x1C200000) := by
  decide +kernel
theorem test_seth_plane_dim :
    seen (exec (.seth 0x11 8) (after (.setl 0x11 8) State.reset)) (fun t => (t.planes.get 0).dim) = some 0x00080008 := by
  decide +kernel
theorem test_seth_aqf : seen (exec (.seth 0x2D 0x1220) State.reset) State.aqf = some 0x20100C := by decide +kernel

/-! ## Colour and resampling: the examples of R203-R209 -/

/-- Three 1×1 planes at 0x100, 0x200, 0x300, and the raster at 0x400. -/
def threePlanes : State :=
  { withPlane 0 0x100 1 1 (withPlane 1 0x200 1 1 (withPlane 2 0x300 1 1)) with rgbBase := 0x400 }

theorem test_cscf :
    seen (exec (.cscf 0 1 2) { threePlanes with mem := bytesAt 0x400 [255, 0, 0] })
      (fun t => dump 0x100 1 t ++ dump 0x200 1 t ++ dump 0x300 1 t) = some [76, 85, 255] := by decide +kernel
theorem test_cscf_overlap : seen (exec (.cscf 0 1 1) threePlanes) State.errCode = some 0x22 := by decide +kernel
theorem test_csci :
    seen (exec (.csci 0 1 2) { threePlanes with mem := bytesAt 0x100 [128] (bytesAt 0x300 [255]) }) (dump 0x400 3) =
      some [255, 81, 0] := by decide +kernel

/-- A 3×3 plane 0 at 0x100 and a 2×2 plane 1 at 0x200. -/
def cellPlanes : State := withPlane 0 0x100 3 3 (withPlane 1 0x200 2 2)

/-- The 3×3 example rows in plane 0. -/
def nine : Memory := bytesAt 0x100 [1, 2, 3] (bytesAt 0x108 [4, 5, 6] (bytesAt 0x110 [7, 8, 9]))

theorem test_csub :
    seen (exec (.csub 1 0) { cellPlanes with mem := nine }) (fun t => dump 0x200 2 t ++ dump 0x208 2 t) = some [3, 5, 8, 9] := by
  decide +kernel
theorem test_cups :
    seen (exec (.cups 0 1) { cellPlanes with mem := bytesAt 0x200 [3, 5] (bytesAt 0x208 [8, 9]) })
      (fun t => dump 0x100 3 t ++ dump 0x108 3 t ++ dump 0x110 4 t) = some [3, 3, 5, 3, 3, 5, 8, 8, 9, 0] := by decide +kernel
theorem test_pad_rep :
    seen (exec (.pad 0 .rep) { cellPlanes with mem := nine }) (fun t => dump 0x100 8 t ++ dump 0x138 8 t) =
      some [1, 2, 3, 3, 3, 3, 3, 3, 7, 8, 9, 9, 9, 9, 9, 9] := by decide +kernel
theorem test_pad_c128 :
    seen (exec (.pad 0 .c128) { cellPlanes with mem := nine }) (dump 0x110 4) = some [7, 8, 9, 128] := by decide +kernel

/-! ## Block commands: the examples of R257-R263 -/

theorem test_ldb :
    seen (exec (.ldb 0) { withPlane 0 0x1000 16 8 with bcur := 1, mem := bytesAt 0x1018 [1, 2, 3] })
      (fun t => (t.sBlk.get 8, t.sBlk.get 9, t.sBlk.get 10, t.sBlk.get 11)) = some (1, 2, 3, 0) := by decide +kernel
theorem test_ldb_outside_grid :
    seen (exec (.ldb 0) { withPlane 0 0x1000 16 8 with bcur := 2 }) State.errCode = some 0x23 := by decide +kernel
theorem test_stb :
    seen (exec (.stb 0) { withPlane 0 0x1000 16 8 with bcur := 1, sBlk := Vector.replicate 64 0x80 })
      (fun t => dump 0x1077 2 t ++ dump 0x107F 2 t) = some [0, 0x80, 0x80, 0] := by decide +kernel
theorem test_bnxt_row :
    seen (exec (.bnxt 0) { withPlane 0 0 17 9 with bcur := 2, flags := 3 }) (fun t => (t.bcur, t.flags)) =
      some (0x00010000, 2) := by decide +kernel
theorem test_bnxt_wrap :
    seen (exec (.bnxt 0) { withPlane 0 0 17 9 with bcur := 0x00010002 }) (fun t => (t.bcur, t.flags)) = some (0, 1) := by
  decide +kernel
theorem test_brst :
    seen (exec .brst { State.reset with bcur := 0x00010002, flags := 3 }) (fun t => (t.bcur, t.flags)) = some (0, 2) := by
  decide +kernel
theorem test_fdct :
    seen (exec .fdct { State.reset with sBlk := Vector.replicate 64 255 }) (fun t => (t.cBlk.get 0, t.cBlk.get 1)) =
      some (66584720, 0) := by decide +kernel
theorem test_idct :
    seen (exec .idct { State.reset with cBlk := qOf [(1, 655360)] }) (fun t => (t.sBlk.toList.drop 56)) =
      some [130, 129, 129, 128, 128, 127, 127, 126] := by decide +kernel
theorem test_var :
    seen (exec .var { State.reset with sBlk := Vector.ofFn fun k => if (k.val / 8 + k.val) % 2 = 0 then 0 else 255 }) State.varn =
      some 66585600 := by decide +kernel

/-! ## Quantizer: the examples of R303, R307, R308 -/

theorem test_qnt_fixed :
    seen (exec (.qnt .chroma .fixed) { State.reset with cBlk := qOf [(0, 66584720)] }) (fun t => t.qBlk.get 0) = some 60 := by
  decide +kernel
theorem test_qnt_adaptive :
    seen (exec (.qnt .luma .idx) State.reset) (fun t => (t.qidx, t.qeff)) = some (1, 50) ∧
      seen (exec (.qnt .luma .cont) { State.reset with varn := 2048001 }) State.qeff = some 75 := by decide +kernel
theorem test_dqnt :
    seen (exec (.dqnt .luma .fixed) { State.reset with qBlk := qOf [(0, 64)] }) (fun t => t.cBlk.get 0) = some 67108864 := by
  decide +kernel
theorem test_dqnt_saturates :
    seen (exec (.dqnt .luma .fixed)
      { State.reset with quality := 1, qtLuma := State.reset.qtLuma.set 0 255, qBlk := qOf [(0, 128)] }) (fun t => t.cBlk.get 0) =
      some 0x7FFFFFFF := by decide +kernel

/-! ## Serializer: the examples of R352-R362 -/

theorem test_serd :
    seen (exec .serd { writing 64 with qBlk := qOf [(0, 5), (63, -200)] }) (fun t => (dump 0x3000 2 t ++ dump 0x303F 2 t, t.wr.ptr)) =
      some ([5, 0, 0x80, 0], 0x3040) := by decide +kernel
theorem test_sers :
    seen (exec .sers { writing 16 with qBlk := qOf [(0, 300), (1, -128), (8, -1000000)] }) (fun t => (dump 0x3000 16 t, t.flags)) =
      some ([0x03, 0x80, 0, 0, 0x01, 0x2C, 0x80, 0xFF, 0xFF, 0xFF, 0x80, 0x80, 0xFF, 0xF0, 0xBD, 0xC0], 2) := by decide +kernel
/-- R512's example: three bytes stay written, WR_PTR is restored. -/
theorem test_sers_overflow :
    seen (exec .sers { writing 3 with qBlk := qOf [(0, 300), (1, -128), (8, -1000000)] })
      (fun t => (dump 0x3000 4 t, t.wr.ptr, t.errCode)) = some ([0x03, 0x80, 0, 0], 0x3000, 0x51) := by decide +kernel
theorem test_dserd :
    seen (exec .dserd (reading (5 :: List.replicate 62 0 ++ [0x80]))) (fun t => (t.qBlk.get 0, t.qBlk.get 63)) =
      some (5, 0xFFFFFF80) := by decide +kernel
theorem test_dsers :
    seen (exec .dsers (reading [0x03, 0x80, 0, 0, 0x01, 0x2C, 0x80, 0xFF, 0xFF, 0xFF, 0x80, 0x80, 0xFF, 0xF0, 0xBD, 0xC0]))
      (fun t => (t.qBlk.get 0, t.qBlk.get 1, t.qBlk.get 8, t.flags)) =
      some (300, BitVec.ofInt 32 (-128), BitVec.ofInt 32 (-1000000), 2) := by decide +kernel
theorem test_dsers_refuses :
    seen (exec .dsers (reading [0x41])) State.errCode = some 0x40 ∧
      seen (exec .dsers (reading [0x01, 0x80, 0, 0])) (fun t => (t.errCode, t.rd.ptr)) = some (0x41, 0x2000) := by decide +kernel
theorem test_putq : seen (exec .putq { writing 1 with qeff := 38 }) (dump 0x3000 1) = some [0x26] := by decide +kernel
theorem test_getq :
    seen (exec .getq (reading [0x4B])) State.qeff = some 75 ∧ seen (exec .getq (reading [0])) State.errCode = some 0x43 := by
  decide +kernel
theorem test_putidx :
    seen (exec .putidx { State.reset with ix := ⟨0x2800, 0x2802, 2⟩, qidx := 3, mem := bytesAt 0x2800 [0x40] })
      (fun t => (dump 0x2800 1 t, t.ix.ptr, t.ix.bit)) = some ([0x70], 0x2800, 4) := by decide +kernel
theorem test_putidx_fresh :
    seen (exec .putidx { State.reset with ix := ⟨0x2800, 0x2802, 0⟩, qidx := 1, mem := bytesAt 0x2800 [0xFF] })
      (dump 0x2800 1) = some [0x40] := by decide +kernel
theorem test_getidx :
    seen (exec .getidx { State.reset with ix := ⟨0x2800, 0x2802, 6⟩, mem := bytesAt 0x2800 [0x72] })
      (fun t => (t.qidx, t.ix.ptr, t.ix.bit)) = some (2, 0x2801, 0) := by decide +kernel
theorem test_ialn : seen (exec .ialn { State.reset with ix := ⟨0x2800, 0, 2⟩ }) State.ix = some ⟨0x2801, 0, 0⟩ := by decide +kernel
theorem test_waln : seen (exec .waln { State.reset with wr := ⟨0x3001, 0, 6⟩ }) State.wr = some ⟨0x3002, 0, 0⟩ := by decide +kernel
theorem test_raln : seen (exec .raln { State.reset with rd := ⟨0x2001, 0, 0⟩ }) State.rd = some ⟨0x2001, 0, 0⟩ := by decide +kernel

/-! ## Huffman coder: the examples of R406-R412 -/

theorem test_hclr : seen (exec .hclr { State.reset with hfreq := exampleHist }) (fun t => t.hfreq.get 0) = some 0 := by
  decide +kernel
theorem test_hfreq :
    seen (exec .hfreq { reading [5, 0, 0, 0, 3, 0, 5, 255] with hcount := 8 })
      (fun t => (t.hfreq.get 0, t.hfreq.get 3, t.hfreq.get 5, t.hfreq.get 255, t.rd.ptr)) = some (4, 1, 2, 1, 0x2008) := by
  decide +kernel
theorem test_hbuild :
    seen (exec .hbuild { State.reset with hfreq := exampleHist }) (fun t => (t.hroot, t.hnleaf,
      (List.range 7).map fun i => (Arena.node t.hnode i).linkWord, (List.range 8).map fun i => (Arena.node t.hnode i).freq)) =
      some (6, 4, [0x18180000, 0x18100003, 0x18140005, 0x181000FF, 0x10140601, 0x10180802, 0x17FC0A00],
        [4, 1, 2, 1, 2, 4, 8, 0]) := by decide +kernel
/-- R408's codes. -/
theorem test_codes :
    [0x00, 0x05, 0x03, 0xFF, 0x01].map exampleTree.codeOf =
      [some [false], some [true, false], some [true, true, false], some [true, true, true], none] := by decide +kernel
theorem test_henc :
    seen (exec .henc { reading [5, 0, 0, 0, 3, 0, 5, 255] (writing 2 exampleTree) with hcount := 8 })
      (fun t => (dump 0x3000 2 t, t.wr.ptr, t.wr.bit, t.hbits)) = some ([0x86, 0x5C], 0x3001, 6, 14) := by decide +kernel
theorem test_henc_no_tree : seen (exec .henc State.reset) State.errCode = some 0x60 := by decide +kernel
theorem test_hdec :
    seen (exec .hdec { reading [0x86, 0x5C] (writing 8 exampleTree) with hcount := 8 })
      (fun t => (dump 0x3000 8 t, t.rd.ptr, t.rd.bit)) = some ([5, 0, 0, 0, 3, 0, 5, 255], 0x2001, 6) := by decide +kernel
theorem test_hdec_short :
    seen (exec .hdec { reading [0x86] (writing 8 exampleTree) with hcount := 8 }) (fun t => (t.errCode, t.wr.ptr)) =
      some (0x42, 0x3000) := by decide +kernel

/-! ## Witnesses: a concrete state and operands that meet the hypotheses of each statement, clause by clause -/

/-- The example tree's nodes, without the arena. -/
theorem node_exampleTree (k : Nat) : Arena.node exampleTree.hnode k = exampleNodes.getD k HNode.zero := by
  unfold Arena.node
  split
  · exact Vector.getElem_ofFn ..
  · next h => rw [List.getD_eq_default _ _ (by simp [exampleNodes]; omega)]

theorem exampleTree_ok : exampleTree.TreeOk := by
  refine ⟨by decide, by decide, fun i => ?_⟩
  unfold Arena.nodeOk Arena.parentOk Arena.leafOk Arena.innerOk
  simp only [node_exampleTree, show exampleTree.hnleaf.toNat = 4 from rfl]
  by_cases h : i.val < 7
  · generalize i.val = n at h ⊢
    interval_cases n <;> decide
  · rw [if_neg (by omega), List.getD_eq_default _ _ (by simp [exampleNodes]; omega)]

/-- The engine about to run the word `w` from reset. -/
def running (w : Nat) : State := State.reset.withFetchWord 32 w

theorem witness_EncodeOfDecode : decode 0x10000010 = .ok (.jmp 0x10) := by decide

/-- Reserved opcodes at the ends of their ranges, a reserved bit, md = 3. -/
theorem witness_IllegalEncodingsHalt_illegal :
    ∀ w ∈ [0x00000000, 0x38000000, 0x3C000000, 0x5C000000, 0x6C000000, 0x9C000000, 0xB4000000, 0xFFFFFFFF, 0x04000001, 0x61800000],
      Fetches (running w) ∧ WordAt (running w).mem (running w).cpc.toNat (BitVec.ofNat 32 w) ∧
        illegalWord (BitVec.ofNat 32 w) = true := by decide +kernel
/-- Register numbers beside the `cmd` ranges: 0x09, 0x0E, 0x0F, 0x33, 0x35, 0xFF. -/
theorem witness_IllegalEncodingsHalt_regnum :
    ∀ w ∈ [0x1C240000, 0x1C380000, 0x203C0000, 0x1CCC0000, 0x20D40000, 0x1FFC0000],
      Fetches (running w) ∧ WordAt (running w).mem (running w).cpc.toNat (BitVec.ofNat 32 w) ∧
        illegalWord (BitVec.ofNat 32 w) = false ∧ badRegnumWord (BitVec.ofNat 32 w) = true := by decide +kernel
/-- The `cmd` ranges' ends: 0x0A, 0x0D, 0x10, 0x32, 0x34; and md = 2. -/
theorem witness_IllegalEncodingsHalt_legal :
    ∀ w ∈ [0x1C280000, 0x1C340000, 0x1C400000, 0x1CC80000, 0x1CD00000, 0x61000000],
      Fetches (running w) ∧ WordAt (running w).mem (running w).cpc.toNat (BitVec.ofNat 32 w) ∧
        illegalWord (BitVec.ofNat 32 w) = false ∧ badRegnumWord (BitVec.ofNat 32 w) = false := by decide +kernel

theorem witness_StepExecutesTheDecodedCommand :
    WordAt (running 0x04000000).mem (running 0x04000000).cpc.toNat 0x04000000 ∧ decode 0x04000000 = .ok .nop ∧
      Fetches (running 0x04000000) ∧ Fetches { running 0x04000000 with cpc := 0xFFFC } ∧
      Fetches { { running 0x04000000 with hostQueue := [.quiet, .quiet] } with hostQueue := [] } := by decide +kernel
theorem witness_IdleStepAndIllegalFetch :
    (State.reset.hostQueue = [] ∧ State.reset.busy = false) ∧ ((running 0).busy = true ∧ (running 0).hostQueue = []) ∧
      (running 0).lmemSize = 0x10000 ∧ ([0x2, 0x10000, 0xFFFD, 0xFFFFFFFC] : List Word).all (fun pc =>
        pc.toNat % 4 != 0 || Nat.blt 0x10000 (pc.toNat + 4)) = true := by
  decide +kernel
/-- An error of decode, one of the fetch, and one of a command. -/
theorem witness_ErrorHaltRestoresAllButLmem :
    (∀ w ∈ [0x00000000, 0x50000001, 0x70000000], (running w).hostQueue = [] ∧ (running w).err = false ∧
      WordAt (running w).mem (running w).cpc.toNat (BitVec.ofNat 32 w) ∧ seen (step (running w)) State.err = some true) ∧
    seen (step { running 0 with cpc := 2 }) (fun t => (t.err, t.errCode)) = some (true, 0x02) := by decide +kernel
theorem witness_CommandsRaiseOnlyTheirCodes :
    State.reset.err = false ∧ seen (exec .serd State.reset) (fun t => (t.err, t.errCode)) = some (true, 0x51) := by decide +kernel
theorem witness_FailingCommandsWriteOnlyTheirStream :
    let s := { writing 3 with qBlk := qOf [(0, 300)] }
    s.mem.wf ∧ s.err = false ∧ seen (exec .sers s) (fun t => (t.err, dump 0x3000 2 t)) = some (true, [1, 0x80]) ∧
      seen (exec .getq s) State.err = some true := by decide +kernel
theorem witness_StepKeepsInvariant :
    State.reset.Inv ∧ (running 0x08000000).Inv ∧ seen (step (running 0x08000000)) State.busy = some false := by decide +kernel
theorem witness_StepKeepsHuffmanTree : exampleTree.TreeOk ∧ step exampleTree = .next exampleTree := ⟨exampleTree_ok, rfl⟩
theorem witness_ResetMeetsInvariants :
    Memory.wf (bytesAt 0xFFE [1, 2]) ∧ Memory.below (bytesAt 0xFFE [1, 2]) (Config.Params.lmemSize ⟨0⟩) := by decide +kernel
theorem witness_BlocksAndTablesChangeOnlyByTheirCommands :
    seen (exec .fdct State.reset) (fun t => t.cBlk.get 0) = some (BitVec.ofInt 32 (-67109009)) := by decide +kernel
theorem witness_RegistersChangeOnlyByTheirCommands :
    State.reset.err = false ∧ seen (exec (.djnz 1) State.reset) State.lc = some 0xFFFFFFFF := by decide +kernel
theorem witness_HardResetValues :
    let s : State := { State.reset with hostQueue := [.hardReset [(0, 7), (0xFFFF, 9)]] }
    s.hostQueue = .hardReset [(0, 7), (0xFFFF, 9)] :: [] ∧ 0xFFFF < s.lmemSize ∧
      ((0xFFFF, 9) : Host.Cell) ∈ [((0, 7) : Host.Cell), (0xFFFF, 9)] ∧
      ∀ c ∈ [((0, 7) : Host.Cell), (0xFFFF, 9)], c.1 = 0xFFFF → c.2 = 9 := by decide +kernel
theorem witness_NotationArithmetic : (0 : Int) < 2 ∧ (0 : Int) ≤ 255 ∧ rnd (-5) 2 = -2 := by decide
/-- The first and the last `cmd` row, and a number that is none. -/
theorem witness_SetRegisterHalves :
    (∃ row ∈ regRows, row.cmd = true ∧ row.num = 0x0A) ∧ (∃ row ∈ regRows, row.cmd = true ∧ row.num = 0x34) ∧
      ∀ row ∈ regRows, row.cmd = true → row.num ≠ (0x33 : BitVec 8).toNat := by decide +kernel

/-- The checks of the plane commands pass, and each of them fails somewhere. -/
theorem witness_ForwardColourConversion :
    let ck (s : State) (a b c : Slot) := firstOf (colourChecks s a b c (rasterMeets s a a || rasterMeets s a b ||
      rasterMeets s a c || planesMeet s a b || planesMeet s a c || planesMeet s b c))
    threePlanes.mem.wf ∧ ck threePlanes 0 1 2 = none ∧ Inside threePlanes 0 0 0 ∧
      ck threePlanes 0 1 3 = some 0x20 ∧ ck (withPlane 2 0xFFC1 1 1 threePlanes) 0 1 2 = some 0x21 ∧
      ck (withPlane 2 0xFFC0 1 1 threePlanes) 0 1 2 = none ∧ ck (withPlane 2 0x300 2 1 threePlanes) 0 1 2 = some 0x20 ∧
      ck { threePlanes with rgbBase := 0xFFFE } 0 1 2 = some 0x21 ∧ ck { threePlanes with rgbBase := 0xFFFD } 0 1 2 = none ∧
      ck { threePlanes with rgbBase := 0x13F } 0 1 2 = some 0x22 ∧ ck { threePlanes with rgbBase := 0x140 } 0 1 2 = none := by
  decide +kernel
theorem witness_InverseColourConversion :
    let ck (s : State) (a b c : Slot) :=
      firstOf (colourChecks s a b c (rasterMeets s a a || rasterMeets s a b || rasterMeets s a c))
    threePlanes.mem.wf ∧ ck threePlanes 0 1 1 = none ∧ Inside threePlanes 0 0 0 ∧ ck threePlanes 0 3 1 = some 0x20 ∧
      ck { threePlanes with rgbBase := 0xFE } 0 1 2 = some 0x22 ∧ ck { threePlanes with rgbBase := 0xFD } 0 1 2 = none ∧
      rasterEnd threePlanes 0 ≤ 0x403 := by decide +kernel
theorem witness_ChromaSubsampling :
    cellPlanes.mem.wf ∧ Passes (resampleChecks cellPlanes 1 0 0 1) ∧ Inside cellPlanes 1 1 1 ∧
      firstOf (resampleChecks cellPlanes 0 1 1 0) = some 0x20 ∧
      firstOf (resampleChecks (withPlane 1 0x13F 2 2 cellPlanes) 1 0 0 1) = some 0x22 ∧
      Passes (resampleChecks (withPlane 1 0x140 2 2 cellPlanes) 1 0 0 1) := by decide +kernel
theorem witness_ChromaUpsampling :
    cellPlanes.mem.wf ∧ Passes (resampleChecks cellPlanes 0 1 0 1) ∧ Inside cellPlanes 0 2 2 ∧
      firstOf (resampleChecks cellPlanes 1 0 1 0) = some 0x20 ∧ firstOf (resampleChecks cellPlanes 0 2 0 2) = some 0x20 := by
  decide +kernel
theorem witness_PlanePadding :
    cellPlanes.mem.wf ∧ Passes (planeChecks cellPlanes 0) ∧ ¬ Inside cellPlanes 0 3 2 ∧ Inside cellPlanes 0 2 2 ∧
      planeEnd cellPlanes 0 ≤ 0x140 ∧ firstOf (planeChecks cellPlanes 2) = some 0x20 ∧
      firstOf (planeChecks (withPlane 0 0xFFC1 8 8) 0) = some 0x21 ∧ Passes (planeChecks (withPlane 0 0xFFC0 8 8) 0) := by
  decide +kernel
theorem witness_BlockLoad :
    let s := { withPlane 0 0x1000 16 8 with bcur := 1 }
    Passes (cursorChecks s 0) ∧ firstOf (cursorChecks { s with bcur := 2 } 0) = some 0x23 ∧
      firstOf (cursorChecks { s with bcur := 0x00010000 } 0) = some 0x23 ∧ firstOf (cursorChecks s 1) = some 0x20 := by
  decide +kernel
theorem witness_BlockStore :
    let s := { withPlane 0 0x1000 16 8 with bcur := 1 }
    s.mem.wf ∧ Passes (cursorChecks s 0) ∧ ∀ r c : Fin 8, 0x1000 ≠ blockAt s 0 r c := by decide +kernel
theorem witness_CursorMoves :
    Passes (cursorChecks { withPlane 0 0 17 9 with bcur := 2 } 0) ∧
      Passes (cursorChecks { withPlane 0 0 17 9 with bcur := 0x00010002 } 0) ∧
      firstOf (cursorChecks { withPlane 0 0 17 9 with bcur := 3 } 0) = some 0x23 := by decide +kernel
theorem witness_TransformRoundTrip : ∃ t, exec .fdct State.reset = .next t := ⟨_, rfl⟩
theorem witness_FlatBlocks :
    (∀ k, State.reset.sBlk.get k = 0) ∧ (∃ t, exec .fdct State.reset = .next t) ∧ (∀ k, State.reset.cBlk.get k = 0) ∧
      ∃ t, exec .idct State.reset = .next t := ⟨by decide +kernel, ⟨_, rfl⟩, by decide +kernel, _, rfl⟩
theorem witness_Quantization :
    (∀ md ∈ [QMode.fixed, .cont, .idx], Passes (quantChecks State.reset .luma md)) ∧
      (∀ q ∈ ([1, 100] : List Byte), Passes (quantChecks { State.reset with quality := q } .luma .fixed)) ∧
      (∀ q ∈ ([0, 101] : List Byte), firstOf (quantChecks { State.reset with quality := q } .luma .fixed) = some 0x10) ∧
      (∀ n ∈ ([0, 5] : List (BitVec 3)), firstOf (quantChecks { State.reset with candN := n } .luma .idx) = some 0x11) ∧
      Passes (quantChecks { State.reset with candN := 1, cand01 := 0x00000001 } .luma .idx) ∧
      firstOf (quantChecks { State.reset with candN := 2, cand01 := 0x00000001 } .luma .idx) = some 0x12 ∧
      firstOf (quantChecks { State.reset with qtChroma := State.reset.qtChroma.set 63 0, candN := 0 } .chroma .idx) = some 0x13 := by
  decide +kernel
theorem witness_Dequantization :
    (∀ md ∈ [QMode.fixed, .cont, .idx], Passes (dequantChecks State.reset .chroma md)) ∧
      (∀ q ∈ ([0, 101] : List Byte), firstOf (dequantChecks { State.reset with qeff := q } .luma .cont) = some 0x10) ∧
      Passes (dequantChecks { State.reset with qidx := 3 } .luma .idx) ∧
      firstOf (dequantChecks { State.reset with qidx := 3, candN := 3 } .luma .idx) = some 0x44 := by decide +kernel

/-- The three cases of a command that writes bytes: an odd bit position, just room enough, one byte short. -/
theorem witness_DenseSerialize :
    (writing 64).mem.wf ∧ ({ writing 64 with wr := ⟨0x3000, 0x3040, 1⟩ }).wr.bit ≠ 0 ∧ (writing 64).wr.bit = 0 ∧
      64 ≤ room (writing 64).wr (writing 64).lmemSize ∧ room (writing 63).wr (writing 63).lmemSize < 64 ∧
      room ⟨0xFFFF, 0xFFFFFFFF, 0⟩ State.reset.lmemSize = 1 ∧ pastEnd ⟨0xFFFF, 0xFFFFFFFF, 0⟩ State.reset.lmemSize 0x51 = 0x52 ∧
      pastEnd ⟨0xFFFF, 0x10000, 0⟩ State.reset.lmemSize 0x51 = 0x51 := by decide +kernel
theorem witness_SparseSerialize :
    State.reset.mem.wf ∧ IsSparseCount State.reset 0 ∧ IsSparseCount { State.reset with qBlk := qOf [(0, 300), (8, -1)] } 3 ∧
      IsSparseCount { State.reset with qBlk := qOf [(63, 1)] } 64 := by decide +kernel
theorem witness_DenseDeserialize :
    ({ State.reset with rd := ⟨0, 64, 7⟩ }).rd.bit ≠ 0 ∧ State.reset.rd.bit = 0 ∧
      room State.reset.rd State.reset.lmemSize < 64 ∧ 64 ≤ room ⟨0xFFC0, 0x10000, 0⟩ State.reset.lmemSize := by decide +kernel
/-- The cases of DSERS: no byte, a count of 65, a whole stream, one that ends before a value, one that ends in an escape. -/
theorem witness_SparseDeserialize :
    ({ State.reset with rd := ⟨0, 64, 7⟩ }).rd.bit ≠ 0 ∧ room State.reset.rd State.reset.lmemSize = 0 ∧
      64 < ((reading [65]).mem.byteAt (reading [65]).rd.ptr.toNat).toNat ∧ 0 < room (reading [65]).rd (reading [65]).lmemSize ∧
      (let s := reading [2, 5, 0x80, 0, 0, 0x01, 0x2C]
       s.rd.bit = 0 ∧ Holds s.mem s.rd.ptr.toNat (sparseStream 2 [.inl 5, .inr 300]) ∧
         (sparseStream 2 [.inl 5, .inr 300]).length = room s.rd s.lmemSize) ∧
      (let s := reading [2, 5]
       Holds s.mem s.rd.ptr.toNat (sparseStream 2 [.inl 5]) ∧ (sparseStream 2 [.inl 5]).length = room s.rd s.lmemSize) ∧
      (let s := reading [2, 5, 0x80, 0, 0, 0x01]
       Holds s.mem s.rd.ptr.toNat (sparseStream 2 [.inl 5]) ∧ (sparseStream 2 [.inl 5]).length < room s.rd s.lmemSize ∧
         s.mem.byteAt (s.rd.ptr.toNat + (sparseStream 2 [.inl 5]).length) = 0x80 ∧
         room s.rd s.lmemSize < (sparseStream 2 [.inl 5]).length + 5) := by decide +kernel
theorem witness_SparseDeserialize_items : ItemsLegal [.inl 5, .inr 300] := by
  intro b hb
  simp only [List.mem_cons, Sum.inl.injEq, reduceCtorEq, List.not_mem_nil, or_false] at hb
  subst hb
  decide
theorem witness_QualityByteMoves :
    let ck (s : State) := firstOf [(s.rd.bit != 0, (0x50 : Byte)), (decide (s.rd.ptr.toNat ≥ s.rd.lim.toNat), 0x30),
      (decide (s.rd.ptr.toNat ≥ s.lmemSize), 0x52), (badQuality (s.mem.byteAt s.rd.ptr.toNat), 0x43)]
    State.reset.mem.wf ∧ ck (reading [1]) = none ∧ ck (reading [100]) = none ∧ ck (reading [101]) = some 0x43 ∧
      ck State.reset = some 0x30 ∧ ck { State.reset with rd := ⟨0x10000, 0x10001, 0⟩ } = some 0x52 ∧
      ck { State.reset with rd := ⟨0, 0, 1⟩ } = some 0x50 := by decide +kernel
theorem witness_QualityIndexMoves :
    let ck (s : State) := firstOf [(s.ix.bit.getLsbD 0, (0x50 : Byte)), (decide (s.ix.ptr.toNat ≥ s.ix.lim.toNat), 0x51),
      (decide (s.ix.ptr.toNat ≥ s.lmemSize), 0x52)]
    State.reset.mem.wf ∧ (∀ b ∈ ([0, 2, 4, 6] : List (BitVec 3)), ck { State.reset with ix := ⟨0xFFFF, 0x10000, b⟩ } = none) ∧
      ck { State.reset with ix := ⟨0xFFFF, 0x10000, 7⟩ } = some 0x50 ∧ ck State.reset = some 0x51 ∧
      ck { State.reset with ix := ⟨0x10000, 0x10001, 0⟩ } = some 0x52 := by decide +kernel
theorem witness_SparseRoundTrip :
    let s := { writing 11 with qBlk := qOf [(0, 300), (1, -128)] }
    s.mem.wf ∧ seen (exec .sers s) (fun t => (t.err, t.wr.ptr)) = some (false, 0x300B) := by decide +kernel

/-- HFREQ: two bytes counted; a counter that is full stops it at its byte; the stream's end stops it. -/
theorem canCount_of_zero {s : State} {n : Nat} (h : s.hfreq = Vector.replicate 256 0) (hr : n ≤ room s.rd s.lmemSize)
    (hn : n < 2 ^ 32) : CanCount s n := by
  refine ⟨hr, fun sym => ?_⟩
  have hz : s.hfreq.get sym = 0 := by rw [h]; exact Vector.getElem_replicate sym.isLt
  have hle : occurrences s n sym ≤ n := by
    simpa [occurrences] using (List.range n).countP_le_length (p := fun k => s.mem.byteAt (s.rd.ptr.toNat + k) == BitVec.ofFin sym)
  rw [hz]
  show 0 + _ < _
  omega
theorem witness_HistogramResults :
    let s := { reading [5, 0] with hcount := 2 }
    let full := { s with hfreq := Vector.replicate 256 0xFFFFFFFF }
    s.rd.bit = 0 ∧ CanCount s 2 ∧ ({ s with rd := ⟨0, 0, 3⟩ }).rd.bit ≠ 0 ∧ CanCount { s with hcount := 3 } 2 ∧
      ¬ CanCount { s with hcount := 3 } 3 ∧ CanCount full 0 ∧ ¬ CanCount full 1 := by
  intro s full
  refine ⟨rfl, canCount_of_zero rfl (by decide +kernel) (by omega), by decide, canCount_of_zero rfl (by decide +kernel) (by omega),
    fun h => absurd h.1 (by decide +kernel), ⟨Nat.zero_le _, fun sym => ?_⟩, fun h => ?_⟩
  · rw [show full.hfreq.get sym = 0xFFFFFFFF from Vector.getElem_replicate sym.isLt]
    show _ + 0 < _
    decide
  · have h5 := h.2 5
    rw [show full.hfreq.get 5 = 0xFFFFFFFF from Vector.getElem_replicate (by decide)] at h5
    revert h5
    decide +kernel
theorem witness_TreeBuild :
    (∑ sym : Fin 256, (State.reset.hfreq.get sym).toNat < 2 ^ 32) ∧
      2 ^ 32 ≤ ∑ sym : Fin 256, ((Vector.replicate 256 (0xFFFFFFFF : Word)).get sym).toNat := by
  have hg (w : Word) (sym : Fin 256) : (Vector.replicate 256 w).get sym = w := Vector.getElem_replicate sym.isLt
  have hr : State.reset.hfreq = Vector.replicate 256 0 := rfl
  simp only [hr, hg, Finset.sum_const, Finset.card_univ, Fintype.card_fin]
  decide
theorem witness_CountedSymbolsHaveOneCode :
    seen (exec .hbuild { State.reset with hfreq := exampleHist }) (fun t => (t.err, t.hnleaf)) = some (false, 4) ∧
      exampleHist.get 5 ≠ 0 ∧ exampleHist.get 1 = 0 := by decide +kernel

/-- The codes of the example tree: 00 is 0, 05 is 10. -/
theorem code_zero : IsCode exampleTree 0x00 [false] := ⟨0, by decide +kernel⟩
theorem code_five : IsCode exampleTree 0x05 [true, false] := ⟨2, by decide +kernel⟩
theorem witness_CodesArePrefixFree :
    exampleTree.codeOf 0x05 = some [true, false] ∧ [true, false] <+: [true, false] ∧ exampleTree.codeOf 0x01 = none := by
  decide +kernel
theorem witness_CodesArePrefixFree_tree : exampleTree.TreeOk ∧ IsCode exampleTree 0x05 [true, false] :=
  ⟨exampleTree_ok, code_five⟩

/-- HENC: two symbols with room for exactly their three bits; no room; no symbol left; a symbol that has no code. -/
theorem witness_HuffmanEncode :
    let s := { reading [5, 0] (writing 1 exampleTree) with hcount := 2 }
    s.mem.wf ∧ s.hnleaf ≠ 0 ∧ State.reset.hnleaf = 0 ∧ s.rd.bit = 0 ∧ s.rd.ptr.toNat + s.hcount.toNat ≤ s.wr.ptr.toNat ∧
      Holds s.mem s.rd.ptr.toNat [5, 0] ∧ [5, 0].length = room s.rd s.lmemSize ∧ 3 ≤ bitRoom s.wr s.lmemSize ∧
      bitRoom { s.wr with bit := 5 } s.lmemSize = 3 ∧ bitRoom { s.wr with bit := 6 } s.lmemSize < 1 + 2 ∧
      Holds (reading [1]).mem (reading [1]).rd.ptr.toNat [1] := by decide +kernel
theorem witness_HuffmanEncode_codes :
    ({ reading [5, 0] (writing 1 exampleTree) with hcount := 2 } : State).TreeOk ∧
      AreCodes { reading [5, 0] (writing 1 exampleTree) with hcount := 2 } [5, 0] [[true, false], [false]] :=
  ⟨exampleTree_ok, .cons ⟨2, by decide +kernel⟩ (.cons ⟨0, by decide +kernel⟩ .nil)⟩
theorem witness_HuffmanEncode_noCode : ¬ ∃ bits, IsCode State.reset 1 bits := by
  rintro ⟨bits, i, hw, hv, _⟩
  have hz (k : Nat) : nodeAt State.reset k = HNode.zero := by
    unfold nodeAt
    split
    · next h => exact Vector.getElem_replicate h
    · rfl
  rw [hz] at hv
  exact absurd hv (by decide)

/-- HDEC: the bits 100 give 05 and 00; a stream that ends inside a code; no room for the symbol. -/
theorem witness_HuffmanDecode :
    let s := { reading [0x80] (writing 2 exampleTree) with hcount := 2 }
    let short := { reading [0xFF] (writing 4 exampleTree) with hcount := 4 }
    s.mem.wf ∧ s.hnleaf ≠ 0 ∧ s.wr.bit = 0 ∧ s.rd.ptr.toNat + room s.rd s.lmemSize ≤ s.wr.ptr.toNat ∧
      [5, 0].length ≤ room s.wr s.lmemSize ∧ (∀ j (h : j < 3), bitAt s.mem s.rd.ptr.toNat (s.rd.bit.toNat + 0 + j) =
        [true, false, false][j]) ∧ 3 ≤ bitRoom s.rd s.lmemSize ∧
      (6 + 2 = bitRoom short.rd short.lmemSize ∧ walk short short.hroot.toNat [true, true] = some 4 ∧
        (nodeAt short 4).leaf = false) ∧ room (writing 0).wr (writing 0).lmemSize = 0 := by decide +kernel
theorem witness_HuffmanDecode_codes :
    ({ reading [0x80] (writing 2 exampleTree) with hcount := 2 } : State).TreeOk ∧
      AreCodes { reading [0x80] (writing 2 exampleTree) with hcount := 2 } [5, 0] [[true, false], [false]] :=
  ⟨exampleTree_ok, .cons ⟨2, by decide +kernel⟩ (.cons ⟨0, by decide +kernel⟩ .nil)⟩
/-- HENC of one symbol and one more, both complete; and a second half that finds no symbol. -/
theorem witness_HuffmanCommandsSplit :
    let s := { reading [5, 0] (writing 1 exampleTree) with hcount := 1 }
    let t := after .henc s
    s.err = false ∧ t.err = false ∧ (after .henc { t with hcount := 1, cpc := s.cpc }).err = false ∧
      (after .henc { t with hcount := 2, cpc := s.cpc }).err = true ∧ (after .henc { s with hnleaf := 0 }).err = true := by
  decide +kernel
theorem witness_HuffmanRoundTrip :
    let s := { reading [5, 0] (writing 1 exampleTree) with hcount := 2 }
    let t := after .henc s
    let w : Stream := ⟨0x4000, 0x4002, 0⟩
    s.mem.wf ∧ t.err = false ∧ s.rd.ptr.toNat + s.hcount.toNat ≤ s.wr.ptr.toNat ∧
      t.wr.ptr.toNat + (t.wr.bit.toNat + 7) / 8 ≤ (0x3001 : Word).toNat ∧ w.bit = 0 ∧ s.hcount.toNat ≤ room w s.lmemSize ∧
      t.wr.ptr.toNat + 1 ≤ w.ptr.toNat := by decide +kernel

/-- The slave port: a register read while idle and one while busy; a reserved offset; RW, RO, CTRL, STATUS, IRQ_STATUS. -/
theorem witness_HostReadsRegisters :
    let off : BitVec 25 := 0x0DF
    (∃ row ∈ regRows, off.toNat / 4 = row.num) ∧ State.reset.busy = false ∧ (∃ row ∈ regRows, (0x1F : BitVec 25).toNat / 4 = row.num ∧
      row.num < 8) ∧ (0x38 : BitVec 25).toNat < 0x100 ∧ ∀ row ∈ regRows, (0x38 : BitVec 25).toNat / 4 ≠ row.num := by
  decide +kernel
theorem witness_HostWritesRegisters :
    (∃ row ∈ regRows, (0x10 : BitVec 25).toNat / 4 = row.num ∧ row.host = .rw ∧ row.num < 8) ∧
      (∃ row ∈ regRows, (0xD0 : BitVec 25).toNat / 4 = row.num ∧ row.host = .rw) ∧
      (∃ row ∈ regRows, (0xDC : BitVec 25).toNat / 4 = row.num ∧ row.host = .ro) ∧ State.reset.busy = false ∧
      ∀ row ∈ regRows, (0xE0 : BitVec 25).toNat / 4 ≠ row.num := by decide +kernel
theorem witness_HostReadsWindows :
    ({ State.reset with hostQueue := [.read 0x100] }).hostQueue = .read 0x100 :: [] ∧ State.reset.busy = false ∧
      0x100 ≤ (0x100 : BitVec 25).toNat ∧ 0x100 ≤ (0x1FFFFFF : BitVec 25).toNat := by decide +kernel
theorem witness_HostWritesWindows :
    State.reset.mem.wf ∧ ({ State.reset with hostQueue := [.write 0x1FFFF 7 8] }).hostQueue = .write 0x1FFFF 7 8 :: [] ∧
      State.reset.busy = false ∧ 0x100 ≤ (0x1FFFF : BitVec 25).toNat ∧ windowWritable State.reset 0x1FFFF = true ∧
      windowWritable State.reset 0x20000 = false := by decide +kernel
theorem witness_ClosedAccesses :
    ({ State.reset with busy := true, hostQueue := [.read 0x20] }).busy = true ∧ 0x20 ≤ (0x20 : BitVec 25).toNat ∧
      (0x1F : BitVec 25).toNat < 0x20 ∧
      ({ State.reset with busy := true, hostQueue := [.write 0x20 1 1] }).hostQueue = .write 0x20 1 1 :: [] := by decide +kernel
theorem witness_ControlActions :
    ({ State.reset with hostQueue := [.write 0x007 7 1] }).hostQueue = .write 0x007 7 1 :: [] ∧ (0x007 : BitVec 25).toNat / 4 = 1 := by
  decide +kernel
theorem witness_InterruptAndStatusBits :
    ({ State.reset with hostQueue := [.write 0x00C 7 1] }).hostQueue = .write 0x00C 7 1 :: [] ∧ (0x00C : BitVec 25).toNat / 4 = 3 ∧
      (0x008 : BitVec 25).toNat / 4 = 2 := by decide +kernel

end Sys2Proof.Tests
end

