-- ==== Sys2Proof/Proofs/Arith.lean ====
section
/-!
PROOF. The notation arithmetic of 00_scope.md R10 and R11: for each of `rnd`, `clampInt`, `sat32`, `ceil8` and `ceil2`, what its
result is, stated without the division or the comparisons it is defined by. Settles O17.
-/

namespace Sys2Proof

/-- R10: n/d is less than half above the rounded value, so an exact half rounds up. -/
theorem lt_rnd (n : Int) {d : Int} (hd : 0 < d) : 2 * n - d < 2 * d * rnd n d := by
  have hfloor : 2 * n + d < 2 * d * rnd n d + 2 * d := Int.lt_mul_ediv_self_add (by omega)
  omega

/-- R10: the rounded value is at most half above n/d. -/
theorem rnd_le (n : Int) {d : Int} (hd : 0 < d) : 2 * d * rnd n d ≤ 2 * n + d :=
  Int.mul_ediv_self_le (by omega)

/-- R11: in an interval with `lo ≤ hi`, clamping is the lattice clamp of Mathlib's `max` and `min`. -/
theorem clampInt_eq_max_min (v : Int) {lo hi : Int} (h : lo ≤ hi) : clampInt v lo hi = max lo (min hi v) := by
  unfold clampInt
  split
  case isTrue hlow => rw [min_eq_right (by omega), max_eq_left hlow.le]
  case isFalse hlow =>
    split
    case isTrue hhigh => rw [min_eq_left hhigh.le, max_eq_right h]
    case isFalse hhigh => rw [min_eq_right (by omega), max_eq_right (by omega)]

theorem sat32_eq_max_min (v : Int) : sat32 v = max (-2147483648) (min 2147483647 v) :=
  clampInt_eq_max_min v (by decide)

theorem dvd_ceil8 (v : Nat) : 8 ∣ ceil8 v := Nat.dvd_mul_right 8 _

theorem le_ceil8 (v : Nat) : v ≤ ceil8 v := by
  unfold ceil8
  omega

theorem ceil8_lt (v : Nat) : ceil8 v < v + 8 := by
  unfold ceil8
  omega

theorem le_two_mul_ceil2 (v : Nat) : v ≤ 2 * ceil2 v := by
  unfold ceil2
  omega

theorem two_mul_ceil2_le (v : Nat) : 2 * ceil2 v ≤ v + 1 := Nat.mul_div_le (v + 1) 2

/-- Settles O17: the floor division of R9 bounds `rnd`, `ceil8` and `ceil2` from both sides, and `clampInt` is a lattice clamp. -/
theorem notationArithmetic : Obligations.NotationArithmetic :=
  ⟨fun n _ hd => ⟨lt_rnd n hd, rnd_le n hd⟩, fun v _ _ h => clampInt_eq_max_min v h, sat32_eq_max_min,
    fun v => ⟨dvd_ceil8 v, le_ceil8 v, ceil8_lt v⟩, fun v => ⟨le_two_mul_ceil2 v, two_mul_ceil2_le v⟩⟩

end Sys2Proof
end

