-- ==== Sys2Proof/Proofs/Runs.lean ====
section
/-!
PROOF. How the parts of a command end: `Ends`, a triple over the error monad with its rules for bind and loops, the triple of
each check, and `LmemKept`, what every write to LMEM keeps of it (20_memory.md R101).
-/

namespace Sys2Proof.Machine

/-! ## How a part of a command ends -/

/-- However `x` ends, its result meets `P`, or the LMEM it leaves on an error meets `E`. -/
def Ends {α : Type} (x : Run α) (P : α → Prop) (E : Memory → Prop) : Prop :=
  (∀ a, x = .ok a → P a) ∧ ∀ e, x = .error e → E e.mem

section
variable {α β : Type} {P : α → Prop} {Q : β → Prop} {E : Memory → Prop}

theorem Ends.bind {x : Run α} {f : α → Run β} (hx : Ends x P E) (hf : ∀ a, P a → Ends (f a) Q E) : Ends (x >>= f) Q E := by
  refine ⟨fun b h => ?_, fun e h => ?_⟩
  · obtain ⟨a, ha, hb⟩ := Run.bind_ok.mp h
    exact (hf a (hx.1 a ha)).1 b hb
  · rcases Run.bind_error.mp h with h | ⟨a, ha, h⟩
    · exact hx.2 e h
    · exact (hf a (hx.1 a ha)).2 e h

theorem Ends.ok {a : α} (h : P a) : Ends (.ok a) P E :=
  ⟨fun _ e => by cases e; exact h, fun _ e => by cases e⟩

theorem Ends.pure {a : α} (h : P a) : Ends (Pure.pure a) P E := Ends.ok h

theorem Ends.error {e : Abort} (h : E e.mem) : Ends (.error e) P E :=
  ⟨fun _ he => (nomatch he), fun _ he => by cases he; exact h⟩

theorem Ends.raise {c : ErrCode} {s : State} (h : E s.mem) : Ends (Machine.raise c s) P E := Ends.error h

theorem Ends.mono {x : Run α} {P' : α → Prop} {E' : Memory → Prop} (h : Ends x P E) (hP : ∀ a, P a → P' a)
    (hE : ∀ m, E m → E' m) : Ends x P' E' :=
  ⟨fun a ha => hP a (h.1 a ha), fun e he => hE _ (h.2 e he)⟩

theorem Ends.repeatRun {f : α → Run α} (hf : ∀ x, P x → Ends (f x) P E) (n : Nat) {x : α} (hx : P x) :
    Ends (repeatRun f n x) P E :=
  repeatRun_induct (fun x y hx => (hf x hx).1 y) (fun x e hx => (hf x hx).2 e) n hx

theorem Ends.foldlM {ι : Type} {f : α → ι → Run α} (hf : ∀ x i, P x → Ends (f x i) P E) (l : List ι) {x : α} (hx : P x) :
    Ends (l.foldlM f x) P E :=
  foldlRun_induct (fun x i y hx => (hf x i hx).1 y) (fun x i e hx => (hf x i hx).2 e) l hx

end

/-! The checks: an error of theirs has written nothing. -/
theorem refuseIf_ends (bad : Bool) (c : ErrCode) (s : State) : Ends (refuseIf bad c s) (fun _ => bad = false) (· = s.mem) :=
  ⟨fun _ hu => refuseIf_ok.mp hu, fun _ he => by rw [(refuseIf_error.mp he).2]⟩

theorem plane_ends (p : Slot) (s : State) :
    Ends (plane p s) (fun v => s.planeLegal p ∧ v = s.planeView p) (· = s.mem) :=
  ⟨fun _ h => plane_ok.mp h, fun _ h => by rcases plane_error h with ⟨rfl, _⟩ | ⟨rfl, _⟩ <;> rfl⟩

theorem raster_ends (W H : Nat) (s : State) :
    Ends (raster W H s) (fun rb => rb + 3 * W * H ≤ s.lmemSize) (· = s.mem) :=
  ⟨fun _ h => by obtain ⟨hle, rfl⟩ := raster_ok.mp h; exact hle, fun _ h => by rw [raster_error h]⟩

theorem cursor_ends (p : Slot) (s : State) :
    Ends (cursor p s) (fun v => s.planeLegal p ∧ s.blkX < v.PW / 8 ∧ s.blkY < v.PH / 8 ∧ v = s.planeView p) (· = s.mem) :=
  ⟨fun _ h => by obtain ⟨hp, hx, hy, rfl⟩ := cursor_ok.mp h; exact ⟨hp, hx, hy, rfl⟩, fun _ h => (cursor_error h).1⟩

theorem table_ends (t : QTable) (s : State) : Ends (table t s) (fun _ => True) (· = s.mem) :=
  ⟨fun _ _ => trivial, fun _ h => by rw [table_error h]⟩

theorem candidates_ends (s : State) : Ends (candidates s) (fun _ => True) (· = s.mem) :=
  ⟨fun _ _ => trivial, fun _ h => by rcases candidates_error h with rfl | rfl <;> rfl⟩

theorem legalQuality_ends (q : Byte) (s : State) : Ends (legalQuality q s) (fun _ => True) (· = s.mem) :=
  ⟨fun _ _ => trivial, fun _ h => by rw [legalQuality_error h]⟩

theorem cmdReg_ends (r : BitVec 8) (s : State) : Ends (cmdReg r s) (fun reg => reg.isCmd = true) (· = s.mem) := by
  unfold cmdReg
  cases h : Reg.cmd? r with
  | none => exact Ends.raise rfl
  | some reg => exact Ends.ok (Option.filter_eq_some_iff.mp h).2

/-! ## LMEM written inside its bounds -/

/-- `m` is as well formed as LMEM is in `s`: its canonical form and its bound (R101) are kept. -/
def LmemKept (s : State) (m : Memory) : Prop :=
  (s.mem.wf → m.wf) ∧ (s.mem.below s.lmemSize → m.below s.lmemSize)

theorem LmemKept.refl (s : State) : LmemKept s s.mem := ⟨id, id⟩

theorem LmemKept.of_eq {s : State} {m : Memory} (h : m = s.mem) : LmemKept s m := h ▸ LmemKept.refl s

/-- A part that writes nothing before an error keeps LMEM. -/
theorem Ends.kept {α : Type} {x : Run α} {P : α → Prop} {s : State} (h : Ends x P (· = s.mem)) : Ends x P (LmemKept s) :=
  h.mono (fun _ => id) fun _ => LmemKept.of_eq

theorem LmemKept.write {s : State} {m : Memory} (h : LmemKept s m) {a : Nat} (ha : a < s.lmemSize) (v : Byte) :
    LmemKept s (m.write a v) :=
  ⟨fun hs => Memory.wf_write (h.1 hs) a v, fun hs => Memory.below_write (h.2 hs) ha v⟩

/-- LMEM kept from a state on whose LMEM is itself kept. -/
theorem LmemKept.since {s t : State} {m : Memory} (h : LmemKept t m) (hs : LmemKept s t.mem)
    (hsize : t.lmemSize = s.lmemSize) : LmemKept s m :=
  ⟨fun hwf => h.1 (hs.1 hwf), fun hb => hsize ▸ h.2 (hsize.symm ▸ hs.2 hb)⟩

theorem LmemKept.writeEach {ι : Type} {s : State} {cs : List ι} {addr : ι → Nat} {val : Memory → ι → Byte}
    (ha : ∀ c ∈ cs, addr c < s.lmemSize) : LmemKept s (Memory.writeEach cs addr val s.mem) :=
  ⟨Memory.wf_writeEach cs addr val, fun h => Memory.below_writeEach val h ha⟩

end Sys2Proof.Machine
end

