-- ==== Sys2Proof/Proofs/Effects.lean ====
section
/-!
PROOF. What each command does: `Effect` has one row for each command, naming the fields it may change when it completes, and
`exec_cases` says that a command does what its row says or ends in an error halt. The frame statements and the invariants
follow from it without unfolding a command again.
-/

namespace Sys2Proof.Machine

/-! ## Planes and the raster: where the commands write -/

theorem mem_grid {W H : Nat} {p : Nat × Nat} : p ∈ grid W H ↔ p.1 < W ∧ p.2 < H := by
  obtain ⟨x, y⟩ := p
  simp [grid, and_comm]

theorem mem_pixelBytes {W H : Nat} {p : PixelByte} (h : p ∈ pixelBytes W H) : p.x < W ∧ p.y < H := by
  obtain ⟨q, hq, hp⟩ := List.mem_flatMap.mp h
  have hxy : p.x = q.1 ∧ p.y = q.2 := by
    simp only [List.mem_cons, List.not_mem_nil, or_false] at hp
    rcases hp with rfl | rfl | rfl <;> exact ⟨rfl, rfl⟩
  rw [hxy.1, hxy.2]
  exact mem_grid.mp hq

/-- Row `y` of a raster or plane of rows of `w`: position `x` of the row lies inside the rows up to `h`. -/
theorem row_index_lt {w h x y : Nat} (hx : x < w) (hy : y < h) : w * y + x < w * h := by
  calc w * y + x < w * y + w := by omega
    _ = w * (y + 1) := by ring
    _ ≤ w * h := Nat.mul_le_mul_left w hy

/-- R200: a sample inside the padded size of a checked plane lies in LMEM. -/
theorem State.planeLegal.addr_lt {s : State} {p : Slot} (h : s.planeLegal p) {x y : Nat} (hx : x < (s.planeView p).PW)
    (hy : y < (s.planeView p).PH) : (s.planeView p).addr x y < s.lmemSize := by
  have hrow := row_index_lt hx hy
  have hend := h.2.2
  unfold PlaneView.addr
  omega

/-- R200: so does a sample inside the plane proper. -/
theorem State.planeLegal.sample_lt {s : State} {p : Slot} (h : s.planeLegal p) {x y : Nat} (hx : x < (s.planeView p).W)
    (hy : y < (s.planeView p).H) : (s.planeView p).addr x y < s.lmemSize :=
  h.addr_lt (hx.trans_le (le_ceil8 _)) (hy.trans_le (le_ceil8 _))

/-- R201: a byte of a pixel of a checked raster lies in LMEM. -/
theorem rasterAddr_lt {rb W H x y size : Nat} (hend : rb + 3 * W * H ≤ size) (hx : x < W) (hy : y < H) (ch : Fin 3) :
    rasterAddr rb W x y + ch.val < size := by
  have hrow := row_index_lt hx hy
  rw [Nat.mul_assoc] at hend
  unfold rasterAddr
  omega

/-- R250, R258: an entry of the block under a checked cursor lies in LMEM. -/
theorem blockAddr_lt {s : State} {p : Slot} (h : s.planeLegal p) (hx : s.blkX < (s.planeView p).PW / 8)
    (hy : s.blkY < (s.planeView p).PH / 8) (k : Fin 64) : s.blockAddr (s.planeView p) k.val < s.lmemSize := by
  have hlt := h.addr_lt (x := 8 * s.blkX + k.val % 8) (y := 8 * s.blkY + k.val / 8) (by omega) (by omega)
  unfold PlaneView.addr at hlt
  unfold State.blockAddr
  omega

/-! ## What the stream primitives do -/

/-- `t` is `s` with the read stream moved. -/
def ReadsOn (s t : State) : Prop := ∃ r, r.lim = s.rd.lim ∧ t = { s with rd := r }

/-- `t` is `s` with bytes of LMEM written and the write stream moved. -/
def WritesOn (s t : State) : Prop := ∃ m w, LmemKept s m ∧ w.lim = s.wr.lim ∧ t = { s with mem := m, wr := w }

/-- `t` is `s` with either stream moved and bytes of LMEM written. -/
def CopiesOn (s t : State) : Prop :=
  ∃ m r w, LmemKept s m ∧ r.lim = s.rd.lim ∧ w.lim = s.wr.lim ∧ t = { s with mem := m, rd := r, wr := w }

@[simp] theorem Stream.nextByte_lim (st : Stream) : st.nextByte.lim = st.lim := rfl

@[simp] theorem Stream.nextBit_lim (st : Stream) : st.nextBit.lim = st.lim := by
  unfold Stream.nextBit
  split <;> rfl

@[simp] theorem Stream.nextField_lim (st : Stream) : st.nextField.lim = st.lim := by
  unfold Stream.nextField
  split <;> rfl

@[simp] theorem Stream.align_lim (st : Stream) : st.align.lim = st.lim := by
  unfold Stream.align
  split <;> rfl

theorem ReadsOn.refl (s : State) : ReadsOn s s := ⟨_, rfl, rfl⟩

theorem ReadsOn.trans {s t u : State} (h : ReadsOn s t) (h' : ReadsOn t u) : ReadsOn s u := by
  obtain ⟨r, hr, rfl⟩ := h
  obtain ⟨r', hr', rfl⟩ := h'
  exact ⟨r', hr'.trans hr, rfl⟩

theorem ReadsOn.mem_eq {s t : State} (h : ReadsOn s t) : t.mem = s.mem := by
  obtain ⟨r, -, rfl⟩ := h
  rfl

theorem WritesOn.refl (s : State) : WritesOn s s := ⟨_, _, LmemKept.refl s, rfl, rfl⟩

theorem WritesOn.trans {s t u : State} (h : WritesOn s t) (h' : WritesOn t u) : WritesOn s u := by
  obtain ⟨m, w, hm, hw, rfl⟩ := h
  obtain ⟨m', w', hm', hw', rfl⟩ := h'
  exact ⟨m', w', hm'.since hm rfl, hw'.trans hw, rfl⟩

theorem WritesOn.kept {s t : State} {m : Memory} (h : WritesOn s t) (hm : LmemKept t m) : LmemKept s m := by
  obtain ⟨m', w, hm', -, rfl⟩ := h
  exact hm.since hm' rfl

theorem CopiesOn.refl (s : State) : CopiesOn s s := ⟨_, _, _, LmemKept.refl s, rfl, rfl, rfl⟩

theorem CopiesOn.trans {s t u : State} (h : CopiesOn s t) (h' : CopiesOn t u) : CopiesOn s u := by
  obtain ⟨m, r, w, hm, hr, hw, rfl⟩ := h
  obtain ⟨m', r', w', hm', hr', hw', rfl⟩ := h'
  exact ⟨m', r', w', hm'.since hm rfl, hr'.trans hr, hw'.trans hw, rfl⟩

theorem CopiesOn.kept {s t : State} {m : Memory} (h : CopiesOn s t) (hm : LmemKept t m) : LmemKept s m := by
  obtain ⟨m', r, w, hm', -, -, rfl⟩ := h
  exact hm.since hm' rfl

theorem ReadsOn.copies {s t : State} (h : ReadsOn s t) : CopiesOn s t := by
  obtain ⟨r, hr, rfl⟩ := h
  exact ⟨_, r, _, LmemKept.refl s, hr, rfl, rfl⟩

theorem WritesOn.copies {s t : State} (h : WritesOn s t) : CopiesOn s t := by
  obtain ⟨m, w, hm, hw, rfl⟩ := h
  exact ⟨m, _, w, hm, rfl, hw, rfl⟩

theorem needAligned_ends (bit : BitVec 3) (s : State) : Ends (needAligned bit s) (fun _ => True) (· = s.mem) :=
  ⟨fun _ _ => trivial, fun _ h => by rw [(needAligned_error.mp h).2]⟩

theorem rdByte_ends (c : ErrCode) (s : State) : Ends (rdByte c s) (fun x => ReadsOn s x.2) (· = s.mem) :=
  ⟨fun ⟨b, t⟩ h => by obtain ⟨-, -, -, rfl⟩ := rdByte_ok.mp h; exact ⟨_, Stream.nextByte_lim _, rfl⟩,
    fun _ h => by rcases rdByte_error h with rfl | rfl <;> rfl⟩

theorem rdBit_ends (s : State) : Ends (rdBit s) (fun x => ReadsOn s x.2) (· = s.mem) :=
  ⟨fun ⟨b, t⟩ h => by obtain ⟨-, -, -, rfl⟩ := rdBit_ok.mp h; exact ⟨_, Stream.nextBit_lim _, rfl⟩,
    fun _ h => by rcases rdBit_error h with rfl | rfl <;> rfl⟩

theorem wrByte_ends (v : Byte) (s : State) : Ends (wrByte v s) (WritesOn s) (· = s.mem) :=
  ⟨fun t h => by
      obtain ⟨-, hlt, rfl⟩ := wrByte_ok.mp h
      exact ⟨_, _, (LmemKept.refl s).write hlt v, Stream.nextByte_lim _, rfl⟩,
    fun _ h => by rcases wrByte_error h with rfl | rfl <;> rfl⟩

theorem wrBit_ends (b : Bool) (s : State) : Ends (wrBit b s) (WritesOn s) (· = s.mem) :=
  ⟨fun t h => by
      obtain ⟨-, hlt, rfl⟩ := wrBit_ok.mp h
      exact ⟨_, _, (LmemKept.refl s).write hlt _, Stream.nextBit_lim _, rfl⟩,
    fun _ h => by rcases wrBit_error h with rfl | rfl <;> rfl⟩

/-- A loop whose rounds write on ends with the bytes written so far, on an error too (R512). -/
theorem foldlM_writesOn {ι : Type} {f : State → ι → Run State} (hf : ∀ x i, Ends (f x i) (WritesOn x) (· = x.mem))
    (l : List ι) (s : State) : Ends (l.foldlM f s) (WritesOn s) (LmemKept s) :=
  Ends.foldlM (fun x i hx => (hf x i).mono (fun _ => hx.trans) fun _ hm => hx.kept (.of_eq hm)) l (WritesOn.refl s)

theorem wrBytes_ends (vs : List Byte) (s : State) : Ends (wrBytes vs s) (WritesOn s) (LmemKept s) :=
  foldlM_writesOn (fun x v => wrByte_ends v x) vs s

theorem wrBits_ends (bs : List Bool) (s : State) : Ends (wrBits bs s) (WritesOn s) (LmemKept s) :=
  foldlM_writesOn (fun x b => wrBit_ends b x) bs s

/-! ## What each command does when it completes -/

/-- `Effect s i u`: command `i`, begun in `s`, may complete with `u`, but for CPC. Each command has its row, which names the
fields it may change; all others are those of `s`. -/
inductive Effect (s : State) : Instr → State → Prop
  | nop : Effect s .nop s
  | halt : Effect s .halt { s with busy := false, irqStatus := s.irqStatus ||| irqDone }
  | irq : Effect s .irq { s with irqStatus := s.irqStatus ||| irqSw }
  | jmp (t : BitVec 24) : Effect s (.jmp t) s
  | djnz (t : BitVec 24) : Effect s (.djnz t) { s with lc := s.lc - 1 }
  | bnend (t : BitVec 24) : Effect s (.bnend t) s
  | setl (r : BitVec 8) (imm16 : BitVec 16) (reg : Reg) (v : Word) (hreg : reg.isCmd = true) :
      Effect s (.setl r imm16) (s.storeReg reg v)
  | seth (r : BitVec 8) (imm16 : BitVec 16) (reg : Reg) (v : Word) (hreg : reg.isCmd = true) :
      Effect s (.seth r imm16) (s.storeReg reg v)
  | cscf (a b c : Slot) (m : Memory) (hm : LmemKept s m) : Effect s (.cscf a b c) (s.withMem m)
  | csci (a b c : Slot) (m : Memory) (hm : LmemKept s m) : Effect s (.csci a b c) (s.withMem m)
  | csub (a b : Slot) (m : Memory) (hm : LmemKept s m) : Effect s (.csub a b) (s.withMem m)
  | cups (a b : Slot) (m : Memory) (hm : LmemKept s m) : Effect s (.cups a b) (s.withMem m)
  | pad (a : Slot) (md : PadMode) (m : Memory) (hm : LmemKept s m) : Effect s (.pad a md) (s.withMem m)
  | ldb (a : Slot) (blk : Vector Byte 64) : Effect s (.ldb a) { s with sBlk := blk }
  | stb (a : Slot) (m : Memory) (hm : LmemKept s m) : Effect s (.stb a) (s.withMem m)
  | bnxt (a : Slot) (x y : Nat) (b : Bool) : Effect s (.bnxt a) ((s.setCursor x y).setBend b)
  | brst : Effect s .brst ((s.setCursor 0 0).setBend false)
  | fdct : Effect s .fdct { s with cBlk := fdct s.sBlk }
  | idct : Effect s .idct { s with sBlk := idct s.cBlk }
  | var : Effect s .var { s with varn := two32 (varn s.sBlk) }
  | qnt (t : QTable) (md : QMode) (q : Byte) (i : BitVec 2) (blk : Vector Word 64) :
      Effect s (.qnt t md) { s with qeff := q, qidx := i, qBlk := blk }
  | dqnt (t : QTable) (md : QMode) (blk : Vector Word 64) : Effect s (.dqnt t md) { s with cBlk := blk }
  | serd (m : Memory) (w : Stream) (hm : LmemKept s m) (hw : w.lim = s.wr.lim) : Effect s .serd { s with mem := m, wr := w }
  | sers (m : Memory) (w : Stream) (b : Bool) (hm : LmemKept s m) (hw : w.lim = s.wr.lim) :
      Effect s .sers (State.setEsc { s with mem := m, wr := w } b)
  | dserd (r : Stream) (blk : Vector Word 64) (hr : r.lim = s.rd.lim) : Effect s .dserd { s with rd := r, qBlk := blk }
  | dsers (r : Stream) (blk : Vector Word 64) (b : Bool) (hr : r.lim = s.rd.lim) :
      Effect s .dsers (State.setEsc { s with rd := r, qBlk := blk } b)
  | putq (m : Memory) (w : Stream) (hm : LmemKept s m) (hw : w.lim = s.wr.lim) : Effect s .putq { s with mem := m, wr := w }
  | getq (r : Stream) (q : Byte) (hr : r.lim = s.rd.lim) : Effect s .getq { s with rd := r, qeff := q }
  | putidx (m : Memory) (x : Stream) (hm : LmemKept s m) (hx : x.lim = s.ix.lim) :
      Effect s .putidx { s with mem := m, ix := x }
  | getidx (x : Stream) (i : BitVec 2) (hx : x.lim = s.ix.lim) : Effect s .getidx { s with ix := x, qidx := i }
  | ialn : Effect s .ialn { s with ix := s.ix.align }
  | waln : Effect s .waln { s with wr := s.wr.align }
  | raln : Effect s .raln { s with rd := s.rd.align }
  | hclr : Effect s .hclr { s with hfreq := Vector.replicate 256 0 }
  | hfreq (r : Stream) (hist : Vector Word 256) (hr : r.lim = s.rd.lim) : Effect s .hfreq { s with rd := r, hfreq := hist }
  | hbuild (t : Arena) (root leafCount : BitVec 9) :
      Effect s .hbuild { s with hnode := t, hroot := root, hnleaf := leafCount }
  | henc (m : Memory) (r w : Stream) (n : Word) (hm : LmemKept s m) (hr : r.lim = s.rd.lim) (hw : w.lim = s.wr.lim) :
      Effect s .henc { s with mem := m, rd := r, wr := w, hbits := n }
  | hdec (m : Memory) (r w : Stream) (hm : LmemKept s m) (hr : r.lim = s.rd.lim) (hw : w.lim = s.wr.lim) :
      Effect s .hdec { s with mem := m, rd := r, wr := w }

/-! ## The bodies of the sequencer, colour, resampling and block commands -/

theorem setLow_ends (r : BitVec 8) (imm16 : BitVec 16) (s : State) :
    Ends (setLow r imm16 s) (Effect s (.setl r imm16)) (· = s.mem) :=
  (cmdReg_ends r s).bind fun reg hreg => .pure (.setl r imm16 reg _ hreg)

theorem setHigh_ends (r : BitVec 8) (imm16 : BitVec 16) (s : State) :
    Ends (setHigh r imm16 s) (Effect s (.seth r imm16)) (· = s.mem) :=
  (cmdReg_ends r s).bind fun reg hreg => .pure (.seth r imm16 reg _ hreg)

theorem PlaneView.eq_of_sameSize {v w : PlaneView} (h : v.sameSize w = true) : v.W = w.W ∧ v.H = w.H := by
  simpa [PlaneView.sameSize] using h

theorem cscf_ends (a b c : Slot) (s : State) : Ends (cscf a b c s) (Effect s (.cscf a b c)) (· = s.mem) := by
  refine (plane_ends a s).bind ?_; rintro _ ⟨ha, rfl⟩
  refine (plane_ends b s).bind ?_; rintro _ ⟨hb, rfl⟩
  refine (plane_ends c s).bind ?_; rintro _ ⟨hc, rfl⟩
  refine (refuseIf_ends _ _ s).bind fun _ hsize => (raster_ends _ _ s).bind fun rb _ => (refuseIf_ends _ _ s).bind fun _ _ =>
    .pure (.cscf a b c _ (LmemKept.writeEach fun p hp => ?_))
  obtain ⟨hx, hy⟩ := mem_pixelBytes hp
  simp only [Bool.not_eq_false', Bool.and_eq_true] at hsize
  obtain ⟨hbW, hbH⟩ := PlaneView.eq_of_sameSize hsize.1
  obtain ⟨hcW, hcH⟩ := PlaneView.eq_of_sameSize hsize.2
  match p.ch with
  | 0 => exact ha.sample_lt hx hy
  | 1 => exact hb.sample_lt (hbW ▸ hx) (hbH ▸ hy)
  | 2 => exact hc.sample_lt (hcW ▸ hx) (hcH ▸ hy)

theorem csci_ends (a b c : Slot) (s : State) : Ends (csci a b c s) (Effect s (.csci a b c)) (· = s.mem) := by
  refine (plane_ends a s).bind fun va _ => (plane_ends b s).bind fun vb _ => (plane_ends c s).bind fun vc _ =>
    (refuseIf_ends _ _ s).bind fun _ _ => (raster_ends _ _ s).bind fun rb hrb => (refuseIf_ends _ _ s).bind fun _ _ =>
    .pure (.csci a b c _ (LmemKept.writeEach fun p hp => ?_))
  obtain ⟨hx, hy⟩ := mem_pixelBytes hp
  exact rasterAddr_lt hrb hx hy p.ch

/-- Writing each sample of a checked plane. -/
theorem LmemKept.writeGrid {s : State} {p : Slot} (h : s.planeLegal p) (val : Memory → Nat × Nat → Byte) :
    LmemKept s (Memory.writeEach (grid (s.planeView p).W (s.planeView p).H) (fun q => (s.planeView p).addr q.1 q.2) val
      s.mem) :=
  LmemKept.writeEach fun _ hq => h.sample_lt (mem_grid.mp hq).1 (mem_grid.mp hq).2

theorem csub_ends (a b : Slot) (s : State) : Ends (csub a b s) (Effect s (.csub a b)) (· = s.mem) := by
  refine (plane_ends a s).bind ?_; rintro _ ⟨ha, rfl⟩
  exact (plane_ends b s).bind fun vs _ => (refuseIf_ends _ _ s).bind fun _ _ => (refuseIf_ends _ _ s).bind fun _ _ =>
    .pure (.csub a b _ (.writeGrid ha _))

theorem cups_ends (a b : Slot) (s : State) : Ends (cups a b s) (Effect s (.cups a b)) (· = s.mem) := by
  refine (plane_ends a s).bind ?_; rintro _ ⟨ha, rfl⟩
  exact (plane_ends b s).bind fun vs _ => (refuseIf_ends _ _ s).bind fun _ _ => (refuseIf_ends _ _ s).bind fun _ _ =>
    .pure (.cups a b _ (.writeGrid ha _))

theorem pad_ends (a : Slot) (md : PadMode) (s : State) : Ends (pad a md s) (Effect s (.pad a md)) (· = s.mem) := by
  refine (plane_ends a s).bind ?_; rintro _ ⟨ha, rfl⟩
  refine .pure (.pad a md _ (.writeEach fun q hq => ?_))
  obtain ⟨hx, hy⟩ := mem_grid.mp (List.mem_of_mem_filter hq)
  exact ha.addr_lt hx hy

theorem ldb_ends (a : Slot) (s : State) : Ends (ldb a s) (Effect s (.ldb a)) (· = s.mem) :=
  (cursor_ends a s).bind fun _ _ => .pure (.ldb a _)

theorem stb_ends (a : Slot) (s : State) : Ends (stb a s) (Effect s (.stb a)) (· = s.mem) := by
  refine (cursor_ends a s).bind ?_; rintro _ ⟨ha, hx, hy, rfl⟩
  exact .pure (.stb a _ (.writeEach fun k _ => blockAddr_lt ha hx hy k))

theorem bnxt_ends (a : Slot) (s : State) : Ends (bnxt a s) (Effect s (.bnxt a)) (· = s.mem) :=
  (cursor_ends a s).bind fun _ _ => .pure (.bnxt a _ _ _)

/-! ## The bodies of the quantizer and serializer commands -/

theorem qnt_ends (t : QTable) (md : QMode) (s : State) : Ends (qnt t md s) (Effect s (.qnt t md)) (· = s.mem) := by
  refine (table_ends t s).bind fun T _ => ?_
  match md with
  | .fixed => exact (legalQuality_ends _ s).bind fun _ _ => .pure (.qnt t .fixed s.qeff s.qidx _)
  | .cont => exact .pure (.qnt t .cont _ s.qidx _)
  | .idx => exact (candidates_ends s).bind fun _ _ => .pure (.qnt t .idx s.qeff _ _)

theorem dqnt_ends (t : QTable) (md : QMode) (s : State) : Ends (dqnt t md s) (Effect s (.dqnt t md)) (· = s.mem) := by
  refine (table_ends t s).bind fun T _ => ?_
  match md with
  | .fixed => exact (legalQuality_ends _ s).bind fun _ _ => .pure (.dqnt t .fixed _)
  | .cont => exact (legalQuality_ends _ s).bind fun _ _ => .pure (.dqnt t .cont _)
  | .idx => exact (candidates_ends s).bind fun _ _ => (refuseIf_ends _ _ s).bind fun _ _ => .pure (.dqnt t .idx _)

theorem serd_ends (s : State) : Ends (serd s) (Effect s .serd) (LmemKept s) := by
  refine (needAligned_ends _ s).kept.bind fun _ _ => (wrBytes_ends _ s).mono ?_ fun _ => id
  rintro _ ⟨m, w, hm, hw, rfl⟩
  exact .serd m w hm hw

theorem sers_ends (s : State) : Ends (sers s) (Effect s .sers) (LmemKept s) := by
  refine (needAligned_ends _ s).kept.bind fun _ _ => (wrBytes_ends _ s).bind ?_
  rintro _ ⟨m, w, hm, hw, rfl⟩
  exact .pure (.sers m w _ hm hw)

theorem putq_ends (s : State) : Ends (putq s) (Effect s .putq) (· = s.mem) := by
  refine (needAligned_ends _ s).bind fun _ _ => (wrByte_ends _ s).mono ?_ fun _ => id
  rintro _ ⟨m, w, hm, hw, rfl⟩
  exact .putq m w hm hw

theorem dserd_ends (s : State) : Ends (dserd s) (Effect s .dserd) (· = s.mem) := by
  refine (needAligned_ends _ s).bind fun _ _ => Ends.foldlM ?_ _ (Effect.dserd s.rd s.qBlk rfl)
  intro x k hx
  cases hx with
  | dserd r blk hr =>
    refine (rdByte_ends _ _).bind ?_
    rintro ⟨b, _⟩ ⟨r', hr', rfl⟩
    exact .pure (.dserd r' _ (hr'.trans hr))

/-- A byte read further on, in a state that only reads led to; an error leaves the LMEM of the start. -/
theorem ReadsOn.rdByte {s t : State} (h : ReadsOn s t) (c : ErrCode) :
    Ends (rdByte c t) (fun x => ReadsOn s x.2) (· = s.mem) :=
  (rdByte_ends c t).mono (fun _ hx => h.trans hx) fun _ hm => hm.trans h.mem_eq

theorem ReadsOn.refuseIf {s t : State} (h : ReadsOn s t) (bad : Bool) (c : ErrCode) :
    Ends (refuseIf bad c t) (fun _ => bad = false) (· = s.mem) :=
  (refuseIf_ends bad c t).mono (fun _ => id) fun _ hm => hm.trans h.mem_eq

theorem rdEscape_ends {s t : State} (h : ReadsOn s t) : Ends (rdEscape t) (fun x => ReadsOn s x.2) (· = s.mem) :=
  (h.rdByte _).bind fun _ h => (h.rdByte _).bind fun _ h => (h.rdByte _).bind fun _ h => (h.rdByte _).bind fun _ h => .pure h

theorem dsersRound_ends {s : State} (x : SparseIn) (k : Fin 64) (h : ReadsOn s x.s) :
    Ends (dsersRound x k) (fun y => ReadsOn s y.s) (· = s.mem) := by
  refine (h.rdByte _).bind ?_
  rintro ⟨b, t⟩ ht
  dsimp only
  split
  · exact (rdEscape_ends ht).bind fun _ hu => .pure hu
  · exact .pure ht

theorem dsers_ends (s : State) : Ends (dsers s) (Effect s .dsers) (· = s.mem) := by
  refine (needAligned_ends _ s).bind fun _ _ => (rdByte_ends _ s).bind ?_
  rintro ⟨n, t⟩ ht
  refine (ht.refuseIf _ _).bind fun _ _ => (Ends.foldlM dsersRound_ends _ ht).bind ?_
  rintro ⟨_, blk, b⟩ ⟨r, hr, rfl⟩
  exact .pure (.dsers r blk b hr)

theorem getq_ends (s : State) : Ends (getq s) (Effect s .getq) (· = s.mem) := by
  refine (needAligned_ends _ s).bind fun _ _ => (rdByte_ends _ s).bind ?_
  rintro ⟨b, t⟩ ht
  refine (ht.refuseIf _ _).bind fun _ _ => .pure ?_
  obtain ⟨r, hr, rfl⟩ := ht
  exact .getq r b hr

theorem putidx_ends (s : State) : Ends (putidx s) (Effect s .putidx) (· = s.mem) :=
  ⟨fun t h => by
      obtain ⟨-, -, hlt, rfl⟩ := ixWrite2_ok.mp h
      exact .putidx _ _ ((LmemKept.refl s).write hlt _) (Stream.nextField_lim _),
    fun _ h => (ixWrite2_error h).1⟩

theorem getidx_ends (s : State) : Ends (getidx s) (Effect s .getidx) (· = s.mem) := by
  have hread : Ends (ixRead2 s) (fun x => x.2 = { s with ix := s.ix.nextField }) (· = s.mem) :=
    ⟨fun ⟨_, _⟩ h => (ixRead2_ok.mp h).2.2.2.2, fun _ h => (ixRead2_error h).1⟩
  refine hread.bind ?_
  rintro ⟨v, _⟩ rfl
  exact .pure (.getidx _ v (Stream.nextField_lim _))

/-! ## The bodies of the Huffman commands -/

theorem hfreqCmd_ends (s : State) : Ends (hfreqCmd s) (Effect s .hfreq) (· = s.mem) := by
  refine (needAligned_ends _ s).bind fun _ _ => Ends.repeatRun ?_ _ (Effect.hfreq s.rd s.hfreq rfl)
  intro x hx
  cases hx with
  | hfreq r hist hr =>
    refine (rdByte_ends _ _).bind ?_
    rintro ⟨b, _⟩ ⟨r', hr', rfl⟩
    exact (refuseIf_ends _ _ _).bind fun _ _ => .pure (.hfreq r' _ (hr'.trans hr))

theorem hbuild_ends (s : State) : Ends (hbuild s) (Effect s .hbuild) (· = s.mem) :=
  (refuseIf_ends _ _ s).bind fun _ _ => .pure (.hbuild _ _ _)

theorem needTree_ends (s : State) : Ends (needTree s) (fun _ => True) (· = s.mem) :=
  (refuseIf_ends _ _ s).mono (fun _ _ => trivial) fun _ => id

theorem hencRound_ends {s : State} (x : State × Nat) (h : CopiesOn s x.1) :
    Ends (hencRound x) (fun y => CopiesOn s y.1) (LmemKept s) := by
  refine ((rdByte_ends _ x.1).mono (fun _ => id) fun _ hm => h.kept (.of_eq hm)).bind ?_
  rintro ⟨b, t⟩ hread
  have ht : CopiesOn s t := h.trans hread.copies
  dsimp only
  split
  · exact .raise (ht.kept (.refl t))
  · exact ((wrBits_ends _ t).mono (fun _ hw => ht.trans hw.copies) fun _ => ht.kept).bind fun u hu => .pure hu

theorem henc_ends (s : State) : Ends (henc s) (Effect s .henc) (LmemKept s) := by
  refine (needTree_ends s).kept.bind fun _ _ => (needAligned_ends _ s).kept.bind fun _ _ =>
    (Ends.repeatRun hencRound_ends _ (CopiesOn.refl s)).bind ?_
  rintro ⟨_, n⟩ ⟨m, r, w, hm, hr, hw, rfl⟩
  exact .pure (.henc m r w _ hm hr hw)

theorem descend_ends (bound i : Nat) {s t : State} (h : ReadsOn s t) :
    Ends (descend bound i t) (fun x => ReadsOn s x.2) (· = s.mem) := by
  induction bound generalizing i t with
  | zero => exact .raise h.mem_eq
  | succ bound ih =>
    have hbit := rdBit_ends t
    unfold descend
    dsimp only
    split
    · exact .ok h
    · split
      · next b u hu => exact ih _ (h.trans (hbit.1 _ hu))
      · next e he => exact .error ((hbit.2 _ he).trans h.mem_eq)

theorem hdecRound_ends {s : State} (x : State) (h : CopiesOn s x) : Ends (hdecRound x) (CopiesOn s) (LmemKept s) := by
  refine ((descend_ends _ _ (.refl x)).mono (fun _ => id) fun _ hm => h.kept (.of_eq hm)).bind ?_
  rintro ⟨b, t⟩ hread
  have ht : CopiesOn s t := h.trans hread.copies
  exact (wrByte_ends b t).mono (fun _ hw => ht.trans hw.copies) fun _ hm => ht.kept (.of_eq hm)

theorem hdec_ends (s : State) : Ends (hdec s) (Effect s .hdec) (LmemKept s) := by
  refine (needTree_ends s).kept.bind fun _ _ => (needAligned_ends _ s).kept.bind fun _ _ =>
    (Ends.repeatRun hdecRound_ends _ (CopiesOn.refl s)).mono ?_ fun _ => id
  rintro _ ⟨m, r, w, hm, hr, hw, rfl⟩
  exact .hdec m r w hm hr hw

/-! ## How a command ends -/

/-- The commands that may leave bytes of LMEM written when they raise an error (R512). -/
def writesBeforeError : List Instr := [.serd, .sers, .henc, .hdec]

/-- Command `i`, begun in `s`, ends in the error halt `t`. -/
def HaltsIn (s : State) (i : Instr) (t : State) : Prop :=
  ∃ c m, (m = s.mem ∨ i ∈ writesBeforeError ∧ LmemKept s m) ∧ t = s.errorHalt c m (encode i)

/-- Command `i`, begun in `s`, completes with `t`. -/
def CompletesIn (s : State) (i : Instr) (t : State) : Prop := ∃ u pc, Effect s i u ∧ t = u.jumpTo pc

section
variable {s t u : State} {i : Instr} {body : State → Run State}

theorem completes_advance (hu : Effect s i u) (h : Host.Outcome.next u.advance = (.next t : StepResult)) :
    HaltsIn s i t ∨ CompletesIn s i t := by
  cases h
  exact .inr ⟨u, u.cpc + 4, hu, rfl⟩

theorem completes_jumpTo (hu : Effect s i u) {pc : Word} (h : Host.Outcome.next (u.jumpTo pc) = (.next t : StepResult)) :
    HaltsIn s i t ∨ CompletesIn s i t := by
  cases h
  exact .inr ⟨u, pc, hu, rfl⟩

theorem runCommand_cases {E : Memory → Prop} (hbody : Ends (body s) (Effect s i) E)
    (hE : ∀ m, E m → m = s.mem ∨ i ∈ writesBeforeError ∧ LmemKept s m) (h : runCommand i body s = .next t) :
    HaltsIn s i t ∨ CompletesIn s i t := by
  rcases runCommand_next h with ⟨u, hu, rfl⟩ | ⟨e, he, rfl⟩
  · exact completes_advance (hbody.1 u hu) rfl
  · exact .inl ⟨e.code, e.mem, hE _ (hbody.2 e he), rfl⟩

theorem runCommand_unwritten (hbody : Ends (body s) (Effect s i) (· = s.mem)) :
    runCommand i body s = .next t → HaltsIn s i t ∨ CompletesIn s i t :=
  runCommand_cases hbody fun _ => .inl

theorem runCommand_written (hi : i ∈ writesBeforeError) (hbody : Ends (body s) (Effect s i) (LmemKept s)) :
    runCommand i body s = .next t → HaltsIn s i t ∨ CompletesIn s i t :=
  runCommand_cases hbody fun _ hm => .inr ⟨hi, hm⟩

end

/-- Everything a command can do: it ends in an error halt, or it completes with its row of `Effect`. -/
theorem exec_cases {s t : State} (i : Instr) (h : exec i s = .next t) : HaltsIn s i t ∨ CompletesIn s i t := by
  cases i with
  | nop => exact completes_advance .nop h
  | halt => exact completes_advance .halt h
  | irq => exact completes_advance .irq h
  | jmp t => exact completes_jumpTo (.jmp t) h
  | djnz t =>
    dsimp only [exec, execDjnz] at h
    split at h
    · exact completes_jumpTo (.djnz t) h
    · exact completes_advance (.djnz t) h
  | bnend t =>
    dsimp only [exec, execBnend] at h
    split at h
    · exact completes_advance (.bnend t) h
    · exact completes_jumpTo (.bnend t) h
  | setl r imm16 => exact runCommand_unwritten (setLow_ends r imm16 s) h
  | seth r imm16 => exact runCommand_unwritten (setHigh_ends r imm16 s) h
  | cscf a b c => exact runCommand_unwritten (cscf_ends a b c s) h
  | csci a b c => exact runCommand_unwritten (csci_ends a b c s) h
  | csub a b => exact runCommand_unwritten (csub_ends a b s) h
  | cups a b => exact runCommand_unwritten (cups_ends a b s) h
  | pad a md => exact runCommand_unwritten (pad_ends a md s) h
  | ldb a => exact runCommand_unwritten (ldb_ends a s) h
  | stb a => exact runCommand_unwritten (stb_ends a s) h
  | bnxt a => exact runCommand_unwritten (bnxt_ends a s) h
  | brst => exact completes_advance .brst h
  | fdct => exact completes_advance .fdct h
  | idct => exact completes_advance .idct h
  | var => exact completes_advance .var h
  | qnt t md => exact runCommand_unwritten (qnt_ends t md s) h
  | dqnt t md => exact runCommand_unwritten (dqnt_ends t md s) h
  | serd => exact runCommand_written (by decide) (serd_ends s) h
  | sers => exact runCommand_written (by decide) (sers_ends s) h
  | dserd => exact runCommand_unwritten (dserd_ends s) h
  | dsers => exact runCommand_unwritten (dsers_ends s) h
  | putq => exact runCommand_unwritten (putq_ends s) h
  | getq => exact runCommand_unwritten (getq_ends s) h
  | putidx => exact runCommand_unwritten (putidx_ends s) h
  | getidx => exact runCommand_unwritten (getidx_ends s) h
  | ialn => exact completes_advance .ialn h
  | waln => exact completes_advance .waln h
  | raln => exact completes_advance .raln h
  | hclr => exact completes_advance .hclr h
  | hfreq => exact runCommand_unwritten (hfreqCmd_ends s) h
  | hbuild => exact runCommand_unwritten (hbuild_ends s) h
  | henc => exact runCommand_written (by decide) (henc_ends s) h
  | hdec => exact runCommand_written (by decide) (hdec_ends s) h

end Sys2Proof.Machine
end

