-- ==== Sys2Proof/Proofs/Frames.lean ====
section
/-!
PROOF. Which commands change which part of the state (10_state.md R37-R66). Settles O14 and O15.
-/

namespace Sys2Proof.Machine

open Sys2Proof.Claims

/-! ## A register store -/

/-- A register store changes registers alone (R30). -/
theorem storeReg_sameBeyondRegisters (s : State) (r : Reg) (v : Word) : SameBeyondRegisters s (s.storeReg r v) := by
  cases r <;> exact ⟨rfl, rfl, rfl, rfl, rfl, rfl, rfl, rfl, rfl, rfl⟩

@[simp] theorem storeReg_hostQueue (s : State) (r : Reg) (v : Word) : (s.storeReg r v).hostQueue = s.hostQueue := by
  cases r <;> rfl

/-- No store reaches STATUS, IRQ_STATUS, the error record, VARN or the registers of the tree (R31). -/
theorem storeReg_readOnly (s : State) (r : Reg) (v : Word) :
    (s.storeReg r v).busy = s.busy ∧ (s.storeReg r v).err = s.err ∧ (s.storeReg r v).busyAcc = s.busyAcc ∧
      (s.storeReg r v).irqStatus = s.irqStatus ∧ (s.storeReg r v).errCode = s.errCode ∧
      (s.storeReg r v).errCpc = s.errCpc ∧ (s.storeReg r v).errCmd = s.errCmd ∧ (s.storeReg r v).varn = s.varn ∧
      (s.storeReg r v).hroot = s.hroot ∧ (s.storeReg r v).hnleaf = s.hnleaf ∧ (s.storeReg r v).hbits = s.hbits := by
  cases r <;> exact ⟨rfl, rfl, rfl, rfl, rfl, rfl, rfl, rfl, rfl, rfl, rfl⟩

/-- SETL and SETH reach neither IRQ_ENABLE nor FLAGS: R32 marks neither `cmd`. -/
theorem storeReg_of_isCmd (s : State) {r : Reg} (h : r.isCmd = true) (v : Word) :
    (s.storeReg r v).irqEnable = s.irqEnable ∧ (s.storeReg r v).flags = s.flags := by
  cases r with
  | irqEnable | flags => cases h
  | _ => exact ⟨rfl, rfl⟩

/-! ## Opcodes -/

/-- R159, format by format: the opcode field of a command is its row's op. -/
theorem op_eq_opcode (i : Instr) : op i = Laws.opcode i := by
  cases i with
  | jmp | djnz | bnend => exact Laws.opcode_encodeJ _ _
  | setl | seth => exact Laws.opcode_encodeS _ _ _
  | cscf | csci => exact Laws.opcode_encodeP3 _ _ _ _
  | csub | cups => exact Laws.opcode_encodeP2 _ _ _
  | ldb | stb | bnxt => exact Laws.opcode_encodeP1 _ _
  | pad => exact Laws.opcode_encodeP1M _ _ _
  | qnt | dqnt => exact Laws.opcode_encodeQM _ _ _
  | _ => exact Laws.opcode_encodeN _

/-- Settles O14: the row of `Effect` names what a completed command changed, and an error halt leaves only LMEM changed. -/
theorem blocksAndTablesChangeOnlyByTheirCommands : Obligations.BlocksAndTablesChangeOnlyByTheirCommands := by
  intro i s t h
  rw [op_eq_opcode]
  rcases exec_cases i h with ⟨c, m, hm, rfl⟩ | ⟨u, pc, hu, rfl⟩
  · have hop : ∀ i ∈ writesBeforeError,
        Laws.opcode i ∈ ([0x09, 0x0A, 0x0B, 0x0C, 0x0D, 0x11, 0x1C, 0x1D, 0x20, 0x22, 0x2B, 0x2C] : List (BitVec 6)) := by
      decide
    exact ⟨rfl, rfl, rfl, rfl, rfl, by simp, by simp, by simp, by simp, by simp, fun hne => hop i (hm.resolve_left hne).1⟩
  · cases hu with
    | setl _ _ reg v | seth _ _ reg v =>
      obtain ⟨hS, hC, hQ, hLuma, hChroma, hHfreq, hHnode, hmem, hparams, hread⟩ := storeReg_sameBeyondRegisters s reg v
      simp [*]
    | _ => simp [Laws.opcode]

/-- Settles O15: -/
theorem registersChangeOnlyByTheirCommands : Obligations.RegistersChangeOnlyByTheirCommands := by
  intro i s t herr h
  rw [op_eq_opcode]
  rcases exec_cases i h with ⟨c, m, -, rfl⟩ | ⟨u, pc, hu, rfl⟩
  · simp
  · cases hu with
    | setl _ _ reg v hreg | seth _ _ reg v hreg =>
      obtain ⟨hbusy, _, hbusyAcc, hirq, hcode, hcpc, hcmd, hvarn, hroot, hnleaf, hbits⟩ := storeReg_readOnly s reg v
      obtain ⟨henable, hflags⟩ := storeReg_of_isCmd s hreg v
      simp [*, Laws.opcode]
    | _ => simp [Laws.opcode, *]

end Sys2Proof.Machine
end

