-- ==== Sys2Proof/Proofs/HostMap.lean ====
section
/-!
PROOF. The host map of 10_state.md R32 and R33: what `targetAt` gives at each offset.
-/

namespace Sys2Proof.Machine

open Sys2Proof.Claims

/-! ## The host map (R32, R33) -/

theorem targetAt_of_reg {size o : Nat} (ho : o < 0x100) {r : Reg} (h : Reg.ofNum? (o / 4) = some r) :
    targetAt size o = .reg r := by
  unfold targetAt
  rw [if_pos ho, h]

theorem targetAt_of_noReg {size o : Nat} (ho : o < 0x100) (h : Reg.ofNum? (o / 4) = none) :
    targetAt size o = .reserved := by
  unfold targetAt
  rw [if_pos ho, h]

/-- R33 as a table: what stands at the word offset `o` at or above 0x100. -/
inductive WindowAt (size o : Nat) : HostTarget → Prop
  | qtLuma (w : Fin 16) (h : o = 0x100 + 4 * w.val) : WindowAt size o (.qtLuma w)
  | qtChroma (w : Fin 16) (h : o = 0x140 + 4 * w.val) : WindowAt size o (.qtChroma w)
  | zigzag (w : Fin 16) (h : o = 0x180 + 4 * w.val) : WindowAt size o (.zigzag w)
  | sBlk (w : Fin 16) (h : o = 0x200 + 4 * w.val) : WindowAt size o (.sBlk w)
  | cBlk (k : Fin 64) (h : o = 0x300 + 4 * k.val) : WindowAt size o (.cBlk k)
  | qBlk (k : Fin 64) (h : o = 0x400 + 4 * k.val) : WindowAt size o (.qBlk k)
  | hfreq (sym : Fin 256) (h : o = 0x800 + 4 * sym.val) : WindowAt size o (.hfreq sym)
  | hnodeFreq (i : Fin 511) (h : o = 0x1000 + 8 * i.val) : WindowAt size o (.hnodeFreq i)
  | hnodeLink (i : Fin 511) (h : o = 0x1004 + 8 * i.val) : WindowAt size o (.hnodeLink i)
  | lmem (a : Nat) (h : o = 0x10000 + a) (hlt : a < size) : WindowAt size o (.lmem a)
  | reserved (h : 0x1C0 ≤ o ∧ o < 0x200 ∨ 0x240 ≤ o ∧ o < 0x300 ∨ 0x500 ≤ o ∧ o < 0x800 ∨ 0xC00 ≤ o ∧ o < 0x1000 ∨
      0x1FF8 ≤ o ∧ o < 0x10000 ∨ 0x10000 + size ≤ o) : WindowAt size o .reserved

theorem nodeTarget_window {size o : Nat} (hlo : 0x1000 ≤ o) (hhi : o < 0x2000) (h4 : o % 4 = 0) :
    WindowAt size o (nodeTarget o) := by
  unfold nodeTarget
  dsimp only
  split
  · split
    · exact .hnodeFreq _ (by dsimp only; omega)
    · exact .hnodeLink _ (by dsimp only; omega)
  · exact .reserved (by omega)

theorem targetAt_window {size o : Nat} (ho : 0x100 ≤ o) (h4 : o % 4 = 0) : WindowAt size o (targetAt size o) := by
  refine iteInduction (motive := WindowAt size o) (fun _ => by omega) fun _ => ?_
  refine iteInduction (fun _ => .qtLuma _ (by dsimp only [byteWindowWord]; omega)) fun _ => ?_
  refine iteInduction (fun _ => .qtChroma _ (by dsimp only [byteWindowWord]; omega)) fun _ => ?_
  refine iteInduction (fun _ => .zigzag _ (by dsimp only [byteWindowWord]; omega)) fun _ => ?_
  refine iteInduction (fun _ => .reserved (by omega)) fun _ => ?_
  refine iteInduction (fun _ => .sBlk _ (by dsimp only [byteWindowWord]; omega)) fun _ => ?_
  refine iteInduction (fun _ => .reserved (by omega)) fun _ => ?_
  refine iteInduction (fun _ => .cBlk _ (by dsimp only [wordWindowEntry]; omega)) fun _ => ?_
  refine iteInduction (fun _ => .qBlk _ (by dsimp only [wordWindowEntry]; omega)) fun _ => ?_
  refine iteInduction (fun _ => .reserved (by omega)) fun _ => ?_
  refine iteInduction (fun _ => .hfreq _ (by dsimp only; omega)) fun _ => ?_
  refine iteInduction (fun _ => .reserved (by omega)) fun _ => ?_
  refine iteInduction (fun _ => nodeTarget_window (by omega) (by omega) h4) fun _ => ?_
  exact iteInduction (fun _ => .lmem _ (by omega) (by omega)) fun _ => .reserved (by omega)

/-- R5: LMEM_SIZE is a multiple of 4, so that an LMEM word of the window lies in LMEM with all its bytes. -/
theorem WindowAt.lmem_lt {s : State} {o a : Nat} (h : WindowAt s.lmemSize o (.lmem a)) (h4 : o % 4 = 0) :
    a % 4 = 0 ∧ a + 3 < s.lmemSize := by
  have hsize := s.lmemSize_bounds
  cases h
  omega

end Sys2Proof.Machine
end

