-- ==== Sys2Proof/Proofs/Invariant.lean ====
section
/-!
PROOF. The machine invariant `State.Inv` under every engine step and every host event. Settles O11.
-/

namespace Sys2Proof.Machine

/-! ## The range of VARN (R57, R254) -/

theorem sampleSum_eq_sum (blk : Vector Byte 64) : sampleSum blk = ∑ k, ((blk.get k).toNat : Int) :=
  (Fin.sum_univ_def _).symm

theorem squareSum_eq_sum (blk : Vector Byte 64) : squareSum blk = ∑ k, ((blk.get k).toNat : Int) ^ 2 := by
  simp only [sq]
  exact (Fin.sum_univ_def _).symm

/-- Cauchy-Schwarz: 4096 times a variance is not negative. -/
theorem varn_nonneg (blk : Vector Byte 64) : 0 ≤ varn blk := by
  have h := sq_sum_le_card_mul_sum_sq (s := Finset.univ) (f := fun k => ((blk.get k).toNat : Int))
  rw [← sampleSum_eq_sum, ← squareSum_eq_sum, Finset.card_univ, Fintype.card_fin, sq] at h
  exact sub_nonneg.mpr h

/-- A sample is at most 255, so the squares sum to at most 255 times the samples; a square completed bounds the rest. -/
theorem varn_le (blk : Vector Byte 64) : varn blk ≤ 66585600 := by
  have hsq : squareSum blk ≤ 255 * sampleSum blk := by
    rw [sampleSum_eq_sum, squareSum_eq_sum, Finset.mul_sum]
    refine Finset.sum_le_sum fun k _ => ?_
    have hlt : (blk.get k).toNat < 256 := (blk.get k).isLt
    rw [sq]
    exact mul_le_mul_of_nonneg_right (by omega) (by omega)
  unfold varn
  linarith [sq_nonneg (sampleSum blk - 8160)]

theorem toNat_two32_varn_le (blk : Vector Byte 64) : (two32 (varn blk)).toNat ≤ 66585600 := by
  have hlo := varn_nonneg blk
  have hhi := varn_le blk
  unfold two32
  rw [BitVec.toNat_ofInt]
  omega

/-! ## The invariant under the engine's updates -/

/-- R501's list is complete: every error code is on it. -/
theorem ErrCode.mem_all (c : ErrCode) : c ∈ ErrCode.all := by
  cases c <;> decide

/-- The invariant reads no other fields than these. -/
theorem State.Inv.of_same {s t : State} (h : s.Inv) (hmem : LmemKept s t.mem) (hparams : t.params = s.params)
    (hbusy : t.busy = s.busy) (herr : t.err = s.err) (hcode : t.errCode = s.errCode) (hvarn : t.varn = s.varn) : t.Inv := by
  obtain ⟨hwf, hbelow, hboth, hlisted, hrange⟩ := h
  have hsize : t.lmemSize = s.lmemSize := congrArg Config.Params.lmemSize hparams
  rw [State.Inv, State.errCodeListed, hsize, hbusy, herr, hcode, hvarn]
  exact ⟨hmem.1 hwf, hmem.2 hbelow, hboth, hlisted, hrange⟩

theorem State.Inv.errorHalt {s : State} (h : s.Inv) (c : ErrCode) {m : Memory} (hm : LmemKept s m) (w : Word) :
    (s.errorHalt c m w).Inv := by
  obtain ⟨hwf, hbelow, -, -, hrange⟩ := h
  exact ⟨hm.1 hwf, hm.2 hbelow, by simp, .inr ⟨c, c.mem_all, rfl⟩, hrange⟩

theorem State.Inv.setVarn {s : State} (h : s.Inv) {v : Word} (hv : v.toNat ≤ 66585600) : State.Inv { s with varn := v } := by
  obtain ⟨hwf, hbelow, hboth, hlisted, -⟩ := h
  exact ⟨hwf, hbelow, hboth, hlisted, hv⟩

theorem State.Inv.halt {s : State} (h : s.Inv) (q : BitVec 3) : State.Inv { s with busy := false, irqStatus := q } := by
  obtain ⟨hwf, hbelow, -, hlisted, hrange⟩ := h
  exact ⟨hwf, hbelow, by simp, hlisted, hrange⟩

theorem State.Inv.storeReg {s : State} (h : s.Inv) (r : Reg) (v : Word) : (s.storeReg r v).Inv := by
  obtain ⟨hbusy, herr, -, -, hcode, -, -, hvarn, -⟩ := storeReg_readOnly s r v
  obtain ⟨-, -, -, -, -, -, -, hmem, hparams, -⟩ := storeReg_sameBeyondRegisters s r v
  exact h.of_same (.of_eq hmem) hparams hbusy herr hcode hvarn

/-- Only HALT and VAR change what the invariant says of registers; the writers of LMEM keep it (`LmemKept`). -/
theorem Effect.inv {s u : State} {i : Instr} (h : Effect s i u) (hs : s.Inv) : u.Inv := by
  cases h with
  | halt => exact hs.halt _
  | var => exact hs.setVarn (toNat_two32_varn_le s.sBlk)
  | setl _ _ reg v | seth _ _ reg v => exact hs.storeReg reg v
  | cscf | csci | csub | cups | pad | stb | serd | sers | putq | putidx | henc | hdec =>
    exact hs.of_same ‹_› rfl rfl rfl rfl rfl
  | _ => exact hs.of_same (.refl s) rfl rfl rfl rfl rfl

theorem exec_inv {s t : State} (hs : s.Inv) {i : Instr} (h : exec i s = .next t) : t.Inv := by
  rcases exec_cases i h with ⟨c, m, hm, rfl⟩ | ⟨u, pc, hu, rfl⟩
  · exact hs.errorHalt c (hm.elim .of_eq And.right) _
  · exact (hu.inv hs).of_same (.refl u) rfl rfl rfl rfl rfl

theorem engineStep_inv {s t : State} (hs : s.Inv) (h : engineStep s = .next t) : t.Inv := by
  unfold engineStep at h
  split at h
  · split at h
    · cases h
      exact hs.errorHalt .fetch (.refl s) 0
    · split at h
      · cases h
        exact hs.errorHalt .illegal (.refl s) _
      · exact exec_inv hs h
  · cases h
    exact hs

/-! ## The invariant under host events -/

theorem State.Inv.hardResetState (p : Config.Params) {m : Memory} (hwf : m.wf) (hbelow : m.below p.lmemSize) :
    (State.hardResetState p m).Inv :=
  ⟨hwf, hbelow, fun h => Bool.noConfusion h.1, .inl rfl, Nat.zero_le _⟩

theorem State.Inv.softReset {s : State} (h : s.Inv) : s.softReset.Inv :=
  State.Inv.hardResetState s.params h.1 h.2.1

theorem State.Inv.hardReset (s : State) (cells : List Host.Cell) : (s.hardReset cells).Inv :=
  have ⟨hwf, hbelow⟩ := Memory.ofCells_ok s.lmemSize cells
  State.Inv.hardResetState s.params hwf hbelow

theorem State.Inv.errClr {s : State} (h : s.Inv) : s.errClr.Inv := by
  obtain ⟨hwf, hbelow, -, hlisted, hrange⟩ := h
  exact ⟨hwf, hbelow, by simp, hlisted, hrange⟩

/-- START is ignored while ERR is 1, so it makes no state with BUSY and ERR both 1. -/
theorem State.Inv.start {s : State} (h : s.Inv) : s.start.Inv := by
  unfold State.start
  split
  · exact h
  · next hidle =>
    obtain ⟨hwf, hbelow, -, hlisted, hrange⟩ := h
    exact ⟨hwf, hbelow, fun hboth => hidle (.inr hboth.2), hlisted, hrange⟩

theorem State.Inv.ite {c : Prop} [Decidable c] {s t : State} (hs : s.Inv) (ht : t.Inv) : State.Inv (if c then s else t) :=
  iteInduction (motive := State.Inv) (fun _ => hs) fun _ => ht

theorem State.Inv.ctrlWrite {s : State} (h : s.Inv) (v : Word) : (s.ctrlWrite v).Inv :=
  have hsoft : State.Inv (if v.getLsbD 2 then s.softReset else s) := h.softReset.ite h
  have hclr := hsoft.errClr.ite (c := v.getLsbD 1) hsoft
  hclr.start.ite hclr

theorem State.Inv.hostWriteReg {s : State} (h : s.Inv) (r : Reg) (data : Word) (strobe : BitVec 4) :
    (s.hostWriteReg r data strobe).Inv := by
  unfold State.hostWriteReg
  dsimp only
  split
  · exact h.ctrlWrite _
  · exact (h.of_same (.refl s) rfl rfl rfl rfl rfl : State.Inv { s with busyAcc := false }).ite h
  · exact h.of_same (.refl s) rfl rfl rfl rfl rfl
  · exact h.storeReg _ _

theorem LmemKept.putWord {s : State} {a : Nat} (ha : a + 3 < s.lmemSize) (v : Word) : LmemKept s (s.mem.putWord a v) :=
  ((((LmemKept.refl s).write (by omega) _).write (by omega) _).write (by omega) _).write (by omega) _

theorem State.Inv.putTarget {s : State} (h : s.Inv) {tgt : HostTarget} (hlmem : ∀ a, tgt = .lmem a → a + 3 < s.lmemSize)
    (data : Word) (strobe : BitVec 4) : (s.putTarget tgt data strobe).Inv := by
  cases tgt with
  | reg r => exact h.hostWriteReg r data strobe
  | lmem a => exact h.of_same (.putWord (hlmem a rfl) _) rfl rfl rfl rfl rfl
  | _ => exact h.of_same (.refl s) rfl rfl rfl rfl rfl

/-- R33, R101: the LMEM window ends with LMEM. -/
theorem targetAt_lmem_lt {s : State} {o a : Nat} (h4 : o % 4 = 0) (h : targetAt s.lmemSize o = .lmem a) :
    a + 3 < s.lmemSize := by
  by_cases ho : o < 0x100
  · cases hr : Reg.ofNum? (o / 4) with
    | some r => cases (targetAt_of_reg ho hr).symm.trans h
    | none => cases (targetAt_of_noReg ho hr).symm.trans h
  · have hw := targetAt_window (size := s.lmemSize) (Nat.le_of_not_lt ho) h4
    rw [h] at hw
    exact (hw.lmem_lt h4).2

theorem alignedOffset_mod (off : BitVec 25) : alignedOffset off % 4 = 0 := Nat.mul_mod_left _ 4

theorem State.Inv.hostEvent {s : State} (h : s.Inv) (e : HostEvent) : (s.hostEvent e).Inv := by
  cases e with
  | quiet => exact h
  | read off => exact State.Inv.ite (h.of_same (.refl s) rfl rfl rfl rfl rfl) (h.of_same (.refl s) rfl rfl rfl rfl rfl)
  | write off data strobe =>
    exact State.Inv.ite (h.of_same (.refl s) rfl rfl rfl rfl rfl)
      (h.putTarget (fun _ => targetAt_lmem_lt (alignedOffset_mod off)) data strobe)
  | hardReset cells => exact State.Inv.hardReset s cells

/-- Settles O11: an engine step by the row of `Effect` of its command or by its error halt, a host event by the target it
reaches. -/
theorem stepKeepsInvariant : Obligations.StepKeepsInvariant := by
  intro s t hs h
  have hq : ∀ rest, State.Inv { s with hostQueue := rest } := fun _ => hs
  unfold step at h
  split at h
  · exact engineStep_inv hs h
  · exact engineStep_inv (hq _) h
  · cases h
    exact (hq _).hostEvent _

end Sys2Proof.Machine
end

