-- ==== Sys2Proof/Proofs/HostRegisters.lean ====
section
/-!
PROOF. Host accesses to registers (10_state.md R30-R59, 20_memory.md R103, R118, R120) and the status bits (R41, R520). Settles
O54, O55 and O60.
-/

namespace Sys2Proof.Machine

open Sys2Proof.Claims

/-! ## Bytes of words, byte strobes (R102, R103) -/

theorem getLsbD_byteOf (w : Word) (j : Nat) {i : Nat} (hi : i < 8) : (byteOf w j).getLsbD i = w.getLsbD (8 * j + i) := by
  simp [byteOf, hi]

theorem byteOf_wordOfBytes (f : Nat → Byte) {j : Nat} (hj : j < 4) : byteOf (wordOfBytes (f 0) (f 1) (f 2) (f 3)) j = f j := by
  unfold byteOf wordOfBytes
  interval_cases j <;> simp (disch := decide) only [Laws.field_append_left, Laws.field_append_right] <;>
    exact Laws.field_self _

theorem byteOf_strobeMask (strobe : BitVec 4) {j : Nat} (hj : j < 4) :
    byteOf (strobeMask strobe) j = if strobe.getLsbD j then 0xFF else 0 :=
  byteOf_wordOfBytes (fun i => if strobe.getLsbD i then 0xFF else 0) hj

theorem getLsbD_strobeMask (strobe : BitVec 4) {b : Nat} (hb : b < 32) :
    (strobeMask strobe).getLsbD b = strobe.getLsbD (b / 8) := by
  have hones : ∀ i < 8, (0xFF : Byte).getLsbD i = true := by decide
  have hbyte := getLsbD_byteOf (strobeMask strobe) (b / 8) (Nat.mod_lt b (by decide : 0 < 8))
  rw [Nat.div_add_mod, byteOf_strobeMask strobe (by omega)] at hbyte
  rw [← hbyte]
  cases strobe.getLsbD (b / 8) with
  | false => simp
  | true => exact hones _ (Nat.mod_lt b (by decide))

/-- R103: bit `b` of a merged word comes from the data where its lane is strobed. -/
theorem getLsbD_mergeLanes (old data : Word) (strobe : BitVec 4) {b : Nat} (hb : b < 32) :
    (mergeLanes old data strobe).getLsbD b = mergedBit old data strobe b := by
  unfold mergeLanes mergedBit
  simp only [BitVec.getLsbD_or, BitVec.getLsbD_and, BitVec.getLsbD_not, getLsbD_strobeMask strobe hb]
  cases strobe.getLsbD (b / 8) <;> simp [hb]

/-- R103, R41: the bits written as 1 in strobed lanes. -/
theorem getLsbD_strobedOnes (data : Word) (strobe : BitVec 4) {b : Nat} (hb : b < 8) :
    (data &&& strobeMask strobe).getLsbD b = (strobe.getLsbD 0 && data.getLsbD b) := by
  rw [BitVec.getLsbD_and, getLsbD_strobeMask strobe (by omega), Nat.div_eq_of_lt hb, Bool.and_comm]

/-! ## Registers as words (R30, R32) -/

theorem readReg_setQueue (s : State) (rest : List HostEvent) (r : Reg) :
    State.readReg { s with hostQueue := rest } r = s.readReg r := by
  cases r <;> rfl

theorem toNat_statusWord (s : State) : s.statusWord.toNat = registerValue s .status := by
  unfold State.statusWord registerValue
  cases s.busy <;> cases s.err <;> cases s.busyAcc <;> rfl

theorem toNat_readReg (s : State) (r : Reg) : (s.readReg r).toNat = registerValue s r := by
  cases r with
  | status => exact toNat_statusWord s
  | irqStatus | irqEnable | errCode | flags | cfg | rdBit | wrBit | ixBit | quality | qbase | vtLo | vtHi | aqf | candN | qeff
  | qidx | hroot | hnleaf => exact BitVec.toNat_setWidth_of_le (by decide)
  | _ => rfl

/-- The mask of a field of `k` bits at bit 0, and what it leaves of a word. -/
theorem setWidth_setWidth_eq_and {k : Nat} (v : Word) :
    (v.setWidth k).setWidth 32 = v &&& (BitVec.allOnes k).setWidth 32 := by
  ext b hb
  simp [hb, BitVec.getLsbD_eq_getElem, Bool.and_comm]

theorem setWidth_and_not_mask {k : Nat} (x : BitVec k) : x.setWidth 32 &&& ~~~((BitVec.allOnes k).setWidth 32) = 0 := by
  ext b hb
  by_cases hk : b < k
  · simp [hk]
  · simp [hk, BitVec.getLsbD_of_ge x b (by omega)]

/-- R30: the reserved bits of a register read 0. -/
theorem readReg_and_not_mask (s : State) (r : Reg) : s.readReg r &&& ~~~r.mask = 0 := by
  cases r with
  | ctrl => exact BitVec.zero_and
  | status => exact setWidth_and_not_mask _
  | irqStatus | irqEnable | errCode | flags | cfg | rdBit | wrBit | ixBit | quality | qbase | vtLo | vtHi | aqf | candN | qeff
  | qidx | hroot | hnleaf => exact setWidth_and_not_mask _
  | _ =>
    change _ &&& ~~~(0xFFFFFFFF : Word) = 0
    exact BitVec.and_zero

theorem vector_get_set {α : Type} {n : Nat} (v : Vector α n) (i j : Fin n) (x : α) :
    (v.set i.val x).get j = if i = j then x else v.get j := by
  simp only [Vector.get_eq_getElem, Vector.getElem_set, Fin.ext_iff]

/-- R30: a store of a RW register keeps the implemented bits. -/
theorem readReg_storeReg_same (s : State) {r : Reg} (h : r.access = .rw) (v : Word) :
    (s.storeReg r v).readReg r = v &&& r.mask := by
  cases r with
  | irqEnable | flags | cfg | rdBit | wrBit | ixBit | quality | qbase | vtLo | vtHi | aqf | candN | qeff | qidx =>
    exact setWidth_setWidth_eq_and v
  | pdBase n | pdDim n =>
    simp only [State.storeReg, State.readReg, vector_get_set, if_pos]
    exact BitVec.and_allOnes.symm
  | id | ctrl | status | irqStatus | errCode | errCpc | errCmd | varn | hroot | hnleaf | hbits => cases h
  | _ => exact BitVec.and_allOnes.symm

/-- R47: the two words of a plane descriptor are two registers. -/
theorem readReg_storeReg_pd (s : State) (n : Slot) (v : Word) {r : Reg} :
    (r ≠ .pdBase n → (s.storeReg (.pdBase n) v).readReg r = s.readReg r) ∧
      (r ≠ .pdDim n → (s.storeReg (.pdDim n) v).readReg r = s.readReg r) := by
  cases r with
  | pdBase n' | pdDim n' =>
    simp only [State.storeReg, State.readReg, vector_get_set]
    by_cases hn : n = n'
    · simp [hn]
    · simp [hn]
  | _ => exact ⟨fun _ => rfl, fun _ => rfl⟩

theorem readReg_storeReg_of_ne (s : State) {r r' : Reg} (h : r' ≠ r) (v : Word) :
    (s.storeReg r v).readReg r' = s.readReg r' := by
  cases r with
  | pdBase n => exact (readReg_storeReg_pd s n v).1 h
  | pdDim n => exact (readReg_storeReg_pd s n v).2 h
  | _ => cases r' <;> first | exact absurd rfl h | rfl

/-- R32's rows, as the model's register map has them. -/
theorem regRows_sound : ∀ row ∈ regRows, Reg.ofNum? row.num = some row.reg ∧ row.mask = row.reg.mask ∧
    row.host = row.reg.access := by
  decide

/-- R32: a number below 0x40 with no row names no register. -/
theorem ofNum?_eq_none : ∀ n < 0x40, (∀ row ∈ regRows, n ≠ row.num) → Reg.ofNum? n = none := by
  decide

theorem num_lt (r : Reg) : r.num < 0x40 := by
  cases r with
  | pdBase n | pdDim n =>
    have hn : n.val < 8 := n.isLt
    dsimp only [Reg.num]
    omega
  | _ => decide

theorem lt_of_ofNum? {n : Nat} {r : Reg} (h : Reg.ofNum? n = some r) : n < 0x40 := by
  have hnum : r.num = n := by simpa using List.find?_some h
  exact hnum ▸ num_lt r

/-! ## Host events (60_exceptions.md R505) at open offsets (R120) -/

theorem targetWord_setQueue (s : State) (rest : List HostEvent) (tgt : HostTarget) :
    State.targetWord { s with hostQueue := rest } tgt = s.targetWord tgt := by
  cases tgt with
  | reg r => exact readReg_setQueue s rest r
  | _ => rfl

/-- R120: an access is open while the engine is idle, and below 0x20 at any time. -/
theorem closed_eq_false {s : State} {off : BitVec 25} (h : s.busy = false ∨ off.toNat / 4 < 8) :
    s.closed (alignedOffset off) = false := by
  unfold State.closed alwaysOpen alignedOffset
  rcases h with h | h
  · simp [h]
  · have hlow : off.toNat / 4 * 4 < 0x20 := by omega
    simp [hlow]

section
variable {s : State} {off : BitVec 25} {data : Word} {strobe : BitVec 4} {rest : List HostEvent}

theorem step_read (hq : s.hostQueue = .read off :: rest) (hopen : s.busy = false ∨ off.toNat / 4 < 8) :
    step s = .next { s with
      hostQueue := rest, readData := s.targetWord (targetAt s.lmemSize (alignedOffset off)) } := by
  have hclosed : State.closed { s with hostQueue := rest } (alignedOffset off) = false := closed_eq_false hopen
  unfold step
  rw [hq]
  simp only [State.hostEvent, State.hostRead, hclosed, targetWord_setQueue]
  rfl

theorem step_write (hq : s.hostQueue = .write off data strobe :: rest) (hopen : s.busy = false ∨ off.toNat / 4 < 8) :
    step s = .next (State.putTarget { s with hostQueue := rest } (targetAt s.lmemSize (alignedOffset off)) data strobe) := by
  have hclosed : State.closed { s with hostQueue := rest } (alignedOffset off) = false := closed_eq_false hopen
  unfold step
  rw [hq]
  simp only [State.hostEvent, State.hostWrite, hclosed]
  rfl

theorem alignedOffset_div (off : BitVec 25) : alignedOffset off / 4 = off.toNat / 4 := Nat.mul_div_cancel _ (by decide)

theorem targetAt_alignedOffset_of_reg {size : Nat} {r : Reg} (h : Reg.ofNum? (off.toNat / 4) = some r) :
    targetAt size (alignedOffset off) = .reg r := by
  have hlt := lt_of_ofNum? h
  refine targetAt_of_reg ?_ (by rw [alignedOffset_div, h])
  unfold alignedOffset
  omega

theorem targetAt_alignedOffset_of_noRow {size : Nat} (hlt : off.toNat < 0x100)
    (hrows : ∀ row ∈ regRows, off.toNat / 4 ≠ row.num) : targetAt size (alignedOffset off) = .reserved := by
  refine targetAt_of_noReg ?_ ?_
  · unfold alignedOffset
    omega
  · rw [alignedOffset_div]
    exact ofNum?_eq_none _ (by omega) hrows

theorem step_write_reg (hq : s.hostQueue = .write off data strobe :: rest) (hopen : s.busy = false ∨ off.toNat / 4 < 8)
    {r : Reg} (hr : Reg.ofNum? (off.toNat / 4) = some r) :
    step s = .next (State.hostWriteReg { s with hostQueue := rest } r data strobe) := by
  rw [step_write hq hopen, targetAt_alignedOffset_of_reg hr]
  rfl

end

/-- Settles O54: the access is open, its offset reaches the register of its row, and that register's word is its fields. -/
theorem hostReadsRegisters : Obligations.HostReadsRegisters := by
  refine ⟨toNat_readReg, fun s off rest hq => ⟨fun row hrow hoff hopen => ?_, fun hlt hrows hidle => ?_⟩⟩
  · obtain ⟨hreg, hmask, -⟩ := regRows_sound row hrow
    refine ⟨s.readReg row.reg, ?_, toNat_readReg s row.reg, hmask ▸ readReg_and_not_mask s row.reg⟩
    rw [step_read hq (hoff ▸ hopen), targetAt_alignedOffset_of_reg (hoff ▸ hreg)]
    rfl
  · rw [step_read hq (.inl hidle), targetAt_alignedOffset_of_noRow hlt hrows]
    rfl

/-! ## Writes of registers -/

theorem hostWriteReg_of_rw (s : State) {r : Reg} (h : r.access = .rw) (data : Word) (strobe : BitVec 4) :
    s.hostWriteReg r data strobe = s.storeReg r (mergeLanes (s.readReg r) data strobe) := by
  cases r with
  | ctrl | status | irqStatus => cases h
  | _ => rfl

theorem hostWriteReg_of_ro (s : State) {r : Reg} (h : r.access = .ro) (data : Word) (strobe : BitVec 4) :
    s.hostWriteReg r data strobe = s := by
  cases r with
  | id | errCode | errCpc | errCmd | varn | hroot | hnleaf | hbits => rfl
  | _ => cases h

/-- Settles O55: an open write of a RW register is one register store of the merged word; a RO register and a reserved offset
ignore it. -/
theorem hostWritesRegisters : Obligations.HostWritesRegisters := by
  intro s off data strobe rest hq
  refine ⟨fun row hrow hoff hrw hopen => ?_, fun row hrow hoff hro hopen => ?_, fun hlt hrows hidle => ?_⟩
  · obtain ⟨hreg, hmask, hhost⟩ := regRows_sound row hrow
    have haccess : row.reg.access = .rw := hhost ▸ hrw
    refine ⟨_, step_write_reg hq (hoff ▸ hopen) (hoff ▸ hreg), ?_⟩
    rw [hostWriteReg_of_rw _ haccess]
    refine ⟨fun b hb => ?_, fun r' hne => ?_, storeReg_sameBeyondRegisters _ _ _, storeReg_hostQueue _ _ _⟩
    · rw [readReg_storeReg_same _ haccess, hmask, BitVec.getLsbD_and, getLsbD_mergeLanes _ _ _ hb, readReg_setQueue, Bool.and_comm]
    · rw [readReg_storeReg_of_ne _ hne, readReg_setQueue]
  · obtain ⟨hreg, -, hhost⟩ := regRows_sound row hrow
    rw [step_write_reg hq (hoff ▸ hopen) (hoff ▸ hreg), hostWriteReg_of_ro _ (hhost ▸ hro)]
  · rw [step_write hq (.inl hidle), targetAt_alignedOffset_of_noRow hlt hrows]
    rfl

/-! ## Status bits and the interrupt output (R39, R41, R520) -/

/-- R41: the written 1 bits are cleared. -/
theorem getLsbD_clearOnes (old : BitVec 3) (data : Word) (strobe : BitVec 4) {b : Nat} (hb : b < 3) :
    (old &&& ~~~((data &&& strobeMask strobe).setWidth 3)).getLsbD b =
      (old.getLsbD b && ! (strobe.getLsbD 0 && data.getLsbD b)) := by
  rw [BitVec.getLsbD_and, BitVec.getLsbD_not, BitVec.getLsbD_setWidth, getLsbD_strobedOnes data strobe (by omega)]
  simp [hb]

/-- R39: of STATUS a write reaches BUSYACC alone. -/
theorem hostWriteReg_status (s : State) (data : Word) (strobe : BitVec 4) :
    s.hostWriteReg .status data strobe = { s with busyAcc := s.busyAcc && ! (strobe.getLsbD 0 && data.getLsbD 2) } := by
  unfold State.hostWriteReg
  simp only [getLsbD_strobedOnes data strobe (b := 2) (by decide)]
  cases strobe.getLsbD 0 && data.getLsbD 2 <;> simp

/-- R520: the output is the disjunction of the enabled status bits. -/
theorem irqLine_iff (s : State) :
    s.irqLine = true ↔ ∃ b < 3, s.irqStatus.getLsbD b = true ∧ s.irqEnable.getLsbD b = true := by
  unfold State.irqLine
  rw [bne_iff_ne]
  constructor
  · intro hne
    by_contra hnone
    push Not at hnone
    exact hne (BitVec.eq_of_getLsbD_eq fun b hb => by simpa using hnone b hb)
  · rintro ⟨b, -, hstatus, henable⟩ hzero
    have hbit := congrArg (BitVec.getLsbD · b) hzero
    simp [hstatus, henable] at hbit

/-- Settles O60: both status registers stand below 0x20, so a write of them is open at any time. -/
theorem interruptAndStatusBits : Obligations.InterruptAndStatusBits := by
  refine ⟨fun s off data strobe rest hq => ⟨fun hoff => ?_, fun hoff => ?_⟩, irqLine_iff⟩
  · refine ⟨_, ?_, fun b hb => getLsbD_clearOnes s.irqStatus data strobe hb⟩
    exact step_write_reg (r := .irqStatus) hq (.inr (by omega)) (by rw [hoff]; decide)
  · rw [step_write_reg (r := .status) hq (.inr (by omega)) (by rw [hoff]; decide), hostWriteReg_status]

end Sys2Proof.Machine
end

