-- ==== Sys2Proof/Proofs/HostWindows.lean ====
section
/-!
PROOF. Host accesses to the windows of 10_state.md R33 (20_memory.md R101-R103, R119). Settles O56 and O57.
-/

namespace Sys2Proof.Machine

open Sys2Proof.Claims

/-! ## Window words, byte by byte (R102) -/

theorem byteOf_mergeLanes (old data : Word) (strobe : BitVec 4) {j : Nat} (hj : j < 4) :
    byteOf (mergeLanes old data strobe) j = if strobe.getLsbD j then byteOf data j else byteOf old j := by
  refine BitVec.eq_of_getLsbD_eq fun i hi => ?_
  have hdiv : (8 * j + i) / 8 = j := by omega
  rw [getLsbD_byteOf _ _ hi, getLsbD_mergeLanes _ _ _ (by omega), mergedBit, hdiv]
  split <;> exact (getLsbD_byteOf _ _ hi).symm

/-- A word is its four bytes. -/
theorem eq_of_byteOf_eq {v w : Word} (h : ∀ j < 4, byteOf v j = byteOf w j) : v = w := by
  refine BitVec.eq_of_getLsbD_eq fun b hb => ?_
  rw [← Nat.div_add_mod b 8, ← getLsbD_byteOf v _ (Nat.mod_lt b (by decide)), ← getLsbD_byteOf w _ (Nat.mod_lt b (by decide)),
    h _ (by omega)]

theorem byteOf_zero (j : Nat) : byteOf 0 j = 0 := BitVec.extractLsb'_zero

theorem toList_getD {α : Type} {n : Nat} (v : Vector α n) (k : Fin n) (d : α) : v.toList.getD k.val d = v.get k := by
  rw [List.getD_eq_getElem _ _ (by simp), Vector.getElem_toList, Vector.get_eq_getElem]

/-- The entry of a 64-byte window that byte `j` of its word `w` is. -/
def windowEntry (w : Fin 16) (j : Fin 4) : Fin 64 := ⟨4 * w.val + j.val, by omega⟩

theorem byteOf_windowWord (bytes : Vector Byte 64) (w : Fin 16) (j : Fin 4) :
    byteOf (windowWord bytes w) j = bytes.get (windowEntry w j) := by
  rw [← toList_getD bytes _ 0]
  refine Eq.trans (congrArg (byteOf · j) ?_) (byteOf_wordOfBytes (fun i => bytes.toList.getD (4 * w.val + i) 0) j.isLt)
  unfold windowWord
  simp only [← toList_getD bytes _ 0, Nat.add_zero]

theorem toNat_append {m n : Nat} (x : BitVec m) (y : BitVec n) : (x ++ y).toNat = x.toNat * 2 ^ n + y.toNat := by
  rw [BitVec.toNat_append, ← Nat.shiftLeft_add_eq_or_of_lt y.isLt, Nat.shiftLeft_eq]

/-- R66: the LINK word is the sum of its fields at their places. -/
theorem linkWord_eq (n : HNode) : n.linkWord = BitVec.ofNat 32 (linkValue n) := by
  have hleft : n.left.toNat < 512 := n.left.isLt
  have hright : n.right.toNat < 512 := n.right.isLt
  have hparent : n.parent.toNat < 512 := n.parent.isLt
  have hleaf := n.leaf.toNat_lt
  have hvalid := n.valid.toNat_lt
  refine BitVec.eq_of_toNat_eq ?_
  unfold HNode.linkWord linkValue
  simp only [toNat_append, BitVec.toNat_ofNat, BitVec.toNat_ofBool, BitVec.ofNat_eq_ofNat]
  omega

theorem zigzagBytes_get (k : Fin 64) :
    zigzagBytes.get k = BitVec.ofNat 8 ((Tables.zigzag.toList.map Fin.val).getD k.val 0) := by
  have hmap : (Tables.zigzag.toList.map Fin.val).getD k.val 0 = (Tables.zigzag.toList.getD k.val 0).val :=
    List.getD_map Tables.zigzag.toList 0 Fin.val
  rw [hmap, toList_getD]
  exact Vector.getElem_ofFn ..

theorem byteOf_lmemWord (s : State) (a : Nat) {j : Nat} (hj : j < 4) : byteOf (wordOf (s.bytes4 a)) j = s.mem.byteAt (a + j) :=
  byteOf_wordOfBytes (fun i => s.mem.byteAt (a + i)) hj

/-- R33, R102, R118: byte `j` of the word at a window offset is the byte the map places there. -/
theorem byteOf_targetWord (s : State) {o : Nat} (ho : 0x100 ≤ o) (h4 : o % 4 = 0) {j : Nat} (hj : j < 4) :
    byteOf (s.targetWord (targetAt s.lmemSize o)) j = windowByte s (o + j) := by
  have hw := targetAt_window (size := s.lmemSize) ho h4
  generalize targetAt s.lmemSize o = tgt at hw
  have hmod : (o + j) % 4 = j := by omega
  unfold windowByte
  cases hw with
  | qtLuma w h =>
    have hidx : o + j - 0x100 = (windowEntry w ⟨j, hj⟩).val := by dsimp only [windowEntry]; omega
    rw [if_pos (by omega), hidx, toList_getD]
    exact byteOf_windowWord s.qtLuma w ⟨j, hj⟩
  | qtChroma w h =>
    have hidx : o + j - 0x140 = (windowEntry w ⟨j, hj⟩).val := by dsimp only [windowEntry]; omega
    rw [if_neg (by omega), if_pos (by omega), hidx, toList_getD]
    exact byteOf_windowWord s.qtChroma w ⟨j, hj⟩
  | zigzag w h =>
    have hidx : o + j - 0x180 = (windowEntry w ⟨j, hj⟩).val := by dsimp only [windowEntry]; omega
    iterate 2 rw [if_neg (by omega)]
    rw [if_pos (by omega), hidx, ← zigzagBytes_get]
    exact byteOf_windowWord zigzagBytes w ⟨j, hj⟩
  | sBlk w h =>
    have hidx : o + j - 0x200 = (windowEntry w ⟨j, hj⟩).val := by dsimp only [windowEntry]; omega
    iterate 3 rw [if_neg (by omega)]
    rw [if_pos (by omega), hidx, toList_getD]
    exact byteOf_windowWord s.sBlk w ⟨j, hj⟩
  | cBlk k h =>
    iterate 4 rw [if_neg (by omega)]
    rw [if_pos (by omega), hmod, show (o + j - 0x300) / 4 = k.val by omega, toList_getD]
    rfl
  | qBlk k h =>
    iterate 5 rw [if_neg (by omega)]
    rw [if_pos (by omega), hmod, show (o + j - 0x400) / 4 = k.val by omega, toList_getD]
    rfl
  | hfreq sym h =>
    iterate 6 rw [if_neg (by omega)]
    rw [if_pos (by omega), hmod, show (o + j - 0x800) / 4 = sym.val by omega, toList_getD]
    rfl
  | hnodeFreq i h =>
    iterate 7 rw [if_neg (by omega)]
    rw [if_pos (by omega), if_pos (by omega), hmod, show (o + j - 0x1000) / 8 = i.val by omega, nodeAt, dif_pos i.isLt]
    rfl
  | hnodeLink i h =>
    iterate 7 rw [if_neg (by omega)]
    rw [if_pos (by omega), if_neg (by omega), hmod, show (o + j - 0x1000) / 8 = i.val by omega, nodeAt, dif_pos i.isLt,
      ← linkWord_eq]
    rfl
  | lmem a h hlt =>
    have hfit := (WindowAt.lmem a h hlt).lmem_lt h4
    iterate 8 rw [if_neg (by omega)]
    rw [if_pos (by omega), show o + j - 0x10000 = a + j by omega]
    exact byteOf_lmemWord s a hj
  | reserved h =>
    have hsize := s.lmemSize_bounds
    iterate 9 rw [if_neg (by omega)]
    exact byteOf_zero j

/-- Settles O56: the access is open, and its word is the four bytes of the map at its offset. -/
theorem hostReadsWindows : Obligations.HostReadsWindows := by
  intro s off rest hq hidle hoff
  refine ⟨_, step_read hq (.inl hidle), fun j hj => byteOf_targetWord s ?_ (alignedOffset_mod off) hj⟩
  unfold alignedOffset
  omega

/-! ## Writes of windows -/

/-- R33's RW windows, by what stands at an offset. -/
def HostTarget.writable : HostTarget → Bool
  | .qtLuma _ | .qtChroma _ | .sBlk _ | .cBlk _ | .qBlk _ | .hfreq _ | .lmem _ => true
  | .reg _ | .zigzag _ | .hnodeFreq _ | .hnodeLink _ | .reserved => false

/-- A writable target stands at one offset. -/
theorem WindowAt.offset_unique {size o o' : Nat} {tgt : HostTarget} (h : WindowAt size o tgt) (h' : WindowAt size o' tgt)
    (hwritable : tgt.writable = true) : o = o' := by
  cases h with
  | zigzag | hnodeFreq | hnodeLink | reserved => cases hwritable
  | _ =>
    cases h'
    omega

theorem windowWritable_eq (s : State) {o : Nat} {tgt : HostTarget} (hw : WindowAt s.lmemSize o tgt) (h4 : o % 4 = 0)
    {j : Nat} (hj : j < 4) : windowWritable s (o + j) = tgt.writable := by
  have hsize := s.lmemSize_bounds
  rw [Bool.eq_iff_iff]
  simp only [windowWritable, Bool.or_eq_true, decide_eq_true_eq]
  cases hw <;> simp only [HostTarget.writable, iff_true, iff_false, Bool.false_eq_true] <;> omega

/-- Four entries put one after another from `a` on, read at byte `j` of the word at `a'`: words do not overlap. -/
theorem read_fourPuts {α : Type} (f : Nat → α) (old : α) {a a' j : Nat} (h4 : a % 4 = 0) (h4' : a' % 4 = 0) (hj : j < 4) :
    (if a' + j = a + 3 then f 3 else if a' + j = a + 2 then f 2 else if a' + j = a + 1 then f 1 else
      if a' + j = a then f 0 else old) = if a' = a then f j else old := by
  by_cases ha : a' = a
  · subst ha
    interval_cases j <;> simp
  · rw [if_neg (by omega), if_neg (by omega), if_neg (by omega), if_neg (by omega), if_neg ha]

theorem putWindowWord_get (bytes : Vector Byte 64) (w w' : Fin 16) (v : Word) (j : Fin 4) :
    (putWindowWord bytes w v).get (windowEntry w' j) = if w' = w then byteOf v j else bytes.get (windowEntry w' j) := by
  have hput := read_fourPuts (byteOf v) (bytes.get (windowEntry w' j)) (Nat.mul_mod_right 4 w.val) (Nat.mul_mod_right 4 w'.val)
    j.isLt
  simp only [Nat.mul_right_inj (by decide : 4 ≠ 0), ← Fin.ext_iff] at hput
  rw [← hput]
  simp only [putWindowWord, Vector.get_eq_getElem, Vector.getElem_set, windowEntry, eq_comm (b := 4 * w'.val + j.val)]
  rfl

theorem windowWord_putWindowWord (bytes : Vector Byte 64) (w w' : Fin 16) (v : Word) :
    windowWord (putWindowWord bytes w v) w' = if w' = w then v else windowWord bytes w' := by
  refine eq_of_byteOf_eq fun j hj => ?_
  rw [byteOf_windowWord _ _ ⟨j, hj⟩, putWindowWord_get]
  split
  · rfl
  · exact (byteOf_windowWord bytes w' ⟨j, hj⟩).symm

theorem byteAt_putWord {m : Memory} (h : m.wf) {a a' : Nat} (h4 : a % 4 = 0) (h4' : a' % 4 = 0) (v : Word) {j : Nat}
    (hj : j < 4) : (m.putWord a v).byteAt (a' + j) = if a' = a then byteOf v j else m.byteAt (a' + j) := by
  have h0 := Memory.wf_write h a (Word.field v 0 8)
  have h1 := Memory.wf_write h0 (a + 1) (Word.field v 8 8)
  have h2 := Memory.wf_write h1 (a + 2) (Word.field v 16 8)
  unfold Memory.putWord
  rw [Memory.byteAt_write h2, Memory.byteAt_write h1, Memory.byteAt_write h0, Memory.byteAt_write h]
  exact read_fourPuts (byteOf v) _ h4 h4' hj

theorem lmemWord_putWord {s : State} (h : s.mem.wf) {a a' : Nat} (h4 : a % 4 = 0) (h4' : a' % 4 = 0) (v : Word) :
    wordOf ((s.withMem (s.mem.putWord a v)).bytes4 a') = if a' = a then v else wordOf (s.bytes4 a') := by
  refine eq_of_byteOf_eq fun j hj => ?_
  rw [byteOf_lmemWord _ _ hj, State.withMem_mem, byteAt_putWord h h4 h4' v hj]
  split
  · rfl
  · exact (byteOf_lmemWord s a' hj).symm

section
variable {s : State} {o o' : Nat} {tgt tgt' : HostTarget} (data : Word) (strobe : BitVec 4)

/-- A write of a window leaves every other window word. -/
theorem targetWord_putTarget_of_ne (hwf : s.mem.wf) (hw : WindowAt s.lmemSize o tgt) (hw' : WindowAt s.lmemSize o' tgt')
    (h4 : o % 4 = 0) (h4' : o' % 4 = 0) (hne : tgt' ≠ tgt) :
    (s.putTarget tgt data strobe).targetWord tgt' = s.targetWord tgt' := by
  cases hw with
  | qtLuma w =>
    cases hw' with
    | qtLuma w' => exact (windowWord_putWindowWord _ w w' _).trans (if_neg fun h => hne (congrArg _ h))
    | _ => rfl
  | qtChroma w =>
    cases hw' with
    | qtChroma w' => exact (windowWord_putWindowWord _ w w' _).trans (if_neg fun h => hne (congrArg _ h))
    | _ => rfl
  | sBlk w =>
    cases hw' with
    | sBlk w' => exact (windowWord_putWindowWord _ w w' _).trans (if_neg fun h => hne (congrArg _ h))
    | _ => rfl
  | cBlk k =>
    cases hw' with
    | cBlk k' => exact (vector_get_set _ k k' _).trans (if_neg fun h => hne (congrArg _ h.symm))
    | _ => rfl
  | qBlk k =>
    cases hw' with
    | qBlk k' => exact (vector_get_set _ k k' _).trans (if_neg fun h => hne (congrArg _ h.symm))
    | _ => rfl
  | hfreq k =>
    cases hw' with
    | hfreq k' => exact (vector_get_set _ k k' _).trans (if_neg fun h => hne (congrArg _ h.symm))
    | _ => rfl
  | lmem a h hlt =>
    cases hw' with
    | lmem a' h' hlt' =>
      exact (lmemWord_putWord hwf (by omega) (by omega) _).trans (if_neg fun h => hne (congrArg _ h))
    | _ => rfl
  | _ => rfl

/-- A write of a writable window puts the merged word. -/
theorem targetWord_putTarget_same (hwf : s.mem.wf) (hw : WindowAt s.lmemSize o tgt) (h4 : o % 4 = 0)
    (hwritable : tgt.writable = true) :
    (s.putTarget tgt data strobe).targetWord tgt = mergeLanes (s.targetWord tgt) data strobe := by
  cases hw with
  | qtLuma w | qtChroma w | sBlk w => exact (windowWord_putWindowWord _ w w _).trans (if_pos rfl)
  | cBlk k | qBlk k | hfreq k => exact (vector_get_set _ k k _).trans (if_pos rfl)
  | lmem a h hlt => exact (lmemWord_putWord hwf (by omega) (by omega) _).trans (if_pos rfl)
  | _ => cases hwritable

theorem putTarget_of_not_writable (hw : WindowAt s.lmemSize o tgt) (hwritable : tgt.writable = false) :
    s.putTarget tgt data strobe = s := by
  cases hw with
  | zigzag | hnodeFreq | hnodeLink | reserved => rfl
  | _ => cases hwritable

/-- A write of a window changes windows alone. -/
theorem putTarget_window_frame (hw : WindowAt s.lmemSize o tgt) :
    (∀ r, (s.putTarget tgt data strobe).readReg r = s.readReg r) ∧ (s.putTarget tgt data strobe).params = s.params ∧
      (s.putTarget tgt data strobe).hnode = s.hnode ∧ (s.putTarget tgt data strobe).readData = s.readData ∧
      (s.putTarget tgt data strobe).hostQueue = s.hostQueue := by
  cases hw <;> exact ⟨fun r => by cases r <;> rfl, rfl, rfl, rfl, rfl⟩

/-- R33, R103: what a write of the window word at `o` leaves at every byte of the windows. -/
theorem windowByte_putTarget (hwf : s.mem.wf) (ho : 0x100 ≤ o) (h4 : o % 4 = 0) {a : Nat} (ha : 0x100 ≤ a) :
    windowByte (s.putTarget (targetAt s.lmemSize o) data strobe) a =
      if a / 4 = o / 4 ∧ strobe.getLsbD (a % 4) = true ∧ windowWritable s a = true then byteOf data (a % 4)
      else windowByte s a := by
  obtain ⟨o', j, h4', hj, rfl⟩ : ∃ o' j, o' % 4 = 0 ∧ j < 4 ∧ a = o' + j :=
    ⟨a / 4 * 4, a % 4, Nat.mul_mod_left _ 4, Nat.mod_lt a (by decide), by omega⟩
  have ho' : 0x100 ≤ o' := by omega
  have hmod : (o' + j) % 4 = j := by omega
  have hw := targetAt_window (size := s.lmemSize) ho h4
  have hw' := targetAt_window (size := s.lmemSize) ho' h4'
  have hsize : (s.putTarget (targetAt s.lmemSize o) data strobe).lmemSize = s.lmemSize :=
    congrArg Config.Params.lmemSize (putTarget_window_frame data strobe hw).2.1
  have hbyte := byteOf_targetWord (s.putTarget (targetAt s.lmemSize o) data strobe) ho' h4' hj
  rw [hsize] at hbyte
  rw [← hbyte, ← byteOf_targetWord s ho' h4' hj, windowWritable_eq s hw' h4' hj, hmod]
  cases hwritable : (targetAt s.lmemSize o).writable with
  | false =>
    rw [putTarget_of_not_writable data strobe hw hwritable, if_neg]
    rintro ⟨hdiv, -, hwritable'⟩
    rw [show o' = o by omega, hwritable] at hwritable'
    cases hwritable'
  | true =>
    by_cases hoff : o' = o
    · subst hoff
      rw [targetWord_putTarget_same data strobe hwf hw h4 hwritable, byteOf_mergeLanes _ _ _ hj]
      simp [show (o' + j) / 4 = o' / 4 by omega, hwritable]
    · have hne : targetAt s.lmemSize o' ≠ targetAt s.lmemSize o := fun h =>
        hoff ((h ▸ hw').offset_unique hw hwritable)
      rw [if_neg (by omega), targetWord_putTarget_of_ne data strobe hwf hw hw' h4 h4' hne]

end

/-- Settles O57: the access is open, and a write of a window word reaches the strobed bytes of that word alone. -/
theorem hostWritesWindows : Obligations.HostWritesWindows := by
  intro s off data strobe rest hwf hq hidle hoff
  have ho : 0x100 ≤ alignedOffset off := by
    unfold alignedOffset
    omega
  have hw := targetAt_window (size := s.lmemSize) ho (alignedOffset_mod off)
  obtain ⟨hregs, hparams, hnode, hread, hqueue⟩ := putTarget_window_frame (s := { s with hostQueue := rest }) data strobe hw
  refine ⟨_, step_write hq (.inl hidle), fun a ha => ?_, fun r => (hregs r).trans (readReg_setQueue s rest r), hparams, hnode,
    hread, hqueue⟩
  rw [← alignedOffset_div]
  exact windowByte_putTarget (s := { s with hostQueue := rest }) data strobe hwf ho (alignedOffset_mod off) ha

end Sys2Proof.Machine
end

