-- ==== Sys2Proof/Proofs/Encoding.lean ====
section
/-!
PROOF. The encoding (30_encoding.md R150-R158): what the decoder of each format reads from the encoder of the same format, and
that decode undoes encode on every command. Settles O2.
-/

namespace Sys2Proof.Machine

open Sys2Proof.Claims

/-! ## Formats (R152-R156) -/

theorem decodeN_encodeN (op : BitVec 6) (i : Instr) : decodeN (encodeN op) i = .ok i :=
  if_pos (Laws.field_append_right op 0 0 26 (by decide))

theorem decodeJ_encodeJ (op : BitVec 6) (mk : BitVec 24 → Instr) (t : BitVec 24) :
    decodeJ (encodeJ op t) mk = .ok (mk t) := by
  unfold decodeJ encodeJ Word.field
  simp (disch := decide) only [Laws.field_append_left, Laws.field_append_right]
  simp

theorem decodeS_encodeS (op : BitVec 6) (mk : BitVec 8 → BitVec 16 → Instr) (r : BitVec 8) (imm16 : BitVec 16) :
    decodeS (encodeS op r imm16) mk = .ok (mk r imm16) := by
  unfold decodeS encodeS Word.field
  simp (disch := decide) only [Laws.field_append_left, Laws.field_append_right]
  simp

theorem decodeP3_encodeP3 (op : BitVec 6) (mk : Slot → Slot → Slot → Instr) (a b c : Slot) :
    decodeP3 (encodeP3 op a b c) mk = .ok (mk a b c) := by
  unfold decodeP3 encodeP3 Word.slot Word.field
  simp (disch := decide) only [Laws.field_append_left, Laws.field_append_right]
  simp [Slot.bits]

theorem decodeP2_encodeP2 (op : BitVec 6) (mk : Slot → Slot → Instr) (a b : Slot) :
    decodeP2 (encodeP2 op a b) mk = .ok (mk a b) := by
  unfold decodeP2 encodeP2 Word.slot Word.field
  simp (disch := decide) only [Laws.field_append_left, Laws.field_append_right]
  simp [Slot.bits]

theorem decodeP1_encodeP1 (op : BitVec 6) (mk : Slot → Instr) (a : Slot) : decodeP1 (encodeP1 op a) mk = .ok (mk a) := by
  unfold decodeP1 encodeP1 Word.slot Word.field
  simp (disch := decide) only [Laws.field_append_left, Laws.field_append_right]
  simp [Slot.bits]

theorem decodeP1M_encodeP1M (op : BitVec 6) (mk : Slot → PadMode → Instr) (a : Slot) (m : PadMode) :
    decodeP1M (encodeP1M op a m) mk = .ok (mk a m) := by
  unfold decodeP1M encodeP1M Word.slot Word.field
  simp (disch := decide) only [Laws.field_append_left, Laws.field_append_right]
  cases m <;> simp [Slot.bits, PadMode.bits]

/-- R156: the three modes are what their fields stand for; the fourth value is no mode. -/
theorem ofField_bits (md : QMode) : QMode.ofField md.bits = some md := by
  cases md <;> rfl

theorem decodeQM_encodeQM (op : BitVec 6) (mk : QTable → QMode → Instr) (t : QTable) (md : QMode) :
    decodeQM (encodeQM op t md) mk = .ok (mk t md) := by
  unfold decodeQM encodeQM Word.field
  simp (disch := decide) only [Laws.field_append_left, Laws.field_append_right]
  simp only [BitVec.extractLsb'_eq_self, Nat.reduceSub, ofField_bits]
  cases t <;> simp [QTable.bits]

/-! ## Decode of encode -/

theorem decode_encode (i : Instr) : decode (encode i) = .ok i := by
  have hop : Word.field (encode i) 26 6 = Laws.opcode i := op_eq_opcode i
  unfold decode
  rw [hop]
  cases i with
  | jmp | djnz | bnend => exact decodeJ_encodeJ _ _ _
  | setl | seth => exact decodeS_encodeS _ _ _ _
  | cscf | csci => exact decodeP3_encodeP3 _ _ _ _ _
  | csub | cups => exact decodeP2_encodeP2 _ _ _ _
  | ldb | stb | bnxt => exact decodeP1_encodeP1 _ _ _
  | pad => exact decodeP1M_encodeP1M _ _ _ _
  | qnt | dqnt => exact decodeQM_encodeQM _ _ _ _
  | _ => exact decodeN_encodeN _ _

/-- R102, R106: the four bytes of a word, put together again, are the word. -/
theorem wordOfBytes_bytes (w : Word) :
    wordOfBytes (Word.field w 0 8) (Word.field w 8 8) (Word.field w 16 8) (Word.field w 24 8) = w :=
  eq_of_byteOf_eq fun _ hj => byteOf_wordOfBytes (byteOf w) hj

/-- R150: a command is the word of the first four bytes, and the bytes after them are left. -/
theorem decodeBytes_bytesOfWord {w : Word} {i : Instr} (h : decode w = .ok i) (rest : List Byte) :
    decodeBytes (bytesOfWord w ++ rest) = .ok (i, rest) := by
  simp only [bytesOfWord, List.cons_append, List.nil_append, decodeBytes, wordOfBytes_bytes, h]

/-- Settles O2: the word is its bytes, the opcode selects the format, and each format's decoder reads its encoder's fields. -/
theorem decodeOfEncode : Obligations.DecodeOfEncode := fun i => decodeBytes_bytesOfWord (decode_encode i)

end Sys2Proof.Machine
end

