-- ==== Sys2Proof/Proofs/StepsWithoutCommand.lean ====
section
/-!
PROOF. Steps in which no command runs: the engine step that fetches nothing (46_sequencer.md R459, 20_memory.md R106), and the
host's accesses while the engine is busy (20_memory.md R120). Settles O6 and O58.
-/

namespace Sys2Proof.Machine

open Sys2Proof.Claims

/-! ## The engine step with no host event next -/

theorem step_of_noEvent {s : State} (hq : s.hostQueue = []) : step s = engineStep s := by
  unfold step
  rw [hq]

/-- R106: no fetch at a misaligned CPC, nor where the word leaves LMEM. -/
theorem fetchBytes_eq_none {s : State} (h : s.cpc.toNat % 4 ≠ 0 ∨ s.cpc.toNat + 4 > s.lmemSize) : fetchBytes s = none :=
  if_pos h

/-- Settles O6: with no host event the step is the engine's, which stands still while idle and halts where it cannot fetch. -/
theorem idleStepAndIllegalFetch : Obligations.IdleStepAndIllegalFetch := by
  refine fun s hq => ⟨fun hidle => ?_, fun hbusy hcpc => ?_⟩
  · simp [step_of_noEvent hq, engineStep, hidle]
  · rw [step_of_noEvent hq]
    simp only [engineStep, hbusy, if_true, fetchBytes_eq_none hcpc]
    rfl

/-! ## Host events at closed offsets (R120) -/

theorem closed_eq_true {s : State} {off : BitVec 25} (hbusy : s.busy = true) (hoff : 0x20 ≤ off.toNat) :
    s.closed (alignedOffset off) = true := by
  have hhigh : ¬ off.toNat / 4 * 4 < 0x20 := by omega
  simp [State.closed, alwaysOpen, alignedOffset, hbusy, hhigh]

section
variable {s : State} {off : BitVec 25} {rest : List HostEvent}

theorem step_read_closed (hbusy : s.busy = true) (hoff : 0x20 ≤ off.toNat) (hq : s.hostQueue = .read off :: rest) :
    step s = .next { s with hostQueue := rest, readData := 0, busyAcc := true } := by
  have hclosed : State.closed { s with hostQueue := rest } (alignedOffset off) = true := closed_eq_true hbusy hoff
  unfold step
  rw [hq]
  simp only [State.hostEvent, State.hostRead, hclosed, if_true]

theorem step_write_closed (hbusy : s.busy = true) (hoff : 0x20 ≤ off.toNat) {data : Word} {strobe : BitVec 4}
    (hq : s.hostQueue = .write off data strobe :: rest) :
    step s = .next { s with hostQueue := rest, busyAcc := true } := by
  have hclosed : State.closed { s with hostQueue := rest } (alignedOffset off) = true := closed_eq_true hbusy hoff
  unfold step
  rw [hq]
  simp only [State.hostEvent, State.hostWrite, hclosed, if_true]

/-- A read that is open (R120) and reaches the register of a row of R32 returns that register. -/
theorem step_read_row (hq : s.hostQueue = .read off :: rest) (hopen : s.busy = false ∨ off.toNat / 4 < 8)
    {row : RegRow} (hrow : row ∈ regRows) (hnum : row.num = off.toNat / 4) :
    step s = .next { s with hostQueue := rest, readData := s.readReg row.reg } := by
  obtain ⟨hreg, -, -⟩ := regRows_sound row hrow
  rw [step_read hq hopen, targetAt_alignedOffset_of_reg (hnum ▸ hreg)]
  rfl

end

/-- R32 has a row for every word below offset 0x20. -/
theorem exists_row_of_open : ∀ n < 8, ∃ row ∈ regRows, row.num = n := by
  decide

/-- Settles O58: at or above 0x20 both accesses stop at the busy rule, and below it every word is a register's. -/
theorem closedAccesses : Obligations.ClosedAccesses := by
  refine fun s off rest hbusy => ⟨fun hoff => ⟨step_read_closed hbusy hoff, fun _ _ => step_write_closed hbusy hoff⟩,
    fun hoff hq => ?_⟩
  have hopen : off.toNat / 4 < 8 := by omega
  obtain ⟨row, hrow, hnum⟩ := exists_row_of_open _ hopen
  exact ⟨row, hrow, hnum, step_read_row hq (.inr hopen) hrow hnum⟩

end Sys2Proof.Machine
end

