-- ==== Sys2Proof/Proofs/Checks.lean ====
section
/-!
PROOF. The checks a command makes before it writes anything (60_exceptions.md R504, R510): `ChecksFirst`, with a rule for each
kind of check, and how a statement's `Refuses` follows from it.
-/

namespace Sys2Proof.Machine

open Sys2Proof.Claims

/-- `x` makes these checks first, in this order: where one fails, `x` is the error of the first that does, nothing written. -/
def ChecksFirst {α : Type} (s : State) (checks : List (Bool × Byte)) (x : Run α) : Prop :=
  ∀ code, firstOf checks = some code → ∃ c : ErrCode, c.code = code ∧ x = .error ⟨c, s.mem⟩

theorem firstOf_cons (bad : Bool) (code : Byte) (rest : List (Bool × Byte)) :
    firstOf ((bad, code) :: rest) = if bad then some code else firstOf rest := by
  cases bad <;> rfl

theorem passes_iff {checks : List (Bool × Byte)} : Passes checks ↔ ∀ c ∈ checks, c.1 = false := by
  simp [Passes, firstOf]

section
variable {α : Type} {s : State} {checks : List (Bool × Byte)}

theorem ChecksFirst.nil (x : Run α) : ChecksFirst s [] x := fun _ h => nomatch h

/-- One check more: it raises its code where it fails, and else the other checks follow. -/
theorem ChecksFirst.cons {bad : Bool} {c : ErrCode} {x : Run α} (hbad : bad = true → x = .error ⟨c, s.mem⟩)
    (hrest : bad = false → ChecksFirst s checks x) : ChecksFirst s ((bad, c.code) :: checks) x := by
  intro code h
  rw [firstOf_cons] at h
  cases hb : bad with
  | true =>
    rw [hb] at h
    exact ⟨c, Option.some.inj h, hbad hb⟩
  | false =>
    rw [hb] at h
    exact hrest hb code h

theorem ChecksFirst.refuseIf {bad : Bool} {c : ErrCode} {f : Unit → Run α} (hrest : ChecksFirst s checks (f ())) :
    ChecksFirst s ((bad, c.code) :: checks) (Machine.refuseIf bad c s >>= f) :=
  .cons (fun hb => Run.bind_error.mpr (.inl (refuseIf_error.mpr ⟨hb, rfl⟩)))
    fun hb => by rw [hb]; exact hrest

/-- A part of a command that ends by reaching LMEM at `a` makes R104's and R105's check of `a`. -/
theorem ChecksFirst.address {a : Nat} {x : Run α} (hx : s.lmemSize ≤ a → x = .error ⟨.addr, s.mem⟩) :
    ChecksFirst s [(decide (a ≥ s.lmemSize), 0x52)] x :=
  .cons (c := .addr) (fun hb => hx (of_decide_eq_true hb)) fun _ => .nil x

theorem ChecksFirst.bind {β : Type} {x : Run α} (hx : ChecksFirst s checks x) (f : α → Run β) :
    ChecksFirst s checks (x >>= f) := by
  intro code h
  obtain ⟨c, hc, hx⟩ := hx code h
  exact ⟨c, hc, Run.bind_error.mpr (.inl hx)⟩

/-- A command whose body makes the checks first refuses on them (R510). -/
theorem ChecksFirst.refuses {i : Instr} {body : State → Run State} (hexec : exec i s = runCommand i body s)
    (h : ChecksFirst s checks (body s)) : Refuses i s checks := by
  intro code hcode
  obtain ⟨c, rfl, hx⟩ := h code hcode
  rw [hexec, runCommand_of_error hx]
  rfl

end

end Sys2Proof.Machine
end

