-- ==== Sys2Proof/Proofs/IndexStream.lean ====
section
/-!
PROOF. The 2-bit index stream (20_memory.md R114) with PUTIDX and GETIDX (44_serializer.md R358, R359). Settles O43.
-/

namespace Sys2Proof.Machine

open Sys2Proof.Claims

/-! ## The checks of the index stream -/

/-- R114: a legal bit position, then the limit, then the address. -/
def indexChecks (s : State) (code : Byte) : List (Bool × Byte) :=
  [(s.ix.bit.getLsbD 0, 0x50), (decide (s.ix.ptr.toNat ≥ s.ix.lim.toNat), code), (decide (s.ix.ptr.toNat ≥ s.lmemSize), 0x52)]

theorem indexChecks_passes {s : State} {code : Byte} : Passes (indexChecks s code) ↔
    s.ix.bit.getLsbD 0 = false ∧ s.ix.ptr.toNat < s.ix.lim.toNat ∧ s.ix.ptr.toNat < s.lmemSize := by
  simp [passes_iff, indexChecks]

/-- A write after the byte it starts from (R112, R114) fails where the address is outside LMEM, by the read or by the write. -/
theorem oldByte_write_error {s : State} {st : Stream} {new : Byte → Byte} {f : State → Run State}
    (h : s.lmemSize ≤ st.ptr.toNat) :
    (oldByte st s >>= fun old => memWrite s st.ptr.toNat (new old) >>= f) = .error ⟨.addr, s.mem⟩ := by
  cases hold : oldByte st s with
  | error e => rw [oldByte_error hold]; rfl
  | ok old => exact Run.bind_error.mpr (.inr ⟨old, rfl, Run.bind_error.mpr (.inl (memWrite_error.mpr ⟨h, rfl⟩))⟩)

theorem ixWrite2_checksFirst (v : BitVec 2) (s : State) : ChecksFirst s (indexChecks s 0x51) (ixWrite2 v s) :=
  .refuseIf (c := .streamAlign) <| .refuseIf (c := .streamWovf) <| .address oldByte_write_error

theorem ixRead2_checksFirst (s : State) : ChecksFirst s (indexChecks s 0x30) (ixRead2 s) :=
  .refuseIf (c := .streamAlign) <| .refuseIf (c := .formatShort) <| .address fun h =>
    Run.bind_error.mpr (.inl (memRead_error.mpr ⟨h, rfl⟩))

/-! ## The fields of a byte (R114) -/

/-- R114: the legal index positions. -/
theorem index_positions {bit : BitVec 3} (h : bit.getLsbD 0 = false) : bit = 0 ∨ bit = 2 ∨ bit = 4 ∨ bit = 6 := by
  revert bit
  decide

/-- From a legal position the stream moves on by two bits. -/
theorem nextField_eq_fieldOn {st : Stream} (h : st.bit.getLsbD 0 = false) : st.nextField = fieldOn st := by
  rcases index_positions h with hb | hb | hb | hb <;> simp [Stream.nextField, fieldOn, bitsOn, hb]

theorem bitAt_of_lt (m : Memory) (p : Nat) {j : Nat} (hj : j < 8) : bitAt m p j = (m.byteAt p).getLsbD (7 - j) := by
  rw [bitAt, Nat.div_eq_of_lt hj, Nat.mod_eq_of_lt hj, Nat.add_zero]

/-- The byte of a field write, bit by bit: the field at `sh`, and around it the old byte. -/
theorem getLsbD_replaceField (old : Byte) (v : BitVec 2) {sh k : Nat} (hk : k < 8) :
    (replaceBits old ((3 : Byte) <<< sh) (v.setWidth 8 <<< sh)).getLsbD k =
      if k = sh + 1 then v.getLsbD 1 else if k = sh then v.getLsbD 0 else old.getLsbD k := by
  have hmask : ∀ i < 8, (3 : Byte).getLsbD i = decide (i < 2) := by decide
  simp only [replaceBits, BitVec.getLsbD_or, BitVec.getLsbD_and, BitVec.getLsbD_not, BitVec.getLsbD_shiftLeft,
    BitVec.getLsbD_setWidth, hk, hmask (k - sh) (by omega)]
  by_cases hlow : k < sh
  · rw [if_neg (by omega), if_neg (by omega)]
    simp [hlow]
  · obtain ⟨d, rfl⟩ := Nat.exists_eq_add_of_le (Nat.le_of_not_lt hlow)
    match d with
    | 0 | 1 | _ + 2 => simp

/-! ## The byte PUTIDX writes and the field GETIDX reads -/

/-- R114: bit `j`, from the most significant, of the byte `IxWrite2` writes. -/
theorem getLsbD_indexByte {s : State} (v : BitVec 2) (h : s.ix.bit.getLsbD 0 = false) {j : Nat} (hj : j < 8) :
    (indexByte s v).getLsbD (7 - j) =
      if j = s.ix.bit.toNat then v.getLsbD 1
      else if j = s.ix.bit.toNat + 1 then v.getLsbD 0
      else if s.ix.bit = 0 then false
      else bitAt s.mem s.ix.ptr.toNat j := by
  have hle : s.ix.bit.toNat ≤ 6 := by rcases index_positions h with hb | hb | hb | hb <;> rw [hb] <;> decide
  have hfirst : 7 - j = 6 - s.ix.bit.toNat + 1 ↔ j = s.ix.bit.toNat := by omega
  have hsecond : 7 - j = 6 - s.ix.bit.toNat ↔ j = s.ix.bit.toNat + 1 := by omega
  simp only [indexByte, getLsbD_replaceField _ _ (by omega : 7 - j < 8), hfirst, hsecond, bitAt_of_lt _ _ hj]
  by_cases hfresh : s.ix.bit = 0
  · simp only [if_pos hfresh]
    simp
  · simp only [if_neg hfresh]
    rfl

theorem getLsbD_indexField {s : State} (h : s.ix.bit.getLsbD 0 = false) :
    let v := (s.byteAt s.ix.ptr.toNat).extractLsb' (6 - s.ix.bit.toNat) 2
    v.getLsbD 1 = bitAt s.mem s.ix.ptr.toNat s.ix.bit.toNat ∧
      v.getLsbD 0 = bitAt s.mem s.ix.ptr.toNat (s.ix.bit.toNat + 1) := by
  rcases index_positions h with hb | hb | hb | hb <;> simp [hb, bitAt, State.byteAt]

/-! ## The commands -/

theorem exec_putidx_ok {s : State} (h : Passes (indexChecks s 0x51)) :
    exec .putidx s = .next { s with
      mem := s.mem.write s.ix.ptr.toNat (indexByte s s.qidx), ix := fieldOn s.ix, cpc := s.cpc + 4 } := by
  obtain ⟨hbit, hlim, hsize⟩ := indexChecks_passes.mp h
  rw [← nextField_eq_fieldOn hbit]
  exact runCommand_of_ok (ixWrite2_ok.mpr ⟨hbit, hlim, hsize, rfl⟩)

theorem exec_getidx_ok {s : State} (h : Passes (indexChecks s 0x30)) :
    exec .getidx s = .next { s with
      qidx := (s.byteAt s.ix.ptr.toNat).extractLsb' (6 - s.ix.bit.toNat) 2, ix := fieldOn s.ix, cpc := s.cpc + 4 } := by
  obtain ⟨hbit, hlim, hsize⟩ := indexChecks_passes.mp h
  rw [← nextField_eq_fieldOn hbit]
  exact runCommand_of_ok (body := getidx) (Run.bind_ok.mpr ⟨_, ixRead2_ok.mpr ⟨hbit, hlim, hsize, rfl, rfl⟩, rfl⟩)

/-- Settles O43: both commands make the checks of R114 first; where they pass, one byte is written or one field read. -/
theorem qualityIndexMoves : Obligations.QualityIndexMoves := by
  refine fun s => ⟨fun hwf => ⟨(ixWrite2_checksFirst s.qidx s).refuses rfl, fun hpass => ?_⟩,
    ((ixRead2_checksFirst s).bind _).refuses (body := getidx) rfl, fun hpass => ?_⟩
  · refine ⟨_, exec_putidx_ok hpass, fun j hj => ?_, fun k hk => ?_⟩
    · rw [bitAt_of_lt _ _ hj, Memory.byteAt_write hwf, if_pos rfl,
        getLsbD_indexByte s.qidx (indexChecks_passes.mp hpass).1 hj]
    · rw [Memory.byteAt_write hwf, if_neg hk]
  · exact ⟨_, exec_getidx_ok hpass, getLsbD_indexField (indexChecks_passes.mp hpass).1⟩

end Sys2Proof.Machine
end

