-- ==== Sys2Proof/Proofs/OpcodeMap.lean ====
section
/-!
PROOF. The opcode map (30_encoding.md R159) as a table of formats, `opFormat`, through which the decoder reads a word
(`decode_eq_opFormat`) and the encoder writes it (`opFormat_encodes`); from the two, that encode undoes decode. Settles O1 and O3.
-/

namespace Sys2Proof.Machine

/-! ## The opcode map as a table -/

/-- A row of R159: the format of the opcode (R152-R156), with the command its operand fields make. -/
inductive OpFormat where
  | reserved
  | n (i : Instr)
  | j (mk : BitVec 24 → Instr)
  | s (mk : BitVec 8 → BitVec 16 → Instr)
  | p3 (mk : Slot → Slot → Slot → Instr)
  | p2 (mk : Slot → Slot → Instr)
  | p1 (mk : Slot → Instr)
  | p1m (mk : Slot → PadMode → Instr)
  | qm (mk : QTable → QMode → Instr)

/-- The opcode map of R159. -/
def opFormat : Nat → OpFormat
  | 0x01 => .n .nop
  | 0x02 => .n .halt
  | 0x03 => .n .irq
  | 0x04 => .j .jmp
  | 0x05 => .j .djnz
  | 0x06 => .j .bnend
  | 0x07 => .s .setl
  | 0x08 => .s .seth
  | 0x09 => .p3 .cscf
  | 0x0A => .p3 .csci
  | 0x0B => .p2 .csub
  | 0x0C => .p2 .cups
  | 0x0D => .p1m .pad
  | 0x10 => .p1 .ldb
  | 0x11 => .p1 .stb
  | 0x12 => .p1 .bnxt
  | 0x13 => .n .brst
  | 0x14 => .n .fdct
  | 0x15 => .n .idct
  | 0x16 => .n .var
  | 0x18 => .qm .qnt
  | 0x19 => .qm .dqnt
  | 0x1C => .n .serd
  | 0x1D => .n .sers
  | 0x1E => .n .dserd
  | 0x1F => .n .dsers
  | 0x20 => .n .putq
  | 0x21 => .n .getq
  | 0x22 => .n .putidx
  | 0x23 => .n .getidx
  | 0x24 => .n .ialn
  | 0x25 => .n .waln
  | 0x26 => .n .raln
  | 0x28 => .n .hclr
  | 0x29 => .n .hfreq
  | 0x2A => .n .hbuild
  | 0x2B => .n .henc
  | 0x2C => .n .hdec
  | _ => .reserved

/-- What a row's decoder reads from a word. -/
def OpFormat.decodeWord (w : Word) : OpFormat → Except DecodeError Instr
  | .reserved => .error .reservedOpcode
  | .n i => decodeN w i
  | .j mk => decodeJ w mk
  | .s mk => decodeS w mk
  | .p3 mk => decodeP3 w mk
  | .p2 mk => decodeP2 w mk
  | .p1 mk => decodeP1 w mk
  | .p1m mk => decodeP1M w mk
  | .qm mk => decodeQM w mk

/-- The encoder writes the commands of a row in the row's format, with opcode `op`. -/
def OpFormat.Encodes (op : BitVec 6) : OpFormat → Prop
  | .reserved => True
  | .n i => encode i = encodeN op
  | .j mk => ∀ t, encode (mk t) = encodeJ op t
  | .s mk => ∀ r imm16, encode (mk r imm16) = encodeS op r imm16
  | .p3 mk => ∀ a b c, encode (mk a b c) = encodeP3 op a b c
  | .p2 mk => ∀ a b, encode (mk a b) = encodeP2 op a b
  | .p1 mk => ∀ a, encode (mk a) = encodeP1 op a
  | .p1m mk => ∀ a m, encode (mk a m) = encodeP1M op a m
  | .qm mk => ∀ t md, encode (mk t md) = encodeQM op t md

/-- The decoder follows the map. -/
theorem decode_eq_opFormat (w : Word) : decode w = (opFormat (Word.field w 26 6).toNat).decodeWord w := by
  unfold decode
  generalize (Word.field w 26 6).toNat = op
  split <;> simp [opFormat, OpFormat.decodeWord, *]

/-- So does the encoder. -/
theorem opFormat_encodes (n : Nat) : (opFormat n).Encodes (BitVec.ofNat 6 n) := by
  unfold opFormat
  split <;> simp [OpFormat.Encodes, encode]

/-! ## Formats: a word is its fields (R151-R156) -/

theorem bits_padMode : ∀ b : BitVec 1, PadMode.bits (if b = 0 then .rep else .c128) = b := by decide

theorem bits_qTable : ∀ b : BitVec 1, QTable.bits (if b = 0 then .luma else .chroma) = b := by decide

/-- R156: a mode is encoded as the field it was read from. -/
theorem bits_of_ofField {b : BitVec 2} {md : QMode} (h : QMode.ofField b = some md) : md.bits = b := by
  revert b
  cases md <;> decide

section
variable {w : Word}

/-- Two adjacent fields of a word are one field. -/
theorem field_append_field {hi lo lenHi lenLo : Nat} (h : hi = lo + lenLo) :
    Word.field w hi lenHi ++ Word.field w lo lenLo = Word.field w lo (lenHi + lenLo) :=
  BitVec.extractLsb'_append_extractLsb'_eq_extractLsb' h

theorem bits_slot (lo : Nat) : Slot.bits (Word.slot w lo) = Word.field w lo 3 := rfl

theorem encodeN_fields (h : Word.field w 0 26 = 0) : encodeN (Word.field w 26 6) = w := by
  unfold encodeN
  simp (disch := decide) only [← h, field_append_field]
  exact Laws.field_self w

theorem encodeJ_fields (h : Word.field w 24 2 = 0) : encodeJ (Word.field w 26 6) (Word.field w 0 24) = w := by
  unfold encodeJ
  simp (disch := decide) only [← h, field_append_field]
  exact Laws.field_self w

theorem encodeS_fields (h : Word.field w 16 2 = 0) :
    encodeS (Word.field w 26 6) (Word.field w 18 8) (Word.field w 0 16) = w := by
  unfold encodeS
  simp (disch := decide) only [← h, field_append_field]
  exact Laws.field_self w

theorem encodeP3_fields (h : Word.field w 0 17 = 0) :
    encodeP3 (Word.field w 26 6) (Word.slot w 23) (Word.slot w 20) (Word.slot w 17) = w := by
  unfold encodeP3
  simp (disch := decide) only [← h, bits_slot, field_append_field]
  exact Laws.field_self w

theorem encodeP2_fields (h : Word.field w 0 20 = 0) :
    encodeP2 (Word.field w 26 6) (Word.slot w 23) (Word.slot w 20) = w := by
  unfold encodeP2
  simp (disch := decide) only [← h, bits_slot, field_append_field]
  exact Laws.field_self w

theorem encodeP1_fields (h : Word.field w 0 23 = 0) : encodeP1 (Word.field w 26 6) (Word.slot w 23) = w := by
  unfold encodeP1
  simp (disch := decide) only [← h, bits_slot, field_append_field]
  exact Laws.field_self w

theorem encodeP1M_fields (h : Word.field w 0 22 = 0) :
    encodeP1M (Word.field w 26 6) (Word.slot w 23) (if Word.field w 22 1 = 0 then .rep else .c128) = w := by
  unfold encodeP1M
  simp (disch := decide) only [← h, bits_slot, bits_padMode, field_append_field]
  exact Laws.field_self w

theorem encodeQM_fields (h : Word.field w 0 23 = 0) {md : QMode} (hmd : QMode.ofField (Word.field w 23 2) = some md) :
    encodeQM (Word.field w 26 6) (if Word.field w 25 1 = 0 then .luma else .chroma) md = w := by
  unfold encodeQM
  simp (disch := decide) only [← h, bits_qTable, bits_of_ofField hmd, field_append_field]
  exact Laws.field_self w

/-! ## Encode of decode -/

/-- How each format's decoder ends: on one check of reserved bits. -/
theorem ite_ok {p : Prop} [Decidable p] {i j : Instr} {e : DecodeError} :
    (if p then .ok i else .error e : Except DecodeError Instr) = .ok j ↔ p ∧ i = j := by
  by_cases hp : p <;> simp [hp]

theorem decodeQM_ok {mk : QTable → QMode → Instr} {i : Instr} : decodeQM w mk = .ok i ↔
    Word.field w 0 23 = 0 ∧ ∃ md, QMode.ofField (Word.field w 23 2) = some md ∧
      mk (if Word.field w 25 1 = 0 then .luma else .chroma) md = i := by
  unfold decodeQM
  cases QMode.ofField (Word.field w 23 2) with
  | some md => simp [ite_ok]
  | none => split <;> simp

/-- Where a row's encoder writes its format, a word that the row decodes is the encoding of what is read from it. -/
theorem OpFormat.encode_of_decodeWord {f : OpFormat} {i : Instr} (hf : f.Encodes (Word.field w 26 6))
    (h : f.decodeWord w = .ok i) : encode i = w := by
  cases f with
  | reserved => cases h
  | n k =>
    obtain ⟨hzero, rfl⟩ := ite_ok.mp h
    exact hf.trans (encodeN_fields hzero)
  | j mk =>
    obtain ⟨hzero, rfl⟩ := ite_ok.mp h
    exact (hf _).trans (encodeJ_fields hzero)
  | s mk =>
    obtain ⟨hzero, rfl⟩ := ite_ok.mp h
    exact (hf _ _).trans (encodeS_fields hzero)
  | p3 mk =>
    obtain ⟨hzero, rfl⟩ := ite_ok.mp h
    exact (hf _ _ _).trans (encodeP3_fields hzero)
  | p2 mk =>
    obtain ⟨hzero, rfl⟩ := ite_ok.mp h
    exact (hf _ _).trans (encodeP2_fields hzero)
  | p1 mk =>
    obtain ⟨hzero, rfl⟩ := ite_ok.mp h
    exact (hf _).trans (encodeP1_fields hzero)
  | p1m mk =>
    obtain ⟨hzero, rfl⟩ := ite_ok.mp h
    exact (hf _ _).trans (encodeP1M_fields hzero)
  | qm mk =>
    obtain ⟨hzero, md, hmd, rfl⟩ := decodeQM_ok.mp h
    exact (hf _ _).trans (encodeQM_fields hzero hmd)

end

/-- Settles O3: the decoder and the encoder follow one map, and in each of its formats a word is put together from its fields. -/
theorem encodeOfDecode : Obligations.EncodeOfDecode := fun w _ h =>
  OpFormat.encode_of_decodeWord (by simpa using opFormat_encodes (Word.field w 26 6).toNat) (decode_eq_opFormat w ▸ h)

/-- Settles O1: the decoder evaluates each word. -/
theorem specWordsDecode : Obligations.SpecWordsDecode := by
  unfold Obligations.SpecWordsDecode
  decide

end Sys2Proof.Machine
end

