-- ==== Sys2Proof/Proofs/IllegalEncodings.lean ====
section
/-!
PROOF. The checks of a command word (30_encoding.md R161): a word decodes exactly where it is not illegal, a SETL or SETH that
names no `cmd` register refuses, and the step halts in both cases. Settles O4.
-/

namespace Sys2Proof.Machine

open Sys2Proof.Claims

/-! ## Reserved fields and their masks (R158) -/

/-- The word with ones in the field of `len` bits at `lo`. -/
def fieldMask (lo len : Nat) : Word := (BitVec.allOnes len).setWidth 32 <<< lo

theorem getLsbD_fieldMask (lo len : Nat) {b : Nat} (hb : b < 32) :
    (fieldMask lo len).getLsbD b = decide (lo ≤ b ∧ b < lo + len) := by
  rw [Bool.eq_iff_iff]
  simp only [fieldMask, BitVec.getLsbD_shiftLeft, BitVec.getLsbD_setWidth, BitVec.getLsbD_allOnes, Bool.and_eq_true,
    decide_eq_true_eq, Bool.not_eq_eq_eq_not, Bool.not_true, decide_eq_false_iff_not, not_lt, Bool.decide_and]
  omega

theorem and_fieldMask_eq_zero (w : Word) {lo len : Nat} (h : lo + len ≤ 32) :
    w &&& fieldMask lo len = 0 ↔ Word.field w lo len = 0 := by
  constructor
  · intro hzero
    ext j hj
    have hbit := congrArg (·.getLsbD (lo + j)) hzero
    simpa [Word.field, hj, getLsbD_fieldMask lo len (show lo + j < 32 by omega)] using hbit
  · intro hzero
    ext b hb
    rw [← BitVec.getLsbD_eq_getElem, BitVec.getLsbD_and, getLsbD_fieldMask lo len hb]
    by_cases hin : lo ≤ b ∧ b < lo + len
    · obtain ⟨j, rfl⟩ := Nat.exists_eq_add_of_le hin.1
      have hbit := congrArg (·.getLsbD j) hzero
      simpa [Word.field, show j < len by omega] using hbit
    · simp [hin]

/-- The reserved bits of a row's format, by position and length (R152-R156). -/
def OpFormat.reservedField : OpFormat → Nat × Nat
  | .reserved | .n _ => (0, 26)
  | .j _ => (24, 2)
  | .s _ => (16, 2)
  | .p3 _ => (0, 17)
  | .p2 _ => (0, 20)
  | .p1 _ => (0, 23)
  | .p1m _ => (0, 22)
  | .qm _ => (0, 23)

/-- A row without a command (R161.1). -/
def OpFormat.isReserved : OpFormat → Bool
  | .reserved => true
  | _ => false

/-- A row whose words carry the mode field md (R156). -/
def OpFormat.isQM : OpFormat → Bool
  | .qm _ => true
  | _ => false

/-- R159 and R161: the reserved opcodes, the reserved masks and format QM, as the map has them. -/
theorem opFormat_reserved : ∀ op < 64, reservedOp op = (opFormat op).isReserved ∧
    reservedMask op = fieldMask (opFormat op).reservedField.1 (opFormat op).reservedField.2 ∧
    decide (op ∈ [0x18, 0x19]) = (opFormat op).isQM := by
  decide

theorem OpFormat.reservedField_le (f : OpFormat) : f.reservedField.1 + f.reservedField.2 ≤ 32 := by
  cases f <;> exact Nat.le_of_ble_eq_true rfl

/-! ## Which words decode -/

theorem isSome_ofField : ∀ b : BitVec 2, (QMode.ofField b).isSome = true ↔ b ≠ 3 := by decide

theorem exists_decodeQM_ok (w : Word) (mk : QTable → QMode → Instr) :
    (∃ i, decodeQM w mk = .ok i) ↔ Word.field w 0 23 = 0 ∧ Word.field w 23 2 ≠ 3 := by
  rw [← isSome_ofField, Option.isSome_iff_exists]
  simp only [decodeQM_ok]
  exact ⟨fun ⟨_, hzero, md, hmd, _⟩ => ⟨hzero, md, hmd⟩, fun ⟨hzero, md, hmd⟩ => ⟨_, hzero, md, hmd, rfl⟩⟩

/-- A row decodes the words whose reserved bits are 0 and, in format QM, whose mode is not 3. -/
theorem OpFormat.exists_decodeWord_ok (f : OpFormat) (w : Word) : (∃ i, f.decodeWord w = .ok i) ↔
    f.isReserved = false ∧ Word.field w f.reservedField.1 f.reservedField.2 = 0 ∧
      (f.isQM = true → Word.field w 23 2 ≠ 3) := by
  cases f with
  | reserved => simp [decodeWord, isReserved]
  | qm mk => exact (exists_decodeQM_ok w mk).trans (by simp [isReserved, isQM, reservedField])
  | n | j | s | p3 | p2 | p1 | p1m =>
    exact (exists_congr fun _ => ite_ok).trans (by simp [isReserved, isQM, reservedField])

theorem toNat_field (w : Word) (lo len : Nat) : (Word.field w lo len).toNat = w.toNat / 2 ^ lo % 2 ^ len := by
  rw [Word.field, BitVec.extractLsb'_toNat, Nat.shiftRight_eq_div_pow]

theorem opOf_eq (w : Word) : opOf w = (Word.field w 26 6).toNat := by
  rw [toNat_field, opOf]
  omega

/-- R161.1-R161.3: the words that decode are those not illegal. -/
theorem exists_decode_ok_iff (w : Word) : (∃ i, decode w = .ok i) ↔ illegalWord w = false := by
  have hop : opOf w < 64 := by
    unfold opOf
    omega
  have hmode : Word.field w 23 2 = 3 ↔ w.toNat / 2 ^ 23 % 4 = 3 := by
    rw [← BitVec.toNat_inj, toNat_field]
    rfl
  obtain ⟨hreserved, hmask, hqm⟩ := opFormat_reserved _ hop
  rw [decode_eq_opFormat, OpFormat.exists_decodeWord_ok, ← opOf_eq]
  unfold illegalWord
  rw [hreserved, hmask, hqm]
  simp only [Bool.or_eq_false_iff, bne_eq_false_iff_eq, and_fieldMask_eq_zero w (OpFormat.reservedField_le _),
    Bool.and_eq_false_imp, beq_eq_false_iff_ne, hmode, Ne, and_assoc]

/-! ## Register numbers (R161.4) -/

/-- R32: the `cmd` registers by number. -/
theorem cmd?_isSome : ∀ r : BitVec 8, (Reg.cmd? r).isSome = cmdNumber r.toNat := by decide

/-- R154: the register number is bits [25:18]. -/
theorem toNat_register_encodeS (op : BitVec 6) (r : BitVec 8) (imm16 : BitVec 16) :
    (encodeS op r imm16).toNat / 2 ^ 18 % 256 = r.toNat := by
  have hfield : Word.field (encodeS op r imm16) 18 8 = r := by
    simp (disch := decide) only [Word.field, encodeS, Laws.field_append_left, Laws.field_append_right]
    exact Laws.field_self r
  exact (toNat_field _ 18 8).symm.trans (congrArg BitVec.toNat hfield)

/-- The words R161.4 refuses are those of the ill-formed commands. -/
theorem badRegnumWord_encode (i : Instr) : badRegnumWord (encode i) = !i.wellFormed := by
  have hop : opOf (encode i) = (Laws.opcode i).toNat := (opOf_eq _).trans (congrArg BitVec.toNat (op_eq_opcode i))
  unfold badRegnumWord
  rw [hop]
  cases i with
  | setl r imm16 | seth r imm16 =>
    rw [encode, toNat_register_encodeS, ← cmd?_isSome]
    rfl
  | _ => rfl

/-- R457, R458: a command that names no `cmd` register refuses, with nothing written. -/
theorem exec_of_not_wellFormed {i : Instr} (h : i.wellFormed = false) (s : State) :
    exec i s = .next (s.errorHalt .regnum s.mem (encode i)) := by
  cases i with
  | setl r imm16 | seth r imm16 =>
    have hnone : Reg.cmd? r = none := Option.not_isSome_iff_eq_none.mp (ne_true_of_eq_false h)
    refine runCommand_of_error (e := ⟨.regnum, s.mem⟩) (Run.bind_error.mpr (.inl ?_))
    rw [cmdReg, hnone]
    rfl
  | _ => cases h

/-! ## The step from a fetched word (R459) -/

section
variable {s : State} {w : Word}

/-- R106: the bytes fetched at a legal CPC are those of the word there. -/
theorem fetchBytes_of_wordAt (h4 : s.cpc.toNat % 4 = 0) (hsize : s.cpc.toNat + 4 ≤ s.lmemSize)
    (hw : WordAt s.mem s.cpc.toNat w) : fetchBytes s = some (bytesOfWord w) := by
  have hbytes : s.bytes4 s.cpc.toNat = bytesOfWord w := by
    simp only [State.bytes4, bytesOfWord, List.cons.injEq, and_true]
    exact ⟨hw 0 (by decide), hw 1 (by decide), hw 2 (by decide), hw 3 (by decide)⟩
  rw [fetchBytes, if_neg (by omega), hbytes]

theorem engineStep_of_decode_ok {i : Instr} (hbusy : s.busy = true) (hfetch : fetchBytes s = some (bytesOfWord w))
    (hi : decode w = .ok i) : engineStep s = exec i s := by
  have hbytes : decodeBytes (bytesOfWord w) = .ok (i, []) := decodeBytes_bytesOfWord hi []
  simp only [engineStep, hbusy, hfetch, hbytes, if_true]

theorem engineStep_of_decode_error {e : DecodeError} (hbusy : s.busy = true)
    (hfetch : fetchBytes s = some (bytesOfWord w)) (he : decode w = .error e) :
    engineStep s = .next (s.errorHalt .illegal s.mem w) := by
  have hword : wordOf (bytesOfWord w) = w := wordOfBytes_bytes w
  have hbytes : decodeBytes (bytesOfWord w) = .error e := by
    simp only [bytesOfWord, decodeBytes, wordOfBytes_bytes, he]
  simp only [engineStep, hbusy, hfetch, hbytes, hword, if_true]

end

/-- Settles O4: the fetched word decodes unless it is illegal, which halts the step; where it decodes it is the encoding of its
command, which halts exactly if it is ill formed. -/
theorem illegalEncodingsHalt : Obligations.IllegalEncodingsHalt := by
  rintro s w ⟨hbusy, hq, h4, hsize⟩ hw
  have hfetch := fetchBytes_of_wordAt h4 hsize hw
  rw [step_of_noEvent hq]
  refine ⟨fun hill => ?_, fun hleg hreg => ?_, fun hleg hreg => ?_⟩
  · cases hd : decode w with
    | error e => exact engineStep_of_decode_error hbusy hfetch hd
    | ok i => exact absurd ((exists_decode_ok_iff w).mp ⟨i, hd⟩) (by simp [hill])
  · obtain ⟨i, hd⟩ := (exists_decode_ok_iff w).mpr hleg
    obtain rfl := encodeOfDecode w i hd
    rw [engineStep_of_decode_ok hbusy hfetch hd]
    exact exec_of_not_wellFormed (by simpa [badRegnumWord_encode] using hreg) s
  · obtain ⟨i, hd⟩ := (exists_decode_ok_iff w).mpr hleg
    obtain rfl := encodeOfDecode w i hd
    exact ⟨i, hd, by simpa [badRegnumWord_encode] using hreg⟩

end Sys2Proof.Machine
end

