-- ==== Sys2Proof/Proofs/OperandChecks.lean ====
section
/-!
PROOF. The operand checks of the plane commands (41_color_resample.md R200-R202): `Checked`, a part of a command that makes its
checks first and then gives its value, with the checks of a plane and of the raster, and what a plane's view is.
-/

namespace Sys2Proof.Machine

open Sys2Proof.Claims

/-! ## Parts of a command that only check -/

theorem firstOf_append (cs ds : List (Bool × Byte)) : firstOf (cs ++ ds) = (firstOf cs).or (firstOf ds) := by
  unfold firstOf
  rw [List.find?_append]
  cases cs.find? fun c => c.1 <;> rfl

/-- `x` makes the checks `cs` first, and gives `a` where all of them pass. -/
def Checked {α : Type} (s : State) (cs : List (Bool × Byte)) (x : Run α) (a : α) : Prop :=
  ChecksFirst s cs x ∧ (Passes cs → x = .ok a)

section
variable {α β : Type} {s : State} {cs ds : List (Bool × Byte)}

theorem Checked.pure (s : State) (a : α) : Checked s [] (Pure.pure a) a := ⟨.nil _, fun _ => rfl⟩

/-- One part after another: their checks follow one another. -/
theorem Checked.bind {x : Run α} {a : α} {f : α → Run β} {b : β} (hx : Checked s cs x a) (hf : Checked s ds (f a) b) :
    Checked s (cs ++ ds) (x >>= f) b := by
  obtain ⟨hfirst, hok⟩ := hx
  cases hcs : firstOf cs with
  | some code =>
    have happend : firstOf (cs ++ ds) = firstOf cs := by rw [firstOf_append, hcs, Option.some_or]
    unfold Checked ChecksFirst Passes
    rw [happend]
    exact ⟨hfirst.bind f, fun h => nomatch hcs.symm.trans h⟩
  | none =>
    have happend : firstOf (cs ++ ds) = firstOf ds := by rw [firstOf_append, hcs, Option.none_or]
    unfold Checked ChecksFirst Passes
    rw [happend, hok hcs]
    exact hf

theorem refuseIf_checked (s : State) {bad bad' : Bool} (h : bad = bad') (c : ErrCode) :
    Checked s [(bad', c.code)] (refuseIf bad c s) () := by
  subst h
  exact ⟨.cons (fun hbad => refuseIf_error.mpr ⟨hbad, rfl⟩) fun _ => .nil _,
    fun hpass => refuseIf_ok.mpr (passes_iff.mp hpass _ (List.mem_singleton_self _))⟩

/-- A command whose body makes the checks `cs` refuses by them, and completes where they pass. -/
theorem Checked.command {i : Instr} {body : State → Run State} {t : State} (h : Checked s cs (body s) t)
    (hexec : exec i s = runCommand i body s) : Refuses i s cs ∧ (Passes cs → exec i s = .next t.advance) :=
  ⟨h.1.refuses hexec, fun hpass => hexec.trans (runCommand_of_ok (h.2 hpass))⟩

/-- The same for a command that writes LMEM alone, with what the statement says of the new LMEM. -/
theorem Checked.writes {i : Instr} {body : State → Run State} {m : Memory} {P : Memory → Prop}
    (h : Checked s cs (body s) (s.withMem m)) (hexec : exec i s = runCommand i body s) (hm : Passes cs → P m) :
    Refuses i s cs ∧ (Passes cs → ∃ m, exec i s = .next { s with mem := m, cpc := s.cpc + 4 } ∧ P m) :=
  have ⟨hrefuses, hcompletes⟩ := h.command hexec
  ⟨hrefuses, fun hpass => ⟨m, hcompletes hpass, hm hpass⟩⟩

end

/-! ## Planes and the raster (R200-R202) -/

/-- R47, R200: a plane's view is its descriptor, field by field. -/
theorem planeView_eq (s : State) (p : Slot) :
    s.planeView p = ⟨planeBase s p, planeW s p, planeH s p, ceil8 (planeW s p), ceil8 (planeH s p)⟩ := by
  have hW : (Word.field (s.planes.get p).dim 0 16).toNat = planeW s p := by
    rw [toNat_field, pow_zero, Nat.div_one]
    rfl
  have hH : (Word.field (s.planes.get p).dim 16 16).toNat = planeH s p := by
    have hdim := (s.planes.get p).dim.isLt
    rw [toNat_field]
    exact Nat.mod_eq_of_lt (by omega)
  simp only [State.planeView, hW, hH]
  rfl

section
variable (s : State) (a p q : Slot)

@[simp] theorem planeView_W : (s.planeView p).W = planeW s p := by rw [planeView_eq]

@[simp] theorem planeView_H : (s.planeView p).H = planeH s p := by rw [planeView_eq]

@[simp] theorem planeView_PW : (s.planeView p).PW = ceil8 (planeW s p) := by rw [planeView_eq]

@[simp] theorem planeView_PH : (s.planeView p).PH = ceil8 (planeH s p) := by rw [planeView_eq]

@[simp] theorem planeView_addr (x y : Nat) : (s.planeView p).addr x y = sampleAt s p x y := by
  rw [planeView_eq]
  rfl

@[simp] theorem planeView_overlaps : (s.planeView p).footprint.overlaps (s.planeView q).footprint = planesMeet s p q := by
  rw [planeView_eq, planeView_eq]
  rfl

@[simp] theorem raster_overlaps :
    (s.rasterFootprint (planeW s a) (planeH s a)).overlaps (s.planeView p).footprint = rasterMeets s a p := by
  rw [planeView_eq]
  rfl

@[simp] theorem planeView_sameSize : (s.planeView p).sameSize (s.planeView q) = ! sizesDiffer s p q := by
  simp [PlaneView.sameSize, sizesDiffer, bne]

theorem plane_checked : Checked s (planeChecks s p) (plane p s) (s.planeView p) := by
  unfold plane
  dsimp only
  rw [planeView_eq]
  exact (refuseIf_checked s rfl .inputDim).bind <| (refuseIf_checked s rfl .inputRange).bind <| .pure s _

theorem raster_checked :
    Checked s [(decide (rasterEnd s a > s.lmemSize), 0x21)] (raster (planeW s a) (planeH s a) s) s.rgbBase.toNat :=
  (refuseIf_checked s rfl .inputRange).bind <| .pure s _

end

/-! ## Footprints -/

/-- R202: an address of a range lies outside every range that does not overlap it. -/
theorem outside_of_not_meet {lo hi lo' hi' k : Nat} (h : meet lo hi lo' hi' = false) (hk : lo' ≤ k ∧ k < hi') :
    k < lo ∨ hi ≤ k := by
  simp only [meet, Bool.and_eq_false_iff, decide_eq_false_iff_not] at h
  omega

/-- A position of a row-major area is found again from its index. -/
theorem row_index_inj {w x y x' y' : Nat} (hx : x < w) (hx' : x' < w) (h : w * y + x = w * y' + x') : x = x' ∧ y = y' := by
  have hy : y = y' := by
    have hdiv := congrArg (· / w) h
    simpa [Nat.mul_add_div (Nat.zero_lt_of_lt hx), Nat.div_eq_of_lt hx, Nat.div_eq_of_lt hx'] using hdiv
  subst hy
  exact ⟨Nat.add_left_cancel h, rfl⟩

section
variable {s : State} {p : Slot} {x y : Nat}

/-- R200: a position of the padded plane lies in its footprint. -/
theorem sampleAt_footprint (hx : x < ceil8 (planeW s p)) (hy : y < ceil8 (planeH s p)) :
    planeBase s p ≤ sampleAt s p x y ∧ sampleAt s p x y < planeEnd s p := by
  have hrow := row_index_lt hx hy
  unfold sampleAt planeEnd
  omega

theorem sampleAt_inj {x' y' : Nat} (hx : x < ceil8 (planeW s p)) (hx' : x' < ceil8 (planeW s p))
    (h : sampleAt s p x y = sampleAt s p x' y') : x = x' ∧ y = y' := by
  unfold sampleAt at h
  exact row_index_inj hx hx' (by omega)

/-- R200: an interior position is a position of the padded plane. -/
theorem inside_padded (h : Inside s p x y) : x < ceil8 (planeW s p) ∧ y < ceil8 (planeH s p) :=
  ⟨h.1.trans_le (le_ceil8 _), h.2.trans_le (le_ceil8 _)⟩

theorem inside_footprint (h : Inside s p x y) : planeBase s p ≤ sampleAt s p x y ∧ sampleAt s p x y < planeEnd s p :=
  sampleAt_footprint (inside_padded h).1 (inside_padded h).2

/-- R201: a byte of a pixel lies in the raster's footprint. -/
theorem pixelAt_footprint (h : Inside s p x y) (ch : Fin 3) :
    s.rgbBase.toNat ≤ pixelAt s p x y + ch.val ∧ pixelAt s p x y + ch.val < rasterEnd s p := by
  have hrow := row_index_lt h.1 h.2
  unfold pixelAt rasterEnd
  rw [Nat.mul_assoc]
  omega

theorem pixelAt_inj {x' y' : Nat} {ch ch' : Fin 3} (hx : x < planeW s p) (hx' : x' < planeW s p)
    (h : pixelAt s p x y + ch.val = pixelAt s p x' y' + ch'.val) : x = x' ∧ y = y' ∧ ch = ch' := by
  unfold pixelAt at h
  obtain ⟨rfl, rfl⟩ := row_index_inj hx hx' (by omega : planeW s p * y + x = planeW s p * y' + x')
  exact ⟨rfl, rfl, Fin.ext (by omega)⟩

end

/-! ## Loops over positions -/

theorem nodup_grid (W H : Nat) : (grid W H).Nodup := by
  have hgrid : grid W H = (List.product (List.range H) (List.range W)).map Prod.swap := by
    simp [grid, List.product, List.map_flatMap, Function.comp_def]
  rw [hgrid]
  exact (List.nodup_range.product List.nodup_range).map Prod.swap_injective

/-- What a loop of writes leaves at one of its addresses, where each of its cells has an address of its own and no value reads
an address the loop writes. -/
theorem Memory.byteAt_writeEach_of_inj {ι : Type} {cs : List ι} {addr : ι → Nat} {val : Memory → ι → Byte} {m : Memory}
    (hwf : m.wf) (hnodup : cs.Nodup) (hinj : ∀ c ∈ cs, ∀ d ∈ cs, addr c = addr d → c = d)
    (hval : ∀ m' : Memory, (∀ k, (∀ c ∈ cs, addr c ≠ k) → m'.byteAt k = m.byteAt k) → ∀ c ∈ cs, val m' c = val m c)
    {c : ι} (hc : c ∈ cs) : (Memory.writeEach cs addr val m).byteAt (addr c) = val m c :=
  Memory.byteAt_writeEach hwf (hnodup.pairwise_of_forall_ne fun c hc d hd hne h => hne (hinj c hc d hd h))
    (fun m' _ => hval m') hc

end Sys2Proof.Machine
end

