-- ==== Sys2Proof/Proofs/Resample.lean ====
section
/-!
PROOF. The resampling commands and PAD (41_color_resample.md R207-R209): each writes samples of one plane, each sample once, from
samples it does not write. Settles O25, O26 and O27.
-/

namespace Sys2Proof.Machine

open Sys2Proof.Claims

/-! ## Loops over samples of a plane -/

section
variable {s : State} {p : Slot} {cs : List (Nat × Nat)} {val : Memory → Nat × Nat → Byte}

/-- A loop that writes samples of a plane, each once, from bytes it does not write. -/
theorem byteAt_writeSamples (hwf : s.mem.wf) (hnodup : cs.Nodup)
    (hcs : ∀ q ∈ cs, q.1 < ceil8 (planeW s p) ∧ q.2 < ceil8 (planeH s p))
    (hval : ∀ m' : Memory, (∀ k, (∀ q ∈ cs, sampleAt s p q.1 q.2 ≠ k) → m'.byteAt k = s.mem.byteAt k) →
      ∀ q ∈ cs, val m' q = val s.mem q) {x y : Nat} (hxy : (x, y) ∈ cs) :
    (Memory.writeEach cs (fun q => sampleAt s p q.1 q.2) val s.mem).byteAt (sampleAt s p x y) = val s.mem (x, y) := by
  refine Memory.byteAt_writeEach_of_inj hwf hnodup (fun q hq r hr h => ?_) hval hxy
  obtain ⟨hx, hy⟩ := sampleAt_inj (hcs q hq).1 (hcs r hr).1 h
  exact Prod.ext hx hy

/-- The loop over the interior: where the values read only bytes outside the plane, each sample gets its value and every other
byte is kept. -/
theorem byteAt_writeInterior (hwf : s.mem.wf)
    (hval : ∀ m' : Memory, (∀ k, k < planeBase s p ∨ planeEnd s p ≤ k → m'.byteAt k = s.mem.byteAt k) →
      ∀ x y, Inside s p x y → val m' (x, y) = val s.mem (x, y)) :
    let m := Memory.writeEach (grid (planeW s p) (planeH s p)) (fun q => sampleAt s p q.1 q.2) val s.mem
    (∀ x y, Inside s p x y → m.byteAt (sampleAt s p x y) = val s.mem (x, y)) ∧
      ∀ k, (∀ x y, Inside s p x y → k ≠ sampleAt s p x y) → m.byteAt k = s.mem.byteAt k := by
  refine ⟨fun x y hxy => byteAt_writeSamples hwf (nodup_grid _ _) (fun q hq => inside_padded (mem_grid.mp hq)) ?_
    (mem_grid.mpr hxy), fun k hk => ?_⟩
  · rintro m' hm' ⟨x, y⟩ hq
    refine hval m' (fun k hk => hm' k fun q hq => ?_) x y (mem_grid.mp hq)
    have hfoot := inside_footprint (mem_grid.mp hq)
    omega
  · exact Memory.byteAt_writeEach_other val hwf fun q hq => (hk q.1 q.2 (mem_grid.mp hq)).symm

end

/-! ## The checks of CSUB and CUPS (R202) -/

/-- The two commands differ in which plane is to have half the size, `bad`, and in what they write. -/
theorem resample_checked {s : State} {a b full half : Slot} {bad : PlaneView → PlaneView → Bool}
    {mem : PlaneView → PlaneView → Memory}
    (hbad : bad (s.planeView a) (s.planeView b) =
      (planeW s half != (planeW s full + 1) / 2 || planeH s half != (planeH s full + 1) / 2)) :
    Checked s (resampleChecks s a b full half) (do
      let vd ← plane a s
      let vs ← plane b s
      refuseIf (bad vd vs) .inputDim s
      refuseIf (vd.footprint.overlaps vs.footprint) .inputOverlap s
      return s.withMem (mem vd vs)) (s.withMem (mem (s.planeView a) (s.planeView b))) := by
  unfold resampleChecks
  rw [List.append_assoc]
  exact (plane_checked s a).bind <| (plane_checked s b).bind <| (refuseIf_checked s hbad .inputDim).bind <|
    (refuseIf_checked s (planeView_overlaps s a b) .inputOverlap).bind <| .pure s _

theorem resampleChecks_passes {s : State} {a b full half : Slot} (h : Passes (resampleChecks s a b full half)) :
    planeW s half = (planeW s full + 1) / 2 ∧ planeH s half = (planeH s full + 1) / 2 ∧ planesMeet s a b = false := by
  simp only [passes_iff, resampleChecks, List.mem_append, or_imp, forall_and, List.forall_mem_cons] at h
  obtain ⟨-, hsize, hmeet, -⟩ := h
  simpa [and_assoc] using And.intro hsize hmeet

/-! ## CSUB -/

theorem csub_checked (s : State) (a b : Slot) :
    Checked s (resampleChecks s a b b a) (csub a b s) (s.withMem (csubMem (s.planeView a) (s.planeView b) s.mem)) :=
  resample_checked (by simp [ceil2])

theorem toNat_byte_ofInt {v : Int} (h : 0 ≤ v ∧ v ≤ 255) : ((BitVec.ofInt 8 v).toNat : Int) = v := by
  rw [BitVec.toNat_ofInt]
  omega

theorem sum_map_filter {α : Type} (l : List α) (p : α → Bool) (f : α → Nat) :
    ((l.filter p).map f).sum = (l.map fun a => if p a then f a else 0).sum := by
  induction l with
  | nil => rfl
  | cons a l ih => cases h : p a <;> simp [h, ih]

theorem length_filter_eq_sum {α : Type} (l : List α) (p : α → Bool) :
    (l.filter p).length = (l.map fun a => if p a then 1 else 0).sum := by
  simpa using sum_map_filter l p fun _ => 1

/-- R10: an average of bytes is a byte. -/
theorem rnd_average_bounds {sum n : Nat} (hn : 0 < n) (hsum : sum ≤ n * 255) : 0 ≤ rnd sum n ∧ rnd sum n ≤ 255 := by
  have hle : 2 * (n : Int) * rnd sum n ≤ 2 * sum + n := rnd_le sum (by omega)
  refine ⟨Int.ediv_nonneg (by omega) (by omega), ?_⟩
  nlinarith

/-- R207: the average of a cell that is not empty fits its byte. -/
theorem toNat_cellAverage {v : PlaneView} {m : Memory} {i j : Nat} (hi : 2 * i < v.W) (hj : 2 * j < v.H) :
    ((cellAverage v m i j).toNat : Int) =
      rnd (((cell v.W v.H i j).map fun p => (m.byteAt (v.addr p.1 p.2)).toNat).sum : Nat) (cell v.W v.H i j).length := by
  refine toNat_byte_ofInt (rnd_average_bounds ?_ ?_)
  · exact List.length_pos_of_mem (a := (2 * i, 2 * j)) (by simp [cell, hi, hj])
  · refine (List.sum_le_card_nsmul _ 255 ?_).trans (by simp)
    simp only [List.mem_map]
    rintro _ ⟨p, -, rfl⟩
    exact Nat.le_of_lt_succ (m.byteAt _).isLt

theorem cellAverage_congr {s : State} {p : Slot} {m m' : Memory}
    (h : ∀ x y, Inside s p x y → m'.byteAt (sampleAt s p x y) = m.byteAt (sampleAt s p x y)) (i j : Nat) :
    cellAverage (s.planeView p) m' i j = cellAverage (s.planeView p) m i j := by
  have hsamples : ∀ q ∈ cell (planeW s p) (planeH s p) i j,
      (m'.byteAt (sampleAt s p q.1 q.2)).toNat = (m.byteAt (sampleAt s p q.1 q.2)).toNat := fun q hq => by
    rw [h q.1 q.2 (by simpa using List.of_mem_filter hq)]
  simp only [cellAverage, planeView_W, planeView_H, planeView_addr, List.map_congr_left hsamples]

/-- R207: the average of a cell of a plane, its samples taken one by one. -/
theorem toNat_cellAverage_planeView {s : State} {p : Slot} {m : Memory} {i j : Nat} (hi : 2 * i < planeW s p)
    (hj : 2 * j < planeH s p) :
    let part (x y : Nat) : Int :=
      if decide (x < planeW s p) && decide (y < planeH s p) then byteVal m (sampleAt s p x y) else 0
    let one (x y : Nat) : Int := if decide (x < planeW s p) && decide (y < planeH s p) then 1 else 0
    ((cellAverage (s.planeView p) m i j).toNat : Int) =
      rnd (part (2 * i) (2 * j) + part (2 * i + 1) (2 * j) + part (2 * i) (2 * j + 1) + part (2 * i + 1) (2 * j + 1))
        (one (2 * i) (2 * j) + one (2 * i + 1) (2 * j) + one (2 * i) (2 * j + 1) + one (2 * i + 1) (2 * j + 1)) := by
  rw [toNat_cellAverage (by rwa [planeView_W]) (by rwa [planeView_H]), cell, sum_map_filter, length_filter_eq_sum]
  simp only [List.map_cons, List.map_nil, List.sum_cons, List.sum_nil, planeView_W, planeView_H, planeView_addr, Nat.add_zero]
  push_cast
  simp only [byteVal, add_assoc]

/-- Settles O25: the source plane lies outside the destination, so each average is that of the samples before the command. -/
theorem chromaSubsampling : Obligations.ChromaSubsampling := by
  refine fun s a b hwf => (csub_checked s a b).writes rfl fun hpass => ?_
  obtain ⟨hW, hH, hmeet⟩ := resampleChecks_passes hpass
  simp only [csubMem, planeView_W, planeView_H, planeView_addr]
  obtain ⟨hsample, hframe⟩ := byteAt_writeInterior (val := fun m q => cellAverage (s.planeView b) m q.1 q.2) hwf
    fun m' hm' i j _ => cellAverage_congr (fun x y hxy => hm' _ (outside_of_not_meet hmeet (inside_footprint hxy))) i j
  refine ⟨fun i j hij => ?_, hframe⟩
  rw [byteVal, hsample i j hij]
  exact toNat_cellAverage_planeView (by omega) (by omega)

/-! ## CUPS -/

theorem cups_checked (s : State) (a b : Slot) :
    Checked s (resampleChecks s a b a b) (cups a b s) (s.withMem (cupsMem (s.planeView a) (s.planeView b) s.mem)) :=
  resample_checked (by simp [ceil2])

/-- Settles O26: the source plane lies outside the destination, so each sample is copied as it was before the command. -/
theorem chromaUpsampling : Obligations.ChromaUpsampling := by
  refine fun s a b hwf => (cups_checked s a b).writes rfl fun hpass => ?_
  obtain ⟨hW, hH, hmeet⟩ := resampleChecks_passes hpass
  simp only [cupsMem, planeView_W, planeView_H, planeView_addr]
  refine byteAt_writeInterior hwf fun m' hm' x y hxy => ?_
  have hsource : Inside s b (x / 2) (y / 2) := by
    obtain ⟨hx, hy⟩ := hxy
    constructor <;> omega
  exact hm' _ (outside_of_not_meet hmeet (inside_footprint hsource))

/-! ## PAD -/

theorem pad_checked (s : State) (a : Slot) (md : PadMode) :
    Checked s (planeChecks s a) (pad a md s) (s.withMem (padMem (s.planeView a) md s.mem)) :=
  (plane_checked s a).bind (.pure s _)

theorem mem_paddingCells {s : State} {p : Slot} {q : Nat × Nat} : q ∈ paddingCells (s.planeView p) ↔
    (q.1 < ceil8 (planeW s p) ∧ q.2 < ceil8 (planeH s p)) ∧ ¬ Inside s p q.1 q.2 := by
  simp [paddingCells, mem_grid, Inside, imp_iff_not_or]

/-- A padding sample is no interior sample. -/
theorem padding_ne_interior {s : State} {p : Slot} {q : Nat × Nat} {x y : Nat} (hq : q ∈ paddingCells (s.planeView p))
    (hxy : Inside s p x y) : sampleAt s p q.1 q.2 ≠ sampleAt s p x y := by
  obtain ⟨⟨hx, -⟩, hout⟩ := mem_paddingCells.mp hq
  intro h
  obtain ⟨rfl, rfl⟩ := sampleAt_inj hx (inside_padded hxy).1 h
  exact hout hxy

/-- Settles O27: the padding is written from interior samples, which it does not hold. -/
theorem planePadding : Obligations.PlanePadding := by
  refine fun s a md hwf => (pad_checked s a md).writes rfl fun hpass => ?_
  have hsize : planeW s a ≠ 0 ∧ planeH s a ≠ 0 := by simpa [planeChecks] using passes_iff.mp hpass _ (List.mem_cons_self ..)
  simp only [padMem, planeView_W, planeView_H, planeView_addr]
  refine ⟨fun x y hx hy hout => ?_, fun x y hxy => ?_, fun k hk => ?_⟩
  · refine (byteAt_writeSamples hwf ((nodup_grid _ _).filter _) (fun q hq => (mem_paddingCells.mp hq).1) ?_
      (mem_paddingCells.mpr ⟨⟨hx, hy⟩, hout⟩)).trans ?_
    · intro m' hm' q _
      cases md with
      | rep => exact hm' _ fun q hq => padding_ne_interior hq ⟨by omega, by omega⟩
      | c128 => rfl
    · cases md <;> rfl
  · exact Memory.byteAt_writeEach_other _ hwf fun q hq => padding_ne_interior hq hxy
  · refine Memory.byteAt_writeEach_other _ hwf fun q hq => ?_
    obtain ⟨hx, hy⟩ := (mem_paddingCells.mp hq).1
    have hfoot := sampleAt_footprint hx hy
    omega

end Sys2Proof.Machine
end

