-- ==== Sys2Proof/Proofs/Colour.lean ====
section
/-!
PROOF. The colour conversions CSCF and CSCI (41_color_resample.md R203-R205): the checks they share, and that each byte they write
has an address of its own, apart from the bytes they read. Settles O23 and O24.
-/

namespace Sys2Proof.Machine

open Sys2Proof.Claims

/-! ## The checks (R202) -/

/-- The checks CSCF and CSCI share, the three planes, their sizes and the raster, before the command's own overlap rule. -/
theorem colour_checked {α : Type} {s : State} {a b c : Slot} {overlap : Bool}
    {k : PlaneView → PlaneView → PlaneView → Nat → Run α} {r : α}
    (hk : Checked s [(overlap, 0x22)] (k (s.planeView a) (s.planeView b) (s.planeView c) s.rgbBase.toNat) r) :
    Checked s (colourChecks s a b c overlap) (do
      let va ← plane a s
      let vb ← plane b s
      let vc ← plane c s
      refuseIf (! (vb.sameSize va && vc.sameSize va)) .inputDim s
      let rb ← raster va.W va.H s
      k va vb vc rb) r := by
  unfold colourChecks
  simp only [List.append_assoc]
  refine (plane_checked s a).bind <| (plane_checked s b).bind <| (plane_checked s c).bind <|
    (refuseIf_checked s (by simp) .inputDim).bind ?_
  rw [planeView_W, planeView_H]
  exact (raster_checked s a).bind hk

theorem cscf_checked (s : State) (a b c : Slot) :
    Checked s (colourChecks s a b c (rasterMeets s a a || rasterMeets s a b || rasterMeets s a c ||
      planesMeet s a b || planesMeet s a c || planesMeet s b c)) (cscf a b c s)
      (s.withMem (cscfMem s.rgbBase.toNat (s.planeView a) (s.planeView b) (s.planeView c) s.mem)) :=
  colour_checked <| (refuseIf_checked s (by simp [anyOverlap]) .inputOverlap).bind <| .pure s _

theorem csci_checked (s : State) (a b c : Slot) :
    Checked s (colourChecks s a b c (rasterMeets s a a || rasterMeets s a b || rasterMeets s a c)) (csci a b c s)
      (s.withMem (csciMem s.rgbBase.toNat (s.planeView a) (s.planeView b) (s.planeView c) s.mem)) :=
  colour_checked <| (refuseIf_checked s (by simp) .inputOverlap).bind <| .pure s _

theorem colourChecks_passes {s : State} {a b c : Slot} {overlap : Bool} (h : Passes (colourChecks s a b c overlap)) :
    sizesDiffer s b a = false ∧ sizesDiffer s c a = false ∧ overlap = false := by
  simp only [passes_iff, colourChecks, List.mem_append, or_imp, forall_and, List.forall_mem_cons] at h
  obtain ⟨-, hsize, -, hoverlap, -⟩ := h
  simpa [and_assoc] using And.intro hsize hoverlap

/-- R203, R205: a position inside one plane is inside another of the same size. -/
theorem inside_of_sameSize {s : State} {p q : Slot} (h : sizesDiffer s p q = false) {x y : Nat} (hxy : Inside s q x y) :
    Inside s p x y := by
  simp only [sizesDiffer, Bool.or_eq_false_iff, bne_eq_false_iff_eq] at h
  rwa [Inside, h.1, h.2]

/-! ## Colour arithmetic and the bytes of a pixel -/

/-- R203, R205: a byte written by `roundToByte` is the rounded value clamped to 0..255. -/
theorem byteVal_of_rounded {m : Memory} {k : Nat} {n d : Int} (h : m.byteAt k = roundToByte n d) :
    byteVal m k = clampInt (rnd n d) 0 255 := by
  rw [byteVal, h]
  refine toNat_byte_ofInt ?_
  rw [clampInt_eq_max_min _ (by decide)]
  omega

theorem mem_bytesOfPixel {p : PixelByte} {q : Nat × Nat} :
    p ∈ [(⟨q.1, q.2, 0⟩ : PixelByte), ⟨q.1, q.2, 1⟩, ⟨q.1, q.2, 2⟩] ↔ (p.x, p.y) = q := by
  obtain ⟨x, y, ch⟩ := p
  obtain ⟨x', y'⟩ := q
  fin_cases ch <;> simp

theorem mem_pixelBytes_iff {W H : Nat} {p : PixelByte} : p ∈ pixelBytes W H ↔ p.x < W ∧ p.y < H := by
  refine ⟨mem_pixelBytes, fun h => ?_⟩
  exact List.mem_flatMap.mpr ⟨(p.x, p.y), mem_grid.mpr h, mem_bytesOfPixel.mpr rfl⟩

theorem nodup_pixelBytes (W H : Nat) : (pixelBytes W H).Nodup := by
  refine List.nodup_flatMap.mpr ⟨fun q _ => by simp, (nodup_grid W H).imp fun {q r} hne => ?_⟩
  exact List.disjoint_left.mpr fun p hq hr => hne ((mem_bytesOfPixel.mp hq).symm.trans (mem_bytesOfPixel.mp hr))

/-- A loop over the bytes of the pixels of a plane's size, each with an address of its own, from bytes it does not write. -/
theorem byteAt_writePixels {s : State} {a : Slot} {addr : PixelByte → Nat} {val : Memory → PixelByte → Byte} (hwf : s.mem.wf)
    (hinj : ∀ p q : PixelByte, Inside s a p.x p.y → Inside s a q.x q.y → addr p = addr q → p = q)
    (hval : ∀ m' : Memory,
      (∀ k, (∀ p : PixelByte, Inside s a p.x p.y → addr p ≠ k) → m'.byteAt k = s.mem.byteAt k) →
      ∀ p : PixelByte, Inside s a p.x p.y → val m' p = val s.mem p) :
    let m := Memory.writeEach (pixelBytes (planeW s a) (planeH s a)) addr val s.mem
    (∀ p : PixelByte, Inside s a p.x p.y → m.byteAt (addr p) = val s.mem p) ∧
      ∀ k, (∀ p : PixelByte, Inside s a p.x p.y → addr p ≠ k) → m.byteAt k = s.mem.byteAt k := by
  simp only [Inside, ← mem_pixelBytes_iff] at hinj hval ⊢
  exact ⟨fun p hp => Memory.byteAt_writeEach_of_inj hwf (nodup_pixelBytes _ _) (fun p hp q hq => hinj p q hp hq) hval hp,
    fun k hk => Memory.byteAt_writeEach_other val hwf hk⟩

/-! ## CSCF -/

/-- R203: where CSCF writes a byte of a pixel, in the plane of its channel. -/
def cscfAddr (s : State) (a b c : Slot) (p : PixelByte) : Nat := sampleAt s (pick p.ch a b c) p.x p.y

/-- R203: what CSCF writes there. -/
def cscfVal (s : State) (a : Slot) (m : Memory) (p : PixelByte) : Byte :=
  let o := pixelAt s a p.x p.y
  let r := m.byteAt o
  let g := m.byteAt (o + 1)
  let b := m.byteAt (o + 2)
  pick p.ch (lumaOf r g b) (cbOf r g b) (crOf r g b)

theorem cscfVal_congr {s : State} {a : Slot} {m m' : Memory} {p : PixelByte}
    (hr : m'.byteAt (pixelAt s a p.x p.y) = m.byteAt (pixelAt s a p.x p.y))
    (hg : m'.byteAt (pixelAt s a p.x p.y + 1) = m.byteAt (pixelAt s a p.x p.y + 1))
    (hb : m'.byteAt (pixelAt s a p.x p.y + 2) = m.byteAt (pixelAt s a p.x p.y + 2)) : cscfVal s a m' p = cscfVal s a m p := by
  simp only [cscfVal, hr, hg, hb]

theorem cscfMem_eq (s : State) (a b c : Slot) :
    cscfMem s.rgbBase.toNat (s.planeView a) (s.planeView b) (s.planeView c) s.mem =
      Memory.writeEach (pixelBytes (planeW s a) (planeH s a)) (cscfAddr s a b c) (cscfVal s a) s.mem := by
  have haddr : (fun p : PixelByte => pick p.ch (sampleAt s a p.x p.y) (sampleAt s b p.x p.y) (sampleAt s c p.x p.y)) =
      cscfAddr s a b c := by
    funext ⟨x, y, ch⟩
    fin_cases ch <;> rfl
  simp only [cscfMem, planeView_W, planeView_H, planeView_addr, haddr]
  rfl

/-- R202, R203: what CSCF's checks say of its planes: all have the first one's size, and none meets the raster or another. -/
structure CscfLegal (s : State) (a b c : Slot) : Prop where
  inside : ∀ ch x y, Inside s a x y → Inside s (pick ch a b c) x y
  raster : ∀ ch, rasterMeets s a (pick ch a b c) = false
  planes : ∀ ch ch', ch ≠ ch' → planesMeet s (pick ch a b c) (pick ch' a b c) = false

theorem planesMeet_comm (s : State) (p q : Slot) : planesMeet s p q = planesMeet s q p := Bool.and_comm _ _

theorem cscfLegal_of_passes {s : State} {a b c : Slot} (h : Passes (colourChecks s a b c (rasterMeets s a a ||
    rasterMeets s a b || rasterMeets s a c || planesMeet s a b || planesMeet s a c || planesMeet s b c))) :
    CscfLegal s a b c := by
  obtain ⟨hb, hc, hoverlap⟩ := colourChecks_passes h
  simp only [Bool.or_eq_false_iff] at hoverlap
  obtain ⟨⟨⟨⟨⟨hra, hrb⟩, hrc⟩, hab⟩, hac⟩, hbc⟩ := hoverlap
  refine ⟨fun ch x y hxy => ?_, fun ch => ?_, fun ch ch' hne => ?_⟩
  · match ch with
    | 0 => exact hxy
    | 1 => exact inside_of_sameSize hb hxy
    | 2 => exact inside_of_sameSize hc hxy
  · match ch with
    | 0 => exact hra
    | 1 => exact hrb
    | 2 => exact hrc
  · match ch, ch' with
    | 0, 0 | 1, 1 | 2, 2 => exact absurd rfl hne
    | 0, 1 => exact hab
    | 0, 2 => exact hac
    | 1, 2 => exact hbc
    | 1, 0 => exact planesMeet_comm s a b ▸ hab
    | 2, 0 => exact planesMeet_comm s a c ▸ hac
    | 2, 1 => exact planesMeet_comm s b c ▸ hbc

section
variable {s : State} {a b c : Slot}

/-- Each byte CSCF writes has an address of its own: within a plane by its position, across planes by their footprints. -/
theorem CscfLegal.addr_inj (h : CscfLegal s a b c) (p q : PixelByte) (hp : Inside s a p.x p.y) (hq : Inside s a q.x q.y)
    (heq : cscfAddr s a b c p = cscfAddr s a b c q) : p = q := by
  obtain ⟨x, y, ch⟩ := p
  obtain ⟨x', y', ch'⟩ := q
  have hin := h.inside ch x y hp
  have hin' := h.inside ch' x' y' hq
  by_cases hch : ch = ch'
  · subst hch
    obtain ⟨rfl, rfl⟩ := sampleAt_inj (inside_padded hin).1 (inside_padded hin').1 heq
    rfl
  · have hout := outside_of_not_meet (h.planes ch ch' hch) (inside_footprint hin')
    have hfoot := inside_footprint hin
    simp only [cscfAddr] at heq
    omega

/-- The raster's bytes are none of those CSCF writes. -/
theorem CscfLegal.addr_ne_raster (h : CscfLegal s a b c) {p : PixelByte} {x y : Nat} (hp : Inside s a p.x p.y)
    (hxy : Inside s a x y) (j : Fin 3) : cscfAddr s a b c p ≠ pixelAt s a x y + j.val := by
  have hout := outside_of_not_meet (h.raster p.ch) (inside_footprint (h.inside p.ch _ _ hp))
  have hfoot := pixelAt_footprint hxy j
  unfold cscfAddr
  omega

end

/-- Settles O23: each byte is written once, from a raster that none of the writes reaches. -/
theorem forwardColourConversion : Obligations.ForwardColourConversion := by
  refine fun s a b c hwf => (cscf_checked s a b c).writes rfl fun hpass => ?_
  have hlegal := cscfLegal_of_passes hpass
  rw [cscfMem_eq]
  obtain ⟨hvalue, hframe⟩ := byteAt_writePixels (val := cscfVal s a) hwf hlegal.addr_inj fun m' hm' p hp => by
    have hraster (j : Fin 3) := hm' _ fun q hq => hlegal.addr_ne_raster hq hp j
    exact cscfVal_congr (hraster 0) (hraster 1) (hraster 2)
  refine ⟨fun x y hxy => ?_, fun k hk => hframe k fun p hp => ?_⟩
  · exact ⟨byteVal_of_rounded (hvalue ⟨x, y, 0⟩ hxy), byteVal_of_rounded (hvalue ⟨x, y, 1⟩ hxy),
      byteVal_of_rounded (hvalue ⟨x, y, 2⟩ hxy)⟩
  · obtain ⟨x, y, ch⟩ := p
    obtain ⟨ha, hb, hc⟩ := hk x y hp
    match ch with
    | 0 => exact ha.symm
    | 1 => exact hb.symm
    | 2 => exact hc.symm

/-! ## CSCI -/

/-- R205: where CSCI writes a byte of a pixel. -/
def csciAddr (s : State) (a : Slot) (p : PixelByte) : Nat := pixelAt s a p.x p.y + p.ch.val

/-- R205: what CSCI writes there. -/
def csciVal (s : State) (a b c : Slot) (m : Memory) (p : PixelByte) : Byte :=
  let y := m.byteAt (sampleAt s a p.x p.y)
  let cb := m.byteAt (sampleAt s b p.x p.y)
  let cr := m.byteAt (sampleAt s c p.x p.y)
  pick p.ch (redOf y cb cr) (greenOf y cb cr) (blueOf y cb cr)

theorem csciMem_eq (s : State) (a b c : Slot) :
    csciMem s.rgbBase.toNat (s.planeView a) (s.planeView b) (s.planeView c) s.mem =
      Memory.writeEach (pixelBytes (planeW s a) (planeH s a)) (csciAddr s a) (csciVal s a b c) s.mem := by
  simp only [csciMem, planeView_W, planeView_H, planeView_addr]
  rfl

theorem csciAddr_inj {s : State} {a : Slot} (p q : PixelByte) (hp : Inside s a p.x p.y) (hq : Inside s a q.x q.y)
    (h : csciAddr s a p = csciAddr s a q) : p = q := by
  obtain ⟨x, y, ch⟩ := p
  obtain ⟨x', y', ch'⟩ := q
  obtain ⟨rfl, rfl, rfl⟩ := pixelAt_inj hp.1 hq.1 h
  rfl

/-- A plane that does not meet the raster keeps its samples while the raster is written. -/
theorem csciAddr_ne_sample {s : State} {a p : Slot} (h : rasterMeets s a p = false) {q : PixelByte} {x y : Nat}
    (hq : Inside s a q.x q.y) (hxy : Inside s p x y) : csciAddr s a q ≠ sampleAt s p x y := by
  have hout := outside_of_not_meet h (inside_footprint hxy)
  have hfoot := pixelAt_footprint hq q.ch
  unfold csciAddr
  omega

/-- Settles O24: each byte of the raster is written once, from planes that none of the writes reaches. -/
theorem inverseColourConversion : Obligations.InverseColourConversion := by
  refine fun s a b c hwf => (csci_checked s a b c).writes rfl fun hpass => ?_
  obtain ⟨hb, hc, hoverlap⟩ := colourChecks_passes hpass
  simp only [Bool.or_eq_false_iff] at hoverlap
  obtain ⟨⟨hra, hrb⟩, hrc⟩ := hoverlap
  rw [csciMem_eq]
  obtain ⟨hvalue, hframe⟩ := byteAt_writePixels (val := csciVal s a b c) hwf csciAddr_inj fun m' hm' p hp => by
    simp only [csciVal]
    rw [hm' _ fun q hq => csciAddr_ne_sample hra hq hp,
      hm' _ fun q hq => csciAddr_ne_sample hrb hq (inside_of_sameSize hb hp),
      hm' _ fun q hq => csciAddr_ne_sample hrc hq (inside_of_sameSize hc hp)]
  refine ⟨fun x y hxy => ?_, fun k hk => hframe k fun p hp => ?_⟩
  · exact ⟨byteVal_of_rounded (hvalue ⟨x, y, 0⟩ hxy), byteVal_of_rounded (hvalue ⟨x, y, 1⟩ hxy),
      byteVal_of_rounded (hvalue ⟨x, y, 2⟩ hxy)⟩
  · have hfoot := pixelAt_footprint hp p.ch
    unfold csciAddr
    omega

end Sys2Proof.Machine
end

