-- ==== Sys2Proof/Proofs/BlockMoves.lean ====
section
/-!
PROOF. The block moves (42_block_transform.md R257-R260): the checks of `Cursor(p)`, where the entries of the current block stand,
and the words of BCUR and FLAGS after the cursor moves. Settles O28, O29 and O30.
-/

namespace Sys2Proof.Machine

open Sys2Proof.Claims

/-! ## The cursor (R250) -/

/-- R46: BX and BY are the two halves of BCUR. -/
theorem blkX_eq (s : State) : s.blkX = curX s := by
  rw [State.blkX, toNat_field, pow_zero, Nat.div_one]
  rfl

theorem blkY_eq (s : State) : s.blkY = curY s := by
  have hbcur := s.bcur.isLt
  rw [State.blkY, toNat_field]
  exact Nat.mod_eq_of_lt (by omega)

theorem cursor_checked (s : State) (a : Slot) : Checked s (cursorChecks s a) (cursor a s) (s.planeView a) :=
  (plane_checked s a).bind <|
    (refuseIf_checked s (by simp [blkX_eq, blkY_eq, blocksX, blocksY]) .inputBlock).bind <| .pure s _

/-- A checked cursor is inside the grid. -/
theorem cursorChecks_passes {s : State} {a : Slot} (h : Passes (cursorChecks s a)) :
    curX s < blocksX s a ∧ curY s < blocksY s a := by
  simp only [passes_iff, cursorChecks, List.mem_append, or_imp, forall_and, List.forall_mem_cons] at h
  obtain ⟨-, hgrid, -⟩ := h
  simpa using hgrid

/-- R47, R250: a plane has at most 2^13 blocks in a row or column, since its size fits 16 bits. -/
theorem blocks_le (s : State) (a : Slot) : blocksX s a ≤ 8192 ∧ blocksY s a ≤ 8192 := by
  have hW : planeW s a < 2 ^ 16 := Nat.mod_lt _ (by decide)
  have hH : planeH s a < 2 ^ 16 := Nat.div_lt_of_lt_mul (s.planes.get a).dim.isLt
  have hPW := ceil8_lt (planeW s a)
  have hPH := ceil8_lt (planeH s a)
  unfold blocksX blocksY
  omega

/-! ## The current block -/

/-- R12: entry k of a block stands at its row and column. -/
@[simp] theorem at8_rowOf_colOf (k : Fin 64) : at8 (rowOf k) (colOf k) = k := Fin.ext (Nat.div_add_mod k.val 8)

@[simp] theorem rowOf_at8 (r c : Fin 8) : rowOf (at8 r c) = r := by
  have hk : (at8 r c).val = 8 * r.val + c.val := rfl
  exact Fin.ext (by simp only [rowOf]; omega)

@[simp] theorem colOf_at8 (r c : Fin 8) : colOf (at8 r c) = c := by
  have hk : (at8 r c).val = 8 * r.val + c.val := rfl
  exact Fin.ext (by simp only [colOf]; omega)

/-- R257, R258: the model's address of an entry is the address of its row and column. -/
theorem blockAddr_eq (s : State) (a : Slot) (k : Fin 64) :
    s.blockAddr (s.planeView a) k.val = blockAt s a (rowOf k) (colOf k) := by
  rw [State.blockAddr, blkX_eq, blkY_eq, planeView_eq]
  exact Nat.add_assoc ..

theorem blockAddr_at8 (s : State) (a : Slot) (r c : Fin 8) : s.blockAddr (s.planeView a) (at8 r c).val = blockAt s a r c := by
  rw [blockAddr_eq, rowOf_at8, colOf_at8]

/-- Under a checked cursor each entry of the block has an address of its own. -/
theorem blockAddr_inj {s : State} {a : Slot} (h : curX s < blocksX s a) {k l : Fin 64}
    (heq : s.blockAddr (s.planeView a) k.val = s.blockAddr (s.planeView a) l.val) : k = l := by
  have hpadded (c : Fin 8) : 8 * curX s + c.val < ceil8 (planeW s a) := by
    unfold blocksX at h
    omega
  rw [blockAddr_eq, blockAddr_eq] at heq
  obtain ⟨hx, hy⟩ := sampleAt_inj (hpadded _) (hpadded _) heq
  rw [← at8_rowOf_colOf k, ← at8_rowOf_colOf l, Fin.ext (Nat.add_left_cancel hx), Fin.ext (Nat.add_left_cancel hy)]

/-! ## LDB and STB -/

theorem ldb_checked (s : State) (a : Slot) : Checked s (cursorChecks s a) (ldb a s)
    { s with sBlk := Vector.ofFn fun k => s.byteAt (s.blockAddr (s.planeView a) k.val) } :=
  List.append_nil (cursorChecks s a) ▸ (cursor_checked s a).bind (.pure s _)

/-- Settles O28: LDB reads each entry at the address of its row and column. -/
theorem blockLoad : Obligations.BlockLoad := by
  intro s a
  obtain ⟨hrefuses, hcompletes⟩ := (ldb_checked s a).command (i := .ldb a) rfl
  refine ⟨hrefuses, fun hpass => ⟨_, hcompletes hpass, fun r c => ?_⟩⟩
  rw [Vector.get_ofFn, blockAddr_at8]
  rfl

theorem stb_checked (s : State) (a : Slot) :
    Checked s (cursorChecks s a) (stb a s) (s.withMem (stbMem s (s.planeView a))) :=
  List.append_nil (cursorChecks s a) ▸ (cursor_checked s a).bind (.pure s _)

/-- Settles O29: the addresses of the 64 entries differ, so each keeps the sample written there. -/
theorem blockStore : Obligations.BlockStore := by
  refine fun s a hwf => (stb_checked s a).writes rfl fun hpass => ⟨fun r c => ?_, fun k hk => ?_⟩
  · rw [← blockAddr_at8]
    exact Memory.byteAt_writeEach_of_inj hwf (List.nodup_finRange 64)
      (fun _ _ _ _ => blockAddr_inj (cursorChecks_passes hpass).1) (fun _ _ _ _ => rfl) (List.mem_finRange _)
  · refine Memory.byteAt_writeEach_other _ hwf fun l _ => ?_
    rw [blockAddr_eq]
    exact (hk _ _).symm

/-! ## BNXT and BRST -/

/-- The state BNXT leaves on plane `a` (R259): the cursor moved over the plane's grid, BEND at the wrap. -/
def afterBnxt (s : State) (a : Slot) : State :=
  let next := nextBlock (blocksX s a) (blocksY s a) (curX s) (curY s)
  (s.setCursor next.1 next.2.1).setBend next.2.2

theorem bnxt_checked (s : State) (a : Slot) : Checked s (cursorChecks s a) (bnxt a s) (afterBnxt s a) := by
  rw [← List.append_nil (cursorChecks s a)]
  refine (cursor_checked s a).bind ?_
  rw [planeView_PW, planeView_PH, blkX_eq, blkY_eq]
  exact .pure s _

/-- R46: the word of BCUR for a cursor of two 16-bit numbers. -/
theorem toNat_cursorWord {bx by' : Nat} (hx : bx < 2 ^ 16) (hy : by' < 2 ^ 16) :
    (BitVec.ofNat 16 by' ++ BitVec.ofNat 16 bx : Word).toNat = by' * 2 ^ 16 + bx := by
  rw [BitVec.toNat_append, BitVec.toNat_ofNat, BitVec.toNat_ofNat, Nat.mod_eq_of_lt hx, Nat.mod_eq_of_lt hy,
    ← Nat.shiftLeft_add_eq_or_of_lt hx, Nat.shiftLeft_eq]

section
variable {nbx nby bx by' : Nat}

/-- R259: the number of the next block's cursor, BY·2^16 + BX. -/
theorem nextBlock_number (nbx nby bx by' : Nat) :
    (nextBlock nbx nby bx by').2.1 * 2 ^ 16 + (nextBlock nbx nby bx by').1 =
      if bx + 1 < nbx then by' * 2 ^ 16 + (bx + 1) else if by' + 1 < nby then (by' + 1) * 2 ^ 16 else 0 := by
  unfold nextBlock
  split
  · rfl
  · split
    · exact Nat.add_zero _
    · rfl

/-- R259: the next block of a block of the grid is in the grid. -/
theorem nextBlock_lt (hx : bx < nbx) (hy : by' < nby) :
    (nextBlock nbx nby bx by').1 < nbx ∧ (nextBlock nbx nby bx by').2.1 < nby := by
  unfold nextBlock
  split
  · next hright => exact ⟨hright, hy⟩
  · split
    · next hdown => exact ⟨Nat.zero_lt_of_lt hx, hdown⟩
    · exact ⟨Nat.zero_lt_of_lt hx, Nat.zero_lt_of_lt hy⟩

/-- R259: the cursor wraps exactly at the last block of the grid. -/
theorem nextBlock_wraps (hx : bx < nbx) (hy : by' < nby) :
    (nextBlock nbx nby bx by').2.2 = true ↔ bx + 1 = nbx ∧ by' + 1 = nby := by
  unfold nextBlock
  split
  · exact iff_of_false Bool.false_ne_true (by omega)
  · split
    · exact iff_of_false Bool.false_ne_true (by omega)
    · exact iff_of_true rfl (by omega)

end

/-- R260: BRST's word of FLAGS. -/
theorem flagPair_false_eq_and :
    ∀ f : BitVec 2, (BitVec.ofBool (f.getLsbD 1) ++ BitVec.ofBool false : BitVec 2) = f &&& 0b10 := by
  decide

/-- R260: BRST leaves a zero cursor and keeps ESC alone of FLAGS. -/
theorem exec_brst (s : State) : exec .brst s = .next { s with bcur := 0, flags := s.flags &&& 0b10, cpc := s.cpc + 4 } := by
  rw [← flagPair_false_eq_and]
  rfl

/-- Settles O30: `nextBlock` is the raster order of a grid whose coordinates fit BCUR's halves. -/
theorem cursorMoves : Obligations.CursorMoves := by
  refine ⟨fun s a => ?_, exec_brst⟩
  obtain ⟨hrefuses, hcompletes⟩ := (bnxt_checked s a).command (i := .bnxt a) rfl
  refine ⟨hrefuses, fun hpass => ?_⟩
  obtain ⟨hx, hy⟩ := cursorChecks_passes hpass
  obtain ⟨hx', hy'⟩ := nextBlock_lt hx hy
  obtain ⟨hW, hH⟩ := blocks_le s a
  have hbend : (afterBnxt s a).flags.getLsbD 0 = (nextBlock _ _ _ _).2.2 := State.setBend_bend _ _
  refine ⟨_, _, hcompletes hpass, ?_, ?_, State.setBend_esc _ _⟩
  · exact (toNat_cursorWord (by omega) (by omega)).trans (nextBlock_number ..)
  · exact hbend ▸ nextBlock_wraps hx hy

end Sys2Proof.Machine
end

