-- ==== Sys2Proof/Proofs/Transform.lean ====
section
/-!
PROOF. The transforms and the variance (42_block_transform.md R251-R256, R261-R263). With K the matrix of the cosine table, FDCT
is the product `K * X * Kᵀ` and IDCT the product `Kᵀ * C * K`, each rounded. One bound on such products, with the sums of |K| over
its rows and columns and the distance of `Kᵀ * K` from 2^40, gives the range of FDCT and the round trip. Settles O19 and O31 to O35.
-/

namespace Sys2Proof.Machine

open Sys2Proof.Claims
open Matrix

/-! ## The cosine table (R251) -/

/-- Settles O19: the ROM is the listed table. -/
theorem cosineRom : Obligations.CosineRom := by
  unfold Obligations.CosineRom
  decide

/-- A block of numbers by row and column (R12). -/
abbrev BlockMatrix := Matrix (Fin 8) (Fin 8) ℤ

/-- R251: the cosine table, row u the frequency and column x the position. -/
def cosineMatrix : BlockMatrix := Matrix.of Tables.K

/-- `Kᵀ * K`, which would be 2^40 on the diagonal and 0 elsewhere, were the table's entries not rounded. -/
def gram : BlockMatrix := cosineMatrixᵀ * cosineMatrix

/-- The exact part of `gram`: 2^40 on the diagonal. -/
def gramScale : BlockMatrix := Matrix.diagonal fun _ => 2 ^ 40

theorem gram_transpose : gramᵀ = gram := by
  rw [gram, transpose_mul, transpose_transpose]

theorem sum_abs_cosine_row : ∀ u, ∑ x, |cosineMatrix u x| ≤ 2965824 := by decide

theorem sum_abs_cosine_column : ∀ x, ∑ u, |cosineMatrixᵀ x u| ≤ 2770178 := by decide

theorem sum_abs_gram : ∀ x, ∑ y, |gram x y| ≤ 2 ^ 41 := by decide

theorem sum_abs_gramScale : ∀ x, ∑ y, |gramScale x y| ≤ 2 ^ 41 := by decide

theorem sum_abs_gram_sub_scale : ∀ x, ∑ y, |(gram - gramScale) x y| ≤ 3786440 := by decide

/-- R256: every row of the table but the first sums to 0. -/
theorem sum_cosine_row : ∀ u, ∑ x, Tables.K u x = if u = 0 then 2965824 else 0 := by decide

/-! ## Products of three blocks -/

theorem mul_mul_transpose_apply (A B X : BlockMatrix) (i j : Fin 8) :
    (A * X * Bᵀ) i j = ∑ y, ∑ x, A i y * B j x * X y x := by
  simp only [Matrix.mul_apply, Matrix.transpose_apply, Finset.sum_mul]
  rw [Finset.sum_comm]
  exact Finset.sum_congr rfl fun y _ => Finset.sum_congr rfl fun x _ => mul_right_comm ..

/-- An entry of the product is at most the sums of the absolute values of the two rows that it takes, times the block's bound. -/
theorem abs_mul_mul_transpose_le {A B X : BlockMatrix} {i j : Fin 8} {a b m : ℤ} (hA : ∑ y, |A i y| ≤ a)
    (hB : ∑ x, |B j x| ≤ b) (hX : ∀ y x, |X y x| ≤ m) : |(A * X * Bᵀ) i j| ≤ a * b * m := by
  have ha : 0 ≤ a := (Finset.sum_nonneg fun y _ => abs_nonneg (A i y)).trans hA
  have hm : 0 ≤ m := (abs_nonneg (X 0 0)).trans (hX 0 0)
  calc |(A * X * Bᵀ) i j| = |∑ y, ∑ x, A i y * B j x * X y x| := by rw [mul_mul_transpose_apply]
    _ ≤ ∑ y, ∑ x, |A i y * B j x * X y x| :=
      (Finset.abs_sum_le_sum_abs ..).trans (Finset.sum_le_sum fun y _ => Finset.abs_sum_le_sum_abs ..)
    _ ≤ ∑ y, ∑ x, |A i y| * |B j x| * m := by
      refine Finset.sum_le_sum fun y _ => Finset.sum_le_sum fun x _ => ?_
      rw [abs_mul, abs_mul]
      exact mul_le_mul_of_nonneg_left (hX y x) (by positivity)
    _ = (∑ y, |A i y|) * (∑ x, |B j x|) * m := by
      rw [Finset.sum_mul_sum]
      simp only [Finset.sum_mul]
    _ ≤ a * b * m := by gcongr

/-! ## The two transforms as products (R252, R253) -/

/-- The samples of a block, shifted by −128 (R252). -/
def samples (blk : Vector Byte 64) : BlockMatrix := Matrix.of fun y x => ((blk.get (at8 y x)).toNat : ℤ) - 128

/-- The coefficients of a block (R253). -/
def coefficients (c : Vector Word 64) : BlockMatrix := Matrix.of fun v u => (c.get (at8 v u)).toInt

theorem sum8_eq_sum (f : Fin 8 → ℤ) : sum8 f = ∑ x, f x := (Fin.sum_univ_def f).symm

theorem fdctAcc_eq (blk : Vector Byte 64) (v u : Fin 8) :
    fdctAcc blk v u = (cosineMatrix * samples blk * cosineMatrixᵀ) v u := by
  rw [mul_mul_transpose_apply]
  simp only [fdctAcc, sum8_eq_sum]
  rfl

theorem idctAcc_eq (c : Vector Word 64) (y x : Fin 8) :
    idctAcc c y x = (cosineMatrixᵀ * coefficients c * cosineMatrixᵀᵀ) y x := by
  rw [mul_mul_transpose_apply]
  simp only [idctAcc, sum8_eq_sum]
  rfl

/-- A sample shifted by −128 is in −128..127. -/
theorem abs_samples_le (blk : Vector Byte 64) (y x : Fin 8) : |samples blk y x| ≤ 128 := by
  have hlt := (blk.get (at8 y x)).isLt
  rw [samples, Matrix.of_apply, abs_le]
  omega

/-- R252, R253: adding half the divisor before a shift is `rnd`. -/
theorem rnd_shift24 (n : ℤ) : (n + 2 ^ 23) / 2 ^ 24 = rnd n (2 ^ 24) := by
  unfold rnd
  omega

theorem rnd_shift56 (n : ℤ) : (n + 2 ^ 55) / 2 ^ 56 = rnd n (2 ^ 56) := by
  unfold rnd
  omega

/-! ## FDCT -/

/-- R252: no coefficient needs saturation. -/
theorem abs_rnd_fdctAcc_le (blk : Vector Byte 64) (v u : Fin 8) : |rnd (fdctAcc blk v u) (2 ^ 24)| ≤ 67109009 := by
  have hacc := abs_mul_mul_transpose_le (sum_abs_cosine_row v) (sum_abs_cosine_row u) (abs_samples_le blk)
  rw [← fdctAcc_eq, abs_le] at hacc
  have hlo := lt_rnd (fdctAcc blk v u) (d := 2 ^ 24) (by decide)
  have hhi := rnd_le (fdctAcc blk v u) (d := 2 ^ 24) (by decide)
  rw [abs_le]
  omega

theorem toInt_two32 {v : ℤ} (h : |v| ≤ 67109009) : (two32 v).toInt = v := by
  rw [abs_le] at h
  rw [two32, BitVec.toInt_ofInt]
  exact Int.bmod_eq_of_le (by omega) (by omega)

theorem get_fdct (blk : Vector Byte 64) (v u : Fin 8) :
    (fdct blk).get (at8 v u) = two32 (rnd (fdctAcc blk v u) (2 ^ 24)) := by
  rw [fdct, Vector.get_ofFn, rowOf_at8, colOf_at8, rnd_shift24]

theorem toInt_get_fdct (blk : Vector Byte 64) (v u : Fin 8) :
    ((fdct blk).get (at8 v u)).toInt = rnd (fdctAcc blk v u) (2 ^ 24) := by
  rw [get_fdct, toInt_two32 (abs_rnd_fdctAcc_le blk v u)]

/-- Settles O31: `fdctAcc` is the sum R252 writes, and its bound keeps the rounded sum inside a word. -/
theorem forwardTransform : Obligations.ForwardTransform := by
  refine fun s => ⟨fdct s.sBlk, rfl, fun v u => ?_⟩
  rw [toInt_get_fdct]
  refine ⟨?_, abs_rnd_fdctAcc_le s.sBlk v u⟩
  rw [fdctAcc_eq, mul_mul_transpose_apply]
  rfl

/-! ## IDCT -/

theorem get_idct (c : Vector Word 64) (y x : Fin 8) :
    (idct c).get (at8 y x) = two8 (clampInt (rnd (idctAcc c y x) (2 ^ 56) + 128) 0 255) := by
  rw [idct, Vector.get_ofFn, rowOf_at8, colOf_at8, rnd_shift56]

/-- Settles O32: `idctAcc` is the sum R253 writes, and a clamped value is a byte. -/
theorem inverseTransform : Obligations.InverseTransform := by
  refine fun s => ⟨idct s.cBlk, rfl, fun y x => ?_⟩
  rw [get_idct, two8, toNat_byte_ofInt, idctAcc_eq, mul_mul_transpose_apply]
  · rfl
  · rw [clampInt_eq_max_min _ (by decide)]
    omega

/-! ## VAR -/

/-- Settles O33: VARN's value fits its register, so the word holds it exactly. -/
theorem blockVariance : Obligations.BlockVariance := by
  refine fun s => ⟨two32 (varn s.sBlk), rfl, ?_, toNat_two32_varn_le s.sBlk⟩
  have hlo := varn_nonneg s.sBlk
  have hhi := varn_le s.sBlk
  rw [← sampleSum_eq_sum, ← squareSum_eq_sum, sq, two32, BitVec.toNat_ofInt]
  unfold varn at *
  omega

/-! ## The round trip (R255) -/

/-- How far FDCT's coefficients, at the sums' scale, are from the sums they are rounded from. -/
def roundingError (blk : Vector Byte 64) : BlockMatrix :=
  (2 ^ 24 : ℤ) • coefficients (fdct blk) - cosineMatrix * samples blk * cosineMatrixᵀ

theorem abs_roundingError_le (blk : Vector Byte 64) (v u : Fin 8) : |roundingError blk v u| ≤ 2 ^ 23 := by
  have hlo := lt_rnd (fdctAcc blk v u) (d := 2 ^ 24) (by decide)
  have hhi := rnd_le (fdctAcc blk v u) (d := 2 ^ 24) (by decide)
  rw [roundingError, Matrix.sub_apply, Matrix.smul_apply, coefficients, Matrix.of_apply, toInt_get_fdct, ← fdctAcc_eq, abs_le,
    smul_eq_mul]
  omega

theorem gramScale_mul_mul (X : BlockMatrix) : gramScale * X * gramScaleᵀ = (2 ^ 80 : ℤ) • X := by
  ext y x
  rw [gramScale, Matrix.diagonal_transpose, Matrix.mul_diagonal, Matrix.diagonal_mul, Matrix.smul_apply, smul_eq_mul]
  ring

/-- R255: IDCT's sum of FDCT's coefficients is the block at scale 2^80, but for the rounding of the coefficients and of the table. -/
theorem idct_fdct_product (blk : Vector Byte 64) :
    (2 ^ 24 : ℤ) • (cosineMatrixᵀ * coefficients (fdct blk) * cosineMatrixᵀᵀ) - (2 ^ 80 : ℤ) • samples blk =
      cosineMatrixᵀ * roundingError blk * cosineMatrixᵀᵀ + (gram - gramScale) * samples blk * gramᵀ +
        gramScale * samples blk * (gram - gramScale)ᵀ := by
  have hgram : gram * samples blk * gramᵀ =
      cosineMatrixᵀ * (cosineMatrix * samples blk * cosineMatrixᵀ) * cosineMatrixᵀᵀ := by
    rw [gram_transpose, gram, transpose_transpose]
    noncomm_ring
  rw [← gramScale_mul_mul, roundingError, transpose_sub]
  simp only [mul_sub, sub_mul, hgram, Matrix.mul_smul, Matrix.smul_mul]
  noncomm_ring

theorem rnd_idctAcc_fdct (blk : Vector Byte 64) (y x : Fin 8) :
    rnd (idctAcc (fdct blk) y x) (2 ^ 56) = samples blk y x := by
  have hrounding := abs_mul_mul_transpose_le (sum_abs_cosine_column y) (sum_abs_cosine_column x) (abs_roundingError_le blk)
  have hleft := abs_mul_mul_transpose_le (sum_abs_gram_sub_scale y) (sum_abs_gram x) (abs_samples_le blk)
  have hright := abs_mul_mul_transpose_le (sum_abs_gramScale y) (sum_abs_gram_sub_scale x) (abs_samples_le blk)
  have hsum := congrFun (congrFun (idct_fdct_product blk) y) x
  simp only [Matrix.add_apply, Matrix.sub_apply, Matrix.smul_apply, ← idctAcc_eq, smul_eq_mul] at hsum
  rw [abs_le] at hrounding hleft hright
  have hlo := lt_rnd (idctAcc (fdct blk) y x) (d := 2 ^ 56) (by decide)
  have hhi := rnd_le (idctAcc (fdct blk) y x) (d := 2 ^ 56) (by decide)
  omega

/-- A block is given by its entries, row by row (R12). -/
theorem block_ext {α : Type} {a b : Vector α 64} (h : ∀ r c, a.get (at8 r c) = b.get (at8 r c)) : a = b := by
  refine Vector.ext fun k hk => ?_
  have hentry := h (rowOf ⟨k, hk⟩) (colOf ⟨k, hk⟩)
  rwa [at8_rowOf_colOf] at hentry

theorem two8_clamp_sample (b : Byte) : two8 (clampInt ((b.toNat : ℤ) - 128 + 128) 0 255) = b := by
  have hlt := b.isLt
  rw [sub_add_cancel, clampInt_eq_max_min _ (by decide), min_eq_right (by omega), max_eq_right (by omega), two8,
    BitVec.ofInt_natCast, BitVec.ofNat_toNat, BitVec.setWidth_eq]

/-- R255. -/
theorem idct_fdct (blk : Vector Byte 64) : idct (fdct blk) = blk := by
  refine block_ext fun y x => ?_
  rw [get_idct, rnd_idctAcc_fdct]
  exact two8_clamp_sample _

theorem exec_fdct_next {s t : State} (h : exec .fdct s = .next t) : t.cBlk = fdct s.sBlk := by
  cases h
  rfl

theorem exec_idct_next {s t : State} (h : exec .idct s = .next t) : t.sBlk = idct s.cBlk := by
  cases h
  rfl

/-- Settles O34: the errors of both transforms together stay below half a sample, so IDCT's rounding removes them. -/
theorem transformRoundTrip : Obligations.TransformRoundTrip :=
  fun s _ h => ⟨_, rfl, (congrArg idct (exec_fdct_next h)).trans (idct_fdct s.sBlk)⟩

/-! ## Flat blocks (R256) -/

/-- R256: FDCT's sum over a flat block takes the sums of two rows of the table, which are 0 but for the first. -/
theorem fdctAcc_flat {blk : Vector Byte 64} {b : Byte} (h : ∀ k, blk.get k = b) (v u : Fin 8) :
    fdctAcc blk v u =
      (if v = 0 then 2965824 else 0) * (if u = 0 then 2965824 else 0) * ((b.toNat : ℤ) - 128) := by
  rw [← sum_cosine_row v, ← sum_cosine_row u, Finset.sum_mul_sum]
  simp only [fdctAcc, sum8_eq_sum, h, Finset.sum_mul]

theorem get_fdct_flat_ac {blk : Vector Byte 64} {b : Byte} (h : ∀ k, blk.get k = b) {k : Fin 64} (hk : k ≠ 0) :
    (fdct blk).get k = 0 := by
  have hac : fdctAcc blk (rowOf k) (colOf k) = 0 := by
    rw [fdctAcc_flat h]
    by_cases hrow : rowOf k = 0
    · have hcol : colOf k ≠ 0 := fun hcol => hk (by rw [← at8_rowOf_colOf k, hrow, hcol]; rfl)
      rw [if_neg hcol, mul_zero, zero_mul]
    · rw [if_neg hrow, zero_mul, zero_mul]
  rw [← at8_rowOf_colOf k, get_fdct, hac]
  rfl

theorem get_fdct_flat_dc {blk : Vector Byte 64} {b : Byte} (h : ∀ k, blk.get k = b) :
    (fdct blk).get 0 = two32 (rnd (2965824 * 2965824 * ((b.toNat : ℤ) - 128)) (2 ^ 24)) := by
  have hdc := get_fdct blk 0 0
  rwa [fdctAcc_flat h] at hdc

theorem get_idct_zero {c : Vector Word 64} (h : ∀ k, c.get k = 0) (k : Fin 64) : (idct c).get k = 128 := by
  have hzero : coefficients c = 0 := by
    ext v u
    rw [coefficients, Matrix.of_apply, h]
    rfl
  rw [← at8_rowOf_colOf k, get_idct, idctAcc_eq, hzero, mul_zero, zero_mul]
  rfl

/-- Settles O35: the first row of the table alone has a sum other than 0. -/
theorem flatBlocks : Obligations.FlatBlocks := by
  refine ⟨fun s t v hflat h => ?_, fun s t hzero h k => ?_⟩
  · rw [exec_fdct_next h, get_fdct_flat_dc hflat]
    refine ⟨fun _ => get_fdct_flat_ac hflat, ?_, ?_, ?_⟩ <;> rintro rfl <;> rfl
  · rw [exec_idct_next h]
    exact get_idct_zero hzero k

end Sys2Proof.Machine
end

