-- ==== Sys2Proof/Proofs/Quantizer.lean ====
section
/-!
PROOF. The quantizer commands (43_quantizer.md R302-R308): the checks of a table, of the candidates and of a quality, the snap to
the nearest candidate, and why a quantized value fits its word. Settles O36 and O37.
-/

namespace Sys2Proof.Machine

open Sys2Proof.Claims

/-! ## Exact values (R10, R11) -/

/-- R11: a clamped value lies in the interval. -/
theorem clampInt_mem (v : Int) {lo hi : Int} (h : lo ≤ hi) : lo ≤ clampInt v lo hi ∧ clampInt v lo hi ≤ hi := by
  rw [clampInt_eq_max_min v h]
  omega

/-- R10: rounding keeps a quotient within an integer bound. -/
theorem abs_rnd_le {n d m : Int} (hd : 0 < d) (h : |n| ≤ m * d) : |rnd n d| ≤ m := by
  rw [abs_le] at h ⊢
  have hlo := lt_rnd n hd
  have hhi := rnd_le n hd
  constructor
  · have hscaled : 2 * d * (-m - 1) < 2 * d * rnd n d := by linarith
    have hlt := lt_of_mul_lt_mul_left hscaled (by omega)
    omega
  · have hscaled : 2 * d * rnd n d < 2 * d * (m + 1) := by linarith
    exact Int.lt_add_one_iff.mp (lt_of_mul_lt_mul_left hscaled (by omega))

theorem abs_toInt_word_le (w : Word) : |w.toInt| ≤ 2 ^ 31 := by
  have hlo := BitVec.le_toInt w
  have hhi := BitVec.toInt_lt (x := w)
  rw [abs_le]
  omega

/-- R308: a saturated value fits its word. -/
theorem toInt_two32_sat32 (v : Int) : (two32 (sat32 v)).toInt = sat v := by
  obtain ⟨hlo, hhi⟩ := clampInt_mem v (lo := -2 ^ 31) (hi := 2 ^ 31 - 1) (by decide)
  exact BitVec.toInt_ofInt_eq_self (by decide) hlo (by unfold sat32; omega)

theorem passes_append {cs ds : List (Bool × Byte)} : Passes (cs ++ ds) ↔ Passes cs ∧ Passes ds := by
  simp only [passes_iff, List.forall_mem_append]

/-! ## Tables and qualities (R302) -/

theorem toNat_get_qtable (s : State) (t : QTable) (k : Fin 64) : ((s.qtable t).get k).toNat = tableEntry s t k := by
  cases t <;> rfl

theorem table_checked (s : State) (t : QTable) : Checked s (tableChecks s t) (table t s) (s.qtable t) := by
  have hzero : (s.qtable t).toList.any (· == 0) = decide (∃ k, tableEntry s t k = 0) := by
    rw [Bool.eq_iff_iff, Vector.any_toList, Vector.any_eq_true]
    simp [← toNat_get_qtable, Vector.get_eq_getElem, Fin.exists_iff, ← BitVec.toNat_inj]
  exact (refuseIf_checked s hzero .configQtab).bind (.pure s _)

/-- R302: a checked table has no zero entry. -/
theorem toNat_get_qtable_pos {s : State} {t : QTable} (h : Passes (tableChecks s t)) (k : Fin 64) :
    0 < ((s.qtable t).get k).toNat := by
  have hzero := passes_iff.mp h _ (List.mem_singleton_self _)
  exact Nat.pos_of_ne_zero fun hk => of_decide_eq_false hzero ⟨k, toNat_get_qtable s t k ▸ hk⟩

theorem legalQuality_checked (q : Byte) (s : State) : Checked s [(badQuality q, 0x10)] (legalQuality q s) q.toNat :=
  (refuseIf_checked s rfl .configQuality).bind (.pure s _)

theorem toNat_quality_le {q : Byte} (h : Passes [(badQuality q, 0x10)]) : q.toNat ≤ 100 := by
  have hbad := passes_iff.mp h _ (List.mem_singleton_self _)
  simp only [badQuality, Bool.or_eq_false_iff, decide_eq_false_iff_not] at hbad
  omega

/-! ## Candidates (R54, R304) -/

theorem candidates_eq_ofFn (s : State) : s.candidates = List.ofFn (candAt s) := by
  have h01 := s.cand01.isLt
  have h23 := s.cand23.isLt
  have hupper (w : Word) : w.toNat / 2 ^ 16 % 2 ^ 16 = w.toNat / 2 ^ 16 := Nat.mod_eq_of_lt (by omega)
  simp only [State.candidates, toNat_field, hupper, pow_zero, Nat.div_one]
  rfl

/-- The candidates in use: those below CAND_N. -/
def State.usedCandidates (s : State) : List Nat := s.candidates.take s.candN.toNat

theorem length_usedCandidates (s : State) : s.usedCandidates.length = min s.candN.toNat 4 := List.length_take

theorem getElem_usedCandidates (s : State) {j : Nat} (hj : j < s.usedCandidates.length) :
    s.usedCandidates[j] = candAt s ⟨j, by rw [length_usedCandidates] at hj; omega⟩ := by
  simp only [State.usedCandidates, candidates_eq_ofFn, List.getElem_take, List.getElem_ofFn]

theorem mem_usedCandidates {s : State} {c : Nat} :
    c ∈ s.usedCandidates ↔ ∃ k : Fin 4, k.val < s.candN.toNat ∧ candAt s k = c := by
  simp only [List.mem_iff_getElem, getElem_usedCandidates, length_usedCandidates]
  constructor
  · rintro ⟨j, hj, rfl⟩
    exact ⟨⟨j, by omega⟩, hj.trans_le (min_le_left _ _), rfl⟩
  · rintro ⟨k, hk, rfl⟩
    exact ⟨k.val, by omega, rfl⟩

theorem candidates_checked (s : State) : Checked s (candidateChecks s) (candidates s) s.usedCandidates := by
  have hzero : s.usedCandidates.any (· == 0) = decide (∃ k : Fin 4, k.val < s.candN.toNat ∧ candAt s k = 0) := by
    rw [Bool.eq_iff_iff]
    simp [mem_usedCandidates]
  exact (refuseIf_checked s rfl .configCandset).bind <| (refuseIf_checked s hzero .configCand).bind <| .pure s _

/-- R304: legal candidates are 1 to 4, none of them 0. -/
theorem candidateChecks_passes {s : State} (h : Passes (candidateChecks s)) :
    0 < s.usedCandidates.length ∧ ∀ k : Fin 4, k.val < s.candN.toNat → 0 < candAt s k := by
  simp only [passes_iff, candidateChecks, List.forall_mem_cons, Bool.or_eq_false_iff, decide_eq_false_iff_not] at h
  obtain ⟨hcount, hzero, -⟩ := h
  rw [length_usedCandidates]
  exact ⟨by omega, fun k hk => Nat.pos_of_ne_zero fun hc => hzero ⟨k, hk, hc⟩⟩

theorem getD_usedCandidates {s : State} {k : Fin 4} (hk : k.val < s.candN.toNat) :
    s.usedCandidates.getD k.val 0 = candAt s k := by
  have hlt : k.val < s.usedCandidates.length := by rw [length_usedCandidates]; omega
  rw [List.getD_eq_getElem _ _ hlt, getElem_usedCandidates]

/-! ## The adaptive quality and the snap (R303, R304) -/

theorem adaptiveQuality_eq (s : State) : (adaptiveQuality s : Int) = effectiveQuality s := by
  have haqf := s.aqf.isLt
  have hlow : (s.aqf.extractLsb' 0 8).toNat = s.aqf.toNat % 2 ^ 8 := BitVec.extractLsb'_toNat ..
  have hmid : (s.aqf.extractLsb' 8 8).toNat = s.aqf.toNat / 2 ^ 8 % 2 ^ 8 := by
    rw [BitVec.extractLsb'_toNat, Nat.shiftRight_eq_div_pow]
  have hhigh : (s.aqf.extractLsb' 16 8).toNat = s.aqf.toNat / 2 ^ 16 := by
    rw [BitVec.extractLsb'_toNat, Nat.shiftRight_eq_div_pow, Nat.mod_eq_of_lt (by omega)]
  rw [adaptiveQuality, Int.toNat_of_nonneg ((clampInt_mem _ (by decide)).1.trans' (by decide)), hlow, hmid, hhigh]
  simp only [effectiveQuality]
  push_cast
  rfl

theorem effectiveQuality_mem (s : State) : 1 ≤ effectiveQuality s ∧ effectiveQuality s ≤ 100 := clampInt_mem _ (by decide)

/-- R304: the snap of a list that is not empty is an index of it, no element is nearer, and each earlier one is farther. -/
theorem snap_nearest (q : Nat) {cand : List Nat} (h : 0 < cand.length) :
    ∃ hi : snap q cand < cand.length, (∀ d ∈ cand, snapDistance q cand[snap q cand] ≤ snapDistance q d) ∧
      ∀ j (hj : j < snap q cand), snapDistance q cand[snap q cand] < snapDistance q cand[j] := by
  obtain ⟨c, hc, hmin⟩ := cand.toFinset.exists_min_image (snapDistance q) ⟨cand[0], by simp⟩
  simp only [List.mem_toFinset] at hc hmin
  have hi : snap q cand < cand.length := List.findIdx_lt_length.mpr ⟨c, hc, by simpa using hmin⟩
  have hnearest : ∀ d ∈ cand, snapDistance q cand[snap q cand] ≤ snapDistance q d := by
    have hall := List.findIdx_getElem (w := hi)
    simp only [List.all_eq_true, decide_eq_true_eq] at hall
    exact hall
  refine ⟨hi, hnearest, fun j hj => ?_⟩
  obtain ⟨d, hd, hlt⟩ : ∃ d ∈ cand, snapDistance q d < snapDistance q cand[j] := by
    simpa using List.not_of_lt_findIdx hj
  exact (hnearest d hd).trans_lt hlt

theorem snapDistance_candAt (s : State) (k : Fin 4) : (snapDistance (adaptiveQuality s) (candAt s k) : Int) = snapGap s k := by
  rw [snapDistance, Int.natCast_natAbs, adaptiveQuality_eq]
  rfl

/-- R304: under legal candidates the model's snap is the index the statement describes. -/
theorem exists_isSnap {s : State} (h : Passes (candidateChecks s)) :
    ∃ i : Fin 4, snap (adaptiveQuality s) s.usedCandidates = i.val ∧ IsSnap s i := by
  obtain ⟨hi, hnearest, hearlier⟩ := snap_nearest (adaptiveQuality s) (candidateChecks_passes h).1
  have hbound := hi.trans_eq (length_usedCandidates s)
  simp only [getElem_usedCandidates] at hnearest hearlier
  refine ⟨⟨_, hbound.trans_le (min_le_right _ _)⟩, rfl, ?_⟩
  simp only [IsSnap, ← snapDistance_candAt, Int.ofNat_le, Int.ofNat_lt]
  exact ⟨hbound.trans_le (min_le_left _ _), fun j hj => hnearest _ (mem_usedCandidates.mpr ⟨j, hj, rfl⟩),
    fun j hj => hearlier j.val hj⟩

/-! ## QNT (R305-R307) -/

/-- R306: what QNT stores for a value within 2^23 is the value, clamped where CFG.QCLAMP is 1. -/
theorem toInt_qstore {s : State} {v : Int} (h : |v| ≤ 2 ^ 23) : (qstore s.qclamp v).toInt = clampedIf s v := by
  have hclamp := clampInt_mem v (lo := -128) (hi := 127) (by decide)
  rw [abs_le] at h
  have hfits : |clampedIf s v| ≤ 67109009 := by
    unfold clampedIf
    rw [abs_le]
    split <;> omega
  have hstore : qstore s.qclamp v = two32 (clampedIf s v) := by
    simp only [qstore, State.qclamp, clampedIf, beq_iff_eq]
  rw [hstore, toInt_two32 hfits]

/-- R306: the bound of a quantized value in the fixed and continuous modes, where a divisor is at least 50 · 65536. -/
theorem abs_quantByQuality_le {q : Nat} (hq : q ≤ 100) (c : Word) {t : Byte} (ht : 0 < t.toNat) :
    |quantByQuality q c t| ≤ 2 ^ 16 := by
  have hc := abs_toInt_word_le c
  refine abs_rnd_le (by omega) ?_
  rw [abs_mul, Nat.abs_cast]
  calc |c.toInt| * q ≤ 2 ^ 31 * 100 := by gcongr; exact_mod_cast hq
    _ ≤ 2 ^ 16 * (t.toNat * 50 * 65536) := by omega

/-- R306: the bound in the indexed mode, where a divisor is at least 256. -/
theorem abs_quantByCandidate_le {cand : Nat} (hcand : 0 < cand) (c : Word) {t : Byte} (ht : 0 < t.toNat) :
    |quantByCandidate cand c t| ≤ 2 ^ 23 := by
  have hpos : (1 : Int) ≤ t.toNat * cand := by exact_mod_cast Nat.mul_pos ht hcand
  have hc := abs_toInt_word_le c
  refine abs_rnd_le (by rw [mul_assoc]; omega) ?_
  rw [mul_assoc]
  omega

theorem qnt_fixed_checked (s : State) (t : QTable) : Checked s (quantChecks s t .fixed) (qnt t .fixed s)
    { s with qBlk := quantBlock s (s.qtable t) (quantByQuality s.quality.toNat) } :=
  (table_checked s t).bind <| (legalQuality_checked s.quality s).bind <| .pure s _

theorem qnt_cont_checked (s : State) (t : QTable) : Checked s (quantChecks s t .cont) (qnt t .cont s)
    { s with
      qeff := BitVec.ofNat 8 (adaptiveQuality s)
      qBlk := quantBlock s (s.qtable t) (quantByQuality (adaptiveQuality s)) } :=
  (table_checked s t).bind <| .pure s _

theorem qnt_idx_checked (s : State) (t : QTable) : Checked s (quantChecks s t .idx) (qnt t .idx s)
    { s with
      qidx := BitVec.ofNat 2 (snap (adaptiveQuality s) s.usedCandidates)
      qBlk := quantBlock s (s.qtable t)
        (quantByCandidate (s.usedCandidates.getD (snap (adaptiveQuality s) s.usedCandidates) 0)) } :=
  (table_checked s t).bind <| (candidates_checked s).bind <| .pure s _

/-- R307: an entry of Q whose quotient is within 2^23. -/
theorem toInt_get_quantBlock {s : State} {T : Vector Byte 64} {f : Word → Byte → Int} {k : Fin 64}
    (h : |f (s.cBlk.get k) (T.get k)| ≤ 2 ^ 23) :
    ((quantBlock s T f).get k).toInt = clampedIf s (f (s.cBlk.get k) (T.get k)) := by
  rw [quantBlock, Vector.get_ofFn, toInt_qstore h]

/-- R307: an entry of Q in the fixed and continuous modes. -/
theorem toInt_get_quantBlock_quality {s : State} {t : QTable} (ht : Passes (tableChecks s t)) {q : Nat} (hq : q ≤ 100)
    (k : Fin 64) : ((quantBlock s (s.qtable t) (quantByQuality q)).get k).toInt =
      clampedIf s (rnd ((s.cBlk.get k).toInt * q) ((tableEntry s t k : Int) * 50 * 65536)) := by
  rw [← toNat_get_qtable]
  exact toInt_get_quantBlock ((abs_quantByQuality_le hq _ (toNat_get_qtable_pos ht k)).trans (by decide))

/-- R307: an entry of Q in the indexed mode. -/
theorem toInt_get_quantBlock_candidate {s : State} {t : QTable} (ht : Passes (tableChecks s t)) {cand : Nat}
    (hcand : 0 < cand) (k : Fin 64) : ((quantBlock s (s.qtable t) (quantByCandidate cand)).get k).toInt =
      clampedIf s (rnd (s.cBlk.get k).toInt (256 * (tableEntry s t k : Int) * (cand : Int))) := by
  rw [← toNat_get_qtable]
  exact toInt_get_quantBlock (abs_quantByCandidate_le hcand _ (toNat_get_qtable_pos ht k))

/-- Settles O36: every mode's divisor is positive after its checks and keeps the quotient inside a word. -/
theorem quantization : Obligations.Quantization := by
  intro s t md
  cases md with
  | fixed =>
    obtain ⟨hrefuses, hcompletes⟩ := (qnt_fixed_checked s t).command (i := .qnt t .fixed) rfl
    refine ⟨hrefuses, fun hpass => ⟨_, hcompletes hpass, ?_⟩⟩
    obtain ⟨ht, hq⟩ := passes_append.mp hpass
    exact toInt_get_quantBlock_quality ht (toNat_quality_le hq)
  | cont =>
    obtain ⟨hrefuses, hcompletes⟩ := (qnt_cont_checked s t).command (i := .qnt t .cont) rfl
    refine ⟨hrefuses, fun hpass => ⟨_, _, hcompletes hpass, ?_⟩⟩
    have hq := effectiveQuality_mem s
    rw [← adaptiveQuality_eq] at hq ⊢
    refine ⟨?_, toInt_get_quantBlock_quality (passes_append.mp hpass).1 (by omega)⟩
    rw [BitVec.toNat_ofNat, Nat.mod_eq_of_lt (by omega)]
  | idx =>
    obtain ⟨hrefuses, hcompletes⟩ := (qnt_idx_checked s t).command (i := .qnt t .idx) rfl
    refine ⟨hrefuses, fun hpass => ?_⟩
    obtain ⟨ht, hcand⟩ := passes_append.mp hpass
    obtain ⟨i, hi, hsnap⟩ := exists_isSnap hcand
    have hnext := hcompletes hpass
    rw [hi, getD_usedCandidates hsnap.1] at hnext
    have hidx : BitVec.ofNat 2 i.val = BitVec.ofFin i := BitVec.eq_of_toNat_eq (Nat.mod_eq_of_lt i.isLt)
    rw [hidx] at hnext
    exact ⟨_, i, hnext, hsnap, toInt_get_quantBlock_candidate ht ((candidateChecks_passes hcand).2 i hsnap.1)⟩

/-! ## DQNT (R308) -/

/-- R308: an entry of C, saturated. -/
theorem toInt_get_dequantBlock (s : State) (t : QTable) (f : Word → Byte → Int) (k : Fin 64) :
    ((dequantBlock s (s.qtable t) f).get k).toInt = sat (f (s.qBlk.get k) ((s.qtable t).get k)) := by
  rw [dequantBlock, Vector.get_ofFn, toInt_two32_sat32]

/-- What DQNT computes for an entry before it saturates it (R308). -/
def dequantValue (s : State) : QMode → Word → Byte → Int
  | .fixed => dequantByQuality s.quality.toNat
  | .cont => dequantByQuality s.qeff.toNat
  | .idx => dequantByCandidate (s.usedCandidates.getD s.qidx.toNat 0)

theorem dqnt_checked (s : State) (t : QTable) (md : QMode) : Checked s (dequantChecks s t md) (dqnt t md s)
    { s with cBlk := dequantBlock s (s.qtable t) (dequantValue s md) } := by
  refine (table_checked s t).bind ?_
  cases md with
  | fixed => exact (legalQuality_checked s.quality s).bind <| .pure s _
  | cont => exact (legalQuality_checked s.qeff s).bind <| .pure s _
  | idx =>
    have hidx : decide (s.qidx.toNat ≥ s.usedCandidates.length) = decide (s.qidx.toNat ≥ s.candN.toNat) := by
      have hlt := s.qidx.isLt
      rw [length_usedCandidates, decide_eq_decide]
      omega
    exact (candidates_checked s).bind <| (refuseIf_checked s hidx .decodeIdx).bind <| .pure s _

/-- Settles O37: a saturated value is a word, and the checked index names a candidate in use. -/
theorem dequantization : Obligations.Dequantization := by
  intro s t md
  obtain ⟨hrefuses, hcompletes⟩ := (dqnt_checked s t md).command (i := .dqnt t md) rfl
  refine ⟨hrefuses, fun hpass => ⟨_, hcompletes hpass, fun k => ?_⟩⟩
  rw [toInt_get_dequantBlock, ← toNat_get_qtable]
  cases md with
  | fixed | cont => rfl
  | idx =>
    obtain ⟨-, hcand⟩ := passes_append.mp hpass
    obtain ⟨-, hidx⟩ := passes_append.mp hcand
    have hlt := of_decide_eq_false (passes_iff.mp hidx _ (List.mem_singleton_self _))
    rw [dequantValue, ← getD_usedCandidates (k := s.qidx.toFin) (Nat.lt_of_not_le hlt)]
    rfl

end Sys2Proof.Machine
end

