-- ==== Sys2Proof/Proofs/ByteStreams.lean ====
section
/-!
PROOF. The byte streams (20_memory.md R110, R111, R115, R116): a stream moved on by bytes, reads and writes inside a stream's
room and at its end, runs of bytes in LMEM, and what a command that writes bytes does. Settles O42 and O44.
-/

namespace Sys2Proof.Machine

open Sys2Proof.Claims

/-! ## A stream and its room -/

theorem room_eq_zero_iff {st : Stream} {size : Nat} :
    room st size = 0 ↔ st.lim.toNat ≤ st.ptr.toNat ∨ size ≤ st.ptr.toNat := by
  unfold room
  omega

theorem bytesOn_zero (st : Stream) : bytesOn st 0 = st := by simp [bytesOn]

theorem bytesOn_bytesOn (st : Stream) (a b : Nat) : bytesOn (bytesOn st a) b = bytesOn st (a + b) := by
  simp only [bytesOn, BitVec.ofNat_add, BitVec.add_assoc]

section
variable {st : Stream} {size n : Nat}

/-- R116: inside the room the pointer does not wrap. -/
theorem toNat_bytesOn_ptr (h : n ≤ room st size) : (bytesOn st n).ptr.toNat = st.ptr.toNat + n := by
  have hptr := st.ptr.isLt
  have hlim := st.lim.isLt
  unfold room at h
  rw [bytesOn, BitVec.toNat_add, BitVec.toNat_ofNat, Nat.add_mod_mod, Nat.mod_eq_of_lt (by omega)]

theorem room_bytesOn (h : n ≤ room st size) : room (bytesOn st n) size = room st size - n := by
  unfold room
  rw [toNat_bytesOn_ptr h]
  exact Nat.sub_add_eq ..

theorem pastEnd_bytesOn (h : n ≤ room st size) (code : Byte) : pastEnd (bytesOn st n) size code = pastEnd st size code := by
  unfold pastEnd
  rw [room_bytesOn h, toNat_bytesOn_ptr h, Nat.add_assoc, Nat.add_sub_cancel' h]
  rfl

end

/-! ## Errors -/

/-- `x` raises the error of this code, and leaves LMEM as `m`. -/
def Raises {α : Type} (x : Run α) (code : Byte) (m : Memory) : Prop := ∃ c : ErrCode, c.code = code ∧ x = .error ⟨c, m⟩

section
variable {α β : Type} {x : Run α} {code : Byte} {m : Memory}

theorem Raises.bind (h : Raises x code m) (f : α → Run β) : Raises (x >>= f) code m := by
  obtain ⟨c, hc, rfl⟩ := h
  exact ⟨c, hc, rfl⟩

/-- A part that completes, and after it one that raises. -/
theorem Raises.after {a : α} {f : α → Run β} (hx : x = .ok a) (h : Raises (f a) code m) : Raises (x >>= f) code m := by
  rw [hx]
  exact h

/-- A loop raises what one of its rounds does, where the rounds before it complete. -/
theorem Raises.foldlM {ι : Type} {f : α → ι → Run α} {l : List ι} {a b : α} {r : Nat} (hr : r < l.length)
    (hok : (l.take r).foldlM f a = .ok b) (h : Raises (f b l[r]) code m) : Raises (l.foldlM f a) code m := by
  rw [← List.take_append_drop r l, List.drop_eq_getElem_cons hr, List.foldlM_append]
  exact .after hok (h.bind _)

theorem Raises.refuseIf {bad : Bool} (hbad : bad = true) (c : ErrCode) (s : State) :
    Raises (Machine.refuseIf bad c s) c.code s.mem := ⟨c, rfl, refuseIf_error.mpr ⟨hbad, rfl⟩⟩

/-- A command whose body raises an error halts with its code (R510). -/
theorem Raises.halts {i : Instr} {body : State → Run State} {s : State} (h : Raises (body s) code m)
    (hexec : exec i s = runCommand i body s) : exec i s = .next (halted s code (encode i) m) := by
  obtain ⟨c, rfl, hbody⟩ := h
  rw [hexec, runCommand_of_error hbody]
  rfl

end

theorem needAligned_of_zero {bit : BitVec 3} (h : bit = 0) (s : State) : needAligned bit s = .ok () := needAligned_ok.mpr h

theorem needAligned_raises {bit : BitVec 3} (h : bit ≠ 0) (s : State) : Raises (needAligned bit s) 0x50 s.mem :=
  .refuseIf (bne_iff_ne.mpr h) .streamAlign s

/-- A part of a command that checks the limit of a stream and then reaches LMEM at its pointer raises the error of its end,
where the stream has ended. -/
theorem access_raises {α : Type} {s : State} {st : Stream} (h : room st s.lmemSize = 0) (c : ErrCode) {x : Run α}
    (hx : s.lmemSize ≤ st.ptr.toNat → x = .error ⟨.addr, s.mem⟩) :
    Raises (refuseIf st.atLimit c s >>= fun _ => x) (pastEnd st s.lmemSize c.code) s.mem := by
  unfold pastEnd
  rw [h, Nat.add_zero]
  by_cases hlim : st.lim.toNat ≤ st.ptr.toNat
  · rw [if_pos hlim]
    exact (Raises.refuseIf (decide_eq_true hlim) c s).bind _
  · rw [if_neg hlim]
    have hsize : s.lmemSize ≤ st.ptr.toNat := (room_eq_zero_iff.mp h).resolve_left hlim
    exact .after (a := ()) (refuseIf_ok.mpr (decide_eq_false hlim)) ⟨.addr, rfl, hx hsize⟩

/-! ## One byte read or written -/

/-- The state after `n` bytes of the read stream are read (R110). -/
def State.readOn (s : State) (n : Nat) : State := { s with rd := bytesOn s.rd n }

section
variable {s : State} {n : Nat}

theorem rdByte_of_room (c : ErrCode) (h : 0 < room s.rd s.lmemSize) :
    rdByte c s = .ok (s.mem.byteAt s.rd.ptr.toNat, s.readOn 1) := by
  unfold room at h
  exact rdByte_ok.mpr ⟨by omega, by omega, rfl, rfl⟩

theorem rdByte_raises (c : ErrCode) (h : room s.rd s.lmemSize = 0) :
    Raises (rdByte c s) (pastEnd s.rd s.lmemSize c.code) s.mem :=
  access_raises h c fun hx => Run.bind_error.mpr (.inl (memRead_error.mpr ⟨hx, rfl⟩))

/-- The byte after `n` others. -/
theorem rdByte_readOn (c : ErrCode) (h : n < room s.rd s.lmemSize) :
    rdByte c (s.readOn n) = .ok (s.mem.byteAt (s.rd.ptr.toNat + n), s.readOn (n + 1)) := by
  refine (rdByte_of_room c ((Nat.sub_pos_of_lt h).trans_eq (room_bytesOn h.le).symm)).trans ?_
  rw [State.readOn, toNat_bytesOn_ptr h.le, State.readOn, bytesOn_bytesOn]
  rfl

/-- A byte read after `n` others, where the stream may have ended, and then a part that meets its end. -/
theorem Raises.rdByte_readOn {α : Type} {c : ErrCode} {f : Byte × State → Run α} (hn : n ≤ room s.rd s.lmemSize)
    (hf : ∀ b, n < room s.rd s.lmemSize → Raises (f (b, s.readOn (n + 1))) (pastEnd s.rd s.lmemSize c.code) s.mem) :
    Raises (rdByte c (s.readOn n) >>= f) (pastEnd s.rd s.lmemSize c.code) s.mem := by
  obtain hlt | heq := Nat.lt_or_eq_of_le hn
  · exact .after (Machine.rdByte_readOn c hlt) (hf _ hlt)
  · rw [← pastEnd_bytesOn hn]
    exact (rdByte_raises c ((room_bytesOn hn).trans (Nat.sub_eq_zero_of_le heq.ge))).bind f

theorem wrByte_of_room (v : Byte) (h : 0 < room s.wr s.lmemSize) :
    wrByte v s = .ok { s with mem := s.mem.write s.wr.ptr.toNat v, wr := bytesOn s.wr 1 } := by
  unfold room at h
  exact wrByte_ok.mpr ⟨by omega, by omega, rfl⟩

theorem wrByte_raises (v : Byte) (h : room s.wr s.lmemSize = 0) :
    Raises (wrByte v s) (pastEnd s.wr s.lmemSize 0x51) s.mem :=
  access_raises h .streamWovf fun hx => Run.bind_error.mpr (.inl (memWrite_error.mpr ⟨hx, rfl⟩))

end

/-! ## Runs of bytes in LMEM -/

theorem holds_cons {m : Memory} {p : Nat} {b : Byte} {bs : List Byte} :
    Holds m p (b :: bs) ↔ m.byteAt p = b ∧ Holds m (p + 1) bs := by
  have hshift (j : Nat) : p + (j + 1) = p + 1 + j := by omega
  refine ⟨fun h => ⟨h 0 (Nat.zero_lt_succ _), fun j hj => ?_⟩, fun ⟨hb, hbs⟩ j hj => ?_⟩
  · rw [← hshift]
    exact h (j + 1) (Nat.succ_lt_succ hj)
  · cases j with
    | zero => exact hb
    | succ j =>
      rw [hshift]
      exact hbs j (Nat.lt_of_succ_lt_succ hj)

theorem holds_append {m : Memory} {p : Nat} {as bs : List Byte} :
    Holds m p (as ++ bs) ↔ Holds m p as ∧ Holds m (p + as.length) bs := by
  induction as generalizing p with
  | nil => exact ⟨fun h => ⟨nofun, h⟩, fun h => h.2⟩
  | cons a as ih =>
    rw [List.cons_append, holds_cons, holds_cons, ih, List.length_cons, Nat.add_assoc, Nat.add_comm 1, and_assoc]

/-- LMEM after the bytes are written from address `p` on. -/
def Memory.writeBytes (m : Memory) (p : Nat) : List Byte → Memory
  | [] => m
  | b :: bs => Memory.writeBytes (m.write p b) (p + 1) bs

theorem stored_writeBytes {m : Memory} (hwf : m.wf) (p : Nat) (bs : List Byte) : Stored m (m.writeBytes p bs) p bs := by
  induction bs generalizing m p with
  | nil => exact ⟨nofun, fun _ _ => rfl⟩
  | cons b bs ih =>
    obtain ⟨hin, hout⟩ := ih (Memory.wf_write hwf p b) (p + 1)
    refine ⟨holds_cons.mpr ⟨?_, hin⟩, fun k hk => ?_⟩
    · rw [Memory.writeBytes, hout p (.inl p.lt_succ_self), Memory.byteAt_write hwf, if_pos rfl]
    · rw [List.length_cons] at hk
      rw [Memory.writeBytes, hout k (by omega), Memory.byteAt_write hwf, if_neg (by omega)]

/-! ## Bytes written to the write stream -/

theorem wrBytes_of_room {s : State} {bs : List Byte} (h : bs.length ≤ room s.wr s.lmemSize) :
    wrBytes bs s = .ok { s with mem := s.mem.writeBytes s.wr.ptr.toNat bs, wr := bytesOn s.wr bs.length } := by
  induction bs generalizing s with
  | nil => rw [List.length_nil, bytesOn_zero]; rfl
  | cons b bs ih =>
    rw [List.length_cons] at h
    have hone : 1 ≤ room s.wr s.lmemSize := by omega
    refine Run.bind_ok.mpr ⟨_, wrByte_of_room b hone, (ih ?_).trans ?_⟩
    · exact Nat.le_sub_of_add_le h |>.trans_eq (room_bytesOn hone).symm
    · simp only [bytesOn_bytesOn, toNat_bytesOn_ptr hone, Memory.writeBytes, List.length_cons, Nat.add_comm 1]

theorem wrBytes_raises {s : State} {bs : List Byte} (h : room s.wr s.lmemSize < bs.length) :
    Raises (wrBytes bs s) (pastEnd s.wr s.lmemSize 0x51)
      (s.mem.writeBytes s.wr.ptr.toNat (bs.take (room s.wr s.lmemSize))) := by
  have hlen : (bs.take (room s.wr s.lmemSize)).length = room s.wr s.lmemSize := List.length_take_of_le h.le
  refine .foldlM h (wrBytes_of_room hlen.le) ?_
  rw [hlen, ← pastEnd_bytesOn le_rfl 0x51]
  exact wrByte_raises _ ((room_bytesOn le_rfl).trans (Nat.sub_self _))

/-- A command whose body checks WR_BIT, writes the bytes and then sets the flags alone. -/
theorem writesBytes_of_body {i : Instr} {s : State} {bs : List Byte} {f : BitVec 2} {body : State → Run State}
    {finish : State → State} (hwf : s.mem.wf) (hexec : exec i s = runCommand i body s)
    (hbody : body s = needAligned s.wr.bit s >>= fun _ => wrBytes bs s >>= fun t => Pure.pure (finish t))
    (hfinish : ∀ m w, finish { s with mem := m, wr := w } = { s with mem := m, wr := w, flags := f }) :
    WritesBytes i s bs f := by
  refine ⟨fun hodd => Raises.halts (body := body) ?_ hexec, fun heven hroom => ⟨_, ?_, stored_writeBytes hwf _ _⟩,
    fun heven hroom => ⟨_, Raises.halts (body := body) ?_ hexec, stored_writeBytes hwf _ _⟩⟩
  · rw [hbody]
    exact (needAligned_raises hodd s).bind _
  · rw [hexec, runCommand_of_ok (hbody.trans (Run.bind_ok.mpr ⟨(), needAligned_of_zero heven s,
      Run.bind_ok.mpr ⟨_, wrBytes_of_room hroom, congrArg Except.ok (hfinish _ _)⟩⟩))]
    rfl
  · rw [hbody]
    exact .after (needAligned_of_zero heven s) ((wrBytes_raises hroom).bind _)

/-- A command that writes bytes and is not in error after it has written them all. -/
theorem writesBytes_completed {i : Instr} {s t : State} {bs : List Byte} {f : BitVec 2} (h : WritesBytes i s bs f)
    (hexec : exec i s = .next t) (herr : t.err = false) : bs.length ≤ room s.wr s.lmemSize ∧
      ∃ m, Stored s.mem m s.wr.ptr.toNat bs ∧
        t = { s with mem := m, wr := bytesOn s.wr bs.length, flags := f, cpc := s.cpc + 4 } := by
  obtain ⟨hodd, hfits, hover⟩ := h
  by_cases hbit : s.wr.bit = 0
  · obtain hroom | hroom := le_or_gt bs.length (room s.wr s.lmemSize)
    · obtain ⟨m, hm, hstored⟩ := hfits hbit hroom
      exact ⟨hroom, m, hstored, Host.Outcome.next.inj (hexec.symm.trans hm)⟩
    · obtain ⟨m, hm, -⟩ := hover hbit hroom
      cases hexec.symm.trans hm
      cases herr
  · cases hexec.symm.trans (hodd hbit)
    cases herr

/-! ## PUTQ and GETQ (R356, R357) -/

theorem needAligned_checked (bit : BitVec 3) (s : State) : Checked s [(bit != 0, 0x50)] (needAligned bit s) () :=
  refuseIf_checked s rfl .streamAlign

theorem rdByte_checked (c : ErrCode) (s : State) :
    Checked s [(decide (s.rd.ptr.toNat ≥ s.rd.lim.toNat), c.code), (decide (s.rd.ptr.toNat ≥ s.lmemSize), 0x52)] (rdByte c s)
      (s.mem.byteAt s.rd.ptr.toNat, s.readOn 1) := by
  refine ⟨.refuseIf <| .address fun h => Run.bind_error.mpr (.inl (memRead_error.mpr ⟨h, rfl⟩)), fun hpass => ?_⟩
  simp only [passes_iff, List.forall_mem_cons, decide_eq_false_iff_not, Nat.not_le] at hpass
  obtain ⟨hlim, hsize, -⟩ := hpass
  exact rdByte_ok.mpr ⟨hlim, hsize, rfl, rfl⟩

theorem getq_checked (s : State) :
    Checked s [(s.rd.bit != 0, 0x50), (decide (s.rd.ptr.toNat ≥ s.rd.lim.toNat), 0x30),
        (decide (s.rd.ptr.toNat ≥ s.lmemSize), 0x52), (badQuality (s.mem.byteAt s.rd.ptr.toNat), 0x43)] (getq s)
      { s with qeff := s.mem.byteAt s.rd.ptr.toNat, rd := bytesOn s.rd 1 } :=
  (needAligned_checked s.rd.bit s).bind <| (rdByte_checked .formatShort s).bind <|
    (refuseIf_checked (s.readOn 1) rfl .decodeQeff).bind <| .pure _ _

theorem putq_eq (s : State) :
    putq s = needAligned s.wr.bit s >>= fun _ => wrBytes [s.qeff] s >>= fun t => Pure.pure t := by
  simp [putq, wrBytes]

/-- Settles O42: PUTQ writes one byte, unchecked; GETQ makes its checks in order, the byte's own check last. -/
theorem qualityByteMoves : Obligations.QualityByteMoves := fun s =>
  ⟨fun hwf => writesBytes_of_body hwf rfl (putq_eq s) fun _ _ => rfl, (getq_checked s).command rfl⟩

/-! ## IALN, WALN and RALN (R360-R362) -/

theorem align_eq (st : Stream) : st.align = if st.bit = 0 then st else { st with ptr := st.ptr + 1, bit := 0 } := ite_not ..

/-- Settles O44: each realignment is its command's one effect. -/
theorem realignmentResults : Obligations.RealignmentResults := by
  intro s
  simp only [← align_eq]
  exact ⟨rfl, rfl, rfl⟩

end Sys2Proof.Machine
end

