-- ==== Sys2Proof/Proofs/Serializer.lean ====
section
/-!
PROOF. The zigzag ROM (44_serializer.md R350) and the commands that serialize Q (R352, R353): the bytes they write are those of
the statements. Settles O18, O38 and O39.
-/

namespace Sys2Proof.Machine

open Sys2Proof.Claims

/-! ## The zigzag ROM (R350) -/

theorem nodup_zigzag : Tables.zigzag.toList.Nodup := by decide

theorem zigzag_injective : Function.Injective fun i : Fin 64 => Tables.zigzag.get i :=
  fun _ _ h => Fin.ext ((nodup_zigzag.getElem_inj_iff (hi := by simp) (hj := by simp)).mp h)

theorem zigzag_bijective : Function.Bijective fun i : Fin 64 => Tables.zigzag.get i :=
  Finite.injective_iff_bijective.mp zigzag_injective

/-- Settles O18: the ROM lists no index twice, so it is injective, and a bijection of a finite set. -/
theorem zigzagRom : Obligations.ZigzagRom := ⟨rfl, zigzag_bijective⟩

/-- The model's list of Q in zigzag order holds the statements' values. -/
theorem zigzagQ_eq_map (s : State) : s.zigzagQ = (List.finRange 64).map (zigzagQ s) := rfl

/-! ## SERD (R352) -/

theorem serd_eq (s : State) :
    serd s = needAligned s.wr.bit s >>= fun _ => wrBytes (denseBytes s.zigzagQ) s >>= fun t => Pure.pure t := by
  simp [serd]

/-- Settles O38: SERD writes `denseBytes`, which are the clamped bytes of the statement. -/
theorem denseSerialize : Obligations.DenseSerialize := by
  intro s hwf
  have hbytes : denseBytes s.zigzagQ = (List.finRange 64).map fun i => BitVec.ofInt 8 (clampInt (zigzagQ s i) (-128) 127) := by
    rw [zigzagQ_eq_map, denseBytes, List.map_map]
    rfl
  rw [← hbytes]
  exact writesBytes_of_body hwf rfl (serd_eq s) fun _ _ => rfl

/-! ## SERS (R353) -/

/-- The zeros at the end of the list do not count, and the value before them does. -/
theorem sparseCount_eq {qs : List Int} {n : Nat} (hle : n ≤ qs.length) (hzero : ∀ v ∈ qs.drop n, v = 0)
    (hlast : ∀ i (hi : i < qs.length), i + 1 = n → qs[i] ≠ 0) : sparseCount qs = n := by
  have hdrop : sparseCount qs = ((qs.take n).reverse.dropWhile (· == 0)).length := by
    rw [sparseCount, ← List.take_append_drop n qs, List.reverse_append,
      List.dropWhile_append_of_pos fun v hv => beq_iff_eq.mpr (hzero v (List.mem_reverse.mp hv))]
    simp
  rw [hdrop]
  cases n with
  | zero => rfl
  | succ i =>
    rw [← List.take_append_getElem hle, List.reverse_concat, List.dropWhile_cons_of_neg (by simpa using hlast i hle rfl)]
    simp [Nat.le_of_succ_le hle]

theorem mem_take_finRange {n : Nat} {i : Fin 64} : i ∈ (List.finRange 64).take n ↔ i.val < n := by
  rw [List.mem_take_iff_getElem]
  simp only [List.getElem_finRange, List.length_finRange]
  exact ⟨fun ⟨j, hj, h⟩ => by subst h; exact (lt_min_iff.mp hj).1, fun h => ⟨i, lt_min h i.isLt, rfl⟩⟩

theorem sparseCount_zigzagQ {s : State} {n : Nat} (h : IsSparseCount s n) : sparseCount s.zigzagQ = n := by
  obtain ⟨hle, hzero, hlast⟩ := h
  rw [zigzagQ_eq_map]
  refine sparseCount_eq (by simpa using hle) (fun v hv => ?_) fun i hi hin => ?_
  · obtain ⟨j, hj, rfl⟩ := List.mem_drop_iff_getElem.mp hv
    simpa using hzero ⟨n + j, by simpa [Nat.add_comm] using hj⟩ (Nat.le_add_right ..)
  · simpa using hlast ⟨i, by simpa using hi⟩ hin

theorem needsEscape_iff {v : Int} : needsEscape v = true ↔ ¬ fitsByte v := by
  simp only [needsEscape, fitsByte, Bool.not_eq_true', Bool.and_eq_false_iff, decide_eq_false_iff_not, not_and_or]

theorem sparseValue_eq (v : Int) : sparseValue v = sparseForm v := by
  unfold sparseValue sparseForm
  by_cases h : fitsByte v
  · rw [if_pos h, if_neg (mt needsEscape_iff.mp (not_not_intro h))]
    rfl
  · rw [if_neg h, if_pos (needsEscape_iff.mpr h)]
    rfl

theorem sparseBytes_eq {s : State} {n : Nat} (h : IsSparseCount s n) : sparseBytes s.zigzagQ =
    BitVec.ofNat 8 n :: ((List.finRange 64).take n).flatMap fun i => sparseForm (zigzagQ s i) := by
  rw [sparseBytes, sparseCount_zigzagQ h, zigzagQ_eq_map, ← List.map_take, List.flatMap_map]
  simp only [sparseValue_eq]

theorem sparseEsc_iff {s : State} {n : Nat} (h : IsSparseCount s n) :
    sparseEsc s.zigzagQ = true ↔ ∃ i : Fin 64, i.val < n ∧ ¬ fitsByte (zigzagQ s i) := by
  rw [sparseEsc, sparseCount_zigzagQ h, zigzagQ_eq_map, ← List.map_take, List.any_map, List.any_eq_true]
  simp only [Function.comp_apply, needsEscape_iff, mem_take_finRange]

/-- Settles O39: SERS writes `sparseBytes`, which are the statement's bytes, and sets ESC alone. -/
theorem sparseSerialize : Obligations.SparseSerialize := by
  intro s n hwf hn
  obtain ⟨hbend, hesc⟩ := flagPair (sparseEsc s.zigzagQ) s.bend
  refine ⟨_, hbend, by rw [hesc, sparseEsc_iff hn], ?_⟩
  rw [← sparseBytes_eq hn]
  exact writesBytes_of_body hwf (body := sers) rfl rfl fun _ _ => rfl

end Sys2Proof.Machine
end

