-- ==== Sys2Proof/Proofs/Deserializer.lean ====
section
/-!
PROOF. The commands that deserialize Q (44_serializer.md R354, R355): the block that a loop over the zigzag ROM fills, and the
rounds of the two loops inside the read stream's room and at its end. Settles O40 and O41.
-/

namespace Sys2Proof.Machine

open Sys2Proof.Claims

/-! ## The block a loop fills -/

theorem get_setQ_same (q : Vector Word 64) (k : Fin 64) (v : Int) : (setQ q k v).get k = two32 v :=
  Vector.getElem_set_self k.isLt

theorem get_setQ_of_ne (q : Vector Word 64) {k l : Fin 64} (h : k ≠ l) (v : Int) : (setQ q k v).get l = q.get l :=
  Vector.getElem_set_ne k.isLt l.isLt (Fin.val_ne_of_ne h)

/-- The block after the values are put into the entries, one after the other, as far as both go. -/
def fillQ : Vector Word 64 → List (Fin 64) → List Int → Vector Word 64
  | q, k :: ks, v :: vs => fillQ (setQ q k v) ks vs
  | q, _, _ => q

theorem fillQ_nil (q : Vector Word 64) (ks : List (Fin 64)) : fillQ q ks [] = q := by cases ks <;> rfl

theorem get_fillQ_of_notMem {q : Vector Word 64} {ks : List (Fin 64)} {vs : List Int} {k : Fin 64} (h : k ∉ ks) :
    (fillQ q ks vs).get k = q.get k := by
  induction ks generalizing q vs with
  | nil => rfl
  | cons l ks ih =>
    rw [List.mem_cons, not_or] at h
    cases vs with
    | nil => rfl
    | cons v vs => rw [fillQ, ih h.2, get_setQ_of_ne q (Ne.symm h.1)]

theorem get_fillQ {q : Vector Word 64} {ks : List (Fin 64)} (hks : ks.Nodup) (vs : List Int) {i : Nat} (hi : i < ks.length) :
    (fillQ q ks vs).get ks[i] = (vs[i]?.map two32).getD (q.get ks[i]) := by
  induction ks generalizing q vs i with
  | nil => exact absurd hi (Nat.not_lt_zero i)
  | cons k ks ih =>
    rw [List.nodup_cons] at hks
    cases vs with
    | nil => rfl
    | cons v vs =>
      cases i with
      | zero => exact (get_fillQ_of_notMem hks.1).trans (get_setQ_same q k v)
      | succ i =>
        have hne : k ≠ ks[i]'(Nat.lt_of_succ_lt_succ hi) := fun h => hks.1 (h ▸ List.getElem_mem _)
        refine (ih hks.2 vs (Nat.lt_of_succ_lt_succ hi)).trans ?_
        rw [get_setQ_of_ne q hne]
        rfl

/-- The ROM lists each entry once, so an entry holds the value of its own zigzag position. -/
theorem get_fillQ_zigzag (q : Vector Word 64) (vs : List Int) (i : Fin 64) :
    (fillQ q Tables.zigzag.toList vs).get (Tables.zigzag.get i) = (vs[i.val]?.map two32).getD (q.get (Tables.zigzag.get i)) :=
  get_fillQ nodup_zigzag vs (by simp)

theorem toInt_two32_toInt {n : Nat} (hn : n ≤ 32) (b : BitVec n) : (two32 b.toInt).toInt = b.toInt := by
  rw [two32, ← BitVec.signExtend, BitVec.toInt_signExtend_of_le hn]

/-! ## DSERD (R354) -/

/-- The `n` bytes from address `p` on, each as a signed value (R351). -/
def signedBytes (m : Memory) (p n : Nat) : List Int := (List.range n).map fun j => (m.byteAt (p + j)).toInt

theorem signedBytes_succ (m : Memory) (p n : Nat) : signedBytes m p (n + 1) = (m.byteAt p).toInt :: signedBytes m (p + 1) n := by
  simp [signedBytes, List.range_succ_eq_map, Nat.add_assoc, Nat.add_comm 1]

theorem dserdRound_of_room {s : State} (k : Fin 64) (h : 0 < room s.rd s.lmemSize) :
    dserdRound s k = .ok { s with qBlk := setQ s.qBlk k (s.mem.byteAt s.rd.ptr.toNat).toInt, rd := bytesOn s.rd 1 } := by
  rw [dserdRound, rdByte_of_room .formatShort h]
  rfl

theorem dserdRound_raises {s : State} (k : Fin 64) (h : room s.rd s.lmemSize = 0) :
    Raises (dserdRound s k) (pastEnd s.rd s.lmemSize 0x30) s.mem := (rdByte_raises .formatShort h).bind _

/-- The first `n` rounds of DSERD's loop. -/
theorem dserdRounds_of_room {s : State} {n : Nat} {ks : List (Fin 64)} (hn : n ≤ ks.length)
    (hroom : n ≤ room s.rd s.lmemSize) : (ks.take n).foldlM dserdRound s =
      .ok { s with qBlk := fillQ s.qBlk ks (signedBytes s.mem s.rd.ptr.toNat n), rd := bytesOn s.rd n } := by
  induction n generalizing s ks with
  | zero =>
    rw [bytesOn_zero, signedBytes, List.range_zero, List.map_nil, fillQ_nil]
    rfl
  | succ n ih =>
    obtain _ | ⟨k, ks⟩ := ks
    · exact absurd hn (Nat.not_succ_le_zero n)
    have hone : 1 ≤ room s.rd s.lmemSize := by omega
    refine Run.bind_ok.mpr ⟨_, dserdRound_of_room k hone, (ih (Nat.le_of_succ_le_succ hn) ?_).trans ?_⟩
    · exact (Nat.le_sub_of_add_le hroom).trans_eq (room_bytesOn hone).symm
    · simp only [bytesOn_bytesOn, toNat_bytesOn_ptr hone, signedBytes_succ, fillQ, Nat.add_comm 1]

theorem exec_dserd_of_room {s : State} (hbit : s.rd.bit = 0) (h : 64 ≤ room s.rd s.lmemSize) :
    exec .dserd s = .next { s with
      qBlk := fillQ s.qBlk Tables.zigzag.toList (signedBytes s.mem s.rd.ptr.toNat 64), rd := bytesOn s.rd 64,
      cpc := s.cpc + 4 } :=
  runCommand_of_ok (body := dserd) (Run.bind_ok.mpr ⟨(), needAligned_of_zero hbit s,
    dserdRounds_of_room (ks := Tables.zigzag.toList) le_rfl h⟩)

/-- Settles O40: a round for each byte that can be read; the round after the last of them raises. -/
theorem denseDeserialize : Obligations.DenseDeserialize := by
  refine fun s => ⟨fun hbit => ?_, fun hbit hroom => ?_, fun hbit hroom => ⟨_, exec_dserd_of_room hbit hroom, fun i => ?_⟩⟩
  · exact ((needAligned_raises hbit s).bind _).halts (body := dserd) rfl
  · refine Raises.halts (body := dserd) (.after (needAligned_of_zero hbit s) ?_) rfl
    refine .foldlM hroom (dserdRounds_of_room hroom.le le_rfl) ?_
    rw [← pastEnd_bytesOn le_rfl 0x30]
    exact dserdRound_raises _ ((room_bytesOn le_rfl).trans (Nat.sub_self _))
  · rw [get_fillQ_zigzag]
    simp [signedBytes, toInt_two32_toInt]

/-! ## One item of DSERS (R355) -/

theorem wordOfBytes_bigEndian (w : Word) :
    wordOfBytes (w.extractLsb' 0 8) (w.extractLsb' 8 8) (w.extractLsb' 16 8) (w.extractLsb' 24 8) = w := wordOfBytes_bytes w

section
variable {s : State} {p : Nat}

theorem rdEscape_readOn {w : Word} (hholds : Holds s.mem (s.rd.ptr.toNat + p) (bigEndian w))
    (hroom : p + 4 ≤ room s.rd s.lmemSize) : rdEscape (s.readOn p) = .ok (w, s.readOn (p + 4)) := by
  simp only [bigEndian, holds_cons, Nat.add_assoc] at hholds
  obtain ⟨hb3, hb2, hb1, hb0, -⟩ := hholds
  refine Run.bind_ok.mpr ⟨_, rdByte_readOn _ (by omega), Run.bind_ok.mpr ⟨_, rdByte_readOn _ (by omega),
    Run.bind_ok.mpr ⟨_, rdByte_readOn _ (by omega), Run.bind_ok.mpr ⟨_, rdByte_readOn _ (by omega), ?_⟩⟩⟩⟩
  simp only [Nat.add_assoc, hb3, hb2, hb1, hb0, wordOfBytes_bigEndian]
  rfl

theorem rdEscape_raises (hp : p ≤ room s.rd s.lmemSize) (hroom : room s.rd s.lmemSize < p + 4) :
    Raises (rdEscape (s.readOn p)) (pastEnd s.rd s.lmemSize 0x41) s.mem :=
  .rdByte_readOn hp fun _ h => .rdByte_readOn h fun _ h => .rdByte_readOn h fun _ h => .rdByte_readOn h fun _ h =>
    absurd hroom (Nat.not_lt.mpr h)

/-- One round on a stream that holds a whole item next. -/
theorem dsersRound_item {q : Vector Word 64} {esc : Bool} (k : Fin 64) {item : Item} (hlegal : ItemsLegal [item])
    (hholds : Holds s.mem (s.rd.ptr.toNat + p) (itemBytes item)) (hroom : p + (itemBytes item).length ≤ room s.rd s.lmemSize) :
    dsersRound ⟨s.readOn p, q, esc⟩ k =
      .ok ⟨s.readOn (p + (itemBytes item).length), setQ q k (itemVal item), esc || item.isRight⟩ := by
  cases item with
  | inl b =>
    obtain ⟨hb, -⟩ := holds_cons.mp hholds
    refine Run.bind_ok.mpr ⟨_, rdByte_readOn _ hroom, ?_⟩
    rw [hb]
    refine (if_neg (hlegal b (List.mem_singleton_self _))).trans ?_
    rw [Sum.isRight_inl, Bool.or_false]
    rfl
  | inr w =>
    obtain ⟨hb, hw⟩ := holds_cons.mp hholds
    have hword : p + 1 + 4 ≤ room s.rd s.lmemSize := hroom
    refine Run.bind_ok.mpr ⟨_, rdByte_readOn _ (by omega), ?_⟩
    rw [hb]
    refine (if_pos rfl).trans (Run.bind_ok.mpr ⟨_, rdEscape_readOn hw hword, ?_⟩)
    rw [Sum.isRight_inr, Bool.or_true]
    rfl

/-- The round at the stream's end. -/
theorem dsersRound_raises_at_end (x : SparseIn) (hs : x.s = s.readOn p) (hend : p = room s.rd s.lmemSize) (k : Fin 64) :
    Raises (dsersRound x k) (pastEnd s.rd s.lmemSize 0x30) s.mem := by
  rw [dsersRound, hs]
  exact .rdByte_readOn (c := .formatShort) hend.le fun _ h => absurd hend h.ne

/-- The round on an escape that the stream's end cuts off. -/
theorem dsersRound_raises_in_escape (x : SparseIn) (hs : x.s = s.readOn p) (hlt : p < room s.rd s.lmemSize)
    (hb : s.mem.byteAt (s.rd.ptr.toNat + p) = 0x80) (hroom : room s.rd s.lmemSize < p + 5) (k : Fin 64) :
    Raises (dsersRound x k) (pastEnd s.rd s.lmemSize 0x41) s.mem := by
  rw [dsersRound, hs]
  refine .after (rdByte_readOn _ hlt) ?_
  rw [hb]
  exact (rdEscape_raises hlt (by omega)).bind _

/-! ## The loop of DSERS -/

/-- The rounds on a stream that holds as many whole items next. -/
theorem dsersRounds_items {q : Vector Word 64} {esc : Bool} {ks : List (Fin 64)} {items : List Item}
    (hlen : items.length ≤ ks.length) (hlegal : ItemsLegal items)
    (hholds : Holds s.mem (s.rd.ptr.toNat + p) (items.flatMap itemBytes))
    (hroom : p + (items.flatMap itemBytes).length ≤ room s.rd s.lmemSize) :
    (ks.take items.length).foldlM dsersRound ⟨s.readOn p, q, esc⟩ =
      .ok ⟨s.readOn (p + (items.flatMap itemBytes).length), fillQ q ks (items.map itemVal),
        esc || items.any Sum.isRight⟩ := by
  induction items generalizing ks p q esc with
  | nil =>
    rw [List.map_nil, fillQ_nil, List.any_nil, Bool.or_false]
    rfl
  | cons item items ih =>
    obtain _ | ⟨k, ks⟩ := ks
    · exact absurd hlen (Nat.not_succ_le_zero _)
    rw [List.flatMap_cons, holds_append, Nat.add_assoc] at hholds
    rw [List.flatMap_cons, List.length_append, ← Nat.add_assoc] at hroom
    have hitem : ItemsLegal [item] := fun b hb => hlegal b (List.mem_singleton.mp hb ▸ List.mem_cons_self)
    refine Run.bind_ok.mpr ⟨_, dsersRound_item k hitem hholds.1 (by omega),
      (ih (Nat.le_of_succ_le_succ hlen) (fun b hb => hlegal b (List.mem_cons_of_mem _ hb)) hholds.2 hroom).trans ?_⟩
    rw [List.flatMap_cons, List.length_append, Nat.add_assoc, List.any_cons, Bool.or_assoc]
    rfl

theorem length_sparseStream (n : Nat) (items : List Item) :
    (sparseStream n items).length = 1 + (items.flatMap itemBytes).length := Nat.add_comm ..

/-- The body of DSERS after a legal count byte is its loop. -/
theorem dsers_eq_loop {n : Nat} (hbit : s.rd.bit = 0) (hroom : 0 < room s.rd s.lmemSize) (hn : n ≤ 64)
    (hcount : s.mem.byteAt s.rd.ptr.toNat = BitVec.ofNat 8 n) :
    dsers s = (Tables.zigzag.toList.take n).foldlM dsersRound ⟨s.readOn 1, Vector.replicate 64 0, false⟩ >>= fun x =>
      Pure.pure ({ x.s with qBlk := x.q }.setEsc x.esc) := by
  have hnat : (BitVec.ofNat 8 n).toNat = n := BitVec.toNat_ofNat n 8 ▸ Nat.mod_eq_of_lt (by omega)
  rw [dsers, needAligned_of_zero hbit s, rdByte_of_room .formatShort hroom, hcount]
  dsimp only [bind, Except.bind]
  rw [hnat, (refuseIf_ok (c := .decodeCount) (s := s.readOn 1) (u := ())).mpr (decide_eq_false (Nat.not_lt.mpr hn))]

section
variable {n : Nat} {items : List Item}

theorem exec_dsers_items (hbit : s.rd.bit = 0) (hn : n ≤ 64) (hlegal : ItemsLegal items)
    (hholds : Holds s.mem s.rd.ptr.toNat (sparseStream n items)) (hroom : (sparseStream n items).length ≤ room s.rd s.lmemSize)
    (hlen : items.length = n) : exec .dsers s = .next { s with
      qBlk := fillQ (Vector.replicate 64 0) Tables.zigzag.toList (items.map itemVal),
      rd := bytesOn s.rd (sparseStream n items).length,
      flags := BitVec.ofBool (items.any Sum.isRight) ++ BitVec.ofBool s.bend, cpc := s.cpc + 4 } := by
  rw [length_sparseStream] at hroom ⊢
  obtain ⟨hcount, hitems⟩ := holds_cons.mp hholds
  subst hlen
  exact runCommand_of_ok (body := dsers) ((dsers_eq_loop hbit (by omega) hn hcount).trans
    (Run.bind_ok.mpr ⟨_, dsersRounds_items (ks := Tables.zigzag.toList) hn hlegal hitems hroom, rfl⟩))

/-- DSERS raises what the round after the items raises. -/
theorem dsers_raises_after_items {code : Byte} (hbit : s.rd.bit = 0) (hn : n ≤ 64) (hlegal : ItemsLegal items)
    (hholds : Holds s.mem s.rd.ptr.toNat (sparseStream n items)) (hroom : (sparseStream n items).length ≤ room s.rd s.lmemSize)
    (hlt : items.length < n)
    (hround : ∀ x k, x.s = s.readOn (sparseStream n items).length → Raises (dsersRound x k) code s.mem) :
    Raises (dsers s) code s.mem := by
  rw [length_sparseStream] at hroom hround
  obtain ⟨hcount, hitems⟩ := holds_cons.mp hholds
  have hlen : (Tables.zigzag.toList.take n).length = n := List.length_take_of_le hn
  rw [dsers_eq_loop hbit (by omega) hn hcount]
  exact (Raises.foldlM (hlt.trans_eq hlen.symm) (dsersRounds_items (hlt.le.trans_eq hlen.symm) hlegal hitems hroom)
    (hround _ _ rfl)).bind _

end

end

theorem toInt_get_fillQ_zeros (vs : List Int) (hvs : ∀ v ∈ vs, (two32 v).toInt = v) (i : Fin 64) :
    ((fillQ (Vector.replicate 64 0) Tables.zigzag.toList vs).get (Tables.zigzag.get i)).toInt = vs.getD i.val 0 := by
  rw [get_fillQ_zigzag, List.getD_eq_getElem?_getD]
  cases hv : vs[i.val]? with
  | none => simp [Vector.get]
  | some v => exact hvs v (List.mem_of_getElem? hv)

theorem toInt_two32_itemVal (item : Item) : (two32 (itemVal item)).toInt = itemVal item := by
  cases item with
  | inl b => exact toInt_two32_toInt (by decide) b
  | inr w => exact toInt_two32_toInt le_rfl w

theorem any_isRight_iff {items : List Item} : items.any Sum.isRight = true ↔ ∃ w, Sum.inr w ∈ items := by
  simp [Sum.isRight_iff]

/-- Settles O41: a round for each item; the round after the last whole one raises. -/
theorem sparseDeserialize : Obligations.SparseDeserialize := by
  refine fun s => ⟨fun hbit => ?_, fun hbit hroom => ?_, fun hbit hroom hcount => ?_,
    fun n items hbit hn hlegal hholds hroom => ⟨fun hlen => ?_, fun hlt hend => ?_, fun hlt hless hb hshort => ?_⟩⟩
  · exact ((needAligned_raises hbit s).bind _).halts (body := dsers) rfl
  · exact Raises.halts (body := dsers) (.after (needAligned_of_zero hbit s) ((rdByte_raises .formatShort hroom).bind _)) rfl
  · refine Raises.halts (body := dsers) (.after (needAligned_of_zero hbit s) ?_) rfl
    exact .after (rdByte_of_room .formatShort hroom)
      ((Raises.refuseIf (decide_eq_true hcount) .decodeCount (s.readOn 1)).bind _)
  · obtain ⟨hbend, hesc⟩ := flagPair (items.any Sum.isRight) s.bend
    refine ⟨_, _, exec_dsers_items hbit hn hlegal hholds hroom hlen, fun i => ?_, hbend, ?_⟩
    · exact toInt_get_fillQ_zeros _ (List.forall_mem_map.mpr fun item _ => toInt_two32_itemVal item) i
    · rw [hesc, any_isRight_iff]
  · refine (dsers_raises_after_items hbit hn hlegal hholds hroom hlt fun x k hx => ?_).halts (body := dsers) rfl
    exact dsersRound_raises_at_end x hx hend k
  · refine (dsers_raises_after_items hbit hn hlegal hholds hroom hlt fun x k hx => ?_).halts (body := dsers) rfl
    exact dsersRound_raises_in_escape x hx hless hb hshort k

end Sys2Proof.Machine
end

