-- ==== Sys2Proof/Proofs/SparseRoundTrip.lean ====
section
/-!
PROOF. The escape round trip (44_serializer.md R364): the bytes SERS writes are a stream of items DSERS reads. Settles O45.
-/

namespace Sys2Proof.Machine

open Sys2Proof.Claims

/-- R353: every block has a sparse count, the least position from which on all values are 0. -/
theorem exists_isSparseCount (s : State) : ∃ n, IsSparseCount s n := by
  have hex : ∃ n, ∀ i : Fin 64, n ≤ i.val → zigzagQ s i = 0 := ⟨64, fun i hi => absurd hi (Nat.not_le.mpr i.isLt)⟩
  refine ⟨Nat.find hex, Nat.find_min' hex fun i hi => absurd hi (Nat.not_le.mpr i.isLt), Nat.find_spec hex,
    fun i hi hzero => ?_⟩
  refine Nat.find_min hex (Nat.lt_of_succ_le hi.le) fun j hj => ?_
  obtain heq | hlt := Nat.eq_or_lt_of_le hj
  · exact Fin.ext heq ▸ hzero
  · exact Nat.find_spec hex j (hi.ge.trans hlt)

/-- The item that a value is in the sparse form. -/
def sparseItem (v : Int) : Item := if fitsByte v then .inl (BitVec.ofInt 8 v) else .inr (BitVec.ofInt 32 v)

theorem sparseItem_of_fits {v : Int} (h : fitsByte v) : sparseItem v = .inl (BitVec.ofInt 8 v) := if_pos h

theorem sparseItem_of_not_fits {v : Int} (h : ¬ fitsByte v) : sparseItem v = .inr (BitVec.ofInt 32 v) := if_neg h

theorem itemBytes_sparseItem (v : Int) : itemBytes (sparseItem v) = sparseForm v := by
  by_cases h : fitsByte v
  · rw [sparseItem_of_fits h, sparseForm, if_pos h]
    rfl
  · rw [sparseItem_of_not_fits h, sparseForm, if_neg h]
    rfl

theorem toInt_ofInt_of_fits {v : Int} (h : fitsByte v) : (BitVec.ofInt 8 v).toInt = v :=
  BitVec.toInt_ofInt_eq_self (by decide) (by omega) (by omega)

/-- R364: every 32-bit value survives the sparse form. -/
theorem itemVal_sparseItem (w : Word) : itemVal (sparseItem w.toInt) = w.toInt := by
  by_cases h : fitsByte w.toInt
  · rw [sparseItem_of_fits h]
    exact toInt_ofInt_of_fits h
  · rw [sparseItem_of_not_fits h, BitVec.ofInt_toInt]
    rfl

/-- R353: the sentinel is no byte of a value, since −128 is escaped. -/
theorem itemsLegal_map_sparseItem (vs : List Int) : ItemsLegal (vs.map sparseItem) := by
  intro b hb hsentinel
  obtain ⟨v, -, hv⟩ := List.mem_map.mp hb
  by_cases h : fitsByte v
  · rw [sparseItem_of_fits h, Sum.inl.injEq] at hv
    have hval := toInt_ofInt_of_fits h
    rw [hv, hsentinel] at hval
    exact absurd (hval ▸ h) (by decide)
  · rw [sparseItem_of_not_fits h] at hv
    cases hv

theorem inr_mem_map_sparseItem {vs : List Int} : (∃ w, Sum.inr w ∈ vs.map sparseItem) ↔ ∃ v ∈ vs, ¬ fitsByte v := by
  refine ⟨fun ⟨w, hw⟩ => ?_, fun ⟨v, hv, h⟩ => ⟨_, List.mem_map.mpr ⟨v, hv, sparseItem_of_not_fits h⟩⟩⟩
  obtain ⟨v, hv, hitem⟩ := List.mem_map.mp hw
  exact ⟨v, hv, fun h => nomatch (sparseItem_of_fits h).symm.trans hitem⟩

/-- The first `n` values of Q in zigzag order. -/
def firstValues (s : State) (n : Nat) : List Int := ((List.finRange 64).take n).map (zigzagQ s)

theorem mem_firstValues {s : State} {n : Nat} {v : Int} : v ∈ firstValues s n ↔ ∃ i : Fin 64, i.val < n ∧ zigzagQ s i = v := by
  simp only [firstValues, List.mem_map, mem_take_finRange]

theorem length_firstValues {s : State} {n : Nat} (hn : n ≤ 64) : (firstValues s n).length = n := by
  simpa [firstValues] using hn

/-- Past the sparse count all values are 0. -/
theorem getD_firstValues {s : State} {n : Nat} (h : IsSparseCount s n) (i : Fin 64) :
    (firstValues s n).getD i.val 0 = zigzagQ s i := by
  obtain ⟨-, hzero, -⟩ := h
  obtain hi | hi := Nat.lt_or_ge i.val n
  · simp [firstValues, List.getD_eq_getElem?_getD, hi]
  · simp [firstValues, List.getD_eq_getElem?_getD, Nat.not_lt.mpr hi, hzero i hi]

/-- What SERS writes is a sparse stream. -/
theorem sparseStream_firstValues (s : State) (n : Nat) : sparseStream n ((firstValues s n).map sparseItem) =
    BitVec.ofNat 8 n :: ((List.finRange 64).take n).flatMap fun i => sparseForm (zigzagQ s i) := by
  simp only [sparseStream, firstValues, List.flatMap_map, itemBytes_sparseItem]

theorem map_itemVal_firstValues (s : State) (n : Nat) :
    ((firstValues s n).map sparseItem).map itemVal = firstValues s n := by
  rw [List.map_map, firstValues, List.map_map]
  exact List.map_congr_left fun i _ => itemVal_sparseItem _

/-- Settles O45: SERS wrote a stream of items that hold the values of Q, and DSERS reads the values of the items. -/
theorem sparseRoundTrip : Obligations.SparseRoundTrip := by
  intro s t lim q f hwf hexec herr hlim
  obtain ⟨n, hn⟩ := exists_isSparseCount s
  obtain ⟨f', -, hesc, hwrites⟩ := sparseSerialize s n hwf hn
  rw [← sparseStream_firstValues] at hwrites
  obtain ⟨hroom, m, ⟨hholds, -⟩, rfl⟩ := writesBytes_completed hwrites hexec herr
  have hread : (sparseStream n ((firstValues s n).map sparseItem)).length ≤ room ⟨s.wr.ptr, lim, 0⟩ s.lmemSize := by
    rw [toNat_bytesOn_ptr hroom] at hlim
    unfold room at hroom ⊢
    dsimp only
    omega
  obtain ⟨-, -, -, hitems⟩ := sparseDeserialize
    { s with mem := m, wr := bytesOn s.wr (sparseStream n ((firstValues s n).map sparseItem)).length, cpc := s.cpc + 4,
             rd := ⟨s.wr.ptr, lim, 0⟩, qBlk := q, flags := f }
  obtain ⟨hcompletes, -⟩ := hitems n _ rfl hn.1 (itemsLegal_map_sparseItem _) hholds hread
  obtain ⟨Q, g, hnext, hQ, -, hg⟩ := hcompletes (by rw [List.length_map, length_firstValues hn.1])
  refine ⟨_, hnext, herr, ?_, rfl, ?_⟩
  · refine Vector.ext fun k hk => ?_
    obtain ⟨i, hi⟩ := zigzag_bijective.2 ⟨k, hk⟩
    have hval := hQ i
    rw [map_itemVal_firstValues, getD_firstValues hn, zigzagQ] at hval
    dsimp only at hi
    rw [hi] at hval
    exact BitVec.eq_of_toInt_eq hval
  · rw [Bool.eq_iff_iff]
    refine hg.trans (inr_mem_map_sparseItem.trans (Iff.trans ?_ hesc.symm))
    simp only [mem_firstValues]
    exact ⟨fun ⟨_, ⟨i, hi, rfl⟩, h⟩ => ⟨i, hi, h⟩, fun ⟨i, hi, h⟩ => ⟨_, ⟨i, hi, rfl⟩, h⟩⟩

end Sys2Proof.Machine
end

