-- ==== Sys2Proof/Proofs/TreeArena.lean ====
section
/-!
PROOF. The node arena (45_huffman.md R402, R403): a node after a write and after a merge, the least of the active nodes, and one
round of the loop of R404.
-/

namespace Sys2Proof.Machine

open Sys2Proof.Claims

/-! ## The arena: a node after a write -/

/-- The state with another arena. -/
def State.withArena (s : State) (t : Arena) : State := { s with hnode := t }

theorem withArena_withArena (s : State) (t t' : Arena) : (s.withArena t).withArena t' = s.withArena t' := rfl

theorem nodeAt_eq_node (s : State) (i : Nat) : nodeAt s i = Arena.node s.hnode i := rfl

section
variable {t : Arena} {i : Nat}

theorem Arena.node_of_ge (h : 511 ≤ i) : t.node i = HNode.zero := dif_neg (Nat.not_lt.mpr h)

theorem Arena.node_put (hi : i < 511) (n : HNode) (k : Nat) : (t.put i n).node k = if k = i then n else t.node k := by
  unfold Arena.node Arena.put
  by_cases hk : k < 511
  · rw [dif_pos hk, dif_pos hk, Vector.getElem_setIfInBounds]
    exact if_congr eq_comm rfl rfl
  · rw [dif_neg hk, dif_neg hk, if_neg (by omega)]

theorem Arena.node_setParent (hi : i < 511) (p k : Nat) :
    (t.setParent i p).node k = if k = i then { t.node i with parent := BitVec.ofNat 9 p } else t.node k :=
  Arena.node_put hi _ k

/-- The arena with the leaves reads as their list. -/
theorem node_leafArena {ls : List HNode} (h : ls.length ≤ 511) (k : Nat) : (leafArena ls).node k = ls.getD k HNode.zero := by
  unfold Arena.node leafArena
  by_cases hk : k < 511
  · rw [dif_pos hk, Vector.getElem_ofFn]
  · rw [dif_neg hk, List.getD_eq_default _ _ (by omega)]

end

section
variable {t : Arena} {a b next : Nat}

/-- R404: a merge makes the node `next` and gives both children their parent. -/
theorem node_mergeNodes (hne : a ≠ b) (ha : a < next) (hb : b < next) (hnext : next < 511) (k : Nat) :
    (mergeNodes t a b next).node k =
      if k = next then ⟨(t.node a).freq + (t.node b).freq, BitVec.ofNat 9 a, BitVec.ofNat 9 b, 0x1FF, false, true⟩
      else if k = a ∨ k = b then { t.node k with parent := BitVec.ofNat 9 next }
      else t.node k := by
  simp only [mergeNodes, Arena.node_setParent (ha.trans hnext), Arena.node_setParent (hb.trans hnext),
    Arena.node_put hnext]
  by_cases hkb : k = b
  · subst hkb
    simp [hb.ne, hne.symm]
  · by_cases hka : k = a
    · subst hka
      simp [ha.ne, hne]
    · simp [hka, hkb]

end

/-! ## The least of the active nodes (R403) -/

/-- The pair (FREQ, index) of a node, in its order (R403). -/
def Arena.key (t : Arena) (i : Nat) : ℕ ×ₗ ℕ := toLex ((t.node i).freq.toNat, i)

theorem Arena.key_injective (t : Arena) : Function.Injective t.key :=
  fun _ _ h => congrArg Prod.snd (toLex.injective h)

theorem before_iff_key_lt {s : State} {a b : Nat} : Before s a b ↔ Arena.key s.hnode a < Arena.key s.hnode b := by
  rw [Arena.key, Arena.key, Prod.Lex.toLex_lt_toLex]
  rfl

theorem lesser_eq (t : Arena) (a b : Nat) : lesser t a b = if t.key b < t.key a then b else a := by
  unfold lesser Arena.key
  simp only [Prod.Lex.toLex_lt_toLex]

theorem leastOf_le (t : Arena) (x : Nat) (xs : List Nat) : ∀ y ∈ x :: xs, t.key (leastOf t x xs) ≤ t.key y := by
  induction xs generalizing x with
  | nil => simp [leastOf]
  | cons z zs ih =>
    have hle : t.key (lesser t x z) ≤ t.key x ∧ t.key (lesser t x z) ≤ t.key z := by
      rw [lesser_eq]
      split
      · next h => exact ⟨h.le, le_rfl⟩
      · next h => exact ⟨le_rfl, not_lt.mp h⟩
    have hhead := ih (lesser t x z) _ List.mem_cons_self
    intro y hy
    rw [List.mem_cons, List.mem_cons] at hy
    obtain rfl | rfl | hy := hy
    · exact hhead.trans hle.1
    · exact hhead.trans hle.2
    · exact ih (lesser t x z) y (List.mem_cons_of_mem _ hy)

theorem leastOf_mem (t : Arena) (x : Nat) (xs : List Nat) : leastOf t x xs ∈ x :: xs := by
  induction xs generalizing x with
  | nil => exact List.mem_cons_self
  | cons z zs ih =>
    have hmem : lesser t x z = x ∨ lesser t x z = z := by
      rw [lesser_eq]
      exact (ite_eq_or_eq _ _ _).symm
    have h := ih (lesser t x z)
    rw [List.mem_cons] at h ⊢
    obtain h | h := h
    · rw [List.mem_cons]
      exact hmem.imp h.trans fun hz => .inl (h.trans hz)
    · exact .inr (List.mem_cons_of_mem _ h)

/-- `a` is the least of `xs` in the order of R403. -/
def IsLeast (t : Arena) (xs : List Nat) (a : Nat) : Prop := a ∈ xs ∧ ∀ k ∈ xs, k ≠ a → t.key a < t.key k

theorem isLeast_leastOf (t : Arena) (x : Nat) (xs : List Nat) : IsLeast t (x :: xs) (leastOf t x xs) :=
  ⟨leastOf_mem t x xs, fun k hk hne => lt_of_le_of_ne (leastOf_le t x xs k hk) fun h => hne (t.key_injective h).symm⟩

/-! ## One round of the loop -/

theorem mergeLoop_of_length_le {active : List Nat} (h : active.length ≤ 1) (rounds : Nat) (t : Arena) (next : Nat) :
    mergeLoop rounds t active next = t := by
  match rounds, active with
  | 0, _ => rfl
  | _ + 1, [] => rfl
  | _ + 1, [_] => rfl
  | _ + 1, _ :: _ :: _ => simp at h

/-- A round merges the least active node `a` and the least other one, `b`. -/
theorem mergeLoop_succ {active : List Nat} (h : 2 ≤ active.length) (rounds : Nat) (t : Arena) (next : Nat) :
    ∃ a b, IsLeast t active a ∧ IsLeast t (active.erase a) b ∧ mergeLoop (rounds + 1) t active next =
      mergeLoop rounds (mergeNodes t a b next) ((active.erase a).erase b ++ [next]) (next + 1) := by
  match active with
  | [] | [_] => simp at h
  | x :: y :: rest =>
    have ha := isLeast_leastOf t x (y :: rest)
    rw [mergeLoop]
    cases hrest : (x :: y :: rest).erase (leastOf t x (y :: rest)) with
    | nil =>
      have hlen := List.length_erase_of_mem ha.1
      simp [hrest] at hlen
    | cons z zs => exact ⟨_, _, ha, hrest ▸ isLeast_leastOf t z zs, by simp only [hrest]⟩

end Sys2Proof.Machine
end

