-- ==== Sys2Proof/Proofs/TreeMerges.lean ====
section
/-!
PROOF. The loop of the tree build (45_huffman.md R404): what is true when a node is about to be made, and that every merge
keeps it.
-/

namespace Sys2Proof.Machine

open Sys2Proof.Claims

/-! ## What every round of the tree build keeps (R402-R404) -/

/-- The build from the leaves `ls` when node `next` is about to be made: the active nodes are those without a parent, the
nodes made so far are in their places, and the active counts sum to the histogram's total. The arena is that of `s`. -/
structure Building (ls : List HNode) (s : State) (active : List Nat) (next : Nat) : Prop where
  leaves_le : ls.length ≤ next
  length_add : active.length + next = 2 * ls.length
  nodup : active.Nodup
  mem_iff : ∀ k, k ∈ active ↔ k < next ∧ (nodeAt s k).parent = 0x1FF
  total : (active.map fun k => (nodeAt s k).freq.toNat).sum = (ls.map fun l => l.freq.toNat).sum
  leaf : ∀ k (h : k < ls.length), ∃ p, nodeAt s k = { ls[k] with parent := p }
  merged : ∀ i, ls.length ≤ i → i < next → IsMerge s i
  child : ∀ k, k < next → (nodeAt s k).parent ≠ 0x1FF → ls.length ≤ (nodeAt s k).parent.toNat ∧
    (nodeAt s k).parent.toNat < next ∧ ((nodeAt s (nodeAt s k).parent.toNat).left.toNat = k ∨
      (nodeAt s (nodeAt s k).parent.toNat).right.toNat = k)
  unmade : ∀ k, next ≤ k → nodeAt s k = HNode.zero

/-- The start of the loop: the leaves are made, and all are active. -/
theorem Building.start {ls : List HNode} (hlen : ls.length ≤ 511) (hroot : ∀ l ∈ ls, l.parent = 0x1FF) (s : State) :
    Building ls (s.withArena (leafArena ls)) (List.range ls.length) ls.length := by
  have hnode (k : Nat) : nodeAt (s.withArena (leafArena ls)) k = ls.getD k HNode.zero := node_leafArena hlen k
  have hleaf (k : Nat) (h : k < ls.length) : nodeAt (s.withArena (leafArena ls)) k = ls[k] := by simp [hnode, h]
  have hparent (k : Nat) (h : k < ls.length) : (nodeAt (s.withArena (leafArena ls)) k).parent = 0x1FF := by
    rw [hleaf k h]
    exact hroot _ (List.getElem_mem h)
  exact {
    leaves_le := le_rfl
    length_add := by rw [List.length_range, Nat.two_mul]
    nodup := List.nodup_range
    mem_iff := fun k => by
      rw [List.mem_range]
      exact ⟨fun h => ⟨h, hparent k h⟩, And.left⟩
    total := by
      refine congrArg List.sum (List.ext_getElem (by simp) fun k hk _ => ?_)
      rw [List.length_map, List.length_range] at hk
      rw [List.getElem_map, List.getElem_map, List.getElem_range, hleaf k hk]
    leaf := fun k h => ⟨_, hleaf k h⟩
    merged := fun i hle hlt => absurd hlt (Nat.not_lt.mpr hle)
    child := fun k h hne => absurd (hparent k h) hne
    unmade := fun k h => by rw [hnode, List.getD_eq_default _ _ h] }

/-- `t` has the nodes of `s` below `next`, but that a node without a parent may have got one from `next` on. -/
def GrowsTo (s t : State) (next : Nat) : Prop :=
  ∀ k, k < next → ∃ p, nodeAt t k = { nodeAt s k with parent := p } ∧
    (p = (nodeAt s k).parent ∨ (nodeAt s k).parent = 0x1FF ∧ next ≤ p.toNat)

section
variable {s t : State} {next : Nat}

theorem GrowsTo.freq_eq (h : GrowsTo s t next) {k : Nat} (hk : k < next) : (nodeAt t k).freq = (nodeAt s k).freq := by
  obtain ⟨p, hp, -⟩ := h k hk
  rw [hp]

theorem GrowsTo.before_iff (h : GrowsTo s t next) {j k : Nat} (hj : j < next) (hk : k < next) :
    Before t j k ↔ Before s j k := by
  unfold Before
  rw [h.freq_eq hj, h.freq_eq hk]

/-- R404: what was active when a node below `next` was made does not change. -/
theorem GrowsTo.active_iff (h : GrowsTo s t next) {i k : Nat} (hi : i < next) (hnext : next ≤ 511) :
    Active t i k ↔ Active s i k := by
  refine and_congr_right fun hk => ?_
  obtain ⟨p, hp, rfl | ⟨hroot, hp'⟩⟩ := h k (hk.trans hi)
  · rw [hp]
  · rw [hp, hroot]
    exact iff_of_true (hi.le.trans hp') (hi.le.trans hnext)

theorem GrowsTo.parent_eq (h : GrowsTo s t next) {i k : Nat} (hk : k < next) (hi : i < next) (hnext : next ≤ 511)
    (hparent : (nodeAt s k).parent.toNat = i) : (nodeAt t k).parent.toNat = i := by
  obtain ⟨p, hp, rfl | ⟨hroot, -⟩⟩ := h k hk
  · rw [hp]
    exact hparent
  · rw [hroot] at hparent
    exact absurd hparent (by simp; omega)

theorem GrowsTo.isMerge (h : GrowsTo s t next) (hnext : next ≤ 511) {i : Nat} (hi : i < next) (hm : IsMerge s i) :
    IsMerge t i := by
  obtain ⟨hvalid, hinner, hfreq, hne, ha, hb, hpa, hpb, hleast, hsecond⟩ := hm
  have ha' := ha.1.trans hi
  have hb' := hb.1.trans hi
  obtain ⟨p, hp, -⟩ := h i hi
  unfold IsMerge
  rw [hp]
  refine ⟨hvalid, hinner, ?_, hne, (h.active_iff hi hnext).mpr ha, (h.active_iff hi hnext).mpr hb,
    h.parent_eq ha' hi hnext hpa, h.parent_eq hb' hi hnext hpb, fun k hk hka => ?_, fun k hk hka hkb => ?_⟩
  · rw [h.freq_eq ha', h.freq_eq hb']
    exact hfreq
  · exact (h.before_iff ha' (hk.1.trans hi)).mpr (hleast k ((h.active_iff hi hnext).mp hk) hka)
  · exact (h.before_iff hb' (hk.1.trans hi)).mpr (hsecond k ((h.active_iff hi hnext).mp hk) hka hkb)

end

/-! ## A merge keeps the build -/

section
variable {ls : List HNode} {s : State} {active : List Nat} {next a b : Nat}

/-- The two nodes of a merge are two nodes made before and not merged yet. -/
theorem Building.children (h : Building ls s active next) (ha : IsLeast s.hnode active a)
    (hb : IsLeast s.hnode (active.erase a) b) : b ≠ a ∧ b ∈ active ∧ a < next ∧ b < next := by
  obtain ⟨hne, hb'⟩ := h.nodup.mem_erase_iff.mp hb.1
  exact ⟨hne, hb', ((h.mem_iff a).mp ha.1).1, ((h.mem_iff b).mp hb').1⟩

/-- The state after the merge of `a` and `b`. -/
def State.merge (s : State) (a b next : Nat) : State := s.withArena (mergeNodes s.hnode a b next)

theorem nodeAt_merge (h : Building ls s active next) (ha : IsLeast s.hnode active a)
    (hb : IsLeast s.hnode (active.erase a) b) (hnext : next < 511) (k : Nat) :
    nodeAt (s.merge a b next) k =
      if k = next then
        ⟨(nodeAt s a).freq + (nodeAt s b).freq, BitVec.ofNat 9 a, BitVec.ofNat 9 b, 0x1FF, false, true⟩
      else if k = a ∨ k = b then { nodeAt s k with parent := BitVec.ofNat 9 next }
      else nodeAt s k := by
  obtain ⟨hne, -, ha', hb'⟩ := h.children ha hb
  exact node_mergeNodes hne.symm ha' hb' hnext k

theorem toNat_ofNat9 {k : Nat} (h : k < 512) : (BitVec.ofNat 9 k).toNat = k := by
  rw [BitVec.toNat_ofNat, Nat.mod_eq_of_lt h]

theorem ofNat9_ne_root {k : Nat} (h : k < 511) : BitVec.ofNat 9 k ≠ 0x1FF := fun he => by
  have := congrArg BitVec.toNat he
  rw [toNat_ofNat9 (by omega)] at this
  exact absurd this (by simp; omega)

section
variable (h : Building ls s active next) (ha : IsLeast s.hnode active a) (hb : IsLeast s.hnode (active.erase a) b)
  (hnext : next < 511)
include h ha hb hnext

theorem Building.growsTo : GrowsTo s (s.merge a b next) next := by
  intro k hk
  obtain ⟨-, hb', -⟩ := h.children ha hb
  rw [nodeAt_merge h ha hb hnext, if_neg hk.ne]
  by_cases hkab : k = a ∨ k = b
  · have hroot : k ∈ active := by
      obtain rfl | rfl := hkab
      · exact ha.1
      · exact hb'
    rw [if_pos hkab]
    exact ⟨_, rfl, .inr ⟨((h.mem_iff k).mp hroot).2, (toNat_ofNat9 (by omega)).ge⟩⟩
  · rw [if_neg hkab]
    exact ⟨_, rfl, .inl rfl⟩

/-- R404: when node `next` is made, the active nodes are those of the list. -/
theorem Building.active_merge_iff (k : Nat) : Active (s.merge a b next) next k ↔ k ∈ active := by
  obtain ⟨-, hb', -⟩ := h.children ha hb
  rw [h.mem_iff]
  refine and_congr_right fun hk => ?_
  rw [nodeAt_merge h ha hb hnext, if_neg hk.ne]
  by_cases hkab : k = a ∨ k = b
  · have hroot : k ∈ active := by
      obtain rfl | rfl := hkab
      · exact ha.1
      · exact hb'
    rw [if_pos hkab]
    exact iff_of_true (toNat_ofNat9 (by omega)).ge ((h.mem_iff k).mp hroot).2
  · rw [if_neg hkab]
    refine ⟨fun hle => ?_, fun hroot => hroot ▸ hnext.le⟩
    by_contra hne
    exact absurd hle (Nat.not_le.mpr (h.child k hk hne).2.1)

omit hnext in
/-- The counts of the two children and of the other active nodes make up the total. -/
theorem Building.freq_add_eq : (nodeAt s a).freq.toNat + (nodeAt s b).freq.toNat +
    (((active.erase a).erase b).map fun k => (nodeAt s k).freq.toNat).sum = (ls.map fun l => l.freq.toNat).sum := by
  have hperm := (List.perm_cons_erase ha.1).trans ((List.perm_cons_erase hb.1).cons a)
  rw [← h.total, (hperm.map _).sum_eq, List.map_cons, List.map_cons, List.sum_cons, List.sum_cons, Nat.add_assoc]

theorem Building.isMerge_next (htotal : (ls.map fun l => l.freq.toNat).sum < 2 ^ 32) :
    IsMerge (s.merge a b next) next := by
  have hgrow := h.growsTo ha hb hnext
  have hactive := h.active_merge_iff ha hb hnext
  obtain ⟨hne, hb', ha', hb''⟩ := h.children ha hb
  have hsum := h.freq_add_eq ha hb
  have hnode := nodeAt_merge h ha hb hnext
  have hparent (k : Nat) (hk : k < next) (hkab : k = a ∨ k = b) :
      (nodeAt (s.merge a b next) k).parent.toNat = next := by
    rw [hnode, if_neg hk.ne, if_pos hkab]
    exact toNat_ofNat9 (by omega)
  have hless (j k : Nat) (hj : j < next) (hk : k < next) (hlt : Arena.key s.hnode j < Arena.key s.hnode k) :
      Before (s.merge a b next) j k := (hgrow.before_iff hj hk).mpr (before_iff_key_lt.mpr hlt)
  unfold IsMerge
  rw [hnode next, if_pos rfl]
  dsimp only
  rw [toNat_ofNat9 (ha'.trans (by omega)), toNat_ofNat9 (hb''.trans (by omega)), hgrow.freq_eq ha', hgrow.freq_eq hb'',
    BitVec.toNat_add_of_lt (by omega)]
  refine ⟨rfl, rfl, rfl, hne.symm, (hactive a).mpr ha.1, (hactive b).mpr hb', hparent a ha' (.inl rfl),
    hparent b hb'' (.inr rfl), fun k hk hka => ?_, fun k hk hka hkb => ?_⟩
  · exact hless a k ha' hk.1 (ha.2 k ((hactive k).mp hk) hka)
  · exact hless b k hb'' hk.1 (hb.2 k (h.nodup.mem_erase_iff.mpr ⟨hka, (hactive k).mp hk⟩) hkb)

theorem Building.mem_merge_iff (k : Nat) : k ∈ (active.erase a).erase b ++ [next] ↔
    k < next + 1 ∧ (nodeAt (s.merge a b next) k).parent = 0x1FF := by
  rw [List.mem_append, List.mem_singleton, (h.nodup.erase a).mem_erase_iff, h.nodup.mem_erase_iff, h.mem_iff,
    nodeAt_merge h ha hb hnext]
  by_cases hk : k = next
  · simp [hk]
  · rw [if_neg hk]
    by_cases hkab : k = a ∨ k = b
    · rw [if_pos hkab]
      have := ofNat9_ne_root hnext
      tauto
    · rw [if_neg hkab]
      have : k < next + 1 ↔ k < next := by omega
      tauto

theorem Building.child_merge (k : Nat) (hk : k < next + 1) (hne : (nodeAt (s.merge a b next) k).parent ≠ 0x1FF) :
    let p := (nodeAt (s.merge a b next) k).parent.toNat
    ls.length ≤ p ∧ p < next + 1 ∧ ((nodeAt (s.merge a b next) p).left.toNat = k ∨
      (nodeAt (s.merge a b next) p).right.toNat = k) := by
  have hnode := nodeAt_merge h ha hb hnext
  have hgrow := h.growsTo ha hb hnext
  obtain ⟨-, -, ha', hb'⟩ := h.children ha hb
  rw [hnode] at hne ⊢
  have hk' : k ≠ next := fun he => by simp [he] at hne
  rw [if_neg hk'] at hne ⊢
  by_cases hkab : k = a ∨ k = b
  · rw [if_pos hkab]
    dsimp only
    rw [toNat_ofNat9 (by omega), hnode next, if_pos rfl]
    dsimp only
    rw [toNat_ofNat9 (ha'.trans (by omega)), toNat_ofNat9 (hb'.trans (by omega))]
    exact ⟨h.leaves_le, next.lt_succ_self, hkab.imp Eq.symm Eq.symm⟩
  · rw [if_neg hkab] at hne ⊢
    obtain ⟨hle, hlt, hchild⟩ := h.child k (by omega) hne
    obtain ⟨q, hq, -⟩ := hgrow _ hlt
    dsimp only
    rw [hq]
    exact ⟨hle, hlt.trans next.lt_succ_self, hchild⟩

theorem Building.merge (htotal : (ls.map fun l => l.freq.toNat).sum < 2 ^ 32) :
    Building ls (s.merge a b next) ((active.erase a).erase b ++ [next]) (next + 1) := by
  have hgrow := h.growsTo ha hb hnext
  have hnode := nodeAt_merge h ha hb hnext
  obtain ⟨-, hb', ha', hb''⟩ := h.children ha hb
  exact {
    leaves_le := h.leaves_le.trans next.le_succ
    length_add := by
      have hlen := h.length_add
      have hpos := List.length_pos_of_mem hb.1
      rw [List.length_erase_of_mem ha.1] at hpos
      rw [List.length_append, List.length_erase_of_mem hb.1, List.length_erase_of_mem ha.1, List.length_singleton]
      omega
    nodup := by
      refine ((h.nodup.erase a).erase b).append (List.nodup_singleton next) ?_
      refine List.disjoint_singleton.mpr fun hmem => ?_
      exact absurd ((h.mem_iff next).mp (List.mem_of_mem_erase (List.mem_of_mem_erase hmem))).1 next.lt_irrefl
    mem_iff := h.mem_merge_iff ha hb hnext
    total := by
      have hsum := h.freq_add_eq ha hb
      have hfreq : ∀ k ∈ (active.erase a).erase b,
          (nodeAt (s.merge a b next) k).freq.toNat = (nodeAt s k).freq.toNat := fun k hk => by
        rw [hgrow.freq_eq ((h.mem_iff k).mp (List.mem_of_mem_erase (List.mem_of_mem_erase hk))).1]
      rw [List.map_append, List.sum_append, List.map_congr_left hfreq, List.map_singleton, List.sum_singleton, hnode next,
        if_pos rfl, BitVec.toNat_add_of_lt (by omega), ← hsum, Nat.add_comm]
    leaf := fun k hk => by
      obtain ⟨p, hp⟩ := h.leaf k hk
      obtain ⟨q, hq, -⟩ := hgrow k (hk.trans_le h.leaves_le)
      exact ⟨q, by rw [hq, hp]⟩
    merged := fun i hle hlt => by
      obtain hlt | rfl := Nat.lt_succ_iff_lt_or_eq.mp hlt
      · exact hgrow.isMerge hnext.le hlt (h.merged i hle hlt)
      · exact h.isMerge_next ha hb hnext htotal
    child := h.child_merge ha hb hnext
    unmade := fun k hk => by
      rw [hnode, if_neg (by omega), if_neg (by omega)]
      exact h.unmade k (by omega) }

end

/-- The loop ends with one active node, the root, and all the nodes made. -/
theorem Building.mergeLoop (htotal : (ls.map fun l => l.freq.toNat).sum < 2 ^ 32) (hlen : ls.length ≤ 256)
    (rounds : Nat) (h : Building ls s active next) (hpos : 1 ≤ active.length) (hrounds : active.length ≤ rounds) :
    ∃ root, Building ls (s.withArena (mergeLoop rounds s.hnode active next)) [root] (2 * ls.length - 1) := by
  induction rounds generalizing s active next with
  | zero => omega
  | succ rounds ih =>
    have hadd := h.length_add
    obtain hone | htwo := Nat.lt_or_ge active.length 2
    · obtain ⟨root, rfl⟩ := List.length_eq_one_iff.mp (by omega : active.length = 1)
      rw [mergeLoop_of_length_le le_rfl]
      rw [List.length_singleton] at hadd
      exact ⟨root, (by omega : 2 * ls.length - 1 = next) ▸ h⟩
    · obtain ⟨a, b, ha, hb, hloop⟩ := mergeLoop_succ htwo rounds s.hnode next
      rw [hloop]
      have hmerge := h.merge ha hb (by omega) htotal
      have hadd' := hmerge.length_add
      exact ih hmerge (by omega) (by omega)

end

end Sys2Proof.Machine
end

