-- ==== Sys2Proof/Proofs/TreeBuild.lean ====
section
/-!
PROOF. The leaves and the total of the histogram, the finished tree, and HBUILD (45_huffman.md R402, R404, R408). Settles O47.
-/

namespace Sys2Proof.Machine

open Sys2Proof.Claims

/-! ## The leaves and the total of the histogram (R402, R404) -/

/-- The symbols with a nonzero count, in ascending order. -/
def countedSymbols (h : Vector Word 256) : List (Fin 256) := (List.finRange 256).filter fun sym => h.get sym != 0

theorem mem_countedSymbols {h : Vector Word 256} {sym : Fin 256} : sym ∈ countedSymbols h ↔ h.get sym ≠ 0 := by
  simp [countedSymbols]

theorem sortedLT_countedSymbols (h : Vector Word 256) : (countedSymbols h).Pairwise (· < ·) :=
  (List.pairwise_lt_finRange 256).filter _

theorem length_countedSymbols (h : Vector Word 256) :
    (countedSymbols h).length = (List.finRange 256).countP fun sym => h.get sym != 0 :=
  List.countP_eq_length_filter.symm

theorem length_countedSymbols_le (h : Vector Word 256) : (countedSymbols h).length ≤ 256 :=
  (List.length_filter_le _ _).trans_eq (List.length_finRange)

theorem toList_zipIdx (h : Vector Word 256) :
    h.toList.zipIdx = (List.finRange 256).map fun sym => (h.get sym, sym.val) := by
  refine List.ext_getElem (by simp) fun k hk _ => ?_
  simp [Vector.get]

/-- The model's leaves are those of the counted symbols. -/
theorem leaves_eq (h : Vector Word 256) : leaves h = (countedSymbols h).map fun sym => leafNode sym.val (h.get sym) := by
  rw [leaves, toList_zipIdx, List.filterMap_map, countedSymbols]
  induction List.finRange 256 with
  | nil => rfl
  | cons sym syms ih =>
    by_cases hzero : h.get sym = 0
    · rw [List.filterMap_cons_none (by exact if_pos hzero), ih, List.filter_cons_of_neg (by rw [hzero]; decide)]
    · rw [List.filterMap_cons_some (by exact if_neg hzero), ih,
        List.filter_cons_of_pos (by exact bne_iff_ne.mpr hzero), List.map_cons]

/-- Rows of 16 make up the list. -/
theorem sum_rows (l : List Nat) (rows : Nat) :
    ((List.range rows).map fun r => ((l.drop (16 * r)).take 16).sum).sum = (l.take (16 * rows)).sum := by
  induction rows with
  | zero => rfl
  | succ r ih => rw [List.range_succ, List.map_append, List.sum_append, ih, Nat.mul_succ, List.take_add, List.sum_append,
      List.map_singleton, List.sum_singleton]

theorem histTotal_eq (h : Vector Word 256) : histTotal h = ∑ sym : Fin 256, (h.get sym).toNat := by
  have hrows : histTotal h = ((List.range 16).map fun r => (((h.toList.map BitVec.toNat).drop (16 * r)).take 16).sum).sum := by
    rw [histTotal, ← List.map_coe_finRange_eq_range, List.map_map]
    refine congrArg List.sum (List.map_congr_left fun r _ => ?_)
    rw [histRowTotal, List.map_take, List.map_drop]
    rfl
  rw [hrows, sum_rows, List.take_of_length_le (by simp), Fin.sum_univ_def]
  refine congrArg List.sum (List.ext_getElem (by simp) fun k hk _ => ?_)
  simp [Vector.get]

theorem sum_leaves (h : Vector Word 256) :
    ((leaves h).map fun l => l.freq.toNat).sum = ∑ sym : Fin 256, (h.get sym).toNat := by
  rw [leaves_eq, List.map_map, Fin.sum_univ_def, countedSymbols]
  induction List.finRange 256 with
  | nil => rfl
  | cons sym syms ih =>
    rw [List.map_cons, List.sum_cons, ← ih]
    by_cases hzero : h.get sym = 0
    · rw [List.filter_cons_of_neg (by rw [hzero]; decide), hzero]
      exact (Nat.zero_add _).symm
    · rw [List.filter_cons_of_pos (by exact bne_iff_ne.mpr hzero), List.map_cons, List.sum_cons]
      rfl

/-! ## The finished tree -/

/-- The arena of `s` holds the finished tree over the leaves `ls`. -/
structure Built (ls : List HNode) (s : State) : Prop where
  leaf : ∀ k (h : k < ls.length), ∃ p, nodeAt s k = { ls[k] with parent := p }
  merged : ∀ i, ls.length ≤ i → i < 2 * ls.length - 1 → IsMerge s i
  root : 0 < ls.length → (nodeAt s (2 * ls.length - 2)).parent = 0x1FF
  child : ∀ k, k < 2 * ls.length - 1 → k ≠ 2 * ls.length - 2 → ls.length ≤ (nodeAt s k).parent.toNat ∧
    (nodeAt s k).parent.toNat < 2 * ls.length - 1 ∧ ((nodeAt s (nodeAt s k).parent.toNat).left.toNat = k ∨
      (nodeAt s (nodeAt s k).parent.toNat).right.toNat = k)
  unmade : ∀ k, 2 * ls.length - 1 ≤ k → nodeAt s k = HNode.zero

/-- The last node made has no parent: a parent is made after its children. -/
theorem Building.finished {ls : List HNode} {s : State} {root : Nat} (hpos : 0 < ls.length)
    (h : Building ls s [root] (2 * ls.length - 1)) : Built ls s := by
  have hlast : (nodeAt s (2 * ls.length - 2)).parent = 0x1FF := by
    by_contra hne
    obtain ⟨hle, hlt, hchild⟩ := h.child _ (by omega) hne
    obtain ⟨-, -, -, -, ⟨ha, -⟩, ⟨hb, -⟩, -⟩ := h.merged _ hle hlt
    omega
  have hroot : 2 * ls.length - 2 = root := List.mem_singleton.mp ((h.mem_iff _).mpr ⟨by omega, hlast⟩)
  exact {
    leaf := h.leaf
    merged := h.merged
    root := fun _ => hlast
    child := fun k hk hne => h.child k hk fun hk' =>
      hne ((List.mem_singleton.mp ((h.mem_iff k).mpr ⟨hk, hk'⟩)).trans hroot.symm)
    unmade := h.unmade }

/-- The tree is a matter of the arena alone. -/
theorem Built.of_withArena {ls : List HNode} {s t : State} (h : Built ls (s.withArena t.hnode)) : Built ls t :=
  ⟨h.leaf, h.merged, h.root, h.child, h.unmade⟩

theorem length_leaves (h : Vector Word 256) : (leaves h).length = (countedSymbols h).length := by
  rw [leaves_eq, List.length_map]

theorem length_leaves_le (h : Vector Word 256) : (leaves h).length ≤ 256 :=
  (length_leaves h).trans_le (length_countedSymbols_le h)

theorem parent_of_mem_leaves {h : Vector Word 256} {l : HNode} (hl : l ∈ leaves h) : l.parent = 0x1FF := by
  rw [leaves_eq] at hl
  obtain ⟨sym, -, rfl⟩ := List.mem_map.mp hl
  rfl

/-- R404: `BuildTree()` builds the tree over the leaves, where the total fits a word. -/
theorem built_buildArena (s : State) (htotal : ∑ sym : Fin 256, (s.hfreq.get sym).toNat < 2 ^ 32) :
    Built (leaves s.hfreq) (s.withArena (buildArena s.hfreq)) := by
  have hle := length_leaves_le s.hfreq
  have hstart := Building.start (ls := leaves s.hfreq) (by omega) (fun l => parent_of_mem_leaves) s
  obtain hzero | hpos := Nat.eq_zero_or_pos (leaves s.hfreq).length
  · have harena : buildArena s.hfreq = leafArena (leaves s.hfreq) := mergeLoop_of_length_le (by simp [hzero]) _ _ _
    rw [harena]
    exact {
      leaf := hstart.leaf
      merged := fun i _ h => by omega
      root := fun h => by omega
      child := fun k h => by omega
      unmade := fun k _ => hstart.unmade k (by omega) }
  · rw [← sum_leaves] at htotal
    have hlen : (List.range (leaves s.hfreq).length).length = (leaves s.hfreq).length := List.length_range
    obtain ⟨root, hroot⟩ := hstart.mergeLoop htotal hle (leaves s.hfreq).length (hpos.trans_eq hlen.symm) hlen.le
    rw [withArena_withArena] at hroot
    exact hroot.finished hpos

section
variable {s t : State} (h : Built (leaves s.hfreq) t)
include h

/-- A leaf of the tree is the leaf of its counted symbol. -/
theorem Built.leaf_eq {k : Nat} (hk : k < (countedSymbols s.hfreq).length) :
    ∃ p, nodeAt t k =
      { leafNode ((countedSymbols s.hfreq)[k]).val (s.hfreq.get (countedSymbols s.hfreq)[k]) with parent := p } := by
  obtain ⟨p, hp⟩ := h.leaf k ((length_leaves _).symm ▸ hk)
  exact ⟨p, by simpa only [leaves_eq, List.getElem_map] using hp⟩

theorem Built.toNat_left {k : Nat} (hk : k < (countedSymbols s.hfreq).length) :
    (nodeAt t k).left.toNat = (countedSymbols s.hfreq)[k].val := by
  obtain ⟨p, hp⟩ := h.leaf_eq hk
  rw [hp]
  exact toNat_ofNat9 (by omega)

/-- R402: the leaves stand in ascending symbol order. -/
theorem Built.left_lt {j k : Nat} (hjk : j < k) (hk : k < (countedSymbols s.hfreq).length) :
    (nodeAt t j).left.toNat < (nodeAt t k).left.toNat := by
  rw [h.toNat_left (hjk.trans hk), h.toNat_left hk]
  exact List.pairwise_iff_getElem.mp (sortedLT_countedSymbols s.hfreq) j k (hjk.trans hk) hk hjk

theorem Built.isTreeOf (hroot : t.hroot = rootIndex (countedSymbols s.hfreq).length)
    (hnleaf : t.hnleaf = BitVec.ofNat 9 (countedSymbols s.hfreq).length) :
    IsTreeOf s t (countedSymbols s.hfreq).length := by
  have hle := length_countedSymbols_le s.hfreq
  have ⟨_, hmerged, hlast, _, hunmade⟩ := h
  rw [length_leaves] at hmerged hlast hunmade
  refine ⟨fun i hi => ?_, fun _ _ => h.left_lt, fun sym hsym => ?_, hmerged, hlast, hunmade, ?_, ?_⟩
  · obtain ⟨p, hp⟩ := h.leaf_eq hi
    refine ⟨_, mem_countedSymbols.mp (List.getElem_mem hi), h.toNat_left hi, ?_⟩
    rw [hp]
    exact ⟨rfl, rfl, rfl, rfl⟩
  · obtain ⟨i, hi, rfl⟩ := List.getElem_of_mem (mem_countedSymbols.mpr hsym)
    exact ⟨i, hi, h.toNat_left hi⟩
  · rw [hroot, rootIndex]
    split
    · rfl
    · exact toNat_ofNat9 (by omega)
  · rw [hnleaf]
    exact toNat_ofNat9 (by omega)

theorem Built.nodeOk (i : Nat) : Arena.nodeOk t.hnode (countedSymbols s.hfreq).length i := by
  have ⟨_, hmerged, hlast, hchild, hunmade⟩ := h
  rw [length_leaves] at hmerged hlast hchild hunmade
  simp only [nodeAt_eq_node] at hmerged hlast hchild hunmade
  unfold Arena.nodeOk
  split
  case isFalse hi => exact hunmade i (Nat.le_of_not_lt hi)
  case isTrue hi =>
    have hparent : Arena.parentOk t.hnode (countedSymbols s.hfreq).length i := by
      unfold Arena.parentOk
      split
      · next hroot => exact hroot ▸ hlast (by omega)
      · next hroot => exact hchild i hi hroot
    by_cases hleaf : i < (countedSymbols s.hfreq).length
    · obtain ⟨p, hp⟩ := h.leaf_eq hleaf
      have hleft := h.toNat_left hleaf
      rw [nodeAt_eq_node] at hp hleft
      rw [if_pos hleaf]
      refine ⟨by rw [hp]; rfl, ⟨by rw [hp]; rfl, by omega, by rw [hp]; rfl, h.left_lt i.lt_succ_self⟩, hparent⟩
    · obtain ⟨hvalid, hinner, -, hne, ⟨ha, -⟩, ⟨hb, -⟩, hpa, hpb, -⟩ := hmerged i (Nat.le_of_not_lt hleaf) hi
      rw [if_neg hleaf]
      exact ⟨hvalid, ⟨hinner, ha, hb, fun he => hne (congrArg BitVec.toNat he), hpa, hpb⟩, hparent⟩

theorem Built.treeOk (hroot : t.hroot = rootIndex (countedSymbols s.hfreq).length)
    (hnleaf : t.hnleaf = BitVec.ofNat 9 (countedSymbols s.hfreq).length) : t.TreeOk := by
  have hle := length_countedSymbols_le s.hfreq
  have hn : t.hnleaf.toNat = (countedSymbols s.hfreq).length := by rw [hnleaf, toNat_ofNat9 (by omega)]
  unfold State.TreeOk
  rw [hn]
  exact ⟨hle, hroot, fun i => h.nodeOk i.val⟩

end

/-! ## HBUILD (R408) -/

/-- The total of the histogram (R404). -/
def State.countTotal (s : State) : Nat := ∑ sym : Fin 256, (s.hfreq.get sym).toNat

/-- The state that HBUILD leaves, but for CPC. -/
def State.withTree (s : State) : State :=
  { s with hnode := buildArena s.hfreq, hroot := rootIndex (countedSymbols s.hfreq).length,
           hnleaf := BitVec.ofNat 9 (countedSymbols s.hfreq).length }

theorem hbuild_checked (s : State) : Checked s [(decide (2 ^ 32 ≤ s.countTotal), 0x62)] (hbuild s) s.withTree := by
  unfold hbuild
  rw [histTotal_eq, length_leaves]
  exact (refuseIf_checked s rfl .hufFreq).bind (.pure s _)

theorem exec_hbuild_halts {s : State} (h : 2 ^ 32 ≤ s.countTotal) :
    exec .hbuild s = .next (halted s 0x62 (encode .hbuild) s.mem) := by
  obtain ⟨hrefuses, -⟩ := (hbuild_checked s).command (i := .hbuild) rfl
  rw [decide_eq_true h] at hrefuses
  exact hrefuses 0x62 rfl

theorem exec_hbuild_completes {s : State} (h : s.countTotal < 2 ^ 32) : exec .hbuild s = .next s.withTree.advance := by
  obtain ⟨-, hcompletes⟩ := (hbuild_checked s).command (i := .hbuild) rfl
  rw [decide_eq_false (Nat.not_le.mpr h)] at hcompletes
  exact hcompletes rfl

theorem built_withTree {s : State} (h : s.countTotal < 2 ^ 32) : Built (leaves s.hfreq) s.withTree.advance :=
  .of_withArena (s := s) (built_buildArena s h)

/-- Settles O47: the total is the command's one check; the loop of R404 keeps `Building`, and at its end the tree is `Built`. -/
theorem treeBuild : Obligations.TreeBuild := by
  refine fun s => ⟨exec_hbuild_halts, fun htotal => ⟨_, _, _, exec_hbuild_completes htotal, ?_⟩⟩
  rw [← length_countedSymbols]
  exact (built_withTree htotal).isTreeOf rfl rfl

end Sys2Proof.Machine
end

