-- ==== Sys2Proof/Proofs/TreeInvariant.lean ====
section
/-!
PROOF. The Huffman tree invariant `State.TreeOk` under every engine step and every host event. Settles O12.
-/

namespace Sys2Proof.Machine

open Sys2Proof.Claims

/-! ## The tree invariant under the engine's updates -/

/-- The tree is a matter of HNODE, HROOT and HNLEAF alone. -/
theorem State.TreeOk.of_same {s t : State} (h : s.TreeOk) (hnode : t.hnode = s.hnode) (hroot : t.hroot = s.hroot)
    (hnleaf : t.hnleaf = s.hnleaf) : t.TreeOk := by
  unfold State.TreeOk
  rw [hnode, hroot, hnleaf]
  exact h

theorem State.TreeOk.storeReg {s : State} (h : s.TreeOk) (r : Reg) (v : Word) : (s.storeReg r v).TreeOk := by
  obtain ⟨-, -, -, -, -, -, -, -, hroot, hnleaf, -⟩ := storeReg_readOnly s r v
  obtain ⟨-, -, -, -, -, -, hnode, -⟩ := storeReg_sameBeyondRegisters s r v
  exact h.of_same hnode hroot hnleaf

/-- R66: no command but HBUILD writes the tree. -/
theorem Effect.treeOk {s u : State} {i : Instr} (h : Effect s i u) (hi : i ≠ .hbuild) (hs : s.TreeOk) : u.TreeOk := by
  cases h with
  | hbuild => exact absurd rfl hi
  | setl _ _ reg v | seth _ _ reg v => exact hs.storeReg reg v
  | _ => exact hs.of_same rfl rfl rfl

/-- R404: whatever tree was there, HBUILD leaves it or a well-formed one. -/
theorem exec_hbuild_treeOk {s t : State} (hs : s.TreeOk) (h : exec .hbuild s = .next t) : t.TreeOk := by
  obtain htotal | htotal := Nat.lt_or_ge s.countTotal (2 ^ 32)
  · cases h.symm.trans (exec_hbuild_completes htotal)
    exact (built_withTree htotal).treeOk rfl rfl
  · cases h.symm.trans (exec_hbuild_halts htotal)
    exact hs.of_same rfl rfl rfl

theorem exec_treeOk {s t : State} (hs : s.TreeOk) {i : Instr} (h : exec i s = .next t) : t.TreeOk := by
  by_cases hi : i = .hbuild
  · subst hi
    exact exec_hbuild_treeOk hs h
  · rcases exec_cases i h with ⟨c, m, -, rfl⟩ | ⟨u, pc, hu, rfl⟩
    · exact hs.of_same rfl rfl rfl
    · exact (hu.treeOk hi hs).of_same rfl rfl rfl

theorem engineStep_treeOk {s t : State} (hs : s.TreeOk) (h : engineStep s = .next t) : t.TreeOk := by
  unfold engineStep at h
  split at h
  · split at h
    · cases h
      exact hs.of_same rfl rfl rfl
    · split at h
      · cases h
        exact hs.of_same rfl rfl rfl
      · exact exec_treeOk hs h
  · cases h
    exact hs

/-! ## The tree invariant under host events -/

/-- R550: after a reset there is no tree, and every node is 0. -/
theorem State.TreeOk.hardResetState (p : Config.Params) (m : Memory) : (State.hardResetState p m).TreeOk := by
  refine ⟨Nat.zero_le _, rfl, fun i => ?_⟩
  exact (dif_pos i.isLt).trans (Vector.getElem_replicate i.isLt)

theorem State.TreeOk.ite {c : Prop} [Decidable c] {s t : State} (hs : s.TreeOk) (ht : t.TreeOk) :
    State.TreeOk (if c then s else t) :=
  iteInduction (motive := State.TreeOk) (fun _ => hs) fun _ => ht

theorem State.TreeOk.softReset (s : State) : s.softReset.TreeOk :=
  (State.TreeOk.hardResetState s.params s.mem).of_same rfl rfl rfl

theorem State.TreeOk.start {s : State} (h : s.TreeOk) : s.start.TreeOk := h.ite (h.of_same rfl rfl rfl)

theorem State.TreeOk.ctrlWrite {s : State} (h : s.TreeOk) (v : Word) : (s.ctrlWrite v).TreeOk :=
  have hsoft : State.TreeOk (if v.getLsbD 2 then s.softReset else s) := (State.TreeOk.softReset s).ite h
  have hclr := (hsoft.of_same rfl rfl rfl : State.TreeOk (State.errClr _)).ite (c := v.getLsbD 1) hsoft
  hclr.start.ite hclr

theorem State.TreeOk.hostWriteReg {s : State} (h : s.TreeOk) (r : Reg) (data : Word) (strobe : BitVec 4) :
    (s.hostWriteReg r data strobe).TreeOk := by
  unfold State.hostWriteReg
  dsimp only
  split
  · exact h.ctrlWrite _
  · exact (h.of_same rfl rfl rfl : State.TreeOk { s with busyAcc := false }).ite h
  · exact h.of_same rfl rfl rfl
  · exact h.storeReg _ _

/-- R33: the HNODE window is read-only. -/
theorem State.TreeOk.putTarget {s : State} (h : s.TreeOk) (tgt : HostTarget) (data : Word) (strobe : BitVec 4) :
    (s.putTarget tgt data strobe).TreeOk := by
  cases tgt with
  | reg r => exact h.hostWriteReg r data strobe
  | _ => exact h.of_same rfl rfl rfl

theorem State.TreeOk.hostEvent {s : State} (h : s.TreeOk) (e : HostEvent) : (s.hostEvent e).TreeOk := by
  cases e with
  | quiet => exact h
  | read off => exact State.TreeOk.ite (h.of_same rfl rfl rfl) (h.of_same rfl rfl rfl)
  | write off data strobe => exact State.TreeOk.ite (h.of_same rfl rfl rfl) (h.putTarget _ data strobe)
  | hardReset cells => exact (State.TreeOk.hardResetState s.params []).of_same rfl rfl rfl

/-- Settles O12: HBUILD builds a well-formed tree, a reset clears it, and nothing else writes it. -/
theorem stepKeepsHuffmanTree : Obligations.StepKeepsHuffmanTree := by
  intro s t hs h
  have hq : ∀ rest, State.TreeOk { s with hostQueue := rest } := fun _ => hs
  unfold step at h
  split at h
  · exact engineStep_treeOk hs h
  · exact engineStep_treeOk (hq _) h
  · cases h
    exact (hq _).hostEvent _

end Sys2Proof.Machine
end

