-- ==== Sys2Proof/Proofs/Codes.lean ====
section
/-!
PROOF. The codes of a well-formed tree (45_huffman.md R405, R412): walks from the root, and the codes HENC emits. Settles O48
and O49.
-/

namespace Sys2Proof.Machine

open Sys2Proof.Claims

/-! ## Walks down the tree (R405) -/

/-- The node a bit leads to. -/
def childAt (s : State) (i : Nat) (b : Bool) : Nat :=
  if b then (nodeAt s i).right.toNat else (nodeAt s i).left.toNat

/-- Node `i` is a valid internal node. -/
abbrev IsInner (s : State) (i : Nat) : Prop := (nodeAt s i).valid = true ∧ (nodeAt s i).leaf = false

/-- Node `i` is the valid leaf of the symbol. -/
abbrev IsLeafOf (s : State) (sym : Byte) (i : Nat) : Prop :=
  (nodeAt s i).valid = true ∧ (nodeAt s i).leaf = true ∧ (nodeAt s i).left = sym.setWidth 9

section
variable {s : State} {i k : Nat} {b : Bool} {p q : List Bool}

theorem walk_cons_of_inner (h : IsInner s i) : walk s i (b :: p) = walk s (childAt s i b) p := by
  rw [walk, h.1, h.2]
  rfl

theorem walk_cons_eq_some : walk s i (b :: p) = some k ↔ IsInner s i ∧ walk s (childAt s i b) p = some k := by
  by_cases h : IsInner s i
  · rw [walk_cons_of_inner h, and_iff_right h]
  · rw [walk, if_neg (by simpa using h)]
    exact iff_of_false nofun fun h' => h h'.1

theorem walk_append : walk s i (p ++ q) = (walk s i p).bind fun j => walk s j q := by
  induction p generalizing i with
  | nil => rfl
  | cons b p ih =>
    by_cases h : IsInner s i
    · rw [List.cons_append, walk_cons_of_inner h, walk_cons_of_inner h, ih]
    · rw [List.cons_append, walk, walk, if_neg (by simpa using h), if_neg (by simpa using h)]
      rfl

theorem walk_append_eq_some : walk s i (p ++ q) = some k ↔ ∃ j, walk s i p = some j ∧ walk s j q = some k := by
  rw [walk_append, Option.bind_eq_some_iff]

theorem walk_concat_eq_some :
    walk s i (p ++ [b]) = some k ↔ ∃ j, walk s i p = some j ∧ IsInner s j ∧ childAt s j b = k := by
  rw [walk_append_eq_some]
  exact exists_congr fun j => and_congr_right fun _ =>
    walk_cons_eq_some.trans (and_congr_right fun _ => by rw [walk, Option.some_inj])

/-- A walk goes no further than a leaf. -/
theorem walk_leaf (hleaf : (nodeAt s i).leaf = true) (h : walk s i p = some k) : p = [] ∧ k = i := by
  cases p with
  | nil => exact ⟨rfl, (Option.some.inj h).symm⟩
  | cons b p =>
    obtain ⟨⟨-, hinner⟩, -⟩ := walk_cons_eq_some.mp h
    exact nomatch hleaf.symm.trans hinner

end

/-! ## Walks in a well-formed tree -/

section
variable {s : State} (h : s.TreeOk)
include h

theorem State.TreeOk.nodeOk (i : Nat) : Arena.nodeOk s.hnode s.hnleaf.toNat i := by
  obtain ⟨hle, -, hnodes⟩ := h
  obtain hi | hi := Nat.lt_or_ge i 511
  · exact hnodes ⟨i, hi⟩
  · rw [Arena.nodeOk, if_neg (by omega), Arena.node_of_ge hi]

theorem State.TreeOk.lt_of_valid {i : Nat} (hvalid : (nodeAt s i).valid = true) : i < 2 * s.hnleaf.toNat - 1 := by
  by_contra hi
  have hnode := h.nodeOk i
  rw [Arena.nodeOk, if_neg hi, ← nodeAt_eq_node] at hnode
  rw [hnode] at hvalid
  cases hvalid

theorem State.TreeOk.leaf {i : Nat} (hi : i < s.hnleaf.toNat) :
    (nodeAt s i).valid = true ∧ Arena.leafOk s.hnode s.hnleaf.toNat i := by
  have hnode := h.nodeOk i
  rw [Arena.nodeOk, if_pos (by omega), if_pos hi] at hnode
  exact ⟨hnode.1, hnode.2.1⟩

theorem State.TreeOk.inner {i : Nat} (hle : s.hnleaf.toNat ≤ i) (hlt : i < 2 * s.hnleaf.toNat - 1) :
    (nodeAt s i).valid = true ∧ Arena.innerOk s.hnode i := by
  have hnode := h.nodeOk i
  rw [Arena.nodeOk, if_pos hlt, if_neg (Nat.not_lt.mpr hle)] at hnode
  exact ⟨hnode.1, hnode.2.1⟩

theorem State.TreeOk.isInner_iff {i : Nat} :
    IsInner s i ↔ s.hnleaf.toNat ≤ i ∧ i < 2 * s.hnleaf.toNat - 1 := by
  refine ⟨fun ⟨hvalid, hinner⟩ => ⟨?_, h.lt_of_valid hvalid⟩, fun ⟨hle, hlt⟩ => ?_⟩
  · by_contra hlt
    obtain ⟨-, hleaf, -⟩ := h.leaf (Nat.lt_of_not_le hlt)
    exact nomatch hleaf.symm.trans hinner
  · obtain ⟨hvalid, hinner, -⟩ := h.inner hle hlt
    exact ⟨hvalid, hinner⟩

theorem State.TreeOk.lt_of_leaf {i : Nat} (hvalid : (nodeAt s i).valid = true) (hleaf : (nodeAt s i).leaf = true) :
    i < s.hnleaf.toNat := by
  by_contra hi
  obtain ⟨-, hinner⟩ := h.isInner_iff.mpr ⟨Nat.le_of_not_lt hi, h.lt_of_valid hvalid⟩
  exact nomatch hleaf.symm.trans hinner

/-- R404: a child was made before its parent, and knows it. -/
theorem State.TreeOk.child {i : Nat} (hi : IsInner s i) (b : Bool) :
    childAt s i b < i ∧ (nodeAt s (childAt s i b)).parent.toNat = i := by
  obtain ⟨-, -, hleft, hright, -, hpl, hpr⟩ := (fun hb => h.inner hb.1 hb.2) (h.isInner_iff.mp hi)
  cases b with
  | false => exact ⟨hleft, hpl⟩
  | true => exact ⟨hright, hpr⟩

theorem State.TreeOk.child_injective {i : Nat} (hi : IsInner s i) {b c : Bool} (hbc : childAt s i b = childAt s i c) :
    b = c := by
  obtain ⟨-, -, -, -, hne, -⟩ := (fun hb => h.inner hb.1 hb.2) (h.isInner_iff.mp hi)
  have hne' : childAt s i false ≠ childAt s i true := fun he => hne (BitVec.eq_of_toNat_eq he)
  cases b with
  | false =>
    cases c with
    | false => rfl
    | true => exact absurd hbc hne'
  | true =>
    cases c with
    | false => exact absurd hbc.symm hne'
    | true => rfl

/-- A walk goes down by at least one index a step. -/
theorem State.TreeOk.walk_le {i k : Nat} {p : List Bool} (hw : walk s i p = some k) : k + p.length ≤ i := by
  induction p generalizing i with
  | nil => exact (Option.some.inj hw).ge
  | cons b p ih =>
    obtain ⟨hinner, hw⟩ := walk_cons_eq_some.mp hw
    have hlt := (h.child hinner b).1
    have hle := ih hw
    rw [List.length_cons]
    omega

/-- Two walks from one node to one node are the same: the last step is fixed by the parent of the last node. -/
theorem State.TreeOk.walk_injective {i k : Nat} {p q : List Bool} (hp : walk s i p = some k) (hq : walk s i q = some k) :
    p = q := by
  induction p using List.reverseRecOn generalizing q k with
  | nil =>
    cases hp
    have hle := h.walk_le hq
    exact (List.eq_nil_of_length_eq_zero (by omega)).symm
  | append_singleton p b ih =>
    obtain rfl | ⟨q, c, rfl⟩ := List.eq_nil_or_concat' q
    · cases hq
      have hle := h.walk_le hp
      rw [List.length_append, List.length_singleton] at hle
      omega
    · obtain ⟨j, hj, hinner, rfl⟩ := walk_concat_eq_some.mp hp
      obtain ⟨j', hj', hinner', hchild⟩ := walk_concat_eq_some.mp hq
      have hparent := (h.child hinner' c).2
      rw [hchild, (h.child hinner b).2] at hparent
      subst hparent
      rw [ih hj hj', h.child_injective hinner hchild]

theorem State.TreeOk.toNat_hroot (hpos : 0 < s.hnleaf.toNat) : s.hroot.toNat = 2 * s.hnleaf.toNat - 2 := by
  obtain ⟨hle, hroot, -⟩ := h
  rw [hroot, rootIndex, if_neg hpos.ne', toNat_ofNat9 (by omega)]

/-- Every node of the tree is reached from the root: up from a node by its parent, whose index is greater. -/
theorem State.TreeOk.exists_walk {i : Nat} (hi : i < 2 * s.hnleaf.toNat - 1) : ∃ p, walk s s.hroot.toNat p = some i := by
  have hpos : 0 < s.hnleaf.toNat := by omega
  have hnode := h.nodeOk i
  rw [Arena.nodeOk, if_pos hi] at hnode
  obtain ⟨-, -, hparent⟩ := hnode
  unfold Arena.parentOk at hparent
  split at hparent
  · next hroot => exact ⟨[], congrArg some ((h.toNat_hroot hpos).trans hroot.symm)⟩
  · next hroot =>
    obtain ⟨hle, hlt, hchild⟩ := hparent
    have hinner := h.isInner_iff.mpr ⟨hle, hlt⟩
    obtain ⟨b, hb⟩ : ∃ b, childAt s (Arena.node s.hnode i).parent.toNat b = i := hchild.elim (⟨false, ·⟩) (⟨true, ·⟩)
    have hup := (h.child hinner b).1
    obtain ⟨p, hp⟩ := exists_walk hlt
    exact ⟨p ++ [b], walk_concat_eq_some.mpr ⟨_, hp, hinner, hb⟩⟩
termination_by 2 * s.hnleaf.toNat - i

theorem State.TreeOk.left_lt {j k : Nat} (hjk : j < k) (hk : k < s.hnleaf.toNat) :
    (nodeAt s j).left.toNat < (nodeAt s k).left.toNat := by
  induction k, hjk using Nat.le_induction with
  | base =>
    obtain ⟨-, -, -, -, hnext⟩ := h.leaf (Nat.lt_of_succ_lt hk)
    exact hnext hk
  | succ k _ ih =>
    obtain ⟨-, -, -, -, hnext⟩ := h.leaf (Nat.lt_of_succ_lt hk)
    exact (ih (Nat.lt_of_succ_lt hk)).trans (hnext hk)

/-- R402: a symbol has at most one leaf. -/
theorem State.TreeOk.isLeafOf_unique {sym : Byte} {i j : Nat} (hi : IsLeafOf s sym i) (hj : IsLeafOf s sym j) : i = j := by
  obtain ⟨hvi, hli, hi⟩ := hi
  obtain ⟨hvj, hlj, hj⟩ := hj
  have hsame := congrArg BitVec.toNat (hi.trans hj.symm)
  obtain hlt | heq | hgt := Nat.lt_trichotomy i j
  · exact absurd hsame (h.left_lt hlt (h.lt_of_leaf hvj hlj)).ne
  · exact heq
  · exact absurd hsame.symm (h.left_lt hgt (h.lt_of_leaf hvi hli)).ne

/-- R405: a symbol has at most one code. -/
theorem State.TreeOk.isCode_unique {sym : Byte} {bits bits' : List Bool} (hb : IsCode s sym bits) (hb' : IsCode s sym bits') :
    bits = bits' := by
  obtain ⟨i, hi, hleaf⟩ := hb
  obtain ⟨j, hj, hleaf'⟩ := hb'
  exact h.walk_injective hi (h.isLeafOf_unique hleaf hleaf' ▸ hj)

/-- R405: a symbol has a code exactly where it has a leaf. -/
theorem State.TreeOk.exists_isCode_iff {sym : Byte} :
    (∃ bits, IsCode s sym bits) ↔ ∃ i, i < s.hnleaf.toNat ∧ (nodeAt s i).left.toNat = sym.toNat := by
  refine ⟨fun ⟨bits, i, _, hvalid, hleaf, hleft⟩ => ⟨i, h.lt_of_leaf hvalid hleaf, ?_⟩, fun ⟨i, hi, hleft⟩ => ?_⟩
  · rw [hleft, BitVec.toNat_setWidth, Nat.mod_eq_of_lt (by omega)]
  · obtain ⟨hvalid, hleaf, -⟩ := h.leaf hi
    obtain ⟨p, hp⟩ := h.exists_walk (i := i) (by omega)
    refine ⟨p, i, hp, hvalid, hleaf, BitVec.eq_of_toNat_eq ?_⟩
    rw [hleft, BitVec.toNat_setWidth, Nat.mod_eq_of_lt (by omega)]

/-- R405: the internal nodes on the way are less than the leaves in number. -/
theorem State.TreeOk.length_code_le {sym : Byte} {bits : List Bool} (hb : IsCode s sym bits) :
    bits.length ≤ s.hnleaf.toNat - 1 := by
  obtain ⟨i, hi, -⟩ := hb
  obtain rfl | ⟨p, b, rfl⟩ := List.eq_nil_or_concat' bits
  · exact Nat.zero_le _
  · obtain ⟨j, hj, hinner, -⟩ := walk_concat_eq_some.mp hi
    obtain ⟨hle, hlt⟩ := h.isInner_iff.mp hinner
    have hroot := h.toNat_hroot (by omega)
    have hlen := h.walk_le hj
    rw [List.length_append, List.length_singleton]
    omega

/-- R405: with two leaves or more the root is no leaf. -/
theorem State.TreeOk.length_code_pos {sym : Byte} {bits : List Bool} (hb : IsCode s sym bits) (htwo : 2 ≤ s.hnleaf.toNat) :
    1 ≤ bits.length := by
  obtain ⟨i, hi, hvalid, hleaf, -⟩ := hb
  refine List.length_pos_iff.mpr fun hnil => ?_
  subst hnil
  cases hi
  have hlt := h.lt_of_leaf hvalid hleaf
  have hroot := h.toNat_hroot (by omega)
  omega

end

/-! ## The codes HENC emits (R409) -/

/-- What `pathTo` finds leads to the leaf of the symbol. -/
theorem pathTo_sound {s : State} {sym : Byte} {depth i : Nat} {p : List Bool} (h : pathTo s.hnode sym depth i = some p) :
    ∃ j, walk s i p = some j ∧ IsLeafOf s sym j := by
  induction depth generalizing i p with
  | zero => cases h
  | succ depth ih =>
    rw [pathTo] at h
    rw [← nodeAt_eq_node] at h
    split at h
    · cases h
    · next hvalid =>
      rw [Bool.not_eq_true, Bool.not_eq_false'] at hvalid
      split at h
      · next hleaf =>
        split at h
        · next hleft =>
          cases h
          exact ⟨i, rfl, hvalid, hleaf, hleft⟩
        · cases h
      · next hleaf =>
        have hinner : IsInner s i := ⟨hvalid, Bool.eq_false_iff.mpr hleaf⟩
        split at h
        · next q hq =>
          cases h
          rw [walk_cons_of_inner hinner]
          exact ih hq
        · next hnone =>
          obtain ⟨q, hq, rfl⟩ := Option.map_eq_some_iff.mp h
          rw [walk_cons_of_inner hinner]
          exact ih hq

/-- `pathTo` finds a path where there is one in its depth. -/
theorem pathTo_complete {s : State} {sym : Byte} {depth i j : Nat} {p : List Bool} (hw : walk s i p = some j)
    (hleaf : IsLeafOf s sym j) (hdepth : p.length < depth) : ∃ q, pathTo s.hnode sym depth i = some q := by
  induction depth generalizing i p with
  | zero => exact absurd hdepth (Nat.not_lt_zero _)
  | succ depth ih =>
    rw [pathTo]
    rw [← nodeAt_eq_node]
    cases p with
    | nil =>
      cases hw
      obtain ⟨hvalid, hleaf, hleft⟩ := hleaf
      exact ⟨[], by rw [hvalid, hleaf, if_neg (by decide), if_pos rfl, if_pos hleft]⟩
    | cons b p =>
      obtain ⟨⟨hvalid, hinner⟩, hw⟩ := walk_cons_eq_some.mp hw
      obtain ⟨q, hq⟩ := ih hw (Nat.lt_of_succ_lt_succ hdepth)
      rw [hvalid, hinner, if_neg (by decide), if_neg (by decide)]
      cases hleft : pathTo s.hnode sym depth (nodeAt s i).left.toNat with
      | some q' => exact ⟨_, rfl⟩
      | none =>
        cases b with
        | false => exact absurd (hleft.symm.trans hq) nofun
        | true => exact ⟨true :: q, congrArg (Option.map (true :: ·)) hq⟩

theorem isCode_of_codeOf {s : State} {sym : Byte} {bits : List Bool} (h : s.codeOf sym = some bits) : IsCode s sym bits :=
  pathTo_sound h

/-- R405, R409: in a well-formed tree HENC emits the code of the symbol. -/
theorem State.TreeOk.codeOf_eq_some_iff {s : State} (h : s.TreeOk) {sym : Byte} {bits : List Bool} :
    s.codeOf sym = some bits ↔ IsCode s sym bits := by
  refine ⟨isCode_of_codeOf, fun hb => ?_⟩
  have hlen := h.length_code_le hb
  have hle := h.1
  obtain ⟨i, hi, hleaf⟩ := hb
  obtain ⟨q, hq⟩ := pathTo_complete (depth := 256) hi hleaf (by omega)
  rw [h.isCode_unique ⟨i, hi, hleaf⟩ (isCode_of_codeOf hq)]
  exact hq

theorem State.TreeOk.codeOf_eq_none_iff {s : State} (h : s.TreeOk) {sym : Byte} :
    s.codeOf sym = none ↔ ¬ ∃ bits, IsCode s sym bits := by
  simp only [← h.codeOf_eq_some_iff, Option.eq_none_iff_forall_ne_some, not_exists, ne_eq]

theorem setWidth_symbol_injective {a b : Byte} (h : a.setWidth 9 = b.setWidth 9) : a = b := by
  have := congrArg (BitVec.setWidth 8) h
  simpa using this

/-- Settles O49: of two codes of which one begins with the other, the walk of the first ends at a leaf, where no walk goes on. -/
theorem codesArePrefixFree : Obligations.CodesArePrefixFree := by
  refine ⟨fun s a b p q ha hb hprefix => ?_, fun s sym bits h => h.codeOf_eq_some_iff⟩
  obtain ⟨r, rfl⟩ := hprefix
  obtain ⟨i, hi, -, hleaf, hleft⟩ := isCode_of_codeOf ha
  obtain ⟨j, hj, -, -, hleft'⟩ := isCode_of_codeOf hb
  obtain ⟨i', hi', hr⟩ := walk_append_eq_some.mp hj
  cases hi.symm.trans hi'
  obtain ⟨rfl, rfl⟩ := walk_leaf hleaf hr
  exact ⟨setWidth_symbol_injective (hleft.symm.trans hleft'), (List.append_nil p).symm⟩

/-- Settles O48: HBUILD leaves a well-formed tree, whose leaves are those of the counted symbols. -/
theorem countedSymbolsHaveOneCode : Obligations.CountedSymbolsHaveOneCode := by
  intro s t hexec herr sym
  obtain htotal | htotal := Nat.lt_or_ge s.countTotal (2 ^ 32)
  · cases hexec.symm.trans (exec_hbuild_completes htotal)
    have hbuilt := built_withTree htotal
    have h : s.withTree.advance.TreeOk := hbuilt.treeOk rfl rfl
    obtain ⟨hleaves, -, hcounted, -, -, -, -, hn⟩ := hbuilt.isTreeOf rfl rfl
    refine ⟨h.exists_isCode_iff.trans ⟨fun ⟨i, hi, hleft⟩ => ?_, fun hne => ?_⟩, fun _ _ => h.isCode_unique,
      fun bits hb => ?_⟩
    · obtain ⟨sym', hne, hleft', -⟩ := hleaves i (hn ▸ hi)
      exact (Fin.ext (hleft'.symm.trans hleft) : sym' = sym) ▸ hne
    · rw [hn]
      exact hcounted sym hne
    · have hlen := h.length_code_le hb
      have hle := h.1
      exact ⟨by omega, fun hone => List.eq_nil_of_length_eq_zero (by omega), fun htwo => ⟨h.length_code_pos hb htwo, hlen⟩⟩
  · cases hexec.symm.trans (exec_hbuild_halts htotal)
    cases herr

end Sys2Proof.Machine
end

