-- ==== Sys2Proof/Proofs/Histogram.lean ====
section
/-!
PROOF. Loops of rounds, and the histogram commands HCLR and HFREQ (45_huffman.md R406, R407). Settles O46.
-/

namespace Sys2Proof.Machine

open Sys2Proof.Claims

/-! ## Loops -/

section
variable {σ : Type} {f : σ → Run σ}

theorem repeatRun_succ (n : Nat) (x : σ) : repeatRun f (n + 1) x = f x >>= repeatRun f n := by
  rw [repeatRun]
  cases f x <;> rfl

/-- A loop of n + m rounds is a loop of n and then one of m. -/
theorem repeatRun_add (n m : Nat) (x : σ) : repeatRun f (n + m) x = repeatRun f n x >>= repeatRun f m := by
  induction n generalizing x with
  | zero => rw [Nat.zero_add]; rfl
  | succ n ih =>
    rw [Nat.add_right_comm, repeatRun_succ, repeatRun_succ]
    cases f x with
    | error e => rfl
    | ok y => exact ih y

theorem repeatRun_one (x : σ) : repeatRun f 1 x = f x := by
  rw [repeatRun_succ]
  cases f x <;> rfl

/-- A loop raises what one of its rounds does, where the rounds before it complete. -/
theorem Raises.repeatRun {x y : σ} {n m : Nat} {code : Byte} {mem : Memory} (hm : m < n)
    (hok : Machine.repeatRun f m x = .ok y) (h : Raises (f y) code mem) : Raises (Machine.repeatRun f n x) code mem := by
  obtain ⟨r, rfl⟩ := Nat.exists_eq_add_of_lt hm
  rw [Nat.add_assoc, repeatRun_add]
  refine .after hok ?_
  rw [repeatRun_succ]
  exact h.bind _

end

/-! ## HCLR and HFREQ (R406, R407) -/

section
variable {s : State}

theorem occurrences_succ (s : State) (n : Nat) (sym : Fin 256) :
    occurrences s (n + 1) sym = occurrences s n sym + if (s.mem.byteAt (s.rd.ptr.toNat + n)).toFin = sym then 1 else 0 := by
  rw [occurrences, List.range_succ, List.countP_append, List.countP_singleton]
  refine congrArg (occurrences s n sym + ·) (if_congr ?_ rfl rfl)
  rw [beq_iff_eq, ← BitVec.toFin_inj]

/-- `h` is the histogram of `s` with the next `n` bytes counted. -/
def Counted (s : State) (n : Nat) (h : Vector Word 256) : Prop :=
  ∀ sym : Fin 256, (h.get sym).toNat = (s.hfreq.get sym).toNat + occurrences s n sym

/-- A counter after a count of the symbol `b`. -/
theorem get_count (h : Vector Word 256) (b : Byte) (v : Word) (sym : Fin 256) :
    (h.set b.toNat v b.isLt).get sym = if b.toFin = sym then v else h.get sym := by
  rw [Vector.get_eq_getElem, Vector.getElem_set]
  exact if_congr Fin.ext_iff.symm rfl rfl

/-- The state after `n` bytes are read and counted. -/
def State.countedOn (s : State) (n : Nat) (h : Vector Word 256) : State := { s.readOn n with hfreq := h }

/-- The round of HFREQ after `n` others, where the stream has a byte left. -/
theorem hfreqRound_countedOn {n : Nat} {h : Vector Word 256} (hroom : n < room s.rd s.lmemSize) :
    let b := s.mem.byteAt (s.rd.ptr.toNat + n)
    hfreqRound (s.countedOn n h) = refuseIf (h.get b.toFin == 0xFFFFFFFF) .hufFreq (s.countedOn (n + 1) h) >>= fun _ =>
      pure (s.countedOn (n + 1) (h.set b.toNat (h.get b.toFin + 1) b.isLt)) := by
  have hread : rdByte .formatShort (s.countedOn n h) =
      .ok (s.mem.byteAt (s.rd.ptr.toNat + n), s.countedOn (n + 1) h) := by
    have := rdByte_readOn (s := { s with hfreq := h }) .formatShort hroom
    exact this
  rw [hfreqRound, hread]
  rfl

section
variable {n : Nat} {h : Vector Word 256}

theorem toNat_eq_ones {v : Word} (hv : (v == 0xFFFFFFFF) = true) : v.toNat = 2 ^ 32 - 1 := by
  rw [beq_iff_eq.mp hv]
  rfl

theorem toNat_succ_of_ne_ones {v : Word} (hv : (v == 0xFFFFFFFF) = false) : (v + 1).toNat = v.toNat + 1 := by
  have hne : v.toNat ≠ 2 ^ 32 - 1 := fun he => beq_eq_false_iff_ne.mp hv (BitVec.eq_of_toNat_eq he)
  exact BitVec.toNat_add_of_lt (by have := v.isLt; simp; omega)

theorem canCount_of_succ (hcan : CanCount s (n + 1)) : CanCount s n := by
  obtain ⟨hroom, hfits⟩ := hcan
  refine ⟨Nat.le_of_succ_le hroom, fun sym => lt_of_le_of_lt ?_ (hfits sym)⟩
  rw [occurrences_succ]
  omega

/-- Of the counters only that of the byte changes. -/
theorem Counted.succ (hcounted : Counted s n h)
    (hfits : (h.get (s.mem.byteAt (s.rd.ptr.toNat + n)).toFin == 0xFFFFFFFF) = false) :
    Counted s (n + 1) (h.set (s.mem.byteAt (s.rd.ptr.toNat + n)).toNat
      (h.get (s.mem.byteAt (s.rd.ptr.toNat + n)).toFin + 1) (s.mem.byteAt (s.rd.ptr.toNat + n)).isLt) := by
  intro sym
  rw [get_count, occurrences_succ, ← Nat.add_assoc, ← hcounted sym]
  split
  · next hsym => rw [toNat_succ_of_ne_ones hfits, hsym]
  · rfl

/-- One byte more can be counted where its counter is not full. -/
theorem canCount_succ_iff (hcounted : Counted s n h) (hroom : n < room s.rd s.lmemSize) :
    CanCount s (n + 1) ↔ (h.get (s.mem.byteAt (s.rd.ptr.toNat + n)).toFin == 0xFFFFFFFF) = false := by
  refine ⟨fun hcan' => ?_, fun hfits => ⟨hroom, fun sym => ?_⟩⟩
  · rw [Bool.eq_false_iff]
    intro hfull
    have hlt := hcan'.2 (s.mem.byteAt (s.rd.ptr.toNat + n)).toFin
    rw [occurrences_succ, if_pos rfl, ← Nat.add_assoc, ← hcounted, toNat_eq_ones hfull] at hlt
    exact absurd hlt (by decide)
  · rw [← hcounted.succ hfits sym]
    exact BitVec.isLt _

/-- The first rounds of HFREQ's loop. -/
theorem hfreqRounds_of_canCount (hcan : CanCount s n) :
    ∃ h, repeatRun hfreqRound n s = .ok (s.countedOn n h) ∧ Counted s n h := by
  induction n with
  | zero => exact ⟨s.hfreq, by rw [State.countedOn, State.readOn, bytesOn_zero]; rfl, fun _ => rfl⟩
  | succ n ih =>
    obtain ⟨h, hrounds, hcounted⟩ := ih (canCount_of_succ hcan)
    have hfits := (canCount_succ_iff hcounted hcan.1).mp hcan
    refine ⟨_, ?_, hcounted.succ hfits⟩
    rw [repeatRun_add, hrounds]
    refine (repeatRun_one _).trans ?_
    rw [hfreqRound_countedOn hcan.1, hfits]
    rfl

/-- R407: the round on a byte that cannot be read or counted. -/
theorem hfreqRound_raises (hcan : CanCount s n) (hcounted : Counted s n h) (hnot : ¬ CanCount s (n + 1)) :
    Raises (hfreqRound (s.countedOn n h)) (if room s.rd s.lmemSize ≤ n then pastEnd s.rd s.lmemSize 0x30 else 0x62) s.mem := by
  split
  · next hend =>
    exact .rdByte_readOn (s := { s with hfreq := h }) (c := .formatShort) hcan.1 fun _ hlt => absurd hend (Nat.not_le.mpr hlt)
  · next hroom =>
    have hroom := Nat.lt_of_not_le hroom
    rw [hfreqRound_countedOn hroom]
    rw [canCount_succ_iff hcounted hroom, Bool.not_eq_false] at hnot
    exact (Raises.refuseIf hnot .hufFreq _).bind _

end

/-- Settles O46: HFREQ's loop has a round for each byte that it can count; the round after the last of them raises. -/
theorem histogramResults : Obligations.HistogramResults := by
  refine fun s => ⟨⟨_, rfl, fun sym => Vector.getElem_replicate sym.isLt⟩, fun hbit => ?_, fun hbit hcan => ?_,
    fun j hbit hj hcan hnot => ?_⟩
  · exact ((needAligned_raises hbit s).bind _).halts (body := hfreqCmd) rfl
  · obtain ⟨h, hrounds, hcounted⟩ := hfreqRounds_of_canCount hcan
    exact ⟨h, runCommand_of_ok (body := hfreqCmd) (Run.bind_ok.mpr ⟨(), needAligned_of_zero hbit s, hrounds⟩), hcounted⟩
  · obtain ⟨h, hrounds, hcounted⟩ := hfreqRounds_of_canCount hcan
    exact Raises.halts (body := hfreqCmd) (.after (needAligned_of_zero hbit s)
      (.repeatRun hj hrounds (hfreqRound_raises hcan hcounted hnot))) rfl

end

end Sys2Proof.Machine
end

