-- ==== Sys2Proof/Proofs/BitStreams.lean ====
section
/-!
PROOF. The bit streams (20_memory.md R112): a stream moved on by bits, the bits of LMEM, and runs of bits written inside the write
stream's room and at its end.
-/

namespace Sys2Proof.Machine

open Sys2Proof.Claims

/-! ## A stream moved on by bits -/

/-- The number of the bit at a stream's position, counted from the first bit of LMEM. -/
def bitPos (st : Stream) : Nat := 8 * st.ptr.toNat + st.bit.toNat

theorem bit_eq_zero_iff {bit : BitVec 3} : bit = 0 ↔ bit.toNat = 0 := BitVec.toNat_inj.symm

theorem bitsOn_zero (st : Stream) : bitsOn st 0 = st := by
  have hbit := st.bit.isLt
  rw [bitsOn, Nat.add_zero, Nat.div_eq_of_lt hbit, Nat.mod_eq_of_lt hbit, BitVec.ofNat_toNat, BitVec.setWidth_eq]
  simp

theorem toNat_bitsOn_bit (st : Stream) (n : Nat) : (bitsOn st n).bit.toNat = (st.bit.toNat + n) % 8 := by
  rw [bitsOn, BitVec.toNat_ofNat, Nat.mod_mod]

theorem bitsOn_bitsOn (st : Stream) (a b : Nat) : bitsOn (bitsOn st a) b = bitsOn st (a + b) := by
  unfold bitsOn
  dsimp only
  rw [BitVec.toNat_ofNat, BitVec.add_assoc, ← BitVec.ofNat_add,
    show (st.bit.toNat + a) / 8 + ((st.bit.toNat + a) % 8 % 2 ^ 3 + b) / 8 = (st.bit.toNat + (a + b)) / 8 by omega,
    show ((st.bit.toNat + a) % 8 % 2 ^ 3 + b) % 8 = (st.bit.toNat + (a + b)) % 8 by omega]

theorem nextBit_eq_bitsOn (st : Stream) : st.nextBit = bitsOn st 1 := by
  obtain ⟨ptr, lim, bit⟩ := st
  have hbits : ∀ bit : BitVec 3, (if bit = 7 then ((1 : Word), (0 : BitVec 3)) else (0, bit + 1)) =
      (BitVec.ofNat 32 ((bit.toNat + 1) / 8), BitVec.ofNat 3 ((bit.toNat + 1) % 8)) := by decide
  have h := hbits bit
  unfold Stream.nextBit bitsOn
  dsimp only
  by_cases hb : bit = 7
  · rw [if_pos hb] at h ⊢
    rw [← (Prod.mk.inj h).1, ← (Prod.mk.inj h).2]
  · rw [if_neg hb] at h ⊢
    rw [← (Prod.mk.inj h).1, ← (Prod.mk.inj h).2]
    exact congrArg (Stream.mk · lim _) (BitVec.add_zero ptr).symm

theorem room_eq_zero_of_bitRoom {st : Stream} {size : Nat} (h : bitRoom st size = 0) : room st size = 0 := by
  have hbit := st.bit.isLt
  unfold bitRoom at h
  omega

section
variable {st : Stream} {size n : Nat}

/-- The bytes below the position lie in the room. -/
theorem bytes_le_room (h : n ≤ bitRoom st size) : (st.bit.toNat + n) / 8 ≤ room st size := by
  have hbit := st.bit.isLt
  unfold bitRoom at h
  omega

theorem toNat_bitsOn_ptr (h : n ≤ bitRoom st size) : (bitsOn st n).ptr.toNat = st.ptr.toNat + (st.bit.toNat + n) / 8 :=
  toNat_bytesOn_ptr (bytes_le_room h)

theorem bitPos_bitsOn (h : n ≤ bitRoom st size) : bitPos (bitsOn st n) = bitPos st + n := by
  rw [bitPos, bitPos, toNat_bitsOn_ptr h, toNat_bitsOn_bit]
  omega

theorem room_bitsOn (h : n ≤ bitRoom st size) : room (bitsOn st n) size = room st size - (st.bit.toNat + n) / 8 :=
  room_bytesOn (bytes_le_room h)

theorem bitRoom_bitsOn (h : n ≤ bitRoom st size) : bitRoom (bitsOn st n) size = bitRoom st size - n := by
  have hbytes := bytes_le_room h
  rw [bitRoom, room_bitsOn h, toNat_bitsOn_bit, bitRoom]
  omega

theorem pastEnd_bitsOn (h : n ≤ bitRoom st size) (code : Byte) : pastEnd (bitsOn st n) size code = pastEnd st size code :=
  pastEnd_bytesOn (bytes_le_room h) code

end

/-! ## The bits of LMEM -/

/-- Bit `j` of LMEM, most significant bit of each byte first. -/
def Memory.bit (m : Memory) (j : Nat) : Bool := (m.byteAt (j / 8)).getLsbD (7 - j % 8)

theorem bitAt_eq (m : Memory) (p j : Nat) : bitAt m p j = m.bit (8 * p + j) := by
  rw [bitAt, Memory.bit, Nat.mul_add_div (by decide), Nat.mul_add_mod]

theorem byteAt_eq_of_bits {m m' : Memory} {k : Nat} (h : ∀ j < 8, m'.bit (8 * k + j) = m.bit (8 * k + j)) :
    m'.byteAt k = m.byteAt k := by
  refine BitVec.eq_of_getLsbD_eq fun i hi => ?_
  have hbit := h (7 - i) (by omega)
  rw [← bitAt_eq, ← bitAt_eq, bitAt_of_lt _ _ (by omega), bitAt_of_lt _ _ (by omega),
    show 7 - (7 - i) = i by omega] at hbit
  exact hbit

/-- `m'` is `m` with the bits `bs` appended at bit `p` (R112): the bits of a fresh byte after them are 0. -/
def BitsPut (p : Nat) (m m' : Memory) (bs : List Bool) : Prop :=
  ∀ j, m'.bit j =
    if j < p then m.bit j
    else bs[j - p]?.getD (if ceil8 p ≤ j ∧ j < ceil8 (p + bs.length) then false else m.bit j)

theorem BitsPut.nil (p : Nat) (m : Memory) : BitsPut p m m [] := by
  intro j
  have hempty : ¬ (ceil8 p ≤ j ∧ j < ceil8 p) := fun h => absurd h.2 (Nat.not_lt.mpr h.1)
  rw [List.getElem?_nil, Option.getD_none, List.length_nil, Nat.add_zero, if_neg hempty, ite_self]

theorem BitsPut.append {p : Nat} {m m' m'' : Memory} {as bs : List Bool} (h : BitsPut p m m' as)
    (h' : BitsPut (p + as.length) m' m'' bs) : BitsPut p m m'' (as ++ bs) := by
  intro j
  have hmono : ceil8 p ≤ ceil8 (p + as.length) ∧ ceil8 (p + as.length) ≤ ceil8 (p + (as ++ bs).length) := by
    rw [List.length_append]
    unfold ceil8
    omega
  rw [h' j, h j, List.length_append, ← Nat.add_assoc]
  rw [List.length_append, ← Nat.add_assoc] at hmono
  by_cases hbefore : j < p
  · rw [if_pos hbefore, if_pos hbefore, if_pos (by omega)]
  · rw [if_neg hbefore, if_neg hbefore]
    by_cases hfirst : j < p + as.length
    · rw [if_pos hfirst, List.getElem?_append_left (by omega), List.getElem?_eq_getElem (by omega)]
      rfl
    · rw [if_neg hfirst, List.getElem?_append_right (by omega), List.getElem?_eq_none (l := as) (by omega), Option.getD_none,
        show j - (p + as.length) = j - p - as.length by omega]
      refine congrArg _ ?_
      by_cases hlow : j < ceil8 (p + as.length)
      · rw [if_neg (by omega)]
        exact if_congr (by omega) rfl rfl
      · rw [if_neg (show ¬ (ceil8 p ≤ j ∧ j < ceil8 (p + as.length)) by omega)]
        exact if_congr (by omega) rfl rfl

section
variable {p : Nat} {m m' : Memory} {bs : List Bool}

/-- The bits are in LMEM after them. -/
theorem BitsPut.bit_eq (h : BitsPut p m m' bs) {j : Nat} (hj : j < bs.length) : m'.bit (p + j) = bs[j] := by
  rw [h, if_neg (by omega), Nat.add_sub_cancel_left, List.getElem?_eq_getElem hj, Option.getD_some]

/-- A byte that none of the bits lies in is kept. -/
theorem BitsPut.byteAt_eq (h : BitsPut p m m' bs) {k : Nat} (hk : 8 * k + 8 ≤ p ∨ ceil8 (p + bs.length) ≤ 8 * k) :
    m'.byteAt k = m.byteAt k := by
  have hceil := le_ceil8 (p + bs.length)
  refine byteAt_eq_of_bits fun j hj => ?_
  rw [h]
  by_cases hbefore : 8 * k + j < p
  · rw [if_pos hbefore]
  · rw [if_neg hbefore, List.getElem?_eq_none (by omega), Option.getD_none, if_neg (by omega)]

end

theorem BitsPut.stored {st : Stream} {m m' : Memory} {bs : List Bool} (h : BitsPut (bitPos st) m m' bs) :
    BitsStored st m m' bs := by
  have hbit := st.bit.isLt
  refine ⟨fun j hj => ?_, fun k hk => h.byteAt_eq ?_⟩
  · rw [bitAt_eq, bitAt_eq, h, bitPos, show 8 * st.ptr.toNat + j - (8 * st.ptr.toNat + st.bit.toNat) = j - st.bit.toNat by omega]
    by_cases hbefore : j < st.bit.toNat
    · rw [if_pos hbefore, if_pos (by omega)]
    · rw [if_neg hbefore, if_neg (by omega)]
      by_cases hin : j - st.bit.toNat < bs.length
      · rw [dif_pos hin, List.getElem?_eq_getElem hin, Option.getD_some]
      · rw [dif_neg hin, List.getElem?_eq_none (by omega), Option.getD_none, ← ite_not]
        refine if_congr ?_ rfl rfl
        rw [ne_eq, bit_eq_zero_iff]
        unfold ceil8
        omega
  · unfold bitPos ceil8
    omega

/-! ## One bit written (R112) -/

/-- A byte with the bit of weight 2^sh replaced. -/
theorem getLsbD_replaceBit (old : Byte) (b : Bool) {sh k : Nat} (hk : k < 8) :
    (replaceBits old ((1 : Byte) <<< sh) (if b then (1 : Byte) <<< sh else 0)).getLsbD k =
      if k = sh then b else old.getLsbD k := by
  have hone : ((1 : Byte) <<< sh).getLsbD k = decide (k = sh) := by
    rw [BitVec.getLsbD_shiftLeft]
    obtain hlt | rfl | hgt := Nat.lt_trichotomy k sh
    · simp [hlt, hlt.ne]
    · simp [hk]
    · have hne : k - sh ≠ 0 := by omega
      simp [hk, hgt.ne', Nat.not_lt.mpr hgt.le, BitVec.getLsbD_one, hne]
  have hnew : (if b then (1 : Byte) <<< sh else 0).getLsbD k = (b && decide (k = sh)) := by
    cases b with
    | false => exact BitVec.getLsbD_zero
    | true => exact hone
  rw [replaceBits, BitVec.getLsbD_or, BitVec.getLsbD_and, BitVec.getLsbD_not, hone, hnew]
  by_cases heq : k = sh <;> simp [heq, hk]

section
variable {s : State}

/-- R112: bit `j`, from the most significant, of the byte `WrBit` writes. -/
theorem getLsbD_bitByte (b : Bool) {j : Nat} (hj : j < 8) :
    (bitByte s b).getLsbD (7 - j) =
      if j = s.wr.bit.toNat then b else if s.wr.bit.toNat = 0 then false else (s.mem.byteAt s.wr.ptr.toNat).getLsbD (7 - j) := by
  have hbit := s.wr.bit.isLt
  rw [bitByte, getLsbD_replaceBit _ _ (by omega)]
  refine if_congr (by omega) rfl ?_
  by_cases hfresh : s.wr.bit = 0
  · rw [if_pos hfresh, if_pos (bit_eq_zero_iff.mp hfresh)]
    exact BitVec.getLsbD_zero
  · rw [if_neg hfresh, if_neg (mt bit_eq_zero_iff.mpr hfresh)]
    rfl

theorem bitsPut_bitByte (hwf : s.mem.wf) (b : Bool) :
    BitsPut (bitPos s.wr) s.mem (s.mem.write s.wr.ptr.toNat (bitByte s b)) [b] := by
  have hbit := s.wr.bit.isLt
  intro j
  rw [Memory.bit, Memory.byteAt_write hwf, List.length_singleton]
  by_cases hbyte : j / 8 = s.wr.ptr.toNat
  · rw [if_pos hbyte, getLsbD_bitByte b (by omega), ← hbyte, ← Memory.bit]
    unfold bitPos ceil8
    by_cases hbefore : j < 8 * s.wr.ptr.toNat + s.wr.bit.toNat
    · rw [if_pos hbefore, if_neg (by omega), if_neg (by omega)]
    · rw [if_neg hbefore]
      by_cases hat : j % 8 = s.wr.bit.toNat
      · rw [if_pos hat, show j - (8 * s.wr.ptr.toNat + s.wr.bit.toNat) = 0 by omega]
        rfl
      · rw [if_neg hat, List.getElem?_eq_none (by rw [List.length_singleton]; omega), Option.getD_none]
        exact if_congr (by omega) rfl rfl
  · rw [if_neg hbyte, ← Memory.bit]
    unfold bitPos ceil8
    by_cases hbefore : j < 8 * s.wr.ptr.toNat + s.wr.bit.toNat
    · rw [if_pos hbefore]
    · rw [if_neg hbefore, List.getElem?_eq_none (by rw [List.length_singleton]; omega), Option.getD_none, if_neg (by omega)]

theorem wrBit_of_room (b : Bool) (h : 0 < room s.wr s.lmemSize) :
    wrBit b s = .ok { s with mem := s.mem.write s.wr.ptr.toNat (bitByte s b), wr := bitsOn s.wr 1 } := by
  unfold room at h
  rw [← nextBit_eq_bitsOn]
  exact wrBit_ok.mpr ⟨by omega, by omega, rfl⟩

theorem wrBit_raises (b : Bool) (h : room s.wr s.lmemSize = 0) : Raises (wrBit b s) (pastEnd s.wr s.lmemSize 0x51) s.mem :=
  access_raises h .streamWovf oldByte_write_error

end

/-! ## Bits written to the write stream -/

/-- The state after `n` bits are written, LMEM being `m`. -/
def State.wroteBits (s : State) (m : Memory) (n : Nat) : State := { s with mem := m, wr := bitsOn s.wr n }

theorem wrBits_of_room {s : State} {bs : List Bool} (hwf : s.mem.wf) (h : bs.length ≤ bitRoom s.wr s.lmemSize) :
    ∃ m, m.wf ∧ BitsPut (bitPos s.wr) s.mem m bs ∧ wrBits bs s = .ok (s.wroteBits m bs.length) := by
  induction bs generalizing s with
  | nil =>
    refine ⟨s.mem, hwf, .nil _ _, ?_⟩
    rw [State.wroteBits, List.length_nil, bitsOn_zero]
    rfl
  | cons b bs ih =>
    rw [List.length_cons] at h
    have hone : 1 ≤ bitRoom s.wr s.lmemSize := by omega
    have hroom : 0 < room s.wr s.lmemSize := Nat.pos_of_ne_zero fun hzero => by simp [bitRoom, hzero] at hone
    obtain ⟨m, hm, hput, hrest⟩ := ih (s := s.wroteBits (s.mem.write s.wr.ptr.toNat (bitByte s b)) 1)
      (Memory.wf_write hwf _ _) ((Nat.le_sub_of_add_le h).trans_eq (bitRoom_bitsOn hone).symm)
    refine ⟨m, hm, (bitsPut_bitByte hwf b).append (bs := bs) ?_, Run.bind_ok.mpr ⟨_, wrBit_of_room b hroom, hrest.trans ?_⟩⟩
    · exact bitPos_bitsOn hone ▸ hput
    · rw [State.wroteBits, State.wroteBits, State.wroteBits, bitsOn_bitsOn, Nat.add_comm 1]
      rfl

theorem wrBits_raises {s : State} {bs : List Bool} (hwf : s.mem.wf) (h : bitRoom s.wr s.lmemSize < bs.length) :
    ∃ m, m.wf ∧ BitsPut (bitPos s.wr) s.mem m (bs.take (bitRoom s.wr s.lmemSize)) ∧
      Raises (wrBits bs s) (pastEnd s.wr s.lmemSize 0x51) m := by
  have hlen : (bs.take (bitRoom s.wr s.lmemSize)).length = bitRoom s.wr s.lmemSize := List.length_take_of_le h.le
  obtain ⟨m, hm, hput, hbits⟩ := wrBits_of_room hwf hlen.le
  refine ⟨m, hm, hput, .foldlM h hbits ?_⟩
  rw [hlen, ← pastEnd_bitsOn le_rfl 0x51]
  exact wrBit_raises _ (room_eq_zero_of_bitRoom ((bitRoom_bitsOn le_rfl).trans (Nat.sub_self _)))

end Sys2Proof.Machine
end

