-- ==== Sys2Proof/Proofs/HuffmanEncoder.lean ====
section
/-!
PROOF. HENC (45_huffman.md R409): one round of its loop, the loop on a stream of symbols that have codes, and how it ends. Settles
O50.
-/

namespace Sys2Proof.Machine

open Sys2Proof.Claims

/-! ## The checks of HENC and HDEC -/

section
variable {s : State}

theorem needTree_raises (h : s.hnleaf = 0) : Raises (needTree s) 0x60 s.mem := .refuseIf (beq_iff_eq.mpr h) .hufNotree s

theorem needTree_of_tree (h : s.hnleaf ≠ 0) : needTree s = .ok () := refuseIf_ok.mpr (beq_eq_false_iff_ne.mpr h)

end

/-! ## Bytes that a stream cannot reach any more -/

/-- Address `a` is none that the stream can still access. -/
def OutOfReach (st : Stream) (size a : Nat) : Prop := a < st.ptr.toNat ∨ st.ptr.toNat + room st size ≤ a

section
variable {st : Stream} {size a n : Nat}

theorem OutOfReach.bitsOn (h : OutOfReach st size a) (hn : n ≤ bitRoom st size) : OutOfReach (bitsOn st n) size a := by
  have hbytes := bytes_le_room hn
  unfold OutOfReach at h ⊢
  rw [toNat_bitsOn_ptr hn, room_bitsOn hn]
  omega

theorem BitsPut.byteAt_eq_of_nil {p k : Nat} {m m' : Memory} (h : BitsPut p m m' []) : m'.byteAt k = m.byteAt k :=
  byteAt_eq_of_bits fun _ _ => (h _).trans (BitsPut.nil p m _).symm

/-- Bits written in the room of a stream leave every byte out of its reach. -/
theorem BitsPut.byteAt_eq_of_outOfReach {m m' : Memory} {bs : List Bool} (h : BitsPut (bitPos st) m m' bs)
    (hlen : bs.length ≤ bitRoom st size) (ha : OutOfReach st size a) : m'.byteAt a = m.byteAt a := by
  cases bs with
  | nil => exact h.byteAt_eq_of_nil
  | cons b bs =>
    have hbit := st.bit.isLt
    refine h.byteAt_eq ?_
    unfold OutOfReach at ha
    unfold bitRoom at hlen
    unfold bitPos ceil8
    rw [List.length_cons] at hlen ⊢
    omega

end

/-! ## One round of HENC (R409) -/

section
variable {s : State} {k : Nat} {code : List Bool}

theorem hencRound_of_code (hwf : s.mem.wf) (htree : s.TreeOk) (hroom : 0 < room s.rd s.lmemSize)
    (hcode : IsCode s (s.mem.byteAt s.rd.ptr.toNat) code) (hfits : code.length ≤ bitRoom s.wr s.lmemSize) :
    ∃ m, m.wf ∧ BitsPut (bitPos s.wr) s.mem m code ∧
      hencRound (s, k) = .ok ((s.readOn 1).wroteBits m code.length, k + code.length) := by
  obtain ⟨m, hm, hput, hbits⟩ := wrBits_of_room (s := s.readOn 1) hwf hfits
  refine ⟨m, hm, hput, Run.bind_ok.mpr ⟨_, rdByte_of_room .formatShort hroom, ?_⟩⟩
  have hfound : (s.readOn 1).codeOf (s.mem.byteAt s.rd.ptr.toNat) = some code := htree.codeOf_eq_some_iff.mpr hcode
  dsimp only
  rw [hfound]
  exact Run.bind_ok.mpr ⟨_, hbits, rfl⟩

theorem hencRound_raises_at_end (hroom : room s.rd s.lmemSize = 0) :
    Raises (hencRound (s, k)) (pastEnd s.rd s.lmemSize 0x30) s.mem := (rdByte_raises .formatShort hroom).bind _

theorem hencRound_raises_without_leaf (htree : s.TreeOk) (hroom : 0 < room s.rd s.lmemSize)
    (hcode : ¬ ∃ bits, IsCode s (s.mem.byteAt s.rd.ptr.toNat) bits) : Raises (hencRound (s, k)) 0x61 s.mem := by
  refine .after (rdByte_of_room .formatShort hroom) ?_
  have hnone : (s.readOn 1).codeOf (s.mem.byteAt s.rd.ptr.toNat) = none := htree.codeOf_eq_none_iff.mpr hcode
  dsimp only
  rw [hnone]
  exact ⟨.hufNosym, rfl, rfl⟩

theorem hencRound_raises_without_room (hwf : s.mem.wf) (htree : s.TreeOk) (hroom : 0 < room s.rd s.lmemSize)
    (hcode : IsCode s (s.mem.byteAt s.rd.ptr.toNat) code) (hfull : bitRoom s.wr s.lmemSize < code.length) :
    ∃ m, BitsPut (bitPos s.wr) s.mem m (code.take (bitRoom s.wr s.lmemSize)) ∧
      Raises (hencRound (s, k)) (pastEnd s.wr s.lmemSize 0x51) m := by
  obtain ⟨m, -, hput, hbits⟩ := wrBits_raises (s := s.readOn 1) hwf hfull
  refine ⟨m, hput, .after (rdByte_of_room .formatShort hroom) ?_⟩
  have hfound : (s.readOn 1).codeOf (s.mem.byteAt s.rd.ptr.toNat) = some code := htree.codeOf_eq_some_iff.mpr hcode
  dsimp only
  rw [hfound]
  exact hbits.bind _

end

/-! ## Codes are a matter of the tree alone -/

section
variable (s t : State)

theorem walk_eq_of_sameNodes (hnode : t.hnode = s.hnode) (i : Nat) (bits : List Bool) : walk t i bits = walk s i bits := by
  induction bits generalizing i with
  | nil => rfl
  | cons b bits ih =>
    rw [walk, walk, ih, nodeAt_eq_node, nodeAt_eq_node, hnode]

theorem isCode_iff_of_sameTree (hnode : t.hnode = s.hnode) (hroot : t.hroot = s.hroot) {sym : Byte} {bits : List Bool} :
    IsCode t sym bits ↔ IsCode s sym bits := by
  simp only [IsCode, walk_eq_of_sameNodes s t hnode, hroot, nodeAt_eq_node, hnode]

end

/-! ## The loop of HENC -/

/-- The read stream holds the symbols next, they have these codes, and the codes fit into the write stream. -/
structure Encodes (s : State) (syms : List Byte) (codes : List (List Bool)) : Prop where
  areCodes : AreCodes s syms codes
  holds : Holds s.mem s.rd.ptr.toNat syms
  readable : syms.length ≤ room s.rd s.lmemSize
  writable : codes.flatten.length ≤ bitRoom s.wr s.lmemSize

/-- Of the next `n` bytes to read, all but the first are out of the write stream's reach. -/
def ReadsApart (s : State) (n : Nat) : Prop :=
  ∀ j, 0 < j → j < n → OutOfReach s.wr s.lmemSize (s.rd.ptr.toNat + j)

/-- The state after HENC has read `n` symbols and written `k` bits, LMEM being `m`. -/
def State.encodedOn (s : State) (n : Nat) (m : Memory) (k : Nat) : State := (s.readOn n).wroteBits m k

theorem isCode_encodedOn_iff {s : State} {n k : Nat} {m : Memory} {sym : Byte} {bits : List Bool} :
    IsCode (s.encodedOn n m k) sym bits ↔ IsCode s sym bits := isCode_iff_of_sameTree s (s.encodedOn n m k) rfl rfl

theorem encodedOn_encodedOn (s : State) (n n' k k' : Nat) (m m' : Memory) :
    (s.encodedOn n m k).encodedOn n' m' k' = s.encodedOn (n + n') m' (k + k') := by
  unfold State.encodedOn State.readOn State.wroteBits
  dsimp only
  rw [bytesOn_bytesOn, bitsOn_bitsOn]

section
variable {s : State} {syms : List Byte} {codes : List (List Bool)}

/-- After the first symbol the others are next. -/
theorem Encodes.tail {sym : Byte} {code : List Bool} (h : Encodes s (sym :: syms) (code :: codes))
    (hapart : ReadsApart s (syms.length + 1)) {m : Memory} (hput : BitsPut (bitPos s.wr) s.mem m code) :
    Encodes (s.encodedOn 1 m code.length) syms codes := by
  obtain ⟨hcodes, hholds, hread, hwrite⟩ := h
  rw [List.length_cons] at hread
  rw [List.flatten_cons, List.length_append] at hwrite
  have hcode : code.length ≤ bitRoom s.wr s.lmemSize := by omega
  have hone : 1 ≤ room s.rd s.lmemSize := by omega
  exact {
    areCodes := (List.forall₂_cons.mp hcodes).2.imp fun _ _ => isCode_encodedOn_iff.mpr
    holds := fun j hj => by
      have hfar := hapart (j + 1) (Nat.succ_pos j) (Nat.succ_lt_succ hj)
      refine Eq.trans ?_ ((hput.byteAt_eq_of_outOfReach hcode hfar).trans (hholds (j + 1) (Nat.succ_lt_succ hj)))
      exact congrArg m.byteAt ((congrArg (· + j) (toNat_bytesOn_ptr hone)).trans (by omega))
    readable := (Nat.le_sub_of_add_le hread).trans_eq (room_bytesOn hone).symm
    writable := (Nat.le_sub_of_add_le (by omega)).trans_eq (bitRoom_bitsOn hcode).symm }

theorem ReadsApart.tail {n k : Nat} (h : ReadsApart s (n + 1)) (hread : 1 ≤ room s.rd s.lmemSize)
    (hk : k ≤ bitRoom s.wr s.lmemSize) (m : Memory) : ReadsApart (s.encodedOn 1 m k) n := by
  intro j hj hjn
  have hfar := (h (j + 1) (Nat.succ_pos j) (Nat.succ_lt_succ hjn)).bitsOn hk
  have haddr : (bytesOn s.rd 1).ptr.toNat + j = s.rd.ptr.toNat + (j + 1) := by
    rw [toNat_bytesOn_ptr hread]
    omega
  exact haddr.symm ▸ hfar

/-- A round for each symbol. -/
theorem hencRounds_of_encodes (hwf : s.mem.wf) (htree : s.TreeOk) (h : Encodes s syms codes)
    (hapart : ReadsApart s syms.length) (k : Nat) :
    ∃ m, m.wf ∧ BitsPut (bitPos s.wr) s.mem m codes.flatten ∧ repeatRun hencRound syms.length (s, k) =
      .ok (s.encodedOn syms.length m codes.flatten.length, k + codes.flatten.length) := by
  induction syms generalizing s codes k with
  | nil =>
    obtain rfl := List.forall₂_nil_left_iff.mp h.areCodes
    refine ⟨s.mem, hwf, .nil _ _, ?_⟩
    simp only [List.length_nil, List.flatten_nil, State.encodedOn, State.readOn, State.wroteBits, bytesOn_zero, bitsOn_zero]
    rfl
  | cons sym syms ih =>
    obtain ⟨code, codes, hcode, -, rfl⟩ := List.forall₂_cons_left_iff.mp h.areCodes
    have hread := h.readable
    have hwrite := h.writable
    rw [List.length_cons] at hread
    rw [List.flatten_cons, List.length_append] at hwrite
    obtain rfl : s.mem.byteAt s.rd.ptr.toNat = sym := h.holds 0 (Nat.succ_pos _)
    obtain ⟨m, hm, hput, hround⟩ := hencRound_of_code (k := k) hwf htree (by omega) hcode (by omega)
    obtain ⟨m', hm', hput', hrounds⟩ := ih (s := s.encodedOn 1 m code.length) hm htree (h.tail hapart hput)
      (hapart.tail (by omega) (by omega) m) (k + code.length)
    refine ⟨m', hm', hput.append (bs := codes.flatten) ?_, ?_⟩
    · exact bitPos_bitsOn (st := s.wr) (size := s.lmemSize) (n := code.length) (by omega) ▸ hput'
    · rw [List.length_cons, repeatRun_succ, hround, List.flatten_cons, List.length_append, ← Nat.add_assoc,
        Nat.add_comm syms.length, ← encodedOn_encodedOn]
      exact hrounds

end

/-! ## HENC (R409) -/

section
variable {s : State}

/-- The body of HENC after its checks is its loop. -/
theorem henc_eq_loop (htree : s.hnleaf ≠ 0) (hbit : s.rd.bit = 0) :
    henc s = repeatRun hencRound s.hcount.toNat (s, 0) >>= fun x => pure { x.1 with hbits := BitVec.ofNat 32 x.2 } := by
  rw [henc, needTree_of_tree htree, needAligned_of_zero hbit]
  rfl

theorem exec_henc_without_tree (h : s.hnleaf = 0) : exec .henc s = .next (halted s 0x60 (encode .henc) s.mem) :=
  ((needTree_raises h).bind _).halts (body := henc) rfl

theorem exec_henc_unaligned (htree : s.hnleaf ≠ 0) (hbit : s.rd.bit ≠ 0) :
    exec .henc s = .next (halted s 0x50 (encode .henc) s.mem) :=
  Raises.halts (body := henc) (.after (needTree_of_tree htree) ((needAligned_raises hbit s).bind _)) rfl

variable {syms : List Byte} {codes : List (List Bool)}

theorem exec_henc_completes (hwf : s.mem.wf) (htree : s.TreeOk) (hnleaf : s.hnleaf ≠ 0) (hbit : s.rd.bit = 0)
    (h : Encodes s syms codes) (hapart : ReadsApart s s.hcount.toNat) (hlen : syms.length = s.hcount.toNat) :
    ∃ m, m.wf ∧ BitsPut (bitPos s.wr) s.mem m codes.flatten ∧ exec .henc s = .next { s with
      mem := m, rd := bytesOn s.rd syms.length, wr := bitsOn s.wr codes.flatten.length,
      hbits := BitVec.ofNat 32 codes.flatten.length, cpc := s.cpc + 4 } := by
  obtain ⟨m, hm, hput, hrounds⟩ := hencRounds_of_encodes hwf htree h (hlen ▸ hapart) 0
  rw [Nat.zero_add] at hrounds
  refine ⟨m, hm, hput, runCommand_of_ok (body := henc) (u := { s.encodedOn syms.length m codes.flatten.length with
    hbits := BitVec.ofNat 32 codes.flatten.length }) ?_⟩
  rw [henc_eq_loop hnleaf hbit, ← hlen, hrounds]
  rfl

/-- HENC raises what the round after the symbols raises. -/
theorem exec_henc_halts {m : Memory} {code : Byte} (hnleaf : s.hnleaf ≠ 0) (hbit : s.rd.bit = 0)
    (hlt : syms.length < s.hcount.toNat) {x : State × Nat} (hrounds : repeatRun hencRound syms.length (s, 0) = .ok x)
    (hround : Raises (hencRound x) code m) : exec .henc s = .next (halted s code (encode .henc) m) := by
  refine Raises.halts (body := henc) ?_ rfl
  rw [henc_eq_loop hnleaf hbit]
  exact (Raises.repeatRun hlt hrounds hround).bind _

/-- Where the rounds of some symbols have led, the byte to read next is the one that was there before them. -/
theorem byteAt_encodedOn {m : Memory} {n : Nat} (h : Encodes s syms codes) (hapart : ReadsApart s n) (hlt : syms.length < n)
    (hput : BitsPut (bitPos s.wr) s.mem m codes.flatten) :
    m.byteAt (bytesOn s.rd syms.length).ptr.toNat = s.mem.byteAt (s.rd.ptr.toNat + syms.length) := by
  rw [toNat_bytesOn_ptr h.readable]
  obtain hzero | hpos := Nat.eq_zero_or_pos syms.length
  · obtain rfl := List.eq_nil_of_length_eq_zero hzero
    obtain rfl := List.forall₂_nil_left_iff.mp h.areCodes
    exact hput.byteAt_eq_of_nil
  · exact hput.byteAt_eq_of_outOfReach h.writable (hapart _ hpos hlt)

/-- Settles O50: a round for each symbol; where there are symbols left, the round after the last whole one raises. -/
theorem huffmanEncode : Obligations.HuffmanEncode := by
  refine fun s hwf htree => ⟨exec_henc_without_tree, exec_henc_unaligned,
    fun syms codes hnleaf hbit hdisjoint hread hholds hcodes hwrite => ?_⟩
  have h : Encodes s syms codes := ⟨hcodes, hholds, hread, hwrite⟩
  have hapart : ReadsApart s s.hcount.toNat := fun j hj hlt => by
    unfold OutOfReach
    omega
  have hrounds (hlt : syms.length < s.hcount.toNat) :=
    hencRounds_of_encodes hwf htree h (fun j hj hjlt => hapart j hj (hjlt.trans hlt)) 0
  refine ⟨fun hlen => ?_, fun hlt hend => ?_, fun hlt hless hcode => ?_, fun code hlt hless hcode hfull => ?_⟩
  · obtain ⟨m, -, hput, hexec⟩ := exec_henc_completes hwf htree hnleaf hbit h hapart hlen
    exact ⟨m, hexec, hput.stored⟩
  all_goals
    obtain ⟨m, hm, hput, hloop⟩ := hrounds hlt
    have hbyte := byteAt_encodedOn h hapart hlt hput
    have hroom := room_bytesOn hread
  · refine ⟨m, exec_henc_halts hnleaf hbit hlt hloop ?_, hput.stored⟩
    rw [← pastEnd_bytesOn hread]
    exact hencRound_raises_at_end (hroom.trans (by omega))
  · refine ⟨m, exec_henc_halts hnleaf hbit hlt hloop (hencRound_raises_without_leaf htree (hroom.symm ▸ by omega) ?_),
      hput.stored⟩
    exact fun ⟨bits, hbits⟩ => hcode ⟨bits, hbyte ▸ isCode_encodedOn_iff.mp hbits⟩
  · have hbits := bitRoom_bitsOn hwrite
    obtain ⟨m', hput', hraises⟩ := hencRound_raises_without_room (s := s.encodedOn syms.length m codes.flatten.length)
      (k := 0 + codes.flatten.length) hm htree (hroom.symm ▸ by omega) (isCode_encodedOn_iff.mpr (hbyte.symm ▸ hcode))
      (hbits.symm ▸ by omega)
    refine ⟨m', exec_henc_halts hnleaf hbit hlt hloop (pastEnd_bitsOn hwrite 0x51 ▸ hraises), ?_⟩
    rw [List.take_append, List.take_of_length_le hwrite, ← hbits]
    exact (hput.append (bitPos_bitsOn hwrite ▸ hput')).stored

end

end Sys2Proof.Machine
end

