-- ==== Sys2Proof/Proofs/HuffmanDecoder.lean ====
section
/-!
PROOF. HDEC (45_huffman.md R410): bits read, the descent to a leaf, one round of the loop, the loop on a stream of codes, and how it
ends. Settles O51.
-/

namespace Sys2Proof.Machine

open Sys2Proof.Claims

/-! ## One bit read (R113) -/

/-- The bits `bs` stand in LMEM from bit `p` on. -/
abbrev HoldsBits (m : Memory) (p : Nat) (bs : List Bool) : Prop := ∀ j (h : j < bs.length), m.bit (p + j) = bs[j]

theorem holdsBits_cons {m : Memory} {p : Nat} {b : Bool} {bs : List Bool} (h : HoldsBits m p (b :: bs)) :
    m.bit p = b ∧ HoldsBits m (p + 1) bs := by
  refine ⟨h 0 (Nat.succ_pos _), fun j hj => ?_⟩
  rw [Nat.add_right_comm]
  exact h (j + 1) (Nat.succ_lt_succ hj)

theorem holdsBits_append {m : Memory} {p : Nat} {as bs : List Bool} (h : HoldsBits m p (as ++ bs)) :
    HoldsBits m p as ∧ HoldsBits m (p + as.length) bs := by
  refine ⟨fun j hj => ?_, fun j hj => ?_⟩
  · rw [h j (by rw [List.length_append]; omega), List.getElem_append_left hj]
  · rw [Nat.add_assoc, h (as.length + j) (by rw [List.length_append]; omega), List.getElem_append_right (Nat.le_add_right ..)]
    simp only [Nat.add_sub_cancel_left]

/-- The bits that a statement names by their place in the read stream. -/
theorem holdsBits_of_readsBits {s : State} {k : Nat} {bs : List Bool} (h : ReadsBits s k bs) :
    HoldsBits s.mem (bitPos s.rd + k) bs := by
  intro j hj
  rw [← h j hj, bitAt_eq, bitPos]
  exact congrArg s.mem.bit (by omega)

/-- The state after `n` bits are read. -/
def State.readBits (s : State) (n : Nat) : State := { s with rd := bitsOn s.rd n }

theorem readBits_readBits (s : State) (a b : Nat) : (s.readBits a).readBits b = s.readBits (a + b) := by
  unfold State.readBits
  dsimp only
  rw [bitsOn_bitsOn]

section
variable {s : State}

theorem rdBit_of_room (h : 0 < room s.rd s.lmemSize) : rdBit s = .ok (s.mem.bit (bitPos s.rd), s.readBits 1) := by
  unfold room at h
  refine rdBit_ok.mpr ⟨by omega, by omega, ?_, ?_⟩
  · rw [bitPos, ← bitAt_eq, bitAt_of_lt _ _ s.rd.bit.isLt]
    rfl
  · rw [nextBit_eq_bitsOn]
    rfl

theorem rdBit_raises (h : room s.rd s.lmemSize = 0) : Raises (rdBit s) (pastEnd s.rd s.lmemSize 0x42) s.mem :=
  access_raises h .decodeHuff fun hx => Run.bind_error.mpr (.inl (memRead_error.mpr ⟨hx, rfl⟩))

/-! ## The descent to a leaf (R410) -/

theorem descend_leaf {bound i : Nat} (h : (nodeAt s i).leaf = true) :
    descend (bound + 1) i s = .ok ((nodeAt s i).left.setWidth 8, s) := by
  rw [descend, ← nodeAt_eq_node, if_pos h]

theorem descend_inner {bound i : Nat} (h : (nodeAt s i).leaf = false) :
    descend (bound + 1) i s = rdBit s >>= fun x => descend bound (childAt s i x.1) x.2 := by
  rw [descend, ← nodeAt_eq_node, if_neg (by rw [h]; decide)]
  cases rdBit s <;> rfl

/-- A step of the descent on a stream with a bit left. -/
theorem descend_step {bound i : Nat} {b : Bool} (hinner : IsInner s i) (hbit : s.mem.bit (bitPos s.rd) = b)
    (hroom : 0 < bitRoom s.rd s.lmemSize) :
    descend (bound + 1) i s = descend bound (childAt s i b) (s.readBits 1) := by
  have hbyte : 0 < room s.rd s.lmemSize := Nat.pos_of_ne_zero fun hzero => by simp [bitRoom, hzero] at hroom
  rw [descend_inner hinner.2, rdBit_of_room hbyte, hbit]
  rfl

/-- The descent takes the bits of the walk. -/
theorem descend_of_walk {bound i k : Nat} {bits : List Bool} (hw : walk s i bits = some k)
    (hbits : HoldsBits s.mem (bitPos s.rd) bits) (hroom : bits.length ≤ bitRoom s.rd s.lmemSize) (hbound : bits.length < bound) :
    descend bound i s = descend (bound - bits.length) k (s.readBits bits.length) := by
  induction bits generalizing s bound i with
  | nil =>
    cases hw
    rw [State.readBits, List.length_nil, bitsOn_zero]
    rfl
  | cons b bits ih =>
    obtain ⟨hinner, hw⟩ := walk_cons_eq_some.mp hw
    obtain ⟨hbit, hbits⟩ := holdsBits_cons hbits
    rw [List.length_cons] at hroom hbound ⊢
    obtain ⟨bound, rfl⟩ := Nat.exists_eq_succ_of_ne_zero (Nat.ne_zero_of_lt hbound)
    have hone : 1 ≤ bitRoom s.rd s.lmemSize := by omega
    rw [Nat.succ_eq_add_one, descend_step hinner hbit hone, Nat.add_sub_add_right, Nat.add_comm bits.length, ← readBits_readBits]
    refine ih ((walk_eq_of_sameNodes s (s.readBits 1) rfl _ _).trans hw) ?_
      ((Nat.le_sub_of_add_le hroom).trans_eq (bitRoom_bitsOn hone).symm) (by omega)
    exact bitPos_bitsOn hone ▸ hbits

theorem lt_descentBound {n : Nat} (h : n ≤ bitRoom s.rd s.lmemSize) : n < s.descentBound := by
  unfold bitRoom room at h
  unfold State.descentBound
  omega

/-- The descent along a code ends at the leaf of its symbol. -/
theorem descend_of_code {sym : Byte} {code : List Bool} (hcode : IsCode s sym code) (hbits : HoldsBits s.mem (bitPos s.rd) code)
    (hroom : code.length ≤ bitRoom s.rd s.lmemSize) :
    descend s.descentBound s.hroot.toNat s = .ok (sym, s.readBits code.length) := by
  obtain ⟨k, hw, -, hleaf, hleft⟩ := hcode
  have hbound := lt_descentBound hroom
  obtain ⟨n, hn⟩ := Nat.exists_eq_add_of_lt hbound
  rw [descend_of_walk hw hbits hroom hbound, hn, Nat.add_assoc, Nat.add_sub_cancel_left]
  refine (descend_leaf (s := s.readBits code.length) hleaf).trans ?_
  rw [show (nodeAt (s.readBits code.length) k).left = sym.setWidth 9 from hleft, BitVec.setWidth_setWidth_of_le _ (by decide),
    BitVec.setWidth_eq]

/-- The descent ends the command where the stream ends before a leaf. -/
theorem descend_raises {k : Nat} {bits : List Bool} (hw : walk s s.hroot.toNat bits = some k) (hinner : (nodeAt s k).leaf = false)
    (hbits : HoldsBits s.mem (bitPos s.rd) bits) (hend : bits.length = bitRoom s.rd s.lmemSize) :
    Raises (descend s.descentBound s.hroot.toNat s) (pastEnd s.rd s.lmemSize 0x42) s.mem := by
  have hbound := lt_descentBound hend.le
  obtain ⟨n, hn⟩ := Nat.exists_eq_add_of_lt hbound
  rw [descend_of_walk hw hbits hend.le hbound, hn, Nat.add_assoc, Nat.add_sub_cancel_left,
    descend_inner (s := s.readBits bits.length) hinner, ← pastEnd_bitsOn hend.le]
  refine (rdBit_raises (s := s.readBits bits.length) (room_eq_zero_of_bitRoom ?_)).bind _
  exact (bitRoom_bitsOn hend.le).trans (Nat.sub_eq_zero_of_le hend.ge)

/-! ## One round of HDEC -/

/-- The state after HDEC has read `k` bits and written the bytes. -/
def State.decodedOn (s : State) (k : Nat) (bs : List Byte) : State :=
  { s with mem := s.mem.writeBytes s.wr.ptr.toNat bs, rd := bitsOn s.rd k, wr := bytesOn s.wr bs.length }

theorem hdecRound_of_code {sym : Byte} {code : List Bool} (hcode : IsCode s sym code)
    (hbits : HoldsBits s.mem (bitPos s.rd) code) (hread : code.length ≤ bitRoom s.rd s.lmemSize)
    (hwrite : 0 < room s.wr s.lmemSize) : hdecRound s = .ok (s.decodedOn code.length [sym]) := by
  rw [hdecRound, descend_of_code hcode hbits hread]
  exact wrByte_of_room (s := s.readBits code.length) sym hwrite

theorem hdecRound_raises_in_code {k : Nat} {bits : List Bool} (hw : walk s s.hroot.toNat bits = some k)
    (hinner : (nodeAt s k).leaf = false) (hbits : HoldsBits s.mem (bitPos s.rd) bits)
    (hend : bits.length = bitRoom s.rd s.lmemSize) : Raises (hdecRound s) (pastEnd s.rd s.lmemSize 0x42) s.mem :=
  (descend_raises hw hinner hbits hend).bind _

theorem hdecRound_raises_without_room {sym : Byte} {code : List Bool} (hcode : IsCode s sym code)
    (hbits : HoldsBits s.mem (bitPos s.rd) code) (hread : code.length ≤ bitRoom s.rd s.lmemSize)
    (hfull : room s.wr s.lmemSize = 0) : Raises (hdecRound s) (pastEnd s.wr s.lmemSize 0x51) s.mem :=
  .after (descend_of_code hcode hbits hread) (wrByte_raises (s := s.readBits code.length) sym hfull)

end

/-! ## The loop of HDEC -/

/-- The read stream holds the codes next, they are those of the symbols, and the symbols fit into the write stream. -/
structure Decodes (s : State) (syms : List Byte) (codes : List (List Bool)) : Prop where
  areCodes : AreCodes s syms codes
  holds : HoldsBits s.mem (bitPos s.rd) codes.flatten
  readable : codes.flatten.length ≤ bitRoom s.rd s.lmemSize
  writable : syms.length ≤ room s.wr s.lmemSize

/-- The next `k` bits to read lie in none of the next `n` bytes to write, if those are more than one. -/
def WritesApart (s : State) (n k : Nat) : Prop :=
  n ≤ 1 ∨ ∀ i < k, (bitPos s.rd + i) / 8 < s.wr.ptr.toNat ∨ s.wr.ptr.toNat + n ≤ (bitPos s.rd + i) / 8

section
variable {s : State} {syms : List Byte} {codes : List (List Bool)}

theorem bit_writeBytes_of_outside {m : Memory} (hwf : m.wf) {p j : Nat} {bs : List Byte}
    (h : j / 8 < p ∨ p + bs.length ≤ j / 8) : (m.writeBytes p bs).bit j = m.bit j := by
  rw [Memory.bit, (stored_writeBytes hwf p bs).2 _ h, Memory.bit]

/-- Where fewer bytes are written than the loop is to write, the bits to read are those that were there before. -/
theorem WritesApart.bit_eq {n k i : Nat} (h : WritesApart s n k) (hwf : s.mem.wf) (hi : i < k) (hlt : syms.length < n) :
    (s.mem.writeBytes s.wr.ptr.toNat syms).bit (bitPos s.rd + i) = s.mem.bit (bitPos s.rd + i) := by
  obtain hone | hfar := h
  · obtain rfl := List.eq_nil_of_length_eq_zero (by omega : syms.length = 0)
    rfl
  · exact bit_writeBytes_of_outside hwf ((hfar i hi).imp_right fun hle => by omega)

theorem walk_decodedOn (k i : Nat) (bs : List Byte) (bits : List Bool) : walk (s.decodedOn k bs) i bits = walk s i bits :=
  walk_eq_of_sameNodes s (s.decodedOn k bs) rfl i bits

theorem isCode_decodedOn_iff {k : Nat} {bs : List Byte} {sym : Byte} {bits : List Bool} :
    IsCode (s.decodedOn k bs) sym bits ↔ IsCode s sym bits := isCode_iff_of_sameTree s (s.decodedOn k bs) rfl rfl

theorem decodedOn_decodedOn (k k' : Nat) (b : Byte) (bs : List Byte) (hroom : 1 ≤ room s.wr s.lmemSize) :
    (s.decodedOn k [b]).decodedOn k' bs = s.decodedOn (k + k') (b :: bs) := by
  simp only [State.decodedOn, bytesOn_bytesOn, bitsOn_bitsOn, toNat_bytesOn_ptr hroom, List.length_cons, List.length_nil,
    Nat.zero_add, Nat.add_comm 1, Memory.writeBytes]

/-- After the first symbol the codes of the others are next. -/
theorem Decodes.tail {sym : Byte} {code : List Bool} (hwf : s.mem.wf) (h : Decodes s (sym :: syms) (code :: codes))
    (hapart : WritesApart s (syms.length + 1) (code ++ codes.flatten).length) :
    Decodes (s.decodedOn code.length [sym]) syms codes := by
  obtain ⟨hcodes, hholds, hread, hwrite⟩ := h
  rw [List.flatten_cons] at hholds hread
  have hcode : code.length ≤ bitRoom s.rd s.lmemSize := by
    rw [List.length_append] at hread
    omega
  have hone : 1 ≤ room s.wr s.lmemSize := by
    rw [List.length_cons] at hwrite
    omega
  exact {
    areCodes := (List.forall₂_cons.mp hcodes).2.imp fun _ _ => isCode_decodedOn_iff.mpr
    holds := fun j hj => by
      have hne : syms ≠ [] := fun hnil => by
        subst hnil
        obtain rfl := List.forall₂_nil_left_iff.mp (List.forall₂_cons.mp hcodes).2
        exact absurd hj (Nat.not_lt_zero j)
      have hpos := List.length_pos_iff.mpr hne
      have hkept := hapart.bit_eq (syms := [sym]) (i := code.length + j) hwf (by rw [List.length_append]; omega)
        (by rw [List.length_singleton]; omega)
      refine Eq.trans (congrArg _ ?_) (hkept.trans ((congrArg _ ?_).trans ((holdsBits_append hholds).2 j hj)))
      · exact (congrArg (· + j) (bitPos_bitsOn hcode)).trans (Nat.add_assoc ..)
      · exact (Nat.add_assoc ..).symm
    readable := by
      rw [List.length_append] at hread
      exact (Nat.le_sub_of_add_le (by omega)).trans_eq (bitRoom_bitsOn hcode).symm
    writable := (Nat.le_sub_of_add_le hwrite).trans_eq (room_bytesOn hone).symm }

theorem WritesApart.tail {n : Nat} {code rest : List Bool} {sym : Byte} (h : WritesApart s (n + 1) (code ++ rest).length)
    (hread : code.length ≤ bitRoom s.rd s.lmemSize) (hwrite : 1 ≤ room s.wr s.lmemSize) :
    WritesApart (s.decodedOn code.length [sym]) n rest.length := by
  have hrd : bitPos (s.decodedOn code.length [sym]).rd = bitPos s.rd + code.length := bitPos_bitsOn hread
  have hwr : (s.decodedOn code.length [sym]).wr.ptr.toNat = s.wr.ptr.toNat + 1 := toNat_bytesOn_ptr hwrite
  unfold WritesApart at h ⊢
  rw [hrd, hwr]
  refine h.imp (fun hone => by omega) fun hfar i hi => ?_
  have := hfar (code.length + i) (by rw [List.length_append]; omega)
  rw [Nat.add_assoc]
  omega

/-- A round for each symbol. -/
theorem hdecRounds_of_decodes (hwf : s.mem.wf) (h : Decodes s syms codes)
    (hapart : WritesApart s syms.length codes.flatten.length) :
    repeatRun hdecRound syms.length s = .ok (s.decodedOn codes.flatten.length syms) := by
  induction syms generalizing s codes with
  | nil =>
    obtain rfl := List.forall₂_nil_left_iff.mp h.areCodes
    simp only [List.length_nil, List.flatten_nil, State.decodedOn, bytesOn_zero, bitsOn_zero]
    rfl
  | cons sym syms ih =>
    obtain ⟨code, codes, hcode, -, rfl⟩ := List.forall₂_cons_left_iff.mp h.areCodes
    have hread := h.readable
    have hwrite := h.writable
    have hholds := h.holds
    rw [List.flatten_cons] at hread hholds hapart ⊢
    rw [List.length_append] at hread
    rw [List.length_cons] at hwrite hapart
    have hround := hdecRound_of_code hcode (holdsBits_append hholds).1 (by omega) (by omega)
    have hrest := ih (s := s.decodedOn code.length [sym]) (Memory.wf_write hwf _ _) (h.tail hwf hapart)
      (hapart.tail (by omega) (by omega))
    rw [List.length_cons, repeatRun_succ, hround, List.length_append, ← decodedOn_decodedOn _ _ _ _ (by omega)]
    exact hrest

/-! ## HDEC (R410) -/

/-- The body of HDEC after its checks is its loop. -/
theorem hdec_eq_loop (htree : s.hnleaf ≠ 0) (hbit : s.wr.bit = 0) : hdec s = repeatRun hdecRound s.hcount.toNat s := by
  rw [hdec, needTree_of_tree htree, needAligned_of_zero hbit]
  rfl

theorem exec_hdec_without_tree (h : s.hnleaf = 0) : exec .hdec s = .next (halted s 0x60 (encode .hdec) s.mem) :=
  ((needTree_raises h).bind _).halts (body := hdec) rfl

theorem exec_hdec_unaligned (htree : s.hnleaf ≠ 0) (hbit : s.wr.bit ≠ 0) :
    exec .hdec s = .next (halted s 0x50 (encode .hdec) s.mem) :=
  Raises.halts (body := hdec) (.after (needTree_of_tree htree) ((needAligned_raises hbit s).bind _)) rfl

theorem exec_hdec_completes (hwf : s.mem.wf) (hnleaf : s.hnleaf ≠ 0) (hbit : s.wr.bit = 0) (h : Decodes s syms codes)
    (hapart : WritesApart s s.hcount.toNat codes.flatten.length) (hlen : syms.length = s.hcount.toNat) :
    exec .hdec s = .next { s with
      mem := s.mem.writeBytes s.wr.ptr.toNat syms, rd := bitsOn s.rd codes.flatten.length, wr := bytesOn s.wr syms.length,
      cpc := s.cpc + 4 } := by
  refine runCommand_of_ok (body := hdec) (u := s.decodedOn codes.flatten.length syms) ?_
  rw [hdec_eq_loop hnleaf hbit, ← hlen]
  exact hdecRounds_of_decodes hwf h (hlen ▸ hapart)

/-- HDEC raises what the round after the symbols raises. -/
theorem exec_hdec_halts {code : Byte} (hnleaf : s.hnleaf ≠ 0) (hbit : s.wr.bit = 0) (hlt : syms.length < s.hcount.toNat)
    (hrounds : repeatRun hdecRound syms.length s = .ok (s.decodedOn codes.flatten.length syms))
    (hround : Raises (hdecRound (s.decodedOn codes.flatten.length syms)) code (s.mem.writeBytes s.wr.ptr.toNat syms)) :
    exec .hdec s = .next (halted s code (encode .hdec) (s.mem.writeBytes s.wr.ptr.toNat syms)) := by
  refine Raises.halts (body := hdec) ?_ rfl
  rw [hdec_eq_loop hnleaf hbit]
  exact .repeatRun hlt hrounds hround

/-- After the rounds of some symbols the bits that follow their codes are those that were there before. -/
theorem holdsBits_decodedOn {n : Nat} {bits : List Bool} (hwf : s.mem.wf) (h : Decodes s syms codes)
    (hapart : WritesApart s n (bitRoom s.rd s.lmemSize)) (hlt : syms.length < n)
    (hbits : ReadsBits s codes.flatten.length bits) (hroom : codes.flatten.length + bits.length ≤ bitRoom s.rd s.lmemSize) :
    HoldsBits (s.decodedOn codes.flatten.length syms).mem (bitPos (s.decodedOn codes.flatten.length syms).rd) bits := by
  intro j hj
  have hpos : bitPos (s.decodedOn codes.flatten.length syms).rd + j = bitPos s.rd + (codes.flatten.length + j) :=
    (congrArg (· + j) (bitPos_bitsOn h.readable)).trans (Nat.add_assoc ..)
  rw [hpos, ← holdsBits_of_readsBits hbits j hj, Nat.add_assoc]
  exact hapart.bit_eq hwf (by omega) hlt

/-- Settles O51: a round for each symbol; where there are symbols left, the round after the last whole one raises. -/
theorem huffmanDecode : Obligations.HuffmanDecode := by
  refine fun s hwf htree => ⟨exec_hdec_without_tree, exec_hdec_unaligned,
    fun syms codes hnleaf hbit hdisjoint hwrite hcodes hholds hread => ?_⟩
  have hbits : HoldsBits s.mem (bitPos s.rd) codes.flatten := holdsBits_of_readsBits (k := 0) hholds
  have h : Decodes s syms codes := ⟨hcodes, hbits, hread, hwrite⟩
  have hstored := stored_writeBytes hwf s.wr.ptr.toNat syms
  have hapart : WritesApart s s.hcount.toNat (bitRoom s.rd s.lmemSize) := by
    refine hdisjoint.imp_right fun hfar i hi => ?_
    have hrdbit := s.rd.bit.isLt
    unfold bitRoom at hi
    unfold bitPos
    omega
  have hrounds (hlt : syms.length < s.hcount.toNat) := hdecRounds_of_decodes hwf h
    (hapart.imp (fun hone => by omega) fun hfar i hi => (hfar i (hi.trans_le hread)).imp_right fun hle => by omega)
  refine ⟨fun hlen => ⟨_, exec_hdec_completes hwf hnleaf hbit h ?_ hlen, hstored⟩,
    fun rest i hlt hend hrest hw hinner => ⟨_, exec_hdec_halts hnleaf hbit hlt (hrounds hlt) ?_, hstored⟩,
    fun sym code hlt hcode hread' hfits hfull => ⟨_, exec_hdec_halts hnleaf hbit hlt (hrounds hlt) ?_, hstored⟩⟩
  · exact hapart.imp_right fun hfar i hi => hfar i (hi.trans_le hread)
  all_goals
    have hroom : bitRoom (s.decodedOn codes.flatten.length syms).rd s.lmemSize = bitRoom s.rd s.lmemSize - codes.flatten.length :=
      bitRoom_bitsOn hread
  · rw [← walk_decodedOn codes.flatten.length _ syms] at hw
    rw [← pastEnd_bitsOn hread]
    exact hdecRound_raises_in_code (s := s.decodedOn codes.flatten.length syms) hw hinner
      (holdsBits_decodedOn hwf h hapart hlt hrest hend.le) ((Nat.eq_sub_of_add_eq' hend).trans hroom.symm)
  · rw [← isCode_decodedOn_iff (k := codes.flatten.length) (bs := syms)] at hcode
    rw [← pastEnd_bytesOn hwrite]
    exact hdecRound_raises_without_room (s := s.decodedOn codes.flatten.length syms) hcode
      (holdsBits_decodedOn hwf h hapart hlt hread' hfits) ((Nat.le_sub_of_add_le' hfits).trans_eq hroom.symm)
      ((room_bytesOn hwrite).trans (Nat.sub_eq_zero_of_le hfull.ge))

end

end Sys2Proof.Machine
end

