-- ==== Sys2Proof/Proofs/HuffmanSplit.lean ====
section
/-!
PROOF. HENC and HDEC are loops over symbols, which split at any symbol (45_huffman.md R409, R410, R14). Settles O52.
-/

namespace Sys2Proof.Machine

open Sys2Proof.Claims

/-! ## The count and HBITS do not matter to a round -/

/-- The state with another HCOUNT and another HBITS. -/
def State.retally (s : State) (c h : Word) : State := { s with hcount := c, hbits := h }

/-- A loop's state with another HCOUNT and HBITS, and with `k` bits more emitted. -/
def retallied (c h : Word) (k : Nat) (x : State × Nat) : State × Nat := (x.1.retally c h, k + x.2)

/-- What maps through both parts of a bind maps through the bind. -/
theorem map_bind_eq {α α' β β' : Type} {g : α → α'} {f : α → Run β} {f' : α' → Run β'} {g' : β → β'} (x : Run α)
    (h : ∀ a, f' (g a) = (f a).map g') : x.map g >>= f' = (x >>= f).map g' := by
  cases x with
  | error e => rfl
  | ok a => exact h a

section
variable (s : State) (c h : Word)

theorem rdByte_retally (e : ErrCode) :
    rdByte e (s.retally c h) = (rdByte e s).map fun x => (x.1, x.2.retally c h) := by
  change (refuseIf s.rd.atLimit e s >>= fun _ => memRead s s.rd.ptr.toNat >>= fun b => pure (b, _)) = _
  unfold rdByte
  cases refuseIf s.rd.atLimit e s with
  | error a => rfl
  | ok _ => cases memRead s s.rd.ptr.toNat <;> rfl

theorem rdBit_retally : rdBit (s.retally c h) = (rdBit s).map fun x => (x.1, x.2.retally c h) := by
  change (refuseIf s.rd.atLimit .decodeHuff s >>= fun _ => memRead s s.rd.ptr.toNat >>= fun b => pure (_, _)) = _
  unfold rdBit
  cases refuseIf s.rd.atLimit .decodeHuff s with
  | error a => rfl
  | ok _ => cases memRead s s.rd.ptr.toNat <;> rfl

theorem memWrite_retally (a : Nat) (v : Byte) :
    memWrite (s.retally c h) a v = (memWrite s a v).map (State.retally · c h) := by
  change (if a ≥ s.lmemSize then raise .addr s else .ok ((s.withMem (s.mem.write a v)).retally c h)) = _
  unfold memWrite
  split <;> rfl

theorem wrByte_retally (v : Byte) : wrByte v (s.retally c h) = (wrByte v s).map (State.retally · c h) := by
  change (refuseIf s.wr.atLimit .streamWovf s >>= fun _ => memWrite (s.retally c h) s.wr.ptr.toNat v >>= fun t => pure _) = _
  unfold wrByte
  cases refuseIf s.wr.atLimit .streamWovf s with
  | error a => rfl
  | ok _ =>
    rw [memWrite_retally]
    exact map_bind_eq (memWrite s s.wr.ptr.toNat v) fun _ => rfl

theorem wrBit_retally (b : Bool) : wrBit b (s.retally c h) = (wrBit b s).map (State.retally · c h) := by
  change (refuseIf s.wr.atLimit .streamWovf s >>= fun _ => oldByte s.wr s >>= fun old =>
    memWrite (s.retally c h) s.wr.ptr.toNat _ >>= fun t => pure _) = _
  unfold wrBit
  cases refuseIf s.wr.atLimit .streamWovf s with
  | error a => rfl
  | ok _ =>
    cases oldByte s.wr s with
    | error a => rfl
    | ok old =>
      simp only [memWrite_retally]
      exact map_bind_eq (memWrite s s.wr.ptr.toNat _) fun _ => rfl

theorem wrBits_retally (bs : List Bool) : wrBits bs (s.retally c h) = (wrBits bs s).map (State.retally · c h) := by
  induction bs generalizing s with
  | nil => rfl
  | cons b bs ih =>
    rw [wrBits, List.foldlM_cons, wrBit_retally]
    exact map_bind_eq (wrBit b s) ih

theorem descend_retally (bound i : Nat) :
    descend bound i (s.retally c h) = (descend bound i s).map fun x => (x.1, x.2.retally c h) := by
  induction bound generalizing s i with
  | zero => rfl
  | succ bound ih =>
    cases hleaf : (nodeAt s i).leaf with
    | true =>
      rw [descend_leaf hleaf, descend_leaf (s := s.retally c h) hleaf]
      rfl
    | false =>
      rw [descend_inner hleaf, descend_inner (s := s.retally c h) hleaf, rdBit_retally]
      exact map_bind_eq (rdBit s) fun x => ih x.2 (childAt s i x.1)

theorem hdecRound_retally : hdecRound (s.retally c h) = (hdecRound s).map (State.retally · c h) := by
  unfold hdecRound
  refine (congrArg (· >>= _) (descend_retally s c h _ _)).trans ?_
  exact map_bind_eq (descend s.descentBound s.hroot.toNat s) fun x => wrByte_retally x.2 c h x.1

theorem hencRound_retally (x : State × Nat) (k : Nat) :
    hencRound (retallied c h k x) = (hencRound x).map (retallied c h k) := by
  unfold hencRound
  refine (congrArg (· >>= _) (rdByte_retally x.1 c h _)).trans (map_bind_eq (rdByte .formatShort x.1) fun y => ?_)
  dsimp only
  change (match y.2.codeOf y.1 with | none => _ | some code => _) = _
  cases y.2.codeOf y.1 with
  | none => rfl
  | some code =>
    dsimp only
    rw [wrBits_retally]
    refine map_bind_eq (wrBits code y.2) fun t => ?_
    simp only [retallied, Nat.add_assoc]
    rfl

end

theorem CopiesOn.cpc_eq {s t : State} (h : CopiesOn s t) : t.cpc = s.cpc := by
  obtain ⟨m, r, w, -, -, -, rfl⟩ := h
  rfl

theorem CopiesOn.err_eq {s t : State} (h : CopiesOn s t) : t.err = s.err := by
  obtain ⟨m, r, w, -, -, -, rfl⟩ := h
  rfl

theorem CopiesOn.hbits_eq {s t : State} (h : CopiesOn s t) : t.hbits = s.hbits := by
  obtain ⟨m, r, w, -, -, -, rfl⟩ := h
  rfl

theorem toNat_ofNat_of_lt {n : Nat} (h : n < 2 ^ 32) : (BitVec.ofNat 32 n).toNat = n := by
  rw [BitVec.toNat_ofNat, Nat.mod_eq_of_lt h]

/-! ## A command that loops over symbols -/

/-- The loop for `n` symbols, after its checks. -/
def symbolLoop (check : State → Run Unit) (round : State × Nat → Run (State × Nat)) (n : Nat) (s : State) :
    Run (State × Nat) := check s >>= fun _ => repeatRun round n (s, 0)

/-- What HENC and HDEC have in common: checks that say nothing of HCOUNT and HBITS and that pass again after a round; rounds
that change LMEM and the streams alone, and for which HCOUNT, HBITS and the bits emitted before do not matter; and what `tally`
makes of HBITS and the bits emitted. -/
structure SymbolLoop (i : Instr) (check : State → Run Unit) (round : State × Nat → Run (State × Nat))
    (tally : Word → Nat → Word) : Prop where
  exec_eq : ∀ s, exec i s = runCommand i (fun s => symbolLoop check round s.hcount.toNat s >>= fun x =>
    pure (x.1.retally x.1.hcount (tally x.1.hbits x.2))) s
  check_eq : ∀ s c h, check (s.retally c h) = check s
  check_round : ∀ x y, round x = .ok y → check x.1 = .ok () → check y.1 = .ok ()
  copies : ∀ x y, round x = .ok y → CopiesOn x.1 y.1
  round_eq : ∀ c h k x, round (retallied c h k x) = (round x).map (retallied c h k)
  tally_add : ∀ v a b, tally v (a + b) = if i = .henc then tally v a + tally (tally v a) b else tally (tally v a) b

section
variable {i : Instr} {check : State → Run Unit} {round : State × Nat → Run (State × Nat)} {tally : Word → Nat → Word}
  (loop : SymbolLoop i check round tally)
include loop

theorem SymbolLoop.exec_of_ok {s : State} {x : State × Nat} (h : symbolLoop check round s.hcount.toNat s = .ok x) :
    exec i s = .next (x.1.retally x.1.hcount (tally x.1.hbits x.2)).advance :=
  (loop.exec_eq s).trans (runCommand_of_ok (Run.bind_ok.mpr ⟨x, h, rfl⟩))

theorem SymbolLoop.exec_of_error {s : State} {e : Abort} (h : symbolLoop check round s.hcount.toNat s = .error e) :
    exec i s = .next (s.errorHalt e.code e.mem (encode i)) :=
  (loop.exec_eq s).trans (runCommand_of_error (Run.bind_error.mpr (.inl h)))

theorem SymbolLoop.repeatRun_eq (c h : Word) (k n : Nat) (x : State × Nat) :
    repeatRun round n (retallied c h k x) = (repeatRun round n x).map (retallied c h k) := by
  induction n generalizing x with
  | zero => rfl
  | succ n ih =>
    rw [repeatRun_succ, repeatRun_succ, loop.round_eq]
    exact map_bind_eq (round x) ih

/-- The loop for n + m symbols, with any HCOUNT and HBITS, is the loop for n and then one for m. -/
theorem SymbolLoop.symbolLoop_add (s : State) (c h : Word) (n m : Nat) :
    symbolLoop check round (n + m) (s.retally c h) =
      (symbolLoop check round n s).map (retallied c h 0) >>= repeatRun round m := by
  unfold symbolLoop
  rw [loop.check_eq]
  cases check s with
  | error e => rfl
  | ok _ =>
    refine (repeatRun_add n m _).trans (congrArg (· >>= _) ?_)
    exact loop.repeatRun_eq c h 0 n (s, 0)

/-- After the loop the checks pass again, and LMEM and the streams alone have changed. -/
theorem SymbolLoop.after {s : State} {n : Nat} {x : State × Nat} (h : symbolLoop check round n s = .ok x) :
    check x.1 = .ok () ∧ CopiesOn s x.1 := by
  obtain ⟨_, hcheck, hrounds⟩ := Run.bind_ok.mp h
  exact (repeatRun_induct (P := fun x => check x.1 = .ok () ∧ CopiesOn s x.1) (E := fun _ => True)
    (fun x y hx hy => ⟨loop.check_round x y hy hx.1, hx.2.trans (loop.copies x y hy)⟩) (fun _ _ _ _ => trivial) n
    ⟨hcheck, .refl s⟩).1 x hrounds

/-- The second half: the loop begun again after the first, with any HCOUNT and HBITS, is the rest of the loop. -/
theorem SymbolLoop.rest_eq {s : State} {n m : Nat} {x : State × Nat} (h : symbolLoop check round n s = .ok x)
    (c v c' v' : Word) : repeatRun round m (retallied c v 0 x) =
      (symbolLoop check round m (x.1.retally c' v')).map (retallied c v x.2) := by
  unfold symbolLoop
  rw [loop.check_eq, (loop.after h).1]
  refine Eq.trans (congrArg (repeatRun round m) ?_) (loop.repeatRun_eq c v x.2 m (x.1.retally c' v', 0))
  rw [retallied, retallied, Nat.zero_add]
  rfl

/-- R14: such a command on n + m symbols, where the first n are read and written. -/
theorem SymbolLoop.splits_of_ok {s t u y : State} {n m b : Nat} (hsum : n + m < 2 ^ 32) (herr : s.err = false)
    (hfirst : symbolLoop check round n { s with hcount := BitVec.ofNat 32 n } = .ok (y, b))
    (ht : t = (y.retally y.hcount (tally y.hbits b)).advance)
    (hu : exec i { t with hcount := BitVec.ofNat 32 m, cpc := s.cpc } = .next u) :
    let whole : State := { s with hcount := BitVec.ofNat 32 (n + m) }
    (u.err = true → exec i whole = .next (halted whole u.errCode (encode i) u.mem)) ∧
    (u.err = false →
      exec i whole = .next { u with hcount := whole.hcount, hbits := if i = .henc then t.hbits + u.hbits else u.hbits }) := by
  intro whole
  subst ht
  obtain ⟨-, hcopies⟩ := loop.after hfirst
  have hbits : y.hbits = s.hbits := hcopies.hbits_eq
  have hrestart : { (y.retally y.hcount (tally y.hbits b)).advance with hcount := BitVec.ofNat 32 m, cpc := s.cpc } =
      y.retally (BitVec.ofNat 32 m) (tally y.hbits b) := congrArg (fun c => { y with
    hcount := BitVec.ofNat 32 m, hbits := tally y.hbits b, cpc := c }) hcopies.cpc_eq.symm
  rw [hrestart] at hu
  have hm : (y.retally (BitVec.ofNat 32 m) (tally y.hbits b)).hcount.toNat = m := toNat_ofNat_of_lt (by omega)
  have hwhole : symbolLoop check round whole.hcount.toNat whole =
      (symbolLoop check round m (y.retally (BitVec.ofNat 32 m) (tally y.hbits b))).map (retallied whole.hcount s.hbits b) :=
    calc symbolLoop check round whole.hcount.toNat whole
      _ = symbolLoop check round (n + m) whole := congrArg (symbolLoop check round · whole) (toNat_ofNat_of_lt hsum)
      _ = _ := (loop.symbolLoop_add { s with hcount := BitVec.ofNat 32 n } whole.hcount s.hbits n m).trans
        (congrArg (fun x => x.map (retallied whole.hcount s.hbits 0) >>= repeatRun round m) hfirst)
      _ = _ := loop.rest_eq hfirst _ _ _ _
  cases hsecond : symbolLoop check round m (y.retally (BitVec.ofNat 32 m) (tally y.hbits b)) with
  | error e =>
    rw [hsecond] at hwhole
    cases hu.symm.trans (loop.exec_of_error (by rw [hm]; exact hsecond))
    exact ⟨fun _ => loop.exec_of_error hwhole, nofun⟩
  | ok z =>
    obtain ⟨z, b'⟩ := z
    rw [hsecond] at hwhole
    obtain ⟨-, hcopies'⟩ := loop.after hsecond
    cases hu.symm.trans (loop.exec_of_ok (by rw [hm]; exact hsecond))
    refine ⟨fun h => (nomatch ((hcopies'.err_eq.trans hcopies.err_eq).trans herr).symm.trans h), fun _ => ?_⟩
    rw [loop.exec_of_ok hwhole]
    have htally := loop.tally_add s.hbits b b'
    have hbits' : z.hbits = tally s.hbits b := hcopies'.hbits_eq.trans (congrArg (tally · b) hbits)
    simp only [retallied, State.retally, State.advance, hbits, hbits', htally]

/-- R14: such a command on n + m symbols. -/
theorem SymbolLoop.splits {s t u : State} {n m : Nat} (hsum : n + m < 2 ^ 32) (herr : s.err = false)
    (ht : exec i { s with hcount := BitVec.ofNat 32 n } = .next t)
    (hu : exec i { t with hcount := BitVec.ofNat 32 m, cpc := s.cpc } = .next u) :
    let whole : State := { s with hcount := BitVec.ofNat 32 (n + m) }
    (t.err = true → exec i whole = .next (halted whole t.errCode (encode i) t.mem)) ∧
    (t.err = false → u.err = true → exec i whole = .next (halted whole u.errCode (encode i) u.mem)) ∧
    (t.err = false → u.err = false →
      exec i whole = .next { u with hcount := whole.hcount, hbits := if i = .henc then t.hbits + u.hbits else u.hbits }) := by
  intro whole
  have hn : (BitVec.ofNat 32 n).toNat = n := toNat_ofNat_of_lt (by omega)
  cases hfirst : symbolLoop check round n { s with hcount := BitVec.ofNat 32 n } with
  | error e =>
    have hwhole : symbolLoop check round whole.hcount.toNat whole = .error e :=
      calc symbolLoop check round whole.hcount.toNat whole
        _ = symbolLoop check round (n + m) whole := congrArg (symbolLoop check round · whole) (toNat_ofNat_of_lt hsum)
        _ = _ := (loop.symbolLoop_add { s with hcount := BitVec.ofNat 32 n } whole.hcount s.hbits n m).trans
          (congrArg (fun x => x.map (retallied whole.hcount s.hbits 0) >>= repeatRun round m) hfirst)
    cases ht.symm.trans (loop.exec_of_error (by rw [hn]; exact hfirst))
    exact ⟨fun _ => loop.exec_of_error hwhole, nofun, nofun⟩
  | ok x =>
    cases ht.symm.trans (loop.exec_of_ok (by rw [hn]; exact hfirst))
    have hsplit := loop.splits_of_ok hsum herr hfirst rfl hu
    exact ⟨fun h => (nomatch ((loop.after hfirst).2.err_eq.trans herr).symm.trans h), fun _ => hsplit.1, fun _ => hsplit.2⟩

end

/-! ## HENC and HDEC are such loops -/

/-- The checks before the loop: there is a tree, and the stream of bytes is at a whole byte. -/
def symbolCheck (bytes : State → Stream) (s : State) : Run Unit := needTree s >>= fun _ => needAligned (bytes s).bit s

theorem symbolCheck_ok {bytes : State → Stream} {s : State} :
    symbolCheck bytes s = .ok () ↔ s.hnleaf ≠ 0 ∧ (bytes s).bit = 0 := by
  simp only [symbolCheck, Run.bind_ok, needTree, refuseIf_ok, beq_eq_false_iff_ne, needAligned_ok, exists_and_left,
    exists_const]

theorem symbolCheck_of_copies {bytes : State → Stream} {s t : State} (h : CopiesOn s t) (hbit : (bytes t).bit = (bytes s).bit)
    (hs : symbolCheck bytes s = .ok ()) : symbolCheck bytes t = .ok () := by
  obtain ⟨hnleaf, hzero⟩ := symbolCheck_ok.mp hs
  obtain ⟨m, r, w, -, -, -, rfl⟩ := h
  exact symbolCheck_ok.mpr ⟨hnleaf, hbit.trans hzero⟩

theorem hencRound_copies {x y : State × Nat} (h : hencRound x = .ok y) : CopiesOn x.1 y.1 :=
  (hencRound_ends x (.refl x.1)).1 y h

theorem hencRound_rd_bit {x y : State × Nat} (h : hencRound x = .ok y) : y.1.rd.bit = x.1.rd.bit := by
  obtain ⟨⟨b, t⟩, hread, h⟩ := Run.bind_ok.mp h
  obtain ⟨-, -, -, rfl⟩ := rdByte_ok.mp hread
  dsimp only at h
  split at h
  · exact absurd h (raise_ne_ok _ _ _)
  · obtain ⟨u, hwrite, h⟩ := Run.bind_ok.mp h
    obtain ⟨m, w, -, -, rfl⟩ := (wrBits_ends _ _).1 u hwrite
    cases h
    rfl

/-- HENC is a loop over symbols; HBITS becomes the number of bits emitted. -/
theorem henc_symbolLoop : SymbolLoop .henc (symbolCheck State.rd) hencRound fun _ bits => BitVec.ofNat 32 bits where
  exec_eq s := by
    refine congrArg (fun body => runCommand .henc body s) (funext fun s => ?_)
    unfold henc symbolLoop symbolCheck
    cases needTree s with
    | error e => rfl
    | ok _ => cases needAligned s.rd.bit s <;> rfl
  check_eq _ _ _ := rfl
  check_round x y h := symbolCheck_of_copies (hencRound_copies h) (hencRound_rd_bit h)
  copies x y := hencRound_copies
  round_eq c h k x := hencRound_retally c h x k
  tally_add _ a b := BitVec.ofNat_add a b

/-- A round of HDEC, with the bits emitted, of which there are none. -/
def hdecRoundTallied (x : State × Nat) : Run (State × Nat) := (hdecRound x.1).map fun t => (t, x.2)

theorem repeatRun_hdecRoundTallied (n k : Nat) (s : State) :
    repeatRun hdecRoundTallied n (s, k) = (repeatRun hdecRound n s).map fun t => (t, k) := by
  induction n generalizing s with
  | zero => rfl
  | succ n ih =>
    rw [repeatRun_succ, repeatRun_succ]
    exact map_bind_eq (hdecRound s) ih

theorem hdecRoundTallied_ok {x y : State × Nat} (h : hdecRoundTallied x = .ok y) : hdecRound x.1 = .ok y.1 := by
  unfold hdecRoundTallied at h
  cases hround : hdecRound x.1 with
  | error e => rw [hround] at h; cases h
  | ok t => rw [hround] at h; cases h; rfl

theorem hdecRoundTallied_retallied (c h : Word) (k : Nat) (x : State × Nat) :
    hdecRoundTallied (retallied c h k x) = (hdecRoundTallied x).map (retallied c h k) := by
  unfold hdecRoundTallied
  refine (congrArg (Except.map _) (hdecRound_retally x.1 c h)).trans ?_
  cases hdecRound x.1 <;> rfl

theorem hdecRound_copies {s t : State} (h : hdecRound s = .ok t) : CopiesOn s t := (hdecRound_ends s (.refl s)).1 t h

theorem hdecRound_wr_bit {s t : State} (h : hdecRound s = .ok t) : t.wr.bit = s.wr.bit := by
  obtain ⟨⟨sym, u⟩, hdescend, hwrite⟩ := Run.bind_ok.mp h
  obtain ⟨r, -, rfl⟩ := (descend_ends _ _ (.refl s)).1 _ hdescend
  obtain ⟨-, -, rfl⟩ := wrByte_ok.mp hwrite
  rfl

/-- HDEC is a loop over symbols; HBITS stays. -/
theorem hdec_symbolLoop : SymbolLoop .hdec (symbolCheck State.wr) hdecRoundTallied fun hbits _ => hbits where
  exec_eq s := by
    refine congrArg (fun body => runCommand .hdec body s) (funext fun s => ?_)
    unfold hdec symbolLoop symbolCheck
    simp only [repeatRun_hdecRoundTallied]
    cases needTree s with
    | error e => rfl
    | ok _ =>
      cases needAligned s.wr.bit s with
      | error e => rfl
      | ok _ =>
        change repeatRun hdecRound s.hcount.toNat s = ((repeatRun hdecRound s.hcount.toNat s).map fun t => (t, 0)) >>= _
        cases repeatRun hdecRound s.hcount.toNat s <;> rfl
  check_eq _ _ _ := rfl
  check_round x y h := symbolCheck_of_copies (hdecRound_copies (hdecRoundTallied_ok h)) (hdecRound_wr_bit (hdecRoundTallied_ok h))
  copies x y h := hdecRound_copies (hdecRoundTallied_ok h)
  round_eq := hdecRoundTallied_retallied
  tally_add _ _ _ := rfl

/-- Settles O52: HENC and HDEC are loops over symbols, whose rounds do not depend on HCOUNT, on HBITS, or on the bits emitted
before. -/
theorem huffmanCommandsSplit : Obligations.HuffmanCommandsSplit := by
  intro i s t u n m hi hsum herr ht hu
  obtain rfl | rfl := hi
  · exact henc_symbolLoop.splits hsum herr ht hu
  · exact hdec_symbolLoop.splits hsum herr ht hu

end Sys2Proof.Machine
end

