-- ==== Sys2Proof/Proofs/HuffmanRoundTrip.lean ====
section
/-!
PROOF. The round trip of the Huffman commands (45_huffman.md R412): what HENC wrote, HDEC decodes back. Settles O53.
-/

namespace Sys2Proof.Machine

open Sys2Proof.Claims

/-! ## Where HENC completes, it has encoded -/

theorem exec_ne_halted {i : Instr} {s t : State} (h : exec i s = .next t) (herr : t.err = false) (code : Byte) (w : Word)
    (m : Memory) : exec i s ≠ .next (halted s code w m) := fun hhalt => by
  cases h.symm.trans hhalt
  cases herr

section
variable {s t : State} (hwf : s.mem.wf) (htree : s.TreeOk) (hexec : exec .henc s = .next t) (herr : t.err = false)
  (hdisjoint : s.rd.ptr.toNat + s.hcount.toNat ≤ s.wr.ptr.toNat ∨ s.wr.ptr.toNat + room s.wr s.lmemSize ≤ s.rd.ptr.toNat)
include hwf htree hexec herr

theorem checks_of_henc : s.hnleaf ≠ 0 ∧ s.rd.bit = 0 := by
  obtain ⟨hnotree, halign, -⟩ := huffmanEncode s hwf htree
  have hnleaf : s.hnleaf ≠ 0 := fun h => exec_ne_halted hexec herr _ _ _ (hnotree h)
  exact ⟨hnleaf, by_contra fun h => exec_ne_halted hexec herr _ _ _ (halign hnleaf h)⟩

include hdisjoint

/-- Where HENC completes, one more symbol can be read, has a code, and the code fits. -/
theorem Encodes.extend {syms : List Byte} {codes : List (List Bool)} (h : Encodes s syms codes)
    (hlt : syms.length < s.hcount.toNat) : ∃ sym code, Encodes s (syms ++ [sym]) (codes ++ [code]) := by
  obtain ⟨hnleaf, hbit⟩ := checks_of_henc hwf htree hexec herr
  obtain ⟨hcodes, hholds, hread, hwrite⟩ := h
  obtain ⟨-, hend, hnone, hfull⟩ :=
    (huffmanEncode s hwf htree).2.2 syms codes hnleaf hbit (.inr hdisjoint) hread hholds hcodes hwrite
  have hroom : syms.length < room s.rd s.lmemSize := by
    refine hread.lt_of_ne fun heq => ?_
    obtain ⟨m, hhalt, -⟩ := hend hlt heq
    exact exec_ne_halted hexec herr _ _ _ hhalt
  obtain ⟨code, hcode⟩ : ∃ code, IsCode s (s.mem.byteAt (s.rd.ptr.toNat + syms.length)) code := by
    by_contra hno
    obtain ⟨m, hhalt, -⟩ := hnone hlt hroom hno
    exact exec_ne_halted hexec herr _ _ _ hhalt
  have hfits : codes.flatten.length + code.length ≤ bitRoom s.wr s.lmemSize := by
    refine Nat.le_of_not_lt fun hover => ?_
    obtain ⟨m, hhalt, -⟩ := hfull code hlt hroom hcode hover
    exact exec_ne_halted hexec herr _ _ _ hhalt
  refine ⟨_, code, List.rel_append hcodes (.cons hcode .nil), holds_append.mpr ⟨hholds, ?_⟩, ?_, ?_⟩
  · exact holds_cons.mpr ⟨rfl, nofun⟩
  · rw [List.length_append]
    exact hroom
  · rw [List.flatten_append, List.length_append, List.flatten_singleton]
    exact hfits

theorem encodes_of_henc {n : Nat} (hn : n ≤ s.hcount.toNat) : ∃ syms codes, syms.length = n ∧ Encodes s syms codes := by
  induction n with
  | zero => exact ⟨[], [], rfl, .nil, nofun, Nat.zero_le _, Nat.zero_le _⟩
  | succ n ih =>
    obtain ⟨syms, codes, rfl, h⟩ := ih (Nat.le_of_succ_le hn)
    obtain ⟨sym, code, h'⟩ := h.extend hwf htree hexec herr hdisjoint hn
    exact ⟨_, _, List.length_append, h'⟩

end

/-! ## The bits that HENC wrote, as HDEC's read stream -/

/-- A write stream's bits fit into the stream that reads them, whose limit is past the last of them. -/
theorem le_bitRoom_of_le_lim {st : Stream} {size n : Nat} {lim : Word} (h : n ≤ bitRoom st size)
    (hlim : (bitsOn st n).ptr.toNat + ((bitsOn st n).bit.toNat + 7) / 8 ≤ lim.toNat) :
    n ≤ bitRoom { st with lim := lim } size := by
  rw [toNat_bitsOn_ptr h, toNat_bitsOn_bit] at hlim
  have hbit := st.bit.isLt
  unfold bitRoom room at h ⊢
  dsimp only
  omega

/-- The bits that HENC wrote are the codes of its symbols, to be read where it began to write. -/
theorem Encodes.decodes {s t : State} {syms : List Byte} {codes : List (List Bool)} (h : Encodes s syms codes)
    (hnode : t.hnode = s.hnode) (hroot : t.hroot = s.hroot) (hsize : t.lmemSize = s.lmemSize)
    (hrd : t.rd.ptr = s.wr.ptr ∧ t.rd.bit = s.wr.bit)
    (hput : BitsPut (bitPos s.wr) s.mem t.mem codes.flatten)
    (hread : codes.flatten.length ≤ bitRoom t.rd s.lmemSize)
    (hwrite : syms.length ≤ room t.wr s.lmemSize) : Decodes t syms codes where
  areCodes := h.areCodes.imp fun _ _ => (isCode_iff_of_sameTree s t hnode hroot).mpr
  holds j hj := by
    rw [bitPos, hrd.1, hrd.2]
    exact hput.bit_eq hj
  readable := hsize ▸ hread
  writable := hsize ▸ hwrite

/-- Settles O53: HENC has written the codes of its symbols, which are what HDEC reads. -/
theorem huffmanRoundTrip : Obligations.HuffmanRoundTrip := by
  intro s t lim w hwf htree hexec herr hdisjoint hlim hw hroom hfar
  obtain ⟨hnleaf, hbit⟩ := checks_of_henc hwf htree hexec herr
  obtain ⟨syms, codes, hlen, h⟩ := encodes_of_henc hwf htree hexec herr hdisjoint le_rfl
  have hapart : ReadsApart s s.hcount.toNat := fun j hj hlt => by
    unfold OutOfReach
    omega
  obtain ⟨m, hm, hput, hexec'⟩ := exec_henc_completes hwf htree hnleaf hbit h hapart hlen
  cases hexec.symm.trans hexec'
  have hdecodes := h.decodes (t := { s with
      mem := m, rd := ⟨s.wr.ptr, lim, s.wr.bit⟩, wr := w,
      hbits := BitVec.ofNat 32 codes.flatten.length, cpc := s.cpc + 4 }) rfl rfl rfl ⟨rfl, rfl⟩ hput
    (le_bitRoom_of_le_lim h.writable hlim) (hlen ▸ hroom)
  refine ⟨_, exec_hdec_completes hm hnleaf hw hdecodes ?_ hlen, herr, fun k hk => ?_⟩
  · refine .inr fun i hi => ?_
    have hptr := toNat_bitsOn_ptr h.writable
    have hbit := s.wr.bit.isLt
    unfold bitPos
    dsimp only at hfar ⊢
    omega
  · rw [← hlen] at hk
    exact ((stored_writeBytes hm w.ptr.toNat syms).1 k hk).trans (h.holds k hk).symm

end Sys2Proof.Machine
end

