-- ==== Sys2Proof/Proofs/Sequencer.lean ====
section
/-!
PROOF. The step that runs a fetched command (46_sequencer.md R459), and the sequencer commands (R450-R458). Settles O5, O20, O21
and O22.
-/

namespace Sys2Proof.Machine

open Sys2Proof.Claims

/-! ## The step of a fetched command (R459) -/

/-- R505: at a quiet boundary the engine steps, with the boundary taken off the queue. -/
theorem step_of_quiet {s : State} {rest : List HostEvent} (hq : s.hostQueue = .quiet :: rest) :
    step s = engineStep { s with hostQueue := rest } := by
  unfold step
  rw [hq]

/-- R106, R459: the engine runs the command whose word it fetches at a legal CPC. -/
theorem engineStep_eq_exec {s : State} {w : Word} {i : Instr} (hbusy : s.busy = true) (h4 : s.cpc.toNat % 4 = 0)
    (hsize : s.cpc.toNat + 4 ≤ s.lmemSize) (hw : WordAt s.mem s.cpc.toNat w) (hi : decode w = .ok i) :
    engineStep s = exec i s :=
  engineStep_of_decode_ok hbusy (fetchBytes_of_wordAt h4 hsize hw) hi

/-- Settles O5: with no host event, and at a quiet boundary, the step is the engine's, which fetches and runs the command. The
queue is no part of what is fetched. -/
theorem stepExecutesTheDecodedCommand : Obligations.StepExecutesTheDecodedCommand := by
  intro s w i hw hi
  refine ⟨fun ⟨hbusy, hq, h4, hsize⟩ => ?_, fun rest hq ⟨hbusy, _, h4, hsize⟩ => ?_⟩
  · rw [step_of_noEvent hq]
    exact engineStep_eq_exec hbusy h4 hsize hw hi
  · rw [step_of_quiet hq]
    exact engineStep_eq_exec (s := { s with hostQueue := rest }) hbusy h4 hsize hw hi

/-! ## NOP, HALT, IRQ and the jumps (R450-R456) -/

/-- Settles O20: each of the three is one update of the state, with DONE bit 0 and SW bit 2 of IRQ_STATUS (R41). -/
theorem nopHaltIrqResults : Obligations.NopHaltIrqResults := fun _ => ⟨rfl, rfl, rfl⟩

/-- R153, R454: the target of a jump is 4 times the 24-bit operand, which 32 bits hold. -/
theorem jumpTarget_eq (t : BitVec 24) : jumpTarget t = BitVec.ofNat 32 (t.toNat * 4) := by
  unfold jumpTarget
  bv_omega

theorem exec_jmp (t : BitVec 24) (s : State) : exec (.jmp t) s = .next (s.jumpTo (jumpTarget t)) := rfl

/-- R455: the new LC is 0 exactly where the old one was 1. -/
theorem exec_djnz (t : BitVec 24) (s : State) :
    exec (.djnz t) s = .next { s with lc := s.lc - 1, cpc := if s.lc = 1 then s.cpc + 4 else jumpTarget t } := by
  have hzero : s.lc - 1 = 0 ↔ s.lc = 1 := sub_eq_zero
  by_cases hlc : s.lc = 1
  · rw [if_pos hlc]
    exact if_neg (not_not.mpr (hzero.mpr hlc))
  · rw [if_neg hlc]
    exact if_pos (mt hzero.mp hlc)

theorem exec_bnend (t : BitVec 24) (s : State) :
    exec (.bnend t) s = .next { s with cpc := if s.bend then s.cpc + 4 else jumpTarget t } := by
  cases hbend : s.bend with
  | true => exact if_pos hbend
  | false => exact if_neg (ne_true_of_eq_false hbend)

/-- Settles O21: the three jumps, with the target written out. -/
theorem jumpResults : Obligations.JumpResults := by
  intro s t
  dsimp only
  rw [← jumpTarget_eq]
  exact ⟨exec_jmp t s, exec_djnz t s, exec_bnend t s⟩

/-! ## SETL and SETH (R457, R458) -/

/-- R32's `cmd` rows, as the model's register map has them: the number names the register, which the host may write too. -/
theorem regRows_cmd : ∀ row ∈ regRows, row.cmd = true →
    Reg.cmd? (BitVec.ofNat 8 row.num) = some row.reg ∧ row.reg.access = .rw ∧ row.reg ≠ .cpc := by
  decide

/-- Every `cmd` register of the model's map has its row in R32. -/
theorem exists_cmd_row : ∀ reg ∈ Reg.all, reg.isCmd = true → ∃ row ∈ regRows, row.cmd = true ∧ row.num = reg.num := by
  decide

/-- A number that no `cmd` row has names no `cmd` register. -/
theorem cmd?_eq_none {r : BitVec 8} (h : ∀ row ∈ regRows, row.cmd = true → row.num ≠ r.toNat) : Reg.cmd? r = none := by
  refine Option.eq_none_iff_forall_ne_some.mpr fun reg hreg => ?_
  obtain ⟨hnum, hcmd⟩ := Option.filter_eq_some_iff.mp hreg
  obtain ⟨row, hrow, hrowCmd, hrowNum⟩ := exists_cmd_row reg (List.mem_of_find?_eq_some hnum) hcmd
  have hnumEq : reg.num = r.toNat := by simpa using List.find?_some hnum
  exact h row hrow hrowCmd (hrowNum.trans hnumEq)

theorem exec_setl_of_cmd {r : BitVec 8} {reg : Reg} (h : Reg.cmd? r = some reg) (imm16 : BitVec 16) (s : State) :
    exec (.setl r imm16) s = .next (s.storeReg reg (imm16.setWidth 32)).advance :=
  runCommand_of_ok (body := setLow r imm16) (Run.bind_ok.mpr ⟨reg, cmdReg_ok.mpr h, rfl⟩)

/-- R458: the two halves side by side are imm16 · 2^16 plus the old lower half. -/
theorem append_lowHalf (imm16 : BitVec 16) (old : Word) :
    imm16 ++ Word.field old 0 16 = BitVec.ofNat 32 (imm16.toNat * 2 ^ 16 + old.toNat % 2 ^ 16) := by
  apply BitVec.eq_of_toNat_eq
  have himm : imm16.toNat < 2 ^ 16 := imm16.isLt
  have hlow : (Word.field old 0 16).toNat = old.toNat % 2 ^ 16 := by simp [toNat_field]
  rw [BitVec.toNat_append, ← Nat.shiftLeft_add_eq_or_of_lt (BitVec.isLt _), Nat.shiftLeft_eq, hlow, BitVec.toNat_ofNat]
  omega

theorem exec_seth_of_cmd {r : BitVec 8} {reg : Reg} (h : Reg.cmd? r = some reg) (imm16 : BitVec 16) (s : State) :
    exec (.seth r imm16) s =
      .next (s.storeReg reg (BitVec.ofNat 32 (imm16.toNat * 2 ^ 16 + (s.readReg reg).toNat % 2 ^ 16))).advance := by
  rw [← append_lowHalf]
  exact runCommand_of_ok (body := setHigh r imm16) (Run.bind_ok.mpr ⟨reg, cmdReg_ok.mpr h, rfl⟩)

/-- R37: completing a command changes CPC alone. -/
theorem readReg_advance_of_ne (s : State) {r : Reg} (h : r ≠ .cpc) : s.advance.readReg r = s.readReg r := by
  cases r with
  | cpc => exact absurd rfl h
  | _ => rfl

/-- A command that stores `v` in a RW register other than CPC and completes: CPC moves on, the register holds the masked value,
and everything else is as it was. -/
theorem storeReg_advance_frame (s : State) {reg : Reg} (hrw : reg.access = .rw) (hcpc : reg ≠ .cpc) (v : Word) :
    (s.storeReg reg v).advance.readReg .cpc = s.cpc + 4 ∧
      (s.storeReg reg v).advance.readReg reg = v &&& reg.mask ∧
      (∀ r, r ≠ reg → r ≠ .cpc → (s.storeReg reg v).advance.readReg r = s.readReg r) ∧
      SameBeyondRegisters s (s.storeReg reg v).advance ∧ (s.storeReg reg v).advance.hostQueue = s.hostQueue := by
  refine ⟨?_, ?_, fun r hne hr => ?_, storeReg_sameBeyondRegisters s reg v, storeReg_hostQueue s reg v⟩
  · exact congrArg (· + 4) (readReg_storeReg_of_ne s hcpc.symm v)
  · rw [readReg_advance_of_ne _ hcpc, readReg_storeReg_same s hrw]
  · rw [readReg_advance_of_ne _ hr, readReg_storeReg_of_ne s hne]

/-- Settles O22: on a `cmd` row each of the two is one register store; on any other number the command is ill formed, and
halts. -/
theorem setRegisterHalves : Obligations.SetRegisterHalves := by
  refine ⟨fun s row imm hrow hcmd => ?_, fun s r imm hnone => ?_⟩
  · obtain ⟨hreg, hrw, hcpc⟩ := regRows_cmd row hrow hcmd
    obtain ⟨-, hmask, -⟩ := regRows_sound row hrow
    rw [hmask]
    exact ⟨⟨_, exec_setl_of_cmd hreg imm s, storeReg_advance_frame s hrw hcpc _⟩,
      ⟨_, exec_seth_of_cmd hreg imm s, storeReg_advance_frame s hrw hcpc _⟩⟩
  · have hill : (Reg.cmd? r).isSome = false := by rw [cmd?_eq_none hnone]; rfl
    exact ⟨exec_of_not_wellFormed (i := .setl r imm) hill s, exec_of_not_wellFormed (i := .seth r imm) hill s⟩

end Sys2Proof.Machine
end

