-- ==== Sys2Proof/Proofs/ErrorCodes.lean ====
section
/-!
PROOF. Which error codes a command can raise (60_exceptions.md R501): `RaisesOnly`, with a rule for each way to put parts of a
command together, the codes of each shared operation, and those of each command. Settles O7 and O9.
-/

namespace Sys2Proof.Machine

open Sys2Proof.Claims

/-! ## Every step answers (R500) -/

theorem runCommand_answers (i : Instr) (body : State → Run State) (s : State) : ∃ t, runCommand i body s = .next t := by
  cases h : body s with
  | ok u => exact ⟨_, runCommand_of_ok h⟩
  | error e => exact ⟨_, runCommand_of_error h⟩

/-- A command that makes no check is one update of the state; every other is its body, run by `runCommand`. -/
theorem exec_answers (i : Instr) (s : State) : ∃ t, exec i s = .next t := by
  cases i with
  | djnz t => exact ⟨_, exec_djnz t s⟩
  | bnend t => exact ⟨_, exec_bnend t s⟩
  | nop | halt | irq | jmp | brst | fdct | idct | var | ialn | waln | raln | hclr => exact ⟨_, rfl⟩
  | hbuild => exact runCommand_answers .hbuild hbuild s
  | _ => exact runCommand_answers _ _ s

theorem engineStep_answers (s : State) : ∃ t, engineStep s = .next t := by
  unfold engineStep
  split
  · split
    · exact ⟨_, rfl⟩
    · split
      · exact ⟨_, rfl⟩
      · exact exec_answers _ s
  · exact ⟨_, rfl⟩

/-- Settles O7: a host event has its one next state, and an engine step has that of its command or of its error halt. -/
theorem everyStepHasANextState : Obligations.EveryStepHasANextState := by
  intro s
  unfold step
  split
  · exact engineStep_answers s
  · exact engineStep_answers _
  · exact ⟨_, rfl⟩

/-! ## Codes of the parts of a command -/

/-- `x` raises no error but those with one of these codes. -/
def RaisesOnly {α : Type} (codes : List Byte) (x : Run α) : Prop := ∀ e, x = .error e → e.code.code ∈ codes

section
variable {α β : Type} {codes : List Byte}

theorem code_mem_of_eq {e : Abort} {c : ErrCode} {m : Memory} (hc : c.code ∈ codes) (he : e = ⟨c, m⟩) :
    e.code.code ∈ codes := by
  rw [he]
  exact hc

theorem RaisesOnly.pure (a : α) : RaisesOnly codes (Pure.pure a) := fun _ he => nomatch he

theorem RaisesOnly.raise {c : ErrCode} {s : State} (hc : c.code ∈ codes) : RaisesOnly codes (Machine.raise c s : Run α) :=
  fun _ he => code_mem_of_eq hc (raise_error.mp he)

theorem RaisesOnly.mono {few : List Byte} {x : Run α} (hx : RaisesOnly few x) (h : few ⊆ codes := by decide) :
    RaisesOnly codes x := fun e he => h (hx e he)

/-- A part and then the rest: the codes of the part are among those of the whole. -/
theorem RaisesOnly.bind {few : List Byte} {x : Run α} {f : α → Run β} (hx : RaisesOnly few x)
    (hf : ∀ a, RaisesOnly codes (f a)) (h : few ⊆ codes := by decide) : RaisesOnly codes (x >>= f) := by
  intro e he
  obtain hx' | ⟨a, -, hf'⟩ := Run.bind_error.mp he
  · exact h (hx e hx')
  · exact hf a e hf'

theorem RaisesOnly.repeatRun {f : α → Run α} (hf : ∀ x, RaisesOnly codes (f x)) (n : Nat) (x : α) :
    RaisesOnly codes (Machine.repeatRun f n x) :=
  (repeatRun_induct (P := fun _ => True) (E := fun e => e.code.code ∈ codes) (fun _ _ _ _ => trivial) (fun x e _ => hf x e) n
    trivial).2

theorem RaisesOnly.foldlM {ι : Type} {f : α → ι → Run α} (hf : ∀ x i, RaisesOnly codes (f x i)) (l : List ι) (x : α) :
    RaisesOnly codes (l.foldlM f x) :=
  (foldlRun_induct (P := fun _ => True) (E := fun e => e.code.code ∈ codes) (fun _ _ _ _ _ => trivial)
    (fun x i e _ => hf x i e) l trivial).2

end

section
variable (s : State)

theorem refuseIf_codes (c : ErrCode) (bad : Bool) : RaisesOnly [c.code] (refuseIf bad c s) :=
  fun _ he => code_mem_of_eq (List.mem_singleton_self _) (refuseIf_error.mp he).2

theorem needAligned_codes (bit : BitVec 3) : RaisesOnly [0x50] (needAligned bit s) := refuseIf_codes s .streamAlign _

theorem needTree_codes : RaisesOnly [0x60] (needTree s) := refuseIf_codes s .hufNotree _

theorem rdByte_codes (c : ErrCode) : RaisesOnly [c.code, 0x52] (rdByte c s) := fun _ he =>
  (rdByte_error he).elim (code_mem_of_eq (by simp)) (code_mem_of_eq (by simp [ErrCode.code]))

theorem wrByte_codes (v : Byte) : RaisesOnly [0x51, 0x52] (wrByte v s) := fun _ he =>
  (wrByte_error he).elim (code_mem_of_eq (by decide)) (code_mem_of_eq (by decide))

theorem wrBytes_codes (vs : List Byte) : RaisesOnly [0x51, 0x52] (wrBytes vs s) :=
  .foldlM (fun x v => wrByte_codes x v) vs s

theorem wrBit_codes (b : Bool) : RaisesOnly [0x51, 0x52] (wrBit b s) := fun _ he =>
  (wrBit_error he).elim (code_mem_of_eq (by decide)) (code_mem_of_eq (by decide))

theorem wrBits_codes (bs : List Bool) : RaisesOnly [0x51, 0x52] (wrBits bs s) := .foldlM (fun x b => wrBit_codes x b) bs s

theorem rdBit_codes : RaisesOnly [0x42, 0x52] (rdBit s) := fun _ he =>
  (rdBit_error he).elim (code_mem_of_eq (by decide)) (code_mem_of_eq (by decide))

theorem plane_codes (p : Slot) : RaisesOnly [0x20, 0x21] (plane p s) := fun _ he =>
  (plane_error he).elim (fun h => code_mem_of_eq (by decide) h.1) fun h => code_mem_of_eq (by decide) h.1

theorem raster_codes (W H : Nat) : RaisesOnly [0x21] (raster W H s) := fun _ he =>
  code_mem_of_eq (by decide) (raster_error he)

theorem cursor_codes (p : Slot) : RaisesOnly [0x20, 0x21, 0x23] (cursor p s) := fun e he => by
  obtain ⟨-, hc | hc | hc⟩ := cursor_error he <;> rw [hc] <;> decide

theorem table_codes (t : QTable) : RaisesOnly [0x13] (table t s) := fun _ he =>
  code_mem_of_eq (by decide) (table_error he)

theorem candidates_codes : RaisesOnly [0x11, 0x12] (candidates s) := fun _ he =>
  (candidates_error he).elim (code_mem_of_eq (by decide)) (code_mem_of_eq (by decide))

theorem legalQuality_codes (q : Byte) : RaisesOnly [0x10] (legalQuality q s) := fun _ he =>
  code_mem_of_eq (by decide) (legalQuality_error he)

theorem cmdReg_codes (r : BitVec 8) : RaisesOnly [0x03] (cmdReg r s) := by
  unfold cmdReg
  split
  · exact .pure _
  · exact .raise (by decide)

/-! ## Codes of the commands (R501) -/

theorem setLow_codes (r : BitVec 8) (imm16 : BitVec 16) : RaisesOnly [0x03] (setLow r imm16 s) :=
  (cmdReg_codes s r).bind fun _ => .pure _

theorem setHigh_codes (r : BitVec 8) (imm16 : BitVec 16) : RaisesOnly [0x03] (setHigh r imm16 s) :=
  (cmdReg_codes s r).bind fun _ => .pure _

/-- R202: the plane commands check planes, their sizes, the raster and last the overlaps. -/
theorem cscf_codes (a b c : Slot) : RaisesOnly [0x20, 0x21, 0x22] (cscf a b c s) :=
  (plane_codes s a).bind fun _ => (plane_codes s b).bind fun _ => (plane_codes s c).bind fun _ =>
    (refuseIf_codes s .inputDim _).bind fun _ => (raster_codes s _ _).bind fun _ => (refuseIf_codes s .inputOverlap _).bind
      fun _ => .pure _

theorem csci_codes (a b c : Slot) : RaisesOnly [0x20, 0x21, 0x22] (csci a b c s) :=
  (plane_codes s a).bind fun _ => (plane_codes s b).bind fun _ => (plane_codes s c).bind fun _ =>
    (refuseIf_codes s .inputDim _).bind fun _ => (raster_codes s _ _).bind fun _ => (refuseIf_codes s .inputOverlap _).bind
      fun _ => .pure _

theorem csub_codes (a b : Slot) : RaisesOnly [0x20, 0x21, 0x22] (csub a b s) :=
  (plane_codes s a).bind fun _ => (plane_codes s b).bind fun _ => (refuseIf_codes s .inputDim _).bind fun _ =>
    (refuseIf_codes s .inputOverlap _).bind fun _ => .pure _

theorem cups_codes (a b : Slot) : RaisesOnly [0x20, 0x21, 0x22] (cups a b s) :=
  (plane_codes s a).bind fun _ => (plane_codes s b).bind fun _ => (refuseIf_codes s .inputDim _).bind fun _ =>
    (refuseIf_codes s .inputOverlap _).bind fun _ => .pure _

theorem pad_codes (a : Slot) (md : PadMode) : RaisesOnly [0x20, 0x21] (pad a md s) := (plane_codes s a).bind fun _ => .pure _

theorem ldb_codes (a : Slot) : RaisesOnly [0x20, 0x21, 0x23] (ldb a s) := (cursor_codes s a).bind fun _ => .pure _

theorem stb_codes (a : Slot) : RaisesOnly [0x20, 0x21, 0x23] (stb a s) := (cursor_codes s a).bind fun _ => .pure _

theorem bnxt_codes (a : Slot) : RaisesOnly [0x20, 0x21, 0x23] (bnxt a s) := (cursor_codes s a).bind fun _ => .pure _

theorem qnt_codes (t : QTable) (md : QMode) : RaisesOnly (raisedBy (.qnt t md)) (qnt t md s) :=
  match md with
  | .fixed => show RaisesOnly [0x13, 0x10] _ from (table_codes s t).bind fun _ => (legalQuality_codes s _).bind fun _ => .pure _
  | .cont => show RaisesOnly [0x13] _ from (table_codes s t).bind fun _ => .pure _
  | .idx => show RaisesOnly [0x13, 0x11, 0x12] _ from (table_codes s t).bind fun _ => (candidates_codes s).bind fun _ => .pure _

theorem dqnt_codes (t : QTable) (md : QMode) : RaisesOnly (raisedBy (.dqnt t md)) (dqnt t md s) :=
  match md with
  | .fixed | .cont => show RaisesOnly [0x13, 0x10] _ from
    (table_codes s t).bind fun _ => (legalQuality_codes s _).bind fun _ => .pure _
  | .idx => show RaisesOnly [0x13, 0x11, 0x12, 0x44] _ from
    (table_codes s t).bind fun _ => (candidates_codes s).bind fun _ => (refuseIf_codes s .decodeIdx _).bind fun _ => .pure _

theorem serd_codes : RaisesOnly [0x50, 0x51, 0x52] (serd s) :=
  (needAligned_codes s _).bind fun _ => (wrBytes_codes s _).mono

theorem sers_codes : RaisesOnly [0x50, 0x51, 0x52] (sers s) :=
  (needAligned_codes s _).bind fun _ => (wrBytes_codes s _).bind fun _ => .pure _

theorem putq_codes : RaisesOnly [0x50, 0x51, 0x52] (putq s) :=
  (needAligned_codes s _).bind fun _ => (wrByte_codes s _).mono

theorem dserdRound_codes (k : Fin 64) : RaisesOnly [0x30, 0x52] (dserdRound s k) :=
  (rdByte_codes s .formatShort).bind fun _ => .pure _

theorem dserd_codes : RaisesOnly [0x50, 0x30, 0x52] (dserd s) :=
  (needAligned_codes s _).bind fun _ => (RaisesOnly.foldlM dserdRound_codes _ s).mono

theorem rdEscape_codes : RaisesOnly [0x41, 0x52] (rdEscape s) :=
  (rdByte_codes _ .decodeEsc).bind fun _ => (rdByte_codes _ .decodeEsc).bind fun _ => (rdByte_codes _ .decodeEsc).bind fun _ =>
    (rdByte_codes _ .decodeEsc).bind fun _ => .pure _

theorem dsersRound_codes (x : SparseIn) (k : Fin 64) : RaisesOnly [0x30, 0x41, 0x52] (dsersRound x k) := by
  refine (rdByte_codes _ .formatShort).bind fun y => ?_
  dsimp only
  split
  · exact (rdEscape_codes _).bind fun _ => .pure _
  · exact .pure _

theorem dsers_codes : RaisesOnly [0x50, 0x30, 0x40, 0x41, 0x52] (dsers s) :=
  (needAligned_codes s _).bind fun _ => (rdByte_codes _ .formatShort).bind fun _ => (refuseIf_codes _ .decodeCount _).bind
    fun _ => (RaisesOnly.foldlM dsersRound_codes _ _).bind fun _ => .pure _

theorem getq_codes : RaisesOnly [0x50, 0x30, 0x52, 0x43] (getq s) :=
  (needAligned_codes s _).bind fun _ => (rdByte_codes _ .formatShort).bind fun _ => (refuseIf_codes _ .decodeQeff _).bind
    fun _ => .pure _

theorem putidx_codes : RaisesOnly [0x50, 0x51, 0x52] (putidx s) := fun e he => by
  obtain ⟨-, hc | hc | hc⟩ := ixWrite2_error he <;> rw [hc] <;> decide

theorem ixRead2_codes : RaisesOnly [0x50, 0x30, 0x52] (ixRead2 s) := fun e he => by
  obtain ⟨-, hc | hc | hc⟩ := ixRead2_error he <;> rw [hc] <;> decide

theorem getidx_codes : RaisesOnly [0x50, 0x30, 0x52] (getidx s) := (ixRead2_codes s).bind fun _ => .pure _

theorem hfreqRound_codes : RaisesOnly [0x30, 0x52, 0x62] (hfreqRound s) :=
  (rdByte_codes _ .formatShort).bind fun _ => (refuseIf_codes _ .hufFreq _).bind fun _ => .pure _

theorem hfreqCmd_codes : RaisesOnly [0x50, 0x30, 0x52, 0x62] (hfreqCmd s) :=
  (needAligned_codes s _).bind fun _ => (RaisesOnly.repeatRun hfreqRound_codes _ s).mono

theorem hbuild_codes : RaisesOnly [0x62] (hbuild s) := (refuseIf_codes s .hufFreq _).bind fun _ => .pure _

theorem hencRound_codes (x : State × Nat) : RaisesOnly [0x30, 0x52, 0x61, 0x51] (hencRound x) := by
  refine (rdByte_codes _ .formatShort).bind fun y => ?_
  dsimp only
  split
  · exact .raise (by decide)
  · exact (wrBits_codes _ _).bind fun _ => .pure _

theorem henc_codes : RaisesOnly [0x60, 0x50, 0x30, 0x52, 0x61, 0x51] (henc s) :=
  (needTree_codes s).bind fun _ => (needAligned_codes s _).bind fun _ => (RaisesOnly.repeatRun hencRound_codes _ _).bind
    fun _ => .pure _

theorem descend_codes (bound i : Nat) : RaisesOnly [0x42, 0x52] (descend bound i s) := by
  induction bound generalizing i s with
  | zero => exact .raise (by decide)
  | succ bound ih =>
    cases hleaf : (nodeAt s i).leaf with
    | true => rw [descend_leaf hleaf]; exact .pure _
    | false => rw [descend_inner hleaf]; exact (rdBit_codes s).bind fun x => ih x.2 _

theorem hdecRound_codes : RaisesOnly [0x42, 0x52, 0x51] (hdecRound s) :=
  (descend_codes s _ _).bind fun _ => (wrByte_codes _ _).mono

theorem hdec_codes : RaisesOnly [0x60, 0x50, 0x42, 0x52, 0x51] (hdec s) :=
  (needTree_codes s).bind fun _ => (needAligned_codes s _).bind fun _ => (RaisesOnly.repeatRun hdecRound_codes _ s).mono

end

/-! ## A command that fails -/

/-- No completed command touches STATUS.ERR (R39). -/
theorem Effect.err_eq {s u : State} {i : Instr} (h : Effect s i u) : u.err = s.err := by
  cases h with
  | setl _ _ reg v | seth _ _ reg v =>
    obtain ⟨-, herr, -⟩ := storeReg_readOnly s reg v
    exact herr
  | _ => rfl

theorem CompletesIn.err_eq {s t : State} {i : Instr} (h : CompletesIn s i t) : t.err = s.err := by
  obtain ⟨u, pc, hu, rfl⟩ := h
  exact hu.err_eq

section
variable {s t : State} {i : Instr} {body : State → Run State}

/-- A command that fails ends in an error halt. -/
theorem haltsIn_of_failed (herr : s.err = false) (h : exec i s = .next t) (hfail : t.err = true) : HaltsIn s i t :=
  (exec_cases i h).resolve_right fun hdone => nomatch (hdone.err_eq.trans herr).symm.trans hfail

/-- A command that fails does so by an error of its body. -/
theorem runCommand_failed {E : Memory → Prop} (hbody : Ends (body s) (Effect s i) E) (herr : s.err = false)
    (h : runCommand i body s = .next t) (hfail : t.err = true) :
    ∃ e, body s = .error e ∧ t = s.errorHalt e.code e.mem (encode i) := by
  obtain ⟨u, hu, rfl⟩ | hhalt := runCommand_next h
  · exact nomatch ((hbody.1 u hu).err_eq.trans herr).symm.trans hfail
  · exact hhalt

theorem runCommand_codes {E : Memory → Prop} {codes : List Byte} (hcodes : RaisesOnly codes (body s))
    (hbody : Ends (body s) (Effect s i) E) (herr : s.err = false) (h : runCommand i body s = .next t) (hfail : t.err = true) :
    t.errCode ∈ codes := by
  obtain ⟨e, he, rfl⟩ := runCommand_failed hbody herr h hfail
  exact hcodes e he

/-- A command whose one next state has ERR 0 does not fail. -/
theorem not_failed {u : State} (h : Host.Outcome.next u = (.next t : StepResult)) (herr : u.err = false) : ¬ t.err = true := by
  cases h
  exact ne_true_of_eq_false herr

end

/-- Settles O9: a failing command fails by an error of its body, whose parts raise these codes alone. -/
theorem commandsRaiseOnlyTheirCodes : Obligations.CommandsRaiseOnlyTheirCodes := by
  intro i s t herr h hfail
  cases i with
  | setl r imm16 => exact runCommand_codes (setLow_codes s r imm16) (setLow_ends r imm16 s) herr h hfail
  | seth r imm16 => exact runCommand_codes (setHigh_codes s r imm16) (setHigh_ends r imm16 s) herr h hfail
  | cscf a b c => exact runCommand_codes (cscf_codes s a b c) (cscf_ends a b c s) herr h hfail
  | csci a b c => exact runCommand_codes (csci_codes s a b c) (csci_ends a b c s) herr h hfail
  | csub a b => exact runCommand_codes (csub_codes s a b) (csub_ends a b s) herr h hfail
  | cups a b => exact runCommand_codes (cups_codes s a b) (cups_ends a b s) herr h hfail
  | pad a md => exact runCommand_codes (pad_codes s a md) (pad_ends a md s) herr h hfail
  | ldb a => exact runCommand_codes (ldb_codes s a) (ldb_ends a s) herr h hfail
  | stb a => exact runCommand_codes (stb_codes s a) (stb_ends a s) herr h hfail
  | bnxt a => exact runCommand_codes (bnxt_codes s a) (bnxt_ends a s) herr h hfail
  | qnt t md => exact runCommand_codes (qnt_codes s t md) (qnt_ends t md s) herr h hfail
  | dqnt t md => exact runCommand_codes (dqnt_codes s t md) (dqnt_ends t md s) herr h hfail
  | serd => exact runCommand_codes (serd_codes s) (serd_ends s) herr h hfail
  | sers => exact runCommand_codes (sers_codes s) (sers_ends s) herr h hfail
  | dserd => exact runCommand_codes (dserd_codes s) (dserd_ends s) herr h hfail
  | dsers => exact runCommand_codes (dsers_codes s) (dsers_ends s) herr h hfail
  | putq => exact runCommand_codes (putq_codes s) (putq_ends s) herr h hfail
  | getq => exact runCommand_codes (getq_codes s) (getq_ends s) herr h hfail
  | putidx => exact runCommand_codes (putidx_codes s) (putidx_ends s) herr h hfail
  | getidx => exact runCommand_codes (getidx_codes s) (getidx_ends s) herr h hfail
  | hfreq => exact runCommand_codes (hfreqCmd_codes s) (hfreqCmd_ends s) herr h hfail
  | hbuild => exact runCommand_codes (hbuild_codes s) (hbuild_ends s) herr h hfail
  | henc => exact runCommand_codes (henc_codes s) (henc_ends s) herr h hfail
  | hdec => exact runCommand_codes (hdec_codes s) (hdec_ends s) herr h hfail
  | djnz t => exact absurd hfail (not_failed ((exec_djnz t s).symm.trans h) herr)
  | bnend t => exact absurd hfail (not_failed ((exec_bnend t s).symm.trans h) herr)
  | nop | halt | irq | jmp | brst | fdct | idct | var | ialn | waln | raln | hclr => exact absurd hfail (not_failed h herr)

end Sys2Proof.Machine
end

