-- ==== Sys2Proof/Proofs/ErrorHalts.lean ====
section
/-!
PROOF. What a step that fails leaves (60_exceptions.md R510, R511): everything but LMEM and the record of the error. Settles O8.
-/

namespace Sys2Proof.Machine

open Sys2Proof.Claims

/-- R501: the codes of the list, as the statement writes them. -/
theorem ErrCode.code_mem_listed (c : ErrCode) :
    c.code ∈ ([0x01, 0x02, 0x03, 0x10, 0x11, 0x12, 0x13, 0x20, 0x21, 0x22, 0x23, 0x30, 0x40, 0x41, 0x42, 0x43, 0x44, 0x50,
      0x51, 0x52, 0x60, 0x61, 0x62] : List Byte) := by
  cases c <;> decide

/-- R501: E_FETCH is the engine's, never a command's. -/
theorem fetch_not_raisedBy (i : Instr) : (0x02 : Byte) ∉ raisedBy i := by
  unfold raisedBy
  split <;> decide

/-- R459: what the engine step is, where `w` is the word at CPC: the engine is idle, it cannot fetch, it cannot decode `w`, or it
runs the command that `w` encodes. -/
theorem step_cases {s : State} {w : Word} (hq : s.hostQueue = []) (hw : WordAt s.mem s.cpc.toNat w) :
    step s = .next s ∨ step s = .next (halted s 0x02 0 s.mem) ∨ step s = .next (halted s 0x01 w s.mem) ∨
      ∃ i, encode i = w ∧ step s = exec i s := by
  obtain ⟨hidle, hfetch⟩ := idleStepAndIllegalFetch s hq
  cases hbusy : s.busy with
  | false => exact .inl (hidle hbusy)
  | true =>
    by_cases hcpc : s.cpc.toNat % 4 ≠ 0 ∨ s.cpc.toNat + 4 > s.lmemSize
    · exact .inr (.inl (hfetch hbusy hcpc))
    · have hfetches : Fetches s := ⟨hbusy, hq, by omega, by omega⟩
      cases hill : illegalWord w with
      | true => exact .inr (.inr (.inl ((illegalEncodingsHalt s w hfetches hw).1 hill)))
      | false =>
        obtain ⟨i, hi⟩ := (exists_decode_ok_iff w).mpr hill
        exact .inr (.inr (.inr ⟨i, encodeOfDecode w i hi, (stepExecutesTheDecodedCommand s w i hw hi).1 hfetches⟩))

/-- Settles O8: an engine step fails in its fetch, in decode or in its command, and the halt of each is `halted`. -/
theorem errorHaltRestoresAllButLmem : Obligations.ErrorHaltRestoresAllButLmem := by
  intro s t w hq herr hw h hfail
  obtain hstep | hstep | hstep | ⟨i, rfl, hstep⟩ := step_cases hq hw <;> rw [hstep] at h
  · cases h
    exact nomatch herr.symm.trans hfail
  · cases h
    exact ⟨ErrCode.code_mem_listed .fetch, rfl⟩
  · cases h
    exact ⟨ErrCode.code_mem_listed .illegal, rfl⟩
  · have hcode := commandsRaiseOnlyTheirCodes i s t herr h hfail
    obtain ⟨c, m, -, rfl⟩ := haltsIn_of_failed herr h hfail
    have hnotFetch : c.code ≠ 0x02 := fun he => fetch_not_raisedBy i (he ▸ hcode)
    refine ⟨c.code_mem_listed, ?_⟩
    rw [State.errorHalt_errCode, if_neg hnotFetch]
    rfl

end Sys2Proof.Machine
end

