-- ==== Sys2Proof/Proofs/FailingWrites.lean ====
section
/-!
PROOF. Where a command that fails has written LMEM (60_exceptions.md R512): nowhere, or from the position of the write stream on
and below its limit. Settles O10.
-/

namespace Sys2Proof.Machine

open Sys2Proof.Claims

/-! ## LMEM outside the write stream -/

/-- `m'` is `m` but for bits from the position of the stream on and below its limit. -/
def KeptOutside (st : Stream) (m m' : Memory) : Prop := ∀ j, (j < bitPos st ∨ 8 * st.lim.toNat ≤ j) → m'.bit j = m.bit j

section
variable {st : Stream} {m m' : Memory}

theorem KeptOutside.of_eq (h : m' = m) : KeptOutside st m m' := fun _ _ => h ▸ rfl

theorem KeptOutside.byteAt_eq (h : KeptOutside st m m') {k : Nat} (hk : k < st.ptr.toNat ∨ st.lim.toNat ≤ k) :
    m'.byteAt k = m.byteAt k := by
  refine byteAt_eq_of_bits fun j hj => h _ ?_
  unfold bitPos
  omega

theorem KeptOutside.bitAt_eq (h : KeptOutside st m m') {j : Nat} (hj : j < st.bit.toNat) :
    bitAt m' st.ptr.toNat j = bitAt m st.ptr.toNat j := by
  rw [Machine.bitAt_eq, Machine.bitAt_eq]
  exact h _ (.inl (Nat.add_lt_add_left hj _))

end

/-- Bits put below the byte `stop` leave those before them and those from `stop` on. -/
theorem BitsPut.bit_eq_of_outside {m m' : Memory} {p j stop : Nat} {bs : List Bool} (h : BitsPut p m m' bs)
    (hend : p + bs.length ≤ 8 * stop) (hj : j < p ∨ 8 * stop ≤ j) : m'.bit j = m.bit j := by
  have hceil : ceil8 (p + bs.length) ≤ 8 * stop := by
    unfold ceil8
    omega
  rw [h]
  split
  · rfl
  · rw [List.getElem?_eq_none (by omega), Option.getD_none, if_neg (by omega)]

/-- `t` follows `s` by writes from the position of the write stream on and below its limit, and that position moves on. -/
structure WritesAhead (s t : State) : Prop where
  wf : t.mem.wf
  lim_eq : t.wr.lim = s.wr.lim
  pos_le : bitPos s.wr ≤ bitPos t.wr
  kept : KeptOutside s.wr s.mem t.mem

section
variable {s t : State}

theorem WritesAhead.refl (hwf : s.mem.wf) : WritesAhead s s := ⟨hwf, rfl, le_rfl, .of_eq rfl⟩

theorem WritesAhead.readsOn {u : State} (h : WritesAhead s t) (hread : ReadsOn t u) : WritesAhead s u := by
  obtain ⟨r, -, rfl⟩ := hread
  exact ⟨h.wf, h.lim_eq, h.pos_le, h.kept⟩

/-- A part that has written nothing more before its error. -/
theorem WritesAhead.ends {α : Type} {x : Run α} {P : α → Prop} (h : WritesAhead s t) (hx : Ends x P (· = t.mem)) :
    Ends x P (KeptOutside s.wr s.mem) :=
  hx.mono (fun _ => id) fun _ hm => hm ▸ h.kept

/-- R111: a byte written, where the write stream began at a byte boundary. -/
theorem WritesAhead.wrByte (h : WritesAhead s t) (hbit : s.wr.bit = 0) (v : Byte) :
    Ends (wrByte v t) (WritesAhead s) (KeptOutside s.wr s.mem) := by
  obtain ⟨hwf, hlim, hpos, hkept⟩ := h
  refine ⟨fun u hu => ?_, fun e he => ?_⟩
  · obtain ⟨hltLim, hltSize, rfl⟩ := wrByte_ok.mp hu
    have hnext : bitPos t.wr.nextByte = bitPos t.wr + 8 := by
      have hptr : t.wr.nextByte.ptr.toNat = t.wr.ptr.toNat + 1 :=
        toNat_bytesOn_ptr (size := t.lmemSize) (n := 1) (by unfold room; omega)
      rw [bitPos, bitPos, hptr, Nat.mul_succ, Nat.add_right_comm]
      rfl
    refine ⟨Memory.wf_write hwf _ _, hlim, (hpos.trans (Nat.le_add_right _ 8)).trans_eq hnext.symm, fun j hj => ?_⟩
    have hother : j / 8 ≠ t.wr.ptr.toNat := by
      have hlt := t.wr.bit.isLt
      rw [bit_eq_zero_iff] at hbit
      rw [hlim] at hltLim
      unfold bitPos at hpos hj
      omega
    rw [← hkept j hj, Memory.bit, Memory.byteAt_write hwf, if_neg hother, Memory.bit]
  · obtain rfl | rfl := wrByte_error he <;> exact hkept

/-- R112: a bit written at any position. -/
theorem WritesAhead.wrBit (h : WritesAhead s t) (b : Bool) : Ends (wrBit b t) (WritesAhead s) (KeptOutside s.wr s.mem) := by
  obtain ⟨hwf, hlim, hpos, hkept⟩ := h
  refine ⟨fun u hu => ?_, fun e he => ?_⟩
  · obtain ⟨hltLim, hltSize, rfl⟩ := wrBit_ok.mp hu
    have hbit := t.wr.bit.isLt
    have hnext : bitPos t.wr.nextBit = bitPos t.wr + 1 := by
      rw [nextBit_eq_bitsOn]
      exact bitPos_bitsOn (size := t.lmemSize) (n := 1) (by unfold bitRoom room; omega)
    refine ⟨Memory.wf_write hwf _ _, (Stream.nextBit_lim _).trans hlim, (hpos.trans (Nat.le_succ _)).trans_eq hnext.symm,
      fun j hj => ?_⟩
    have hend : bitPos t.wr + [b].length ≤ 8 * s.wr.lim.toNat := by
      rw [hlim] at hltLim
      rw [List.length_singleton]
      unfold bitPos
      omega
    rw [← hkept j hj]
    exact (bitsPut_bitByte hwf b).bit_eq_of_outside hend (hj.imp_left hpos.trans_lt')
  · obtain rfl | rfl := wrBit_error he <;> exact hkept

theorem WritesAhead.wrBytes (h : WritesAhead s t) (hbit : s.wr.bit = 0) (vs : List Byte) :
    Ends (wrBytes vs t) (WritesAhead s) (KeptOutside s.wr s.mem) :=
  Ends.foldlM (fun _ v hx => hx.wrByte hbit v) vs h

theorem WritesAhead.wrBits (h : WritesAhead s t) (bs : List Bool) :
    Ends (wrBits bs t) (WritesAhead s) (KeptOutside s.wr s.mem) :=
  Ends.foldlM (fun _ b hx => hx.wrBit b) bs h

/-! ## The commands that write before they fail -/

theorem WritesAhead.hencRound (x : State × Nat) (h : WritesAhead s x.1) :
    Ends (hencRound x) (fun y => WritesAhead s y.1) (KeptOutside s.wr s.mem) := by
  refine (h.ends (rdByte_ends _ x.1)).bind ?_
  rintro ⟨b, u⟩ hread
  have hu := h.readsOn hread
  dsimp only
  split
  · exact .raise hu.kept
  · exact (hu.wrBits _).bind fun _ hv => .pure hv

theorem WritesAhead.hdecRound (hbit : s.wr.bit = 0) (x : State) (h : WritesAhead s x) :
    Ends (hdecRound x) (WritesAhead s) (KeptOutside s.wr s.mem) :=
  (h.ends (descend_ends _ _ (.refl x))).bind fun _ hread => (h.readsOn hread).wrByte hbit _

/-! ## A command that fails -/

theorem needAligned_ends_zero (bit : BitVec 3) (s : State) : Ends (needAligned bit s) (fun _ => bit = 0) (· = s.mem) :=
  ⟨fun _ h => needAligned_ok.mp h, fun _ h => by rw [(needAligned_error.mp h).2]⟩

theorem serd_keptOutside (hwf : s.mem.wf) : Ends (serd s) (fun _ => True) (KeptOutside s.wr s.mem) :=
  have hstart := WritesAhead.refl hwf
  (hstart.ends (needAligned_ends_zero _ s)).bind fun _ hbit => (hstart.wrBytes hbit _).mono (fun _ _ => trivial) fun _ => id

theorem sers_keptOutside (hwf : s.mem.wf) : Ends (sers s) (fun _ => True) (KeptOutside s.wr s.mem) :=
  have hstart := WritesAhead.refl hwf
  (hstart.ends (needAligned_ends_zero _ s)).bind fun _ hbit => (hstart.wrBytes hbit _).bind fun _ _ => .pure trivial

theorem henc_keptOutside (hwf : s.mem.wf) : Ends (henc s) (fun _ => True) (KeptOutside s.wr s.mem) :=
  have hstart := WritesAhead.refl hwf
  (hstart.ends (needTree_ends s)).bind fun _ _ => (hstart.ends (needAligned_ends _ s)).bind fun _ _ =>
    (Ends.repeatRun WritesAhead.hencRound _ hstart).bind fun _ _ => .pure trivial

theorem hdec_keptOutside (hwf : s.mem.wf) : Ends (hdec s) (fun _ => True) (KeptOutside s.wr s.mem) :=
  have hstart := WritesAhead.refl hwf
  (hstart.ends (needTree_ends s)).bind fun _ _ => (hstart.ends (needAligned_ends_zero _ s)).bind fun _ hbit =>
    (Ends.repeatRun (WritesAhead.hdecRound hbit) _ hstart).mono (fun _ _ => trivial) fun _ => id

/-- R512: of the commands that may have written when they fail, each has written its stream alone. -/
theorem keptOutside_of_failed {i : Instr} (hi : i ∈ writesBeforeError) (hwf : s.mem.wf) (herr : s.err = false)
    (h : exec i s = .next t) (hfail : t.err = true) : KeptOutside s.wr s.mem t.mem := by
  simp only [writesBeforeError, List.mem_cons, List.not_mem_nil, or_false] at hi
  obtain rfl | rfl | rfl | rfl := hi
  · obtain ⟨e, he, rfl⟩ := runCommand_failed (serd_ends s) herr h hfail
    exact (serd_keptOutside hwf).2 e he
  · obtain ⟨e, he, rfl⟩ := runCommand_failed (sers_ends s) herr h hfail
    exact (sers_keptOutside hwf).2 e he
  · obtain ⟨e, he, rfl⟩ := runCommand_failed (henc_ends s) herr h hfail
    exact (henc_keptOutside hwf).2 e he
  · obtain ⟨e, he, rfl⟩ := runCommand_failed (hdec_ends s) herr h hfail
    exact (hdec_keptOutside hwf).2 e he

end

/-- Settles O10: a failing command has written nothing, or is one of four that write from the position of the write stream on and
below its limit. -/
theorem failingCommandsWriteOnlyTheirStream : Obligations.FailingCommandsWriteOnlyTheirStream := by
  intro i s t hwf herr h hfail
  have hwrites : t.mem = s.mem ∨ i ∈ writesBeforeError := by
    obtain ⟨c, m, hm, rfl⟩ := haltsIn_of_failed herr h hfail
    exact hm.imp_right And.left
  have hkept : KeptOutside s.wr s.mem t.mem :=
    hwrites.elim .of_eq fun hi => keptOutside_of_failed hi hwf herr h hfail
  exact ⟨fun hi => hwrites.resolve_right hi, fun k hk => hkept.byteAt_eq hk, fun j hj => hkept.bitAt_eq hj⟩

end Sys2Proof.Machine
end

