-- ==== Sys2Proof/Proofs/ControlRegister.lean ====
section
/-!
PROOF. The control register (60_exceptions.md R530, R531, R513, 70_reset_and_hazards.md R551). Settles O59.
-/

namespace Sys2Proof.Machine

/-- R530: START, where it is asked for, is ignored while BUSY or ERR. -/
theorem start_if_asked (asked : Bool) (s : State) :
    (if asked then s.start else s) = if asked && ! s.busy && ! s.err then { s with busy := true } else s := by
  unfold State.start
  cases asked with
  | false => rfl
  | true => cases s.busy <;> cases s.err <;> rfl

/-- R530: the actions of the strobed 1 bits of CTRL, in their order. -/
theorem hostWriteReg_ctrl (s : State) (data : Word) (strobe : BitVec 4) :
    s.hostWriteReg .ctrl data strobe =
      let acts (b : Nat) : Bool := strobe.getLsbD 0 && data.getLsbD b
      let s1 : State := if acts 2 then s.softReset else s
      let s2 : State := if acts 1 then s1.errClr else s1
      if acts 0 && ! s2.busy && ! s2.err then { s2 with busy := true } else s2 := by
  simp only [State.hostWriteReg, State.ctrlWrite, getLsbD_strobedOnes data strobe (b := 0) (by decide),
    getLsbD_strobedOnes data strobe (b := 1) (by decide), getLsbD_strobedOnes data strobe (b := 2) (by decide), start_if_asked]

/-- Settles O59: CTRL stands below 0x20, so a write of it is open at any time. -/
theorem controlActions : Obligations.ControlActions := by
  intro s off data strobe rest hq hoff
  rw [step_write_reg (r := .ctrl) hq (.inr (by omega)) (by rw [hoff]; decide), hostWriteReg_ctrl]
  rfl

end Sys2Proof.Machine
end

