-- ==== Sys2Proof/Proofs/Reset.lean ====
section
/-!
PROOF. The hard reset (70_reset_and_hazards.md R550, R552): the invariants it meets, the values it gives and the LMEM it is given.
Settles O13 and O16.
-/

namespace Sys2Proof.Machine

/-- Settles O13: what the step invariants know of a hard reset, for any LMEM; `State.reset` is the case with no cell listed. -/
theorem resetMeetsInvariants : Obligations.ResetMeetsInvariants := by
  have hreset : ∀ (p : Config.Params) (m : Memory), m.wf → m.below p.lmemSize →
      (State.hardResetState p m).Inv ∧ (State.hardResetState p m).TreeOk :=
    fun p m hwf hbelow => ⟨State.Inv.hardResetState p hwf hbelow, State.TreeOk.hardResetState p m⟩
  obtain ⟨hwf, hbelow⟩ := Memory.ofCells_ok Config.Params.reference.lmemSize []
  exact ⟨hreset, hreset Config.Params.reference [] hwf hbelow⟩

/-! ## LMEM after a hard reset (R552) -/

theorem Memory.ofCells_append_singleton (size : Nat) (cells : List Host.Cell) (c : Host.Cell) :
    Memory.ofCells size (cells ++ [c]) =
      if c.1 < size then Memory.write (Memory.ofCells size cells) c.1 c.2 else Memory.ofCells size cells :=
  List.foldl_append

/-- A later cell hides an earlier one of its address. -/
theorem Memory.byteAt_ofCells_append_singleton {size k : Nat} (hk : k < size) (cells : List Host.Cell) (c : Host.Cell) :
    Memory.byteAt (Memory.ofCells size (cells ++ [c])) k =
      if k = c.1 then c.2 else Memory.byteAt (Memory.ofCells size cells) k := by
  rw [Memory.ofCells_append_singleton]
  split
  · exact Memory.byteAt_write (Memory.ofCells_ok size cells).1 c.1 c.2 k
  · next hout => rw [if_neg (by rintro rfl; exact hout hk)]

/-- LMEM holds the byte given for an address, where the cells give one byte for it. -/
theorem Memory.byteAt_ofCells {size a : Nat} (ha : a < size) {v : Byte} (cells : List Host.Cell) (hmem : (a, v) ∈ cells)
    (honce : ∀ v', (a, v') ∈ cells → v' = v) : Memory.byteAt (Memory.ofCells size cells) a = v := by
  induction cells using List.reverseRecOn with
  | nil => cases hmem
  | append_singleton cells c ih =>
    rw [Memory.byteAt_ofCells_append_singleton ha]
    split
    · next hc =>
      subst hc
      exact honce c.2 (List.mem_append_right cells List.mem_cons_self)
    · next hc =>
      have hearlier : (a, v) ∈ cells := by
        refine (List.mem_append.mp hmem).resolve_right fun hlast => hc ?_
        rw [← List.mem_singleton.mp hlast]
      exact ih hearlier fun v' hv' => honce v' (List.mem_append_left [c] hv')

theorem step_hardReset {s : State} {cells : List Host.Cell} {rest : List HostEvent}
    (hq : s.hostQueue = .hardReset cells :: rest) :
    step s = .next { State.hardResetState s.params (Memory.ofCells s.lmemSize cells) with
      hostQueue := rest, readData := s.readData } := by
  unfold step
  rw [hq]
  rfl

/-! ## The values after a hard reset (R550) -/

section
variable (p : Config.Params) (m : Memory)

/-- R39: BUSY, ERR and BUSYACC are 0. -/
theorem readReg_hardResetState_status : (State.hardResetState p m).readReg .status = 0 := by
  simp [State.readReg, State.statusWord, State.hardResetState]

theorem readReg_hardResetState_plane (n : Slot) :
    (State.hardResetState p m).readReg (.pdBase n) = 0 ∧ (State.hardResetState p m).readReg (.pdDim n) = 0 := by
  simp only [State.readReg, State.hardResetState, Vector.get_replicate, and_self]

theorem hardResetState_blocks (k : Fin 64) :
    (State.hardResetState p m).sBlk.get k = 0 ∧ (State.hardResetState p m).cBlk.get k = 0 ∧
      (State.hardResetState p m).qBlk.get k = 0 :=
  ⟨Vector.get_replicate 64 0 k, Vector.get_replicate 64 0 k, Vector.get_replicate 64 0 k⟩

theorem hardResetState_node_words (i : Fin 511) :
    ((State.hardResetState p m).hnode.get i).freq = 0 ∧
      Claims.linkValue ((State.hardResetState p m).hnode.get i) = 0 := by
  have hzero : (State.hardResetState p m).hnode.get i = HNode.zero := Vector.get_replicate 511 HNode.zero i
  rw [hzero]
  exact ⟨rfl, rfl⟩

/-- R520: no status bit is set. -/
theorem irqLine_hardResetState : (State.hardResetState p m).irqLine = false := by
  simp [State.irqLine, State.hardResetState]

/-- After a hard reset BUSY is 0 and no host event is next, so the engine stands still. -/
theorem step_hardResetState : step (State.hardResetState p m) = .next (State.hardResetState p m) :=
  (idleStepAndIllegalFetch (State.hardResetState p m) rfl).1 rfl

end

/-- Settles O16: the event's LMEM is `Memory.ofCells` of its cells; the rows of R550 that are one register or one table are read
off `State.hardResetState`, the arrays by the lemmas above. -/
theorem hardResetValues : Obligations.HardResetValues := by
  refine ⟨fun s cells rest hq => ?_, fun p m => ?_⟩
  · exact ⟨Memory.ofCells s.lmemSize cells, step_hardReset hq, fun a v ha => Memory.byteAt_ofCells ha cells⟩
  · exact ⟨rfl, rfl, readReg_hardResetState_status p m, rfl, rfl, rfl, rfl, rfl, rfl, rfl, rfl, rfl, rfl, rfl,
      readReg_hardResetState_plane p m,
      rfl, rfl, rfl, rfl, rfl, rfl, rfl, rfl, rfl, rfl, rfl, rfl, rfl, rfl, rfl, rfl, rfl, rfl, rfl, rfl, rfl, rfl, rfl, rfl,
      hardResetState_blocks p m, fun sym => Vector.get_replicate 256 0 sym, hardResetState_node_words p m, rfl, rfl, rfl,
      irqLine_hardResetState p m, step_hardResetState p m⟩

end Sys2Proof.Machine
end
